-- ==== Sys2Proof/Word.lean ====
section
/-! DEFINITION. The word types of the KI416's links and store: bytes, 16-bit numbers and the wider
fields that the layouts of 11.5, 11.6 and R66 name. -/

namespace Sys2Proof

/-- One byte of a frame or of a store cell. -/
abbrev Byte := BitVec 8

/-- A two-byte number of a frame or of a store cell. -/
abbrev Half := BitVec 16

/-- A serial's ten digits as packed decimal in five bytes (R44). -/
abbrev PackedSerial := BitVec 40

/-- A sixteen-byte key value or readback image, byte 0 in the most significant place (R21, R109). -/
abbrev Key := BitVec 128

end Sys2Proof
end

