-- ==== Sys2Proof/Config.lean ====
section
/-! DEFINITION. The fixed sizes of the part. The manual leaves no value of any command open, so this
file holds no free value. -/

namespace Sys2Proof.Config

/-- Cells of the Record Store (R5, R156). -/
def storeCells : Nat := 8192

/-- Buckets of the Issue Table (R63, R64). -/
def buckets : Nat := 2048

/-- Wafers of a lot (R11). -/
def wafers : Nat := 25

/-- Places of the Journal's queue (R147). -/
def journalPlaces : Nat := 256

/-- Depth of the return stack (R25). -/
def returnDepth : Nat := 64

/-- Numbers the batch list can hold (R26). -/
def batchLimit : Nat := 512

/-- Ranges the blocked-range list can hold (R8). -/
def blockedLimit : Nat := 8

/-- Die rules the Die Rule Table can hold (R54). -/
def ruleLimit : Nat := 16

/-- Items a list request can carry (R82, R164). -/
def itemLimit : Nat := 16

/-- Key records a KEY LOAD can carry (R28, R164). -/
def recordLimit : Nat := 64

/-- The greatest body length of a frame (R163). -/
def bodyLimit : Nat := 1219

/-- Link-level replies that can wait in a reply queue (R165). -/
def linkReplyLimit : Nat := 3

/-- Steps of the close scrub (R144). -/
def scrubSteps : Nat := 256

/-- The greatest value of a 32-bit saturating count (R43, R128). -/
def countMax : Nat := 4294967295

/-- The greatest serial value (R44). -/
def serialMax : Nat := 9999999999

end Sys2Proof.Config
end

