-- ==== Sys2Proof/Syntax.lean ====
section
/-! DEFINITION. The commands of the part: one constructor of `Instr` for each row of
spec/opcode_table.json, and the requests that the links carry (11.5), field by field as their frames
carry them. -/

namespace Sys2Proof

/-- A station, 0..3. -/
abbrev Station := Fin 4

/-- A site of a station, 0..15. -/
abbrev Site := Fin 16

/-- The five links (R163): the station links S0..S3 and the lot link. -/
inductive Link where
  | station (st : Station)
  | lot
  deriving DecidableEq, Repr

/-- One item of a CLAIM: a site and the die's coordinates, signed bytes (R82). -/
structure ClaimItem where
  site : Byte
  x : Byte
  y : Byte
  deriving DecidableEq, Repr

/-- One item of a BURN RESULT: a site and the readback image (R110). -/
structure ResultItem where
  site : Byte
  image : Key
  deriving DecidableEq, Repr

/-- One record of a KEY LOAD (11.6). -/
structure KeyRecord where
  index : Byte
  key : Key
  check : Half
  deriving DecidableEq, Repr

/-- A die rule as a frame carries it, twelve bytes (11.5). -/
structure RawRule where
  enabled : Byte
  waferAny : Byte
  waferLo : Byte
  waferHi : Byte
  xAny : Byte
  xLo : Byte
  xHi : Byte
  yAny : Byte
  yLo : Byte
  yHi : Byte
  priority : Byte
  action : Byte
  deriving DecidableEq, Repr

/-- A serial window as a frame carries it: two packed decimal values (11.6). -/
structure RawWindow where
  first : PackedSerial
  last : PackedSerial
  deriving DecidableEq, Repr

/-- The body of a LOT AMEND: lot parameters 3 to 12 (R6, 11.5). -/
structure AmendBody where
  windowP : RawWindow
  presenceE : Byte
  windowE : RawWindow
  claimLease : Half
  burnLease : Half
  attemptLimit : Byte
  poolLow : Half
  tableLow : Half
  journalHigh : Half
  strict : Byte
  rules : List RawRule
  deriving DecidableEq, Repr

/-- The body of a LOT OPEN: lot parameters 1 to 12 (R3, 11.5). -/
structure OpenBody where
  name : BitVec 64
  split : Byte
  rest : AmendBody
  deriving DecidableEq, Repr

/-- A request of 11.5, as the Link Unit hands it to the arbiter. -/
inductive Request where
  | attach (wafer : Byte)
  | detach
  | claim (items : List ClaimItem)
  | burnBegin (sites : List Byte)
  | burnResult (items : List ResultItem)
  | release (sites : List Byte)
  | abandon (sites : List Byte)
  | stationReset
  | stationStatus
  | lotOpen (body : OpenBody)
  | lotAmend (body : AmendBody)
  | lotLock
  | keyLoad (batch : Half) (records : List KeyRecord)
  | quarantine (low high : Half)
  | purgeWafer (wafer : Byte)
  | auditStart
  | auditStop
  | journalRead (n : Byte)
  | journalTake (n : Half)
  | lotStatus
  | resume (clear : Byte)
  | lotClose
  deriving DecidableEq, Repr

/-- The commands, one for each row of spec/opcode_table.json. A request command names its link and
the fields of the request's body; it is the arbiter's grant of that request (R167). -/
inductive Instr where
  /-- DEVICE_RESET (R162) -/
  | deviceReset
  /-- STORE_CLEAR_COMPLETE (R162) -/
  | storeClearComplete
  /-- FRAME_ARRIVAL (R164): the bytes that arrive on a link up to the frame's last byte -/
  | frameArrival (link : Link) (bytes : List Byte)
  /-- IDLE_GAP (R163) -/
  | idleGap (link : Link)
  /-- LENGTH_TOO_GREAT (R163): the two length bytes -/
  | lengthTooGreat (link : Link) (high low : Byte)
  /-- ATTACH (R12) -/
  | attach (st : Station) (wafer : Byte)
  /-- DETACH (R13) -/
  | detach (st : Station)
  /-- CLAIM (R83) -/
  | claim (st : Station) (items : List ClaimItem)
  /-- BURN_BEGIN (R106) -/
  | burnBegin (st : Station) (sites : List Byte)
  /-- BURN_RESULT (R111) -/
  | burnResult (st : Station) (items : List ResultItem)
  /-- RELEASE (R100) -/
  | release (st : Station) (sites : List Byte)
  /-- ABANDON (R102) -/
  | abandon (st : Station) (sites : List Byte)
  /-- STATION_RESET (R123) -/
  | stationReset (st : Station)
  /-- STATION_STATUS (R17) -/
  | stationStatus (st : Station)
  /-- LOT_OPEN (R4) -/
  | lotOpen (body : OpenBody)
  /-- LOT_AMEND (R6) -/
  | lotAmend (body : AmendBody)
  /-- LOT_LOCK (R7) -/
  | lotLock
  /-- KEY_LOAD (R28) -/
  | keyLoad (batch : Half) (records : List KeyRecord)
  /-- QUARANTINE (R135) -/
  | quarantine (low high : Half)
  /-- PURGE_WAFER (R132) -/
  | purgeWafer (wafer : Byte)
  /-- AUDIT_START (R139) -/
  | auditStart
  /-- AUDIT_STOP (R139) -/
  | auditStop
  /-- JOURNAL_READ (R151) -/
  | journalRead (n : Byte)
  /-- JOURNAL_TAKE (R152) -/
  | journalTake (n : Half)
  /-- LOT_STATUS (R10) -/
  | lotStatus
  /-- RESUME (R161) -/
  | resume (clear : Byte)
  /-- LOT_CLOSE (R9) -/
  | lotClose
  /-- PURGE_STEP (R133) -/
  | purgeStep
  /-- QUARANTINE_STEP (R136) -/
  | quarantineStep
  /-- AUDIT_TABLE_STEP (R140) -/
  | auditTableStep
  /-- AUDIT_POOL_STEP (R141) -/
  | auditPoolStep
  /-- CLOSE_SCRUB_STEP (R144) -/
  | closeScrubStep
  /-- LEASE_TIMER_TICK (R15): a 10 ms boundary; `none` falls while the engine is free, `some k`
  while the next grant takes its item k (counted from 0) -/
  | leaseTimerTick (during : Option Nat)
  /-- LEASE_EXPIRY (R117) -/
  | leaseExpiry (st : Station) (site : Site)
  /-- REPLY_FRAME_SENT (R165) -/
  | replyFrameSent (link : Link)
  /-- FRAME_START (R163): a byte arrives -/
  | frameStart (link : Link) (byte : Byte)
  /-- BYTE_FRAMING_ERROR (R163): a byte arrives with a bad stop bit -/
  | byteFramingError (link : Link) (byte : Byte)
  deriving DecidableEq, Repr

end Sys2Proof
end

