-- ==== Sys2Proof/Machine/Bytes.lean ====
section
/-! DEFINITION. Bytes, numbers and check sums: byte order (R165), packed decimal (R44), the two-sum
(R30), parity (R156), and the weighted sum of a serial (R45). -/

namespace Sys2Proof.Machine

/-! ## Byte order -/

/-- The n bytes of a number, most significant byte first (R165). -/
def bytesOf : Nat → Nat → List Byte
  | 0, _ => []
  | n + 1, v => BitVec.ofNat 8 (v / 256 ^ n) :: bytesOf n v

/-- The number that bytes denote, most significant byte first (R165). -/
def numberOf (bs : List Byte) : Nat := bs.foldl (fun v b => v * 256 + b.toNat) 0

/-- The number in the `len` bytes of a body that begin at `at_`. -/
def fieldOf (bs : List Byte) (at_ len : Nat) : Nat := numberOf ((bs.drop at_).take len)

/-- The byte at a place of a body, zero past its end. -/
def byteAt (bs : List Byte) (at_ : Nat) : Byte := bs.getD at_ 0

/-- The two-byte number at a place of a body. -/
def halfAt (bs : List Byte) (at_ : Nat) : Half := BitVec.ofNat 16 (fieldOf bs at_ 2)

/-- A 16-bit number as its two bytes, high byte first. -/
def halfBytes (h : Half) : List Byte := bytesOf 2 h.toNat

/-- A flag as its byte: 0 for clear, 1 for set (11.6). -/
def flagByte (b : Bool) : Byte := if b then 1 else 0

/-! ## Check sums -/

/-- One byte of the two-sum (R30). -/
def twoSumStep (sums : Nat × Nat) (b : Byte) : Nat × Nat :=
  let a := (sums.1 + b.toNat) % 255
  (a, (sums.2 + a) % 255)

/-- The two-sum check word B × 256 + A (R30). -/
def twoSum (bs : List Byte) : Half :=
  let sums := bs.foldl twoSumStep (0, 0)
  BitVec.ofNat 16 (sums.2 * 256 + sums.1)

/-- Whether a byte holds an odd number of ones. -/
def oddByte (b : Byte) : Bool := (List.range 8).foldl (fun p i => xor p (b.getLsbD i)) false

/-- The even-parity bit of a group of bytes (R156). -/
def parityOf (bs : List Byte) : Bool := bs.foldl (fun p b => xor p (oddByte b)) false

/-! ## Decimal serials -/

/-- The low `n` decimal digits of a value as packed decimal, the last digit lowest (R44). -/
def packDigits : Nat → Nat → Nat
  | 0, _ => 0
  | n + 1, v => v % 10 + 16 * packDigits n (v / 10)

/-- The value that `n` packed decimal digits denote. -/
def unpackDigits : Nat → Nat → Nat
  | 0, _ => 0
  | n + 1, v => v % 16 + 10 * unpackDigits n (v / 16)

/-- Whether none of the `n` packed digits has an encoded value above 9 (R3, R44). -/
def digitsOk : Nat → Nat → Bool
  | 0, _ => true
  | n + 1, v => v % 16 ≤ 9 && digitsOk n (v / 16)

/-- A serial value as ten packed digits (R44). -/
def packSerial (v : Nat) : PackedSerial := BitVec.ofNat 40 (packDigits 10 v)

/-- The serial value that ten packed digits denote (R44). -/
def serialOf (p : PackedSerial) : Nat := unpackDigits 10 p.toNat

/-- Whether ten packed digits are a serial (R44). -/
def serialOk (p : PackedSerial) : Bool := digitsOk 10 p.toNat

/-- The sum of the low `n` digits, each by its weight, the last digit's weight first (R45). -/
def weightedDigits : Nat → Nat → Nat → Nat
  | 0, _, _ => 0
  | n + 1, weight, v => v % 10 * weight + weightedDigits n (weight + 1) (v / 10)

/-- The weighted sum W of a serial value: weights 11 for d1 down to 2 for d10 (R45). -/
def weightedSum (v : Nat) : Nat := weightedDigits 10 2 v

/-- The check value of a serial value, 0..10 (R45). -/
def checkValue (v : Nat) : Nat := weightedSum v % 11

/-! ## The readback comparison -/

/-- The places, of the low `n`, at which the first value holds 1 and the second 0 (R109). -/
def bitsOnlyIn (a b : Key) : Nat → Nat
  | 0 => 0
  | n + 1 => (if a.getLsbD n && !b.getLsbD n then 1 else 0) + bitsOnlyIn a b n

/-- The missing-bit count: the key holds 1 and the image 0 (R109). -/
def missingBits (key image : Key) : Nat := bitsOnlyIn key image 128

/-- The extra-bit count: the image holds 1 and the key 0 (R109). -/
def extraBits (key image : Key) : Nat := bitsOnlyIn image key 128

/-! ## The bucket hash -/

/-- A signed coordinate's offset from −128, 0..255 (R63). -/
def coordOffset (c : Byte) : Nat := (c.toInt + 128).toNat

/-- The bucket number of a die identity (R63). -/
def bucketOf (wafer x y : Byte) : Nat :=
  (37 * coordOffset x + 101 * coordOffset y + 613 * wafer.toNat) % Config.buckets

end Sys2Proof.Machine
end

