-- ==== Sys2Proof/Machine/State.lean ====
section
/-! DEFINITION. The state of the part, block by block, as plain data; its value right after device
reset; and the closed types of the outcomes a step can have. Sparse tables (the store, the heads and
the maps) are lists of (number, value) pairs in the canonical form of Machine/Ops.lean: numbers
strictly rising, and no pair whose value is the one an unlisted number reads as. -/

namespace Sys2Proof.Machine

/-! ## Lot Control (chapter 1) -/

/-- The lot state (R1). -/
inductive LotState where
  | init
  | idle
  | opened
  | locked
  | closing
  deriving DecidableEq, Repr

/-- The state of a wafer record (R11). -/
inductive WaferState where
  | new
  | attached (st : Station)
  | detached
  | purging
  | finished
  deriving DecidableEq, Repr

/-- An inclusive range of batch numbers (R8). -/
structure BatchRange where
  low : Half
  high : Half
  deriving DecidableEq, Repr

/-- Lot parameters 5 to 11 with their effective values (R3). -/
structure Limits where
  claimLease : Nat
  burnLease : Nat
  attemptLimit : Nat
  poolLow : Nat
  tableLow : Nat
  journalHigh : Nat
  strict : Bool
  deriving DecidableEq, Repr

/-- The lot parameters that Lot Control holds; the windows stand in the Serial Units and the rule
list in the Die Rule Table (R4, R6). -/
structure LotParams where
  name : BitVec 64
  split : Nat
  limits : Limits
  deriving DecidableEq, Repr

/-- Lot Control (R1, R8, R11). `wafers` is empty when no lot is open; else entry w-1 is wafer w. -/
structure LotControl where
  state : LotState
  lock : Bool
  params : Option LotParams
  wafers : List WaferState
  blocked : List BatchRange
  deriving DecidableEq, Repr

/-! ## Station Site Tables (chapter 1) -/

/-- A site slot (R14). `entry` is the cell of the issue entry that the claim holds. -/
inductive Slot where
  | free
  | held (x y : Byte) (entry : Nat) (lease : Nat)
  | revoked (x y : Byte)
  | expired (x y : Byte)
  deriving DecidableEq, Repr

/-- One station's attached wafer and sixteen site slots (R11, R14). -/
structure StationTable where
  attached : Option Byte
  slots : Vector Slot 16
  deriving DecidableEq, Repr

/-! ## Key Pool (chapter 2) -/

/-- The state of a key slot (R22). -/
inductive KeyState where
  | empty
  | fresh
  | returned
  | bound
  | faulted
  deriving DecidableEq, Repr

/-- A record of the slot state map (R21, R23). -/
structure KeySlot where
  state : KeyState
  damaged : Bool
  deriving DecidableEq, Repr

/-- The slot state that an unlisted slot number reads as (R21). -/
def emptySlot : KeySlot := ⟨.empty, false⟩

/-- The seven pool counters (R27). -/
structure PoolCounts where
  loaded : Nat
  fresh : Nat
  returned : Nat
  bound : Nat
  faulted : Nat
  spent : Nat
  retired : Nat
  deriving DecidableEq, Repr

/-- The Key Pool (R21 to R27). `stack` has its top first, `fresh` its head first. -/
structure KeyPool where
  slots : List (Nat × KeySlot)
  fresh : List Nat
  stack : List Nat
  batches : List Half
  counts : PoolCounts
  deriving DecidableEq, Repr

/-- The pool while no lot is open (R21, R24 to R27). -/
def KeyPool.absent : KeyPool := ⟨[], [], [], [], ⟨0, 0, 0, 0, 0, 0, 0⟩⟩

/-! ## Serial Units (chapter 3) -/

/-- The serial class of a die (R49). -/
inductive SerialClass where
  | p
  | e
  deriving DecidableEq, Repr

/-- A serial window, inclusive at both ends (R43). -/
structure Window where
  first : Nat
  last : Nat
  deriving DecidableEq, Repr

/-- A Serial Unit (R43). A serial value is the number its ten digits denote (R44). -/
structure SerialUnit where
  window : Option Window
  next : Option Nat
  issued : Nat
  skipped : Nat
  overflow : Bool
  deriving DecidableEq, Repr

/-- A Serial Unit whose window is absent (R43). -/
def SerialUnit.absent : SerialUnit := ⟨none, none, 0, 0, false⟩

/-! ## Die Rule Table (chapter 4) -/

/-- What a die rule decides (R55). -/
inductive RuleAction where
  | exclude
  | cls (c : SerialClass)
  deriving DecidableEq, Repr

/-- A die rule as the table holds it; a range marked ANY is `none` (R55). -/
structure DieRule where
  enabled : Bool
  wafer : Option (Byte × Byte)
  xRange : Option (Byte × Byte)
  yRange : Option (Byte × Byte)
  priority : Nat
  action : RuleAction
  deriving DecidableEq, Repr

/-- Lot parameters 3 to 12 as settled under R3. -/
structure Settled where
  windowP : Window
  windowE : Option Window
  limits : Limits
  rules : List DieRule
  deriving DecidableEq, Repr

/-! ## Record Store and Issue Table (chapters 5 and 10) -/

/-- A cell of the Record Store: its content group (29 bytes: fields 1 to 15 and the filler), its
link group (next pointer and last flag) and a parity bit for each group (R66, R156). -/
structure StoreCell where
  content : List Byte
  next : Half
  last : Byte
  linkParity : Bool
  contentParity : Bool
  deriving DecidableEq, Repr

/-- A cell written zero, both parity bits zero (R156). -/
def zeroCell : StoreCell := ⟨List.replicate 29 0, 0, 0, false, false⟩

/-- A bucket head with its parity bit (R64). -/
structure BucketHead where
  valid : Bool
  first : Half
  damaged : Bool
  parity : Bool
  deriving DecidableEq, Repr

/-- A head written not valid, pointer 0, not damaged (R64). -/
def zeroHead : BucketHead := ⟨false, 0, false, false⟩

/-- The state of an issue entry (R69). -/
inductive EntryState where
  | issued
  | burning
  | uncertain
  | provisioned
  | void
  deriving DecidableEq, Repr

/-- An issue entry's fields as the rules use them; its check word and chain link are kept by the
cell (R65). -/
structure Entry where
  wafer : Byte
  x : Byte
  y : Byte
  state : EntryState
  batch : Half
  index : Byte
  slot : Option (Fin 8192)
  serial : PackedSerial
  digit : Byte
  cls : SerialClass
  owner : Option (Station × Site)
  attempts : Byte
  noted : Byte
  deriving DecidableEq, Repr

/-- A key slot's fields (R21). -/
structure KeyCell where
  batch : Half
  index : Byte
  key : Key
  check : Half
  deriving DecidableEq, Repr

/-- The Issue Table's own structures (R64, R67 to R69, R75). -/
structure IssueTable where
  heads : List (Nat × BucketHead)
  cellMap : List (Nat × Option Nat)
  binding : List (Nat × Option Nat)
  free : List Nat
  inUse : Nat
  freeCount : Nat
  openCount : Nat
  longest : Nat
  damagedBuckets : Nat
  deriving DecidableEq, Repr

/-- The Issue Table while no lot is open (R64, R67, R68, R75). -/
def IssueTable.absent : IssueTable := ⟨[], [], [], [], 0, 0, 0, 0, 0⟩

/-! ## Journal (chapter 9) -/

/-- The kind of a journal entry (R148). -/
inductive JournalKind where
  | provisioned
  | voided
  | keyWithdrawn
  | quarantineHit
  deriving DecidableEq, Repr

/-- The reasons of VOIDED and KEY_WITHDRAWN entries (R148). -/
inductive Reason where
  | spoiled
  | attempts
  | abandoned
  | quarantine
  | unresolved
  | keyDamaged
  | returnFull
  | blocked
  deriving DecidableEq, Repr

/-- A journal entry (R148). -/
structure JournalEntry where
  number : Half
  kind : JournalKind
  wafer : Byte
  x : Byte
  y : Byte
  batch : Half
  index : Byte
  serial : PackedSerial
  digit : Byte
  cls : SerialClass
  attempts : Byte
  origin : Option (Station × Site)
  reason : Option Reason
  counts : Option (Nat × Nat)
  deriving DecidableEq, Repr

/-- The Journal (R147). Entries held is the length of the queue, oldest first. -/
structure Journal where
  queue : List JournalEntry
  reservations : Nat
  nextNumber : Half
  deriving DecidableEq, Repr

/-! ## Sweep Controller (chapter 8) -/

/-- The audit's phase (R128). -/
inductive SweepPhase where
  | table
  | pool
  deriving DecidableEq, Repr

/-- The result counts of a sweep (R128). -/
structure SweepCounts where
  visited : Nat
  changed : Nat
  appended : Nat
  faults : Nat
  deriving DecidableEq, Repr

/-- A sweep context. Only level 2 uses `waiting`, only levels 1 and 2 `param`, only level 0 `phase`
(R128). -/
structure SweepContext where
  active : Bool
  waiting : Bool
  param : Option Nat
  phase : SweepPhase
  cursor : Nat
  counts : SweepCounts
  deriving DecidableEq, Repr

/-- A cleared context (R128). -/
def SweepContext.clear : SweepContext := ⟨false, false, none, .table, 0, ⟨0, 0, 0, 0⟩⟩

/-- The Sweep Controller with the SWEEP_DONE latch (R128, R143). -/
structure SweepController where
  audit : SweepContext
  purge : SweepContext
  quarantine : SweepContext
  scrubActive : Bool
  scrubCursor : Nat
  sweepDone : Bool
  deriving DecidableEq, Repr

/-- Every context and the latch cleared (R128, R143). -/
def SweepController.clear : SweepController := ⟨.clear, .clear, .clear, false, 0, false⟩

/-- The step that the Sweep Controller offers the arbiter (R129). -/
inductive SweepStep where
  | auditTable
  | auditPool
  | purge
  | quarantine
  | scrub
  deriving DecidableEq, Repr

/-! ## Store Check Unit (chapter 10) -/

/-- The record in which a fault was found (R159). -/
inductive FaultPlace where
  | cell (n : Nat)
  | head (h : Nat)
  deriving DecidableEq, Repr

/-- The parity group that a fault is charged to (R157, R159). -/
inductive FaultGroup where
  | link
  | content
  deriving DecidableEq, Repr

/-- Whether an audit read found the fault (R159). -/
inductive FaultOrigin where
  | access
  | audit
  deriving DecidableEq, Repr

/-- The first fault of the fault record (R159). -/
structure FaultNote where
  place : FaultPlace
  group : FaultGroup
  origin : FaultOrigin
  deriving DecidableEq, Repr

/-- The Store Check Unit (R158 to R162). -/
structure StoreCheck where
  halt : Bool
  faults : Nat
  first : Option FaultNote
  storeFault : Bool
  clearing : Bool
  deriving DecidableEq, Repr

/-! ## Replies (chapter 11) -/

/-- The outcome codes of 11.7 (R169). -/
inductive Code where
  | ok | issued | reissued | provisioned | partialBurn | voided | released | releasedUncertain
  | notReady | noLot | lotLocked | lotClosing | lotOpen | badParam | notPermitted | format
  | frameCheck | linkBusy | waferBusy | waferFinished | noWafer | claimsActive | siteBusy
  | siteIdle | duplicateInSet | outOfRange | excluded | alreadyProvisioned | dieVoid
  | heldElsewhere | bucketDamaged | tableFull | poolEmpty | serialExhausted | journalFull
  | issueHalted | wrongState | revoked | expired | poolFull | batchDuplicate | batchBlocked
  | batchListFull | recordCheck | blockListFull | sweepActive | notClosable
  deriving DecidableEq, Repr

/-- The key data of an ISSUED or REISSUED item (R99). -/
structure KeyGrant where
  batch : Half
  index : Byte
  key : Key
  serial : PackedSerial
  digit : Byte
  cls : SerialClass
  attempts : Byte
  deriving DecidableEq, Repr

/-- The data after an item's site and outcome bytes (R99, R105, R110, R101, 11.6). -/
inductive ItemData where
  | none
  | grant (g : KeyGrant)
  | serial (serial : PackedSerial) (digit : Byte) (cls : SerialClass)
  | attempts (n : Byte)
  | missing (bits : Nat) (attempts : Byte)
  | voided (reason : Reason) (missing extra : Nat)
  | disposition (withdrawn : Option Reason)
  deriving DecidableEq, Repr

/-- One outcome item of a list reply (R169). -/
structure ItemOutcome where
  site : Byte
  code : Code
  data : ItemData
  deriving DecidableEq, Repr

/-- What a reply carries, by the rows of 11.6. -/
inductive ReplyBody where
  /-- a single outcome without further data -/
  | code (c : Code)
  | items (outcomes : List ItemOutcome)
  | attached (wafer : Byte) (detached : Option Byte) (freed : Nat)
  | detached (wafer : Byte) (freed : Nat)
  | stationReset (released uncertain freed : Nat)
  | stationStatus (lot : LotState) (halt : Bool) (table : StationTable)
  | lotOpened (name : BitVec 64) (split : Nat) (settled : Settled) (keys capacity : Nat)
  | lotAmended (settled : Settled)
  | keyLoaded (batch : Half) (count fresh depth : Nat)
  | quarantined (range : Nat)
  | purging (wafer : Byte)
  | auditStopped (phase : SweepPhase) (cursor : Nat) (counts : SweepCounts)
  | journalRead (held reservations : Nat) (entries : List JournalEntry)
  | journalTaken (first last : Half) (held reservations : Nat)
  | resumed (halt : Bool) (faults : Nat) (first : Option FaultNote)
  | lotClosed (name : BitVec 64) (lock : Bool) (loaded spent retired : Nat)
  /-- the bytes of the LOT STATUS report after its outcome byte -/
  | lotStatus (report : List Byte)
  | badParameter (number : Nat) (rule : Option Nat)
  | badRecord (number : Nat)
  | badTake (held : Nat)
  | batchBlocked (range : Nat)
  | poolFull (empty : Nat)
  | recordCheck (indices : List Byte)
  | notClosable (conditions : List Nat)
  deriving DecidableEq, Repr

/-- A reply in a reply queue. `kind` is the kind byte of the frame it answers, `linkLevel` tells a
reply of R164 from the engine's, and `clearsDone` marks a LOT STATUS reply whose sending clears the
SWEEP_DONE latch (R10, R143). -/
structure Reply where
  kind : Byte
  body : ReplyBody
  linkLevel : Bool
  clearsDone : Bool
  deriving DecidableEq, Repr

/-! ## Link Units and arbiter (chapter 11) -/

/-- The receive framer (R163): `bytes` are those of the frame so far, `bad` its byte framing mark. -/
inductive RxState where
  | hunting
  | ready
  | inFrame (bytes : List Byte) (bad : Bool)
  deriving DecidableEq, Repr

/-- A Link Unit (R163 to R166), with the request it holds before the arbiter (R167). -/
structure LinkUnit where
  rx : RxState
  replies : List Reply
  outstanding : Bool
  request : Option Request
  deriving DecidableEq, Repr

/-- A Link Unit after device reset (R163). -/
def LinkUnit.initial : LinkUnit := ⟨.hunting, [], false, none⟩

/-- The six requesters of the arbiter (R167). -/
inductive Requester where
  | link (l : Link)
  | sweep
  deriving DecidableEq, Repr

/-! ## The state -/

/-- The whole part. `deferred` and `pending` are the model's own: the timer boundaries that fall
during the next grant (log 6), and the commands that wait (log 1). -/
structure State where
  lot : LotControl
  stations : Vector StationTable 4
  pool : KeyPool
  unitP : SerialUnit
  unitE : SerialUnit
  rules : Option (List DieRule)
  table : IssueTable
  store : List (Nat × StoreCell)
  journal : Journal
  sweeps : SweepController
  check : StoreCheck
  links : Vector LinkUnit 5
  arbiter : Requester
  deferred : List Nat
  pending : List Instr
  deriving DecidableEq, Repr

/-- The Lot Control's values while no lot is open, in the lot state given (R1, R8, R11). -/
def LotControl.noLot (st : LotState) : LotControl := ⟨st, false, none, [], []⟩

/-- A station without wafer and with every slot FREE (R11, R14). -/
def StationTable.clear : StationTable := ⟨none, Vector.replicate 16 .free⟩

/-- The Journal after device reset (R147). -/
def Journal.empty : Journal := ⟨[], 0, 0⟩

/-- The part right after device reset: every block at the reset value of its chapter, the lot in
INIT with the store clear in flight (R1, R162), and no command waiting. The store and the heads are
listed as zero, which nothing can observe before the clear has made them so (DESIGN CHOICE, log 9). -/
def State.reset : State where
  lot := .noLot .init
  stations := Vector.replicate 4 .clear
  pool := .absent
  unitP := .absent
  unitE := .absent
  rules := none
  table := .absent
  store := []
  journal := .empty
  sweeps := .clear
  check := ⟨false, 0, none, false, true⟩
  links := Vector.replicate 5 .initial
  arbiter := .link (.station 0)
  deferred := []
  pending := []

/-- Why the part stops: never. No event of the manual stops it, so no step raises a fault and the
type has no constructor (safe: nothing is cut off). -/
inductive Fault where
  deriving DecidableEq, Repr

/-- Why a command has no meaning. -/
inductive Refusal where
  /-- Raised by a refused arm of `exec` alone, for a row of the table without a meaning yet; no arm
  is refused (safe: the run ends there). -/
  | notModelled (mnemonic : String)
  deriving DecidableEq, Repr

end Sys2Proof.Machine
end

