-- ==== Sys2Proof/WellFormed.lean ====
section
/-! DEFINITION. Which commands can come about: the counts that a frame of 11.5 can carry and that
the Link Unit's check 4 lets pass (R164). -/

namespace Sys2Proof

/-- A list request carries 1..16 items (R82, R100, R102, R105, R110, R164). -/
def itemCountOk (n : Nat) : Bool := 1 ≤ n && n ≤ Config.itemLimit

/-- The rule counts whose LOT OPEN and LOT AMEND bodies both keep within the greatest body length:
43 + 12 r is at most 1219 exactly for r up to 98, and so is 34 + 12 r (R163, 11.5). -/
def ruleCountOk (n : Nat) : Bool := n ≤ 98

/-- The requests that a frame can carry past check 4 of R164. -/
def Request.wf : Request → Bool
  | .claim items => itemCountOk items.length
  | .burnBegin sites => itemCountOk sites.length
  | .burnResult items => itemCountOk items.length
  | .release sites => itemCountOk sites.length
  | .abandon sites => itemCountOk sites.length
  | .keyLoad _ records => records.length ≤ Config.recordLimit
  | .lotOpen body => ruleCountOk body.rest.rules.length
  | .lotAmend body => ruleCountOk body.rules.length
  | .attach _ | .detach | .stationReset | .stationStatus | .lotLock | .quarantine _ _
  | .purgeWafer _ | .auditStart | .auditStop | .journalRead _ | .journalTake _ | .lotStatus
  | .resume _ | .lotClose => true

/-- The request that a request command stands for, with the link it comes on. -/
def Instr.request : Instr → Option (Link × Request)
  | .attach st wafer => some (.station st, .attach wafer)
  | .detach st => some (.station st, .detach)
  | .claim st items => some (.station st, .claim items)
  | .burnBegin st sites => some (.station st, .burnBegin sites)
  | .burnResult st items => some (.station st, .burnResult items)
  | .release st sites => some (.station st, .release sites)
  | .abandon st sites => some (.station st, .abandon sites)
  | .stationReset st => some (.station st, .stationReset)
  | .stationStatus st => some (.station st, .stationStatus)
  | .lotOpen body => some (.lot, .lotOpen body)
  | .lotAmend body => some (.lot, .lotAmend body)
  | .lotLock => some (.lot, .lotLock)
  | .keyLoad batch records => some (.lot, .keyLoad batch records)
  | .quarantine low high => some (.lot, .quarantine low high)
  | .purgeWafer wafer => some (.lot, .purgeWafer wafer)
  | .auditStart => some (.lot, .auditStart)
  | .auditStop => some (.lot, .auditStop)
  | .journalRead n => some (.lot, .journalRead n)
  | .journalTake n => some (.lot, .journalTake n)
  | .lotStatus => some (.lot, .lotStatus)
  | .resume clear => some (.lot, .resume clear)
  | .lotClose => some (.lot, .lotClose)
  | .deviceReset | .storeClearComplete | .frameArrival _ _ | .idleGap _ | .lengthTooGreat _ _ _
  | .purgeStep | .quarantineStep | .auditTableStep | .auditPoolStep | .closeScrubStep
  | .leaseTimerTick _ | .leaseExpiry _ _ | .replyFrameSent _ | .frameStart _ _
  | .byteFramingError _ _ => none

/-- A command that its row of the table can mean: a request that passes check 4 of R164, a frame
arrival that brings at least its last byte, two length bytes that give a length above 1219, and a
boundary during one of the sixteen items that a request can have. -/
def Instr.wf (i : Instr) : Bool :=
  match i with
  | .frameArrival _ bytes => !bytes.isEmpty
  | .lengthTooGreat _ high low => Config.bodyLimit < high.toNat * 256 + low.toNat
  | .leaseTimerTick (some k) => k < Config.itemLimit
  | _ => match i.request with
    | some (_, r) => r.wf
    | none => true

end Sys2Proof
end

