-- ==== Sys2Proof/Machine/Operands.lean ====
section
/-! DEFINITION. The layouts of the manual: request bodies (11.5), replies and journal entries (11.6),
outcome codes (11.7), the cells of the Record Store (R21, R66), and the settling of the lot
parameters that a LOT OPEN or LOT AMEND carries (R3, R55, R56). -/

namespace Sys2Proof.Machine

/-! ## Request frames (11.5) -/

/-- The kind byte of a request (11.5). -/
def kindOf : Request → Byte
  | .attach _ => 0x01
  | .detach => 0x02
  | .claim _ => 0x03
  | .burnBegin _ => 0x04
  | .burnResult _ => 0x05
  | .release _ => 0x06
  | .abandon _ => 0x07
  | .stationReset => 0x08
  | .stationStatus => 0x09
  | .lotOpen _ => 0x20
  | .lotAmend _ => 0x21
  | .lotLock => 0x22
  | .keyLoad _ _ => 0x23
  | .quarantine _ _ => 0x24
  | .purgeWafer _ => 0x25
  | .auditStart => 0x26
  | .auditStop => 0x27
  | .journalRead _ => 0x28
  | .journalTake _ => 0x29
  | .lotStatus => 0x2A
  | .resume _ => 0x2B
  | .lotClose => 0x2C

/-- Whether a request is a lot request; the others are station requests (11.5, R164 check 5). -/
def isLotRequest (r : Request) : Bool := 0x20 ≤ kindOf r

/-- Reads `n` elements of `size` bytes each from exactly `n * size` bytes. -/
def readMany {α : Type} (size : Nat) (f : List Byte → α) : Nat → List Byte → Option (List α)
  | 0, bs => if bs.isEmpty then some [] else none
  | n + 1, bs =>
    if bs.length < size then none
    else (readMany size f n (bs.drop size)).map (f (bs.take size) :: ·)

/-- The items of a list request: the count in the first byte, 1..16, and that many items (R164). -/
def readList {α : Type} (size : Nat) (f : List Byte → α) (bs : List Byte) : Option (List α) :=
  if itemCountOk (byteAt bs 0).toNat then readMany size f (byteAt bs 0).toNat (bs.drop 1) else none

/-- A CLAIM item: site, x, y (11.6). -/
def claimItemOf (bs : List Byte) : ClaimItem := ⟨byteAt bs 0, byteAt bs 1, byteAt bs 2⟩

/-- A BURN RESULT item: site and 16 image bytes (11.5). -/
def resultItemOf (bs : List Byte) : ResultItem :=
  ⟨byteAt bs 0, BitVec.ofNat 128 (fieldOf bs 1 16)⟩

/-- A KEY LOAD record: index, key, check word (11.6). -/
def keyRecordOf (bs : List Byte) : KeyRecord :=
  ⟨byteAt bs 0, BitVec.ofNat 128 (fieldOf bs 1 16), halfAt bs 17⟩

/-- A die rule's twelve bytes (11.5). -/
def rawRuleOf (bs : List Byte) : RawRule :=
  ⟨byteAt bs 0, byteAt bs 1, byteAt bs 2, byteAt bs 3, byteAt bs 4, byteAt bs 5, byteAt bs 6,
    byteAt bs 7, byteAt bs 8, byteAt bs 9, byteAt bs 10, byteAt bs 11⟩

/-- A window: its first value, then its last (11.6). -/
def rawWindowOf (bs : List Byte) (at_ : Nat) : RawWindow :=
  ⟨BitVec.ofNat 40 (fieldOf bs at_ 5), BitVec.ofNat 40 (fieldOf bs (at_ + 5) 5)⟩

/-- The LOT AMEND body: 34 fixed bytes, the last of them the rule count, and 12 bytes a rule. -/
def readAmend (bs : List Byte) : Option AmendBody :=
  if bs.length < 34 then none
  else (readMany 12 rawRuleOf (byteAt bs 33).toNat (bs.drop 34)).map fun rules =>
    { windowP := rawWindowOf bs 0, presenceE := byteAt bs 10, windowE := rawWindowOf bs 11
      claimLease := halfAt bs 21, burnLease := halfAt bs 23, attemptLimit := byteAt bs 25
      poolLow := halfAt bs 26, tableLow := halfAt bs 28, journalHigh := halfAt bs 30
      strict := byteAt bs 32, rules := rules }

/-- The LOT OPEN body: name, split code and the LOT AMEND body. -/
def readOpen (bs : List Byte) : Option OpenBody :=
  if bs.length < 9 then none
  else (readAmend (bs.drop 9)).map fun rest =>
    ⟨BitVec.ofNat 64 (fieldOf bs 0 8), byteAt bs 8, rest⟩

/-- A request without a body. -/
def readEmpty (r : Request) (bs : List Byte) : Option Request := if bs.isEmpty then some r else none

/-- A request whose body has a fixed length. -/
def readFixed (len : Nat) (f : List Byte → Request) (bs : List Byte) : Option Request :=
  if bs.length = len then some (f bs) else none

/-- A KEY LOAD of count c has a body of 3 + 19 c bytes; no length within the greatest body length
matches a count above 64 (R164). -/
def readKeyLoad (bs : List Byte) : Option Request :=
  if bs.length < 3 ∨ Config.recordLimit < (byteAt bs 2).toNat then none
  else (readMany 19 keyRecordOf (byteAt bs 2).toNat (bs.drop 3)).map (.keyLoad (halfAt bs 0))

/-- Check 4 of R164: the request that a kind byte and a body spell, or none where the kind is no
request kind or the body length is not the one the kind requires. -/
def readRequest (kind : Byte) (bs : List Byte) : Option Request :=
  match kind.toNat with
  | 0x01 => readFixed 1 (fun b => .attach (byteAt b 0)) bs
  | 0x02 => readEmpty .detach bs
  | 0x03 => (readList 3 claimItemOf bs).map .claim
  | 0x04 => (readList 1 (byteAt · 0) bs).map .burnBegin
  | 0x05 => (readList 17 resultItemOf bs).map .burnResult
  | 0x06 => (readList 1 (byteAt · 0) bs).map .release
  | 0x07 => (readList 1 (byteAt · 0) bs).map .abandon
  | 0x08 => readEmpty .stationReset bs
  | 0x09 => readEmpty .stationStatus bs
  | 0x20 => (readOpen bs).map .lotOpen
  | 0x21 => (readAmend bs).map .lotAmend
  | 0x22 => readEmpty .lotLock bs
  | 0x23 => readKeyLoad bs
  | 0x24 => readFixed 4 (fun b => .quarantine (halfAt b 0) (halfAt b 2)) bs
  | 0x25 => readFixed 1 (fun b => .purgeWafer (byteAt b 0)) bs
  | 0x26 => readEmpty .auditStart bs
  | 0x27 => readEmpty .auditStop bs
  | 0x28 => readFixed 1 (fun b => .journalRead (byteAt b 0)) bs
  | 0x29 => readFixed 2 (fun b => .journalTake (halfAt b 0)) bs
  | 0x2A => readEmpty .lotStatus bs
  | 0x2B => readFixed 1 (fun b => .resume (byteAt b 0)) bs
  | 0x2C => readEmpty .lotClose bs
  | _ => none

/-- A list body: the count and the items. -/
def listBody {α : Type} (f : α → List Byte) (xs : List α) : List Byte :=
  BitVec.ofNat 8 xs.length :: xs.flatMap f

/-- A die rule's twelve bytes as received. -/
def rawRuleBytes (r : RawRule) : List Byte :=
  [r.enabled, r.waferAny, r.waferLo, r.waferHi, r.xAny, r.xLo, r.xHi, r.yAny, r.yLo, r.yHi,
    r.priority, r.action]

/-- A window's ten bytes. -/
def rawWindowBytes (w : RawWindow) : List Byte := bytesOf 5 w.first.toNat ++ bytesOf 5 w.last.toNat

/-- The LOT AMEND body (11.5). -/
def amendBytes (b : AmendBody) : List Byte :=
  rawWindowBytes b.windowP ++ b.presenceE :: rawWindowBytes b.windowE ++ halfBytes b.claimLease
    ++ halfBytes b.burnLease ++ b.attemptLimit :: halfBytes b.poolLow ++ halfBytes b.tableLow
    ++ halfBytes b.journalHigh ++ b.strict :: listBody rawRuleBytes b.rules

/-- The body bytes of a request (11.5). -/
def bodyOf : Request → List Byte
  | .attach wafer => [wafer]
  | .claim items => listBody (fun i => [i.site, i.x, i.y]) items
  | .burnBegin sites => listBody (fun s => [s]) sites
  | .burnResult items => listBody (fun i => i.site :: bytesOf 16 i.image.toNat) items
  | .release sites => listBody (fun s => [s]) sites
  | .abandon sites => listBody (fun s => [s]) sites
  | .lotOpen b => bytesOf 8 b.name.toNat ++ b.split :: amendBytes b.rest
  | .lotAmend b => amendBytes b
  | .keyLoad batch records => halfBytes batch
      ++ listBody (fun r => r.index :: bytesOf 16 r.key.toNat ++ halfBytes r.check) records
  | .quarantine low high => halfBytes low ++ halfBytes high
  | .purgeWafer wafer => [wafer]
  | .journalRead n => [n]
  | .journalTake n => halfBytes n
  | .resume clear => [clear]
  | .detach | .stationReset | .stationStatus | .lotLock | .auditStart | .auditStop | .lotStatus
  | .lotClose => []

/-- A frame: kind, body length, body and check word (R163, 11.6). -/
def frameOf (kind : Byte) (body : List Byte) : List Byte :=
  let front := kind :: bytesOf 2 body.length ++ body
  front ++ halfBytes (twoSum front)

/-- The frame of a request. -/
def requestFrame (r : Request) : List Byte := frameOf (kindOf r) (bodyOf r)

/-! ## Settling the lot parameters (R3, R6, R55, R56) -/

/-- A value clamped to a range (R3). -/
def clamp (lo hi v : Nat) : Nat := max lo (min hi v)

/-- A window of R3, with the check of R6 against the unit's next value where one is given. -/
def settleWindow (w : RawWindow) (next : Option Nat) : Option Window :=
  if serialOk w.first && serialOk w.last && serialOf w.first ≤ serialOf w.last
      && (match next with | some n => n ≤ serialOf w.first | none => true) then
    some ⟨serialOf w.first, serialOf w.last⟩
  else none

/-- Parameter 4: absent, or a window, or refused (R3). -/
def settleWindowE (presence : Byte) (w : RawWindow) (next : Option Nat) : Option (Option Window) :=
  if presence = 0 then some none
  else if presence = 1 then (settleWindow w next).map some
  else none

/-- Whether a range of a die rule is refused: its ANY mark is neither 0 nor 1, or the range is not
ANY and lo is greater than hi, as the comparison given reads them (R56). -/
def rangeFails (any lo hi : Byte) (le : Byte → Byte → Bool) : Bool :=
  1 < any || (any = 0 && !le lo hi)

/-- Whether a die rule fails the checks of R56. -/
def ruleFails (r : RawRule) : Bool :=
  1 < r.enabled
    || rangeFails r.waferAny r.waferLo r.waferHi (fun a b => a ≤ b)
    || (r.waferAny = 0 && (r.waferLo = 0 || 25 < r.waferLo || r.waferHi = 0 || 25 < r.waferHi))
    || rangeFails r.xAny r.xLo r.xHi (fun a b => a.sle b)
    || rangeFails r.yAny r.yLo r.yHi (fun a b => a.sle b)
    || r.priority = 0 || 7 < r.priority || 2 < r.action

/-- The number of the die rule that makes a list malformed, if one does (R56). -/
def malformedRule (rules : List RawRule) : Option Nat :=
  if Config.ruleLimit < rules.length then some Config.ruleLimit else rules.findIdx? ruleFails

/-- A range as the table holds it: ANY alone, without its bounds (R55). -/
def rangeOf (any lo hi : Byte) : Option (Byte × Byte) := if any = 1 then none else some (lo, hi)

/-- A checked die rule as the table holds it (R55). -/
def dieRuleOf (r : RawRule) : DieRule :=
  { enabled := r.enabled = 1
    wafer := rangeOf r.waferAny r.waferLo r.waferHi
    xRange := rangeOf r.xAny r.xLo r.xHi
    yRange := rangeOf r.yAny r.yLo r.yHi
    priority := r.priority.toNat
    action := if r.action = 0 then .exclude else if r.action = 1 then .cls .p else .cls .e }

/-- Parameters 5 to 11 after clamping (R3). -/
def limitsOf (b : AmendBody) : Limits :=
  { claimLease := clamp 1 60000 b.claimLease.toNat
    burnLease := clamp 1 6000 b.burnLease.toNat
    attemptLimit := clamp 1 7 b.attemptLimit.toNat
    poolLow := clamp 0 1024 b.poolLow.toNat
    tableLow := clamp 0 1024 b.tableLow.toNat
    journalHigh := clamp 1 256 b.journalHigh.toNat
    strict := b.strict = 1 }

/-- Parameters 3 to 12 in ascending order: settled, or the number of the first refused one with the
die rule number that R56 gives (R3, R6). -/
def settle (b : AmendBody) (nextP nextE : Option Nat) : Except (Nat × Option Nat) Settled :=
  match settleWindow b.windowP nextP with
  | none => .error (3, none)
  | some wp =>
    match settleWindowE b.presenceE b.windowE nextE with
    | none => .error (4, none)
    | some we =>
      if 1 < b.strict then .error (11, none)
      else match malformedRule b.rules with
        | some k => .error (12, some k)
        | none => .ok ⟨wp, we, limitsOf b, b.rules.map dieRuleOf⟩

/-- Whether every character of a lot name is printable (R3). -/
def nameOk (name : BitVec 64) : Bool := (bytesOf 8 name.toNat).all fun c => 0x20 ≤ c && c ≤ 0x7E

/-- Parameters 1 to 12 of a LOT OPEN (R3). -/
def settleOpen (b : OpenBody) : Except (Nat × Option Nat) Settled :=
  if !nameOk b.name then .error (1, none)
  else if 2 < b.split then .error (2, none)
  else settle b.rest none none

/-! ## Cells (R21, R66, R156, R157) -/

/-- The class byte (11.6). -/
def classByte : SerialClass → Byte
  | .p => 0
  | .e => 1

/-- The class that a class byte denotes. -/
def classOf (b : Byte) : SerialClass := if b = 0 then .p else .e

/-- The code of an entry state inside a cell, where nothing outside sees it (DESIGN CHOICE, log 7). -/
def entryStateByte : EntryState → Byte
  | .issued => 0
  | .burning => 1
  | .uncertain => 2
  | .provisioned => 3
  | .void => 4

/-- The entry state that a cell's code denotes; codes that the table never writes read as VOID
(DESIGN CHOICE, log 7). -/
def entryStateOf (b : Byte) : EntryState :=
  match b.toNat with
  | 0 => .issued
  | 1 => .burning
  | 2 => .uncertain
  | 3 => .provisioned
  | _ => .void

/-- The number of a key slot in an entry; 0xFFFF when it is absent (R66). -/
def slotCode : Option (Fin 8192) → Nat
  | some n => n.val
  | none => 0xFFFF

/-- The key slot that a number in an entry names. -/
def slotOfCode (v : Nat) : Option (Fin 8192) := if h : v < 8192 then some ⟨v, h⟩ else none

/-- A station and a site as two bytes; 0xFF when they are absent (R66, 11.6). -/
def ownerCode : Option (Station × Site) → Byte × Byte
  | some (st, site) => (BitVec.ofNat 8 st.val, BitVec.ofNat 8 site.val)
  | none => (0xFF, 0xFF)

/-- The station and site that two bytes of an entry name. -/
def ownerOfCode (a b : Byte) : Option (Station × Site) :=
  if h : a.toNat < 4 ∧ b.toNat < 16 then some (⟨a.toNat, h.1⟩, ⟨b.toNat, h.2⟩) else none

/-- Fields 1 to 14 of an entry, 20 bytes (R66), the high byte of a longer field first (log 7). -/
def entryFields (e : Entry) : List Byte :=
  [e.wafer, e.x, e.y, entryStateByte e.state] ++ halfBytes e.batch ++ [e.index]
    ++ bytesOf 2 (slotCode e.slot) ++ bytesOf 5 e.serial.toNat
    ++ [e.digit, classByte e.cls, (ownerCode e.owner).1, (ownerCode e.owner).2, e.attempts, e.noted]

/-- The content group of an entry cell: fields 1 to 14, the check word and the filler (R66). -/
def entryContent (e : Entry) : List Byte :=
  let fields := entryFields e
  fields ++ halfBytes (twoSum fields) ++ List.replicate 7 0

/-- The entry that a content group spells. -/
def entryOf (bs : List Byte) : Entry :=
  { wafer := byteAt bs 0
    x := byteAt bs 1
    y := byteAt bs 2
    state := entryStateOf (byteAt bs 3)
    batch := halfAt bs 4
    index := byteAt bs 6
    slot := slotOfCode (fieldOf bs 7 2)
    serial := BitVec.ofNat 40 (fieldOf bs 9 5)
    digit := byteAt bs 14
    cls := classOf (byteAt bs 15)
    owner := ownerOfCode (byteAt bs 16) (byteAt bs 17)
    attempts := byteAt bs 18
    noted := byteAt bs 19 }

/-- Whether a content group's entry check word agrees with fields 1 to 14 (R66). -/
def entryCheckOk (bs : List Byte) : Bool := twoSum (bs.take 20) = halfAt bs 20

/-- The nineteen bytes under a key's check word (R21, R30). -/
def keyFields (batch : Half) (index : Byte) (key : Key) : List Byte :=
  halfBytes batch ++ index :: bytesOf 16 key.toNat

/-- The content group of a key slot cell; the places after the check word are held zero (R21). -/
def keyContent (k : KeyCell) : List Byte :=
  keyFields k.batch k.index k.key ++ halfBytes k.check ++ List.replicate 8 0

/-- The key slot fields that a content group spells (R21). -/
def keyCellOf (bs : List Byte) : KeyCell :=
  ⟨halfAt bs 0, byteAt bs 2, BitVec.ofNat 128 (fieldOf bs 3 16), halfAt bs 19⟩

/-- Whether a content group's key check word agrees with its bytes (R21). -/
def keyCheckOk (bs : List Byte) : Bool := twoSum (bs.take 19) = halfAt bs 19

/-- The parity bit of a cell's link group (R156). -/
def linkParityOf (c : StoreCell) : Bool := parityOf (c.last :: halfBytes c.next)

/-- A cell as it is written: both parity bits afresh over the values written (R156). -/
def StoreCell.written (c : StoreCell) : StoreCell :=
  { c with linkParity := linkParityOf c, contentParity := parityOf c.content }

/-- The check of a cell read: the group it fails in, the link group first (R157). -/
def cellFault (c : StoreCell) (checkOk : List Byte → Bool) : Option FaultGroup :=
  if c.linkParity ≠ linkParityOf c then some .link
  else if c.contentParity ≠ parityOf c.content ∨ !checkOk c.content then some .content
  else none

/-- The parity bit of a bucket head, over all three fields (R64). -/
def headParityOf (h : BucketHead) : Bool :=
  xor (xor h.valid h.damaged) (parityOf (halfBytes h.first))

/-- A bucket head as it is written, its parity afresh (R64). -/
def BucketHead.written (h : BucketHead) : BucketHead := { h with parity := headParityOf h }

/-! ## Replies (11.6, 11.7) -/

/-- The value of an outcome code (11.7). -/
def codeByte : Code → Byte
  | .ok => 0x00 | .issued => 0x01 | .reissued => 0x02 | .provisioned => 0x03
  | .partialBurn => 0x04 | .voided => 0x05 | .released => 0x06 | .releasedUncertain => 0x07
  | .notReady => 0x08 | .noLot => 0x09 | .lotLocked => 0x0A | .lotClosing => 0x0B
  | .lotOpen => 0x0C | .badParam => 0x0D | .notPermitted => 0x0E | .format => 0x0F
  | .frameCheck => 0x10 | .linkBusy => 0x11 | .waferBusy => 0x12 | .waferFinished => 0x13
  | .noWafer => 0x14 | .claimsActive => 0x15 | .siteBusy => 0x16 | .siteIdle => 0x17
  | .duplicateInSet => 0x18 | .outOfRange => 0x19 | .excluded => 0x1A
  | .alreadyProvisioned => 0x1B | .dieVoid => 0x1C | .heldElsewhere => 0x1D
  | .bucketDamaged => 0x1E | .tableFull => 0x1F | .poolEmpty => 0x20 | .serialExhausted => 0x21
  | .journalFull => 0x22 | .issueHalted => 0x23 | .wrongState => 0x24 | .revoked => 0x25
  | .expired => 0x26 | .poolFull => 0x27 | .batchDuplicate => 0x28 | .batchBlocked => 0x29
  | .batchListFull => 0x2A | .recordCheck => 0x2B | .blockListFull => 0x2C
  | .sweepActive => 0x2D | .notClosable => 0x2E

/-- The reason byte; 0 stands for an absent reason (11.6). -/
def reasonByte : Option Reason → Byte
  | none => 0
  | some .spoiled => 1
  | some .attempts => 2
  | some .abandoned => 3
  | some .quarantine => 4
  | some .unresolved => 5
  | some .keyDamaged => 6
  | some .returnFull => 7
  | some .blocked => 8

/-- The kind byte of a journal entry (11.6). -/
def journalKindByte : JournalKind → Byte
  | .provisioned => 1
  | .voided => 2
  | .keyWithdrawn => 3
  | .quarantineHit => 4

/-- The lot state byte (11.6). -/
def lotStateByte : LotState → Byte
  | .init => 0
  | .idle => 1
  | .opened => 2
  | .locked => 3
  | .closing => 4

/-- The phase byte (11.6). -/
def phaseByte : SweepPhase → Byte
  | .table => 0
  | .pool => 1

/-- An absent wafer, station or site is sent as 0xFF (11.6). -/
def waferByte : Option Byte → Byte
  | some w => w
  | none => 0xFF

/-- The serial, its check digit and its class (11.6). -/
def serialBytes (serial : PackedSerial) (digit : Byte) (cls : SerialClass) : List Byte :=
  bytesOf 5 serial.toNat ++ [digit, classByte cls]

/-- The data of an outcome item (11.6). -/
def itemDataBytes : ItemData → List Byte
  | .none => []
  | .grant g => halfBytes g.batch ++ g.index :: bytesOf 16 g.key.toNat
      ++ serialBytes g.serial g.digit g.cls ++ [g.attempts]
  | .serial serial digit cls => serialBytes serial digit cls
  | .attempts n => [n]
  | .missing bits attempts => bytesOf 1 bits ++ [attempts]
  | .voided reason missing extra => reasonByte (some reason) :: bytesOf 1 missing ++ bytesOf 1 extra
  | .disposition withdrawn => [flagByte withdrawn.isSome, reasonByte withdrawn]

/-- An outcome item: site, outcome, data (11.6). -/
def itemBytes (i : ItemOutcome) : List Byte := i.site :: codeByte i.code :: itemDataBytes i.data

/-- A journal entry's 32 bytes (11.6). -/
def journalBytes (j : JournalEntry) : List Byte :=
  halfBytes j.number ++ [journalKindByte j.kind, j.wafer, j.x, j.y] ++ halfBytes j.batch
    ++ [j.index] ++ serialBytes j.serial j.digit j.cls ++ [j.attempts]
    ++ [(ownerCode j.origin).1, (ownerCode j.origin).2, reasonByte j.reason]
    ++ (match j.counts with
        | some (missing, extra) => bytesOf 1 missing ++ bytesOf 1 extra
        | none => [0xFF, 0xFF])
    ++ List.replicate 10 0

/-- The fault group byte (11.6). -/
def faultGroupByte : FaultGroup → Byte
  | .link => 0
  | .content => 1

/-- The fault origin byte (11.6). -/
def faultOriginByte : FaultOrigin → Byte
  | .access => 0
  | .audit => 1

/-- The fault record's six bytes (11.6). -/
def faultRecordBytes (faults : Nat) (first : Option FaultNote) : List Byte :=
  bytesOf 1 faults ++ match first with
  | none => [0, 0, 0, 0, 0]
  | some f =>
    (match f.place with
      | .cell n => 1 :: bytesOf 2 n
      | .head h => 2 :: bytesOf 2 h)
    ++ [faultGroupByte f.group, faultOriginByte f.origin]

/-- A window's ten bytes. -/
def windowBytes (w : Window) : List Byte :=
  bytesOf 5 (packDigits 10 w.first) ++ bytesOf 5 (packDigits 10 w.last)

/-- Window E: the presence mark and ten digits bytes, zero where it is absent (11.6, log 22). -/
def windowEBytes : Option Window → List Byte
  | some w => 1 :: windowBytes w
  | none => List.replicate 11 0

/-- A range: ANY with both bounds zero, or its bounds (R55). -/
def rangeBytes : Option (Byte × Byte) → List Byte
  | none => [1, 0, 0]
  | some (lo, hi) => [0, lo, hi]

/-- The action byte of a die rule (11.6). -/
def actionByte : RuleAction → Byte
  | .exclude => 0
  | .cls .p => 1
  | .cls .e => 2

/-- A die rule as the table holds it, twelve bytes (R61, 11.6). -/
def dieRuleBytes (r : DieRule) : List Byte :=
  flagByte r.enabled :: rangeBytes r.wafer ++ rangeBytes r.xRange ++ rangeBytes r.yRange
    ++ bytesOf 1 r.priority ++ [actionByte r.action]

/-- The LOT AMEND body with effective values (R3, R61, 11.6). -/
def settledBytes (p : Settled) : List Byte :=
  windowBytes p.windowP ++ windowEBytes p.windowE ++ bytesOf 2 p.limits.claimLease
    ++ bytesOf 2 p.limits.burnLease ++ bytesOf 1 p.limits.attemptLimit
    ++ bytesOf 2 p.limits.poolLow ++ bytesOf 2 p.limits.tableLow ++ bytesOf 2 p.limits.journalHigh
    ++ flagByte p.limits.strict :: listBody dieRuleBytes p.rules

/-- A site slot in a STATION STATUS report: state, x, y, lease, absent fields 0 (11.6). -/
def slotBytes : Slot → List Byte
  | .free => [0, 0, 0, 0, 0]
  | .held x y _ lease => [1, x, y] ++ bytesOf 2 lease
  | .revoked x y => [2, x, y, 0, 0]
  | .expired x y => [3, x, y, 0, 0]

/-- The four result counts of a sweep. -/
def countsBytes (c : SweepCounts) : List Byte :=
  bytesOf 4 c.visited ++ bytesOf 4 c.changed ++ bytesOf 4 c.appended ++ bytesOf 4 c.faults

/-- The body of a reply, its outcome byte first (R169, 11.6). -/
def replyBytes : ReplyBody → List Byte
  | .code c => [codeByte c]
  | .items outcomes => codeByte .ok :: listBody itemBytes outcomes
  | .attached wafer detached freed =>
      [codeByte .ok, wafer, waferByte detached] ++ bytesOf 1 freed
  | .detached wafer freed => [codeByte .ok, wafer] ++ bytesOf 1 freed
  | .stationReset released uncertain freed =>
      codeByte .ok :: bytesOf 1 released ++ bytesOf 1 uncertain ++ bytesOf 1 freed
  | .stationStatus lot halt table =>
      [codeByte .ok, lotStateByte lot, flagByte halt, waferByte table.attached]
        ++ table.slots.toList.flatMap slotBytes
  | .lotOpened name split settled keys capacity =>
      codeByte .ok :: bytesOf 8 name.toNat ++ bytesOf 1 split ++ settledBytes settled
        ++ bytesOf 2 keys ++ bytesOf 2 capacity
  | .lotAmended settled => codeByte .ok :: settledBytes settled
  | .keyLoaded batch count fresh depth =>
      codeByte .ok :: halfBytes batch ++ bytesOf 1 count ++ bytesOf 2 fresh ++ bytesOf 2 depth
  | .quarantined range => codeByte .ok :: bytesOf 1 range
  | .purging wafer => [codeByte .ok, wafer]
  | .auditStopped phase cursor counts =>
      [codeByte .ok, phaseByte phase] ++ bytesOf 2 cursor ++ countsBytes counts
  | .journalRead held reservations entries =>
      codeByte .ok :: bytesOf 2 held ++ bytesOf 2 reservations ++ bytesOf 1 entries.length
        ++ entries.flatMap journalBytes
  | .journalTaken first last held reservations =>
      codeByte .ok :: halfBytes first ++ halfBytes last ++ bytesOf 2 held ++ bytesOf 2 reservations
  | .resumed halt faults first => [codeByte .ok, flagByte halt] ++ faultRecordBytes faults first
  | .lotClosed name lock loaded spent retired =>
      codeByte .ok :: bytesOf 8 name.toNat ++ flagByte lock :: bytesOf 4 loaded ++ bytesOf 4 spent
        ++ bytesOf 4 retired
  | .lotStatus report => codeByte .ok :: report
  | .badParameter number rule =>
      codeByte .badParam :: bytesOf 1 number
        ++ (match rule with | some k => bytesOf 1 k | none => [0xFF])
  | .badRecord number => codeByte .badParam :: bytesOf 1 number
  | .badTake held => codeByte .badParam :: bytesOf 2 held
  | .batchBlocked range => codeByte .batchBlocked :: bytesOf 1 range
  | .poolFull empty => codeByte .poolFull :: bytesOf 2 empty
  | .recordCheck indices => codeByte .recordCheck :: listBody (fun i => [i]) indices
  | .notClosable conditions => codeByte .notClosable :: listBody (bytesOf 1) conditions

/-- The frame of a reply on the wire: the kind with 0x80 added, in one byte (R165, R169, log 15). -/
def Reply.frame (r : Reply) : List Byte := frameOf (r.kind + 0x80) (replyBytes r.body)

end Sys2Proof.Machine
end

