-- ==== Sys2Proof/Machine/Maps.lean ====
section
/-! DEFINITION. Sparse tables: a list of (number, value) pairs in one canonical form, numbers strictly
rising and no pair whose value is the one `d` that an unlisted number reads as. The Record Store
(R156), the bucket heads (R64), the slot state map (R21), the cell map and the binding map (R67) are
held so. -/

namespace Sys2Proof.Machine

/-- The value that a number reads as. -/
def mapGet {α : Type} (d : α) : List (Nat × α) → Nat → α
  | [], _ => d
  | (k, v) :: m, n => if n = k then v else mapGet d m n

/-- The table with one number's value replaced, in canonical form. -/
def mapSet {α : Type} [DecidableEq α] (d : α) : List (Nat × α) → Nat → α → List (Nat × α)
  | [], n, v => if v = d then [] else [(n, v)]
  | (k, w) :: m, n, v =>
    if n < k then (if v = d then (k, w) :: m else (n, v) :: (k, w) :: m)
    else if n = k then (if v = d then m else (k, v) :: m)
    else (k, w) :: mapSet d m n v

/-- Whether a table is in canonical form. -/
def mapWf {α : Type} [DecidableEq α] (d : α) : List (Nat × α) → Bool
  | [] => true
  | (k, v) :: m => decide (v ≠ d) && m.all (fun e => decide (k < e.1)) && mapWf d m

/-- Whether the Record Store's list is in canonical form. -/
def Memory.wf (m : List (Nat × StoreCell)) : Bool := mapWf zeroCell m

/-- Whether the store and the four maps of a state are in canonical form. -/
def State.mapsWf (s : State) : Bool :=
  Memory.wf s.store && mapWf zeroHead s.table.heads && mapWf emptySlot s.pool.slots
    && mapWf none s.table.cellMap && mapWf none s.table.binding

/-- A cell of the Record Store. -/
def State.cell (s : State) (n : Nat) : StoreCell := mapGet zeroCell s.store n

/-- A bucket head. -/
def State.head (s : State) (h : Nat) : BucketHead := mapGet zeroHead s.table.heads h

/-- A record of the slot state map (R21). -/
def State.keySlot (s : State) (n : Nat) : KeySlot := mapGet emptySlot s.pool.slots n

/-- The bucket that the cell map gives an entry cell in use (R67). -/
def State.cellBucket (s : State) (c : Nat) : Option Nat := mapGet none s.table.cellMap c

/-- The entry cell that the binding map gives a key slot (R67). -/
def State.boundCell (s : State) (n : Nat) : Option Nat := mapGet none s.table.binding n

end Sys2Proof.Machine
end

