-- ==== Sys2Proof/Machine/Flags.lean ====
section
/-! DEFINITION. Conditions computed from the state: the division of the store (R5), the test against
the lot state (R2), blocked batches (R8), the level conditions (R40, R76, R153), the attention causes
and line (R168), a unit's exhaustion (R47) and the die rules' decision (R57, R58). -/

namespace Sys2Proof.Machine

/-! ## The lot -/

/-- The answer of R2 to a request that the lot state does not take, or none where it takes it. -/
def lotGate (st : LotState) (r : Request) : Option Code :=
  match st with
  | .init => some .notReady
  | .idle =>
    match r with
    | .lotOpen _ | .lotStatus | .stationStatus | .journalRead _ => none
    | _ => some .noLot
  | .opened | .locked => none
  | .closing =>
    match r with
    | .stationStatus => none
    | _ => some .lotClosing

/-- The key slots K that a split code gives (R5). -/
def keySlotsOf (split : Nat) : Nat :=
  match split with
  | 0 => 2048
  | 1 => 4096
  | _ => 6144

/-- K under the lot's split; 0 while no division is in force (R5, R21). -/
def State.keySlots (s : State) : Nat :=
  match s.lot.params with
  | some p => keySlotsOf p.split
  | none => 0

/-- The entry capacity of the lot's split; 0 while no division is in force (R5). -/
def State.capacity (s : State) : Nat :=
  match s.lot.params with
  | some p => Config.storeCells - keySlotsOf p.split
  | none => 0

/-- The effective parameters 5 to 11. Without a lot they are absent and no rule reads them; the
values given then are the ends that a clamped zero would take. -/
def State.limits (s : State) : Limits :=
  match s.lot.params with
  | some p => p.limits
  | none => ⟨1, 1, 1, 0, 0, 1, false⟩

/-- Whether the lot is OPEN, LOCKED or CLOSING. -/
def State.lotLive (s : State) : Bool :=
  match s.lot.state with
  | .opened | .locked | .closing => true
  | .init | .idle => false

/-- The number (1..8) of the first listed range that holds a batch number (R8, R28). -/
def State.blockedBy (s : State) (batch : Half) : Option Nat :=
  (s.lot.blocked.findIdx? fun r => r.low ≤ batch && batch ≤ r.high).map (· + 1)

/-- Whether a batch number is blocked (R8). -/
def State.blocked (s : State) (batch : Half) : Bool :=
  s.lot.blocked.any fun r => r.low ≤ batch && batch ≤ r.high

/-! ## Levels and attention -/

/-- The EMPTY count, which the pool does not keep (R27). -/
def State.emptyCount (s : State) : Nat :=
  s.keySlots - (s.pool.counts.fresh + s.pool.counts.returned + s.pool.counts.bound
    + s.pool.counts.faulted)

/-- The number of damaged BOUND slots (R23). -/
def State.damagedSlots (s : State) : Nat := (s.pool.slots.filter (·.2.damaged)).length

/-- Entries held (R147). -/
def State.held (s : State) : Nat := s.journal.queue.length

/-- Entries held plus reservations (R150). -/
def State.journalSum (s : State) : Nat := s.held + s.journal.reservations

/-- RESERVOIR_LOW (R40). -/
def State.reservoirLow (s : State) : Bool :=
  s.lotLive && s.pool.counts.fresh + s.pool.counts.returned ≤ s.limits.poolLow

/-- TABLE_LOW (R76). -/
def State.tableLow (s : State) : Bool := s.lotLive && s.table.freeCount ≤ s.limits.tableLow

/-- JOURNAL_HIGH (R153). -/
def State.journalHigh (s : State) : Bool := s.lotLive && s.limits.journalHigh ≤ s.held

/-- The byte of the attention causes present, RESERVOIR_LOW in bit 0 (R168, 11.6). -/
def State.causes (s : State) : Byte :=
  flagByte s.reservoirLow ||| flagByte s.tableLow <<< 1 ||| flagByte s.journalHigh <<< 2
    ||| flagByte s.check.halt <<< 3 ||| flagByte s.check.storeFault <<< 4
    ||| flagByte s.sweeps.sweepDone <<< 5

/-- The attention line: asserted while at least one cause is present (R168). -/
def State.attention (s : State) : Bool :=
  s.reservoirLow || s.tableLow || s.journalHigh || s.check.halt || s.check.storeFault
    || s.sweeps.sweepDone

/-! ## Counts -/

/-- A 32-bit count one up, holding at its highest value (R43, R128). -/
def satAdd (n : Nat) : Nat := min Config.countMax (n + 1)

/-! ## Serial Units -/

/-- The availability test of R47 fails: the unit is exhausted. -/
def SerialUnit.exhausted (u : SerialUnit) : Bool :=
  match u.window, u.next with
  | some w, some n => u.overflow || w.last < n || (n = w.last && checkValue n = 10)
  | _, _ => true

/-- The unit of a class (R49). -/
def State.unit (s : State) : SerialClass → SerialUnit
  | .p => s.unitP
  | .e => s.unitE

/-! ## Die rules -/

/-- Whether a range covers a value, by the comparison given (R55, R57). -/
def inRange (r : Option (Byte × Byte)) (le : Byte → Byte → Bool) (v : Byte) : Bool :=
  match r with
  | none => true
  | some (lo, hi) => le lo v && le v hi

/-- Whether a die rule matches a die identity (R57). -/
def DieRule.covers (r : DieRule) (wafer x y : Byte) : Bool :=
  r.enabled && inRange r.wafer (fun a b => a ≤ b) wafer && inRange r.xRange (fun a b => a.sle b) x
    && inRange r.yRange (fun a b => a.sle b) y

/-- The winner among the matching die rules: the highest priority, then the lowest number (R58). -/
def winningRule (wafer x y : Byte) : List DieRule → Option DieRule
  | [] => none
  | r :: rs =>
    match winningRule wafer x y rs with
    | none => if r.covers wafer x y then some r else none
    | some q => if r.covers wafer x y && q.priority ≤ r.priority then some r else some q

/-- The decision for a die identity: class P where no die rule matches (R58). -/
def decideDie (rules : List DieRule) (wafer x y : Byte) : RuleAction :=
  match winningRule wafer x y rules with
  | some r => r.action
  | none => .cls .p

/-- The decision of the table as it stands (R58, R59). -/
def State.decision (s : State) (wafer x y : Byte) : RuleAction :=
  decideDie (s.rules.getD []) wafer x y

end Sys2Proof.Machine
end

