-- ==== Sys2Proof/Machine/Ops.lean ====
section
/-! DEFINITION. The shared operations on the state: cells and heads, store faults (R157 to R160), key
slots (R22, R32 to R37), the journal (R147 to R150), the Issue Table's walks, accesses, insertion and
removal (R70 to R74), what ends an entry, lease expiry (R117 to R120), the Link Units (R163 to R166)
and the arbiter (R129, R167). Every rule's meaning is a composition of these. -/

namespace Sys2Proof.Machine

/-! ## Sites -/

/-- A site slot (R14). -/
def State.slot (s : State) (st : Station) (site : Site) : Slot := s.stations[st].slots[site]

/-- Replaces one station's table. -/
def State.setStation (s : State) (st : Station) (t : StationTable) : State :=
  { s with stations := s.stations.set st t }

/-- Replaces one site slot. -/
def State.setSlot (s : State) (st : Station) (site : Site) (v : Slot) : State :=
  s.setStation st { s.stations[st] with slots := s.stations[st].slots.set site v }

/-- The site that a site byte names; above 15 it names none (R16). -/
def siteOf (b : Byte) : Option Site := if h : b.toNat < 16 then some ⟨b.toNat, h⟩ else none

/-- Whether a slot is HELD. -/
def Slot.isHeld : Slot → Bool
  | .held _ _ _ _ => true
  | _ => false

/-- Whether a slot is REVOKED or EXPIRED. -/
def Slot.isNotice : Slot → Bool
  | .revoked _ _ | .expired _ _ => true
  | _ => false

/-- Whether a station holds a HELD slot (R12, R13). -/
def StationTable.holds (t : StationTable) : Bool := t.slots.toList.any Slot.isHeld

/-- The slots of a station that a detach frees (R13). -/
def StationTable.notices (t : StationTable) : Nat := (t.slots.toList.filter Slot.isNotice).length

/-- Every REVOKED or EXPIRED slot of a station FREE (R13). -/
def StationTable.freeNotices (t : StationTable) : StationTable :=
  { t with slots := t.slots.map fun v => if v.isNotice then .free else v }

/-- A lease restart: the slot stays HELD with the full lease (R116). -/
def Slot.restart (lease : Nat) : Slot → Slot
  | .held x y c _ => .held x y c lease
  | v => v

/-- The state of a wafer record; none outside 1..25 or while the table is empty (R11). -/
def State.wafer (s : State) (w : Byte) : Option WaferState :=
  if w = 0 ∨ Config.wafers < w.toNat then none else s.lot.wafers[w.toNat - 1]?

/-- Replaces a wafer record. -/
def State.setWafer (s : State) (w : Byte) (v : WaferState) : State :=
  { s with lot := { s.lot with wafers := s.lot.wafers.set (w.toNat - 1) v } }

/-! ## Cells, heads and store faults -/

/-- Writes a cell, both parity bits afresh (R156). -/
def State.writeCell (s : State) (n : Nat) (c : StoreCell) : State :=
  { s with store := mapSet zeroCell s.store n c.written }

/-- Writes a bucket head, its parity afresh (R64). -/
def State.writeHead (s : State) (h : Nat) (hd : BucketHead) : State :=
  { s with table := { s.table with heads := mapSet zeroHead s.table.heads h hd.written } }

/-- The fault record and the STORE_FAULT latch at a fault (R158 step 1, R159). -/
def State.recordFault (s : State) (p : FaultPlace) (g : FaultGroup) (o : FaultOrigin) : State :=
  { s with check := { s.check with
      first := if s.check.faults = 0 then some ⟨p, g, o⟩ else s.check.first
      faults := min 255 (s.check.faults + 1)
      storeFault := true } }

/-- Sets ISSUE HALT (R160). -/
def State.setHalt (s : State) : State := { s with check := { s.check with halt := true } }

/-- Marks a bucket damaged; the count rises if the head was not marked before (R75, R77). -/
def State.markDamaged (s : State) (h : Nat) : State :=
  let hd := s.head h
  let s1 := { s with table := { s.table with
    damagedBuckets := s.table.damagedBuckets + if hd.damaged then 0 else 1 } }
  s1.writeHead h { hd with damaged := true }

/-- The bucket that a faulty head or entry cell belongs to (R77, R158). -/
def State.placeBucket (s : State) : FaultPlace → Option Nat
  | .head h => some h
  | .cell c => s.cellBucket c

/-- A fault in a head or an entry cell: recorded, its bucket marked, ISSUE HALT set (R158). -/
def State.tableFault (s : State) (p : FaultPlace) (g : FaultGroup) (o : FaultOrigin) : State :=
  let s1 := s.recordFault p g o
  match s1.placeBucket p with
  | some h => (s1.markDamaged h).setHalt
  | none => s1.setHalt

/-! ## Key slots -/

/-- The counts after one key slot has left a state (R22). -/
def PoolCounts.leave (c : PoolCounts) : KeyState → PoolCounts
  | .empty => c
  | .fresh => { c with fresh := c.fresh - 1 }
  | .returned => { c with returned := c.returned - 1 }
  | .bound => { c with bound := c.bound - 1 }
  | .faulted => { c with faulted := c.faulted - 1 }

/-- Moves a key slot: its record is replaced, the count of the state it left falls, and `enter`
raises the count that it joins (R22, R27). -/
def State.moveKey (s : State) (n : Nat) (v : KeySlot) (enter : PoolCounts → PoolCounts) : State :=
  { s with pool := { s.pool with
      slots := mapSet emptySlot s.pool.slots n v
      counts := enter (s.pool.counts.leave (s.keySlot n).state) } }

/-- Clears the binding map's record of a key slot (R67). -/
def State.unbind (s : State) (n : Nat) : State :=
  { s with table := { s.table with binding := mapSet none s.table.binding n none } }

/-- Retires a key slot: cell zeroed, slot EMPTY, retired count up (R22). Of an EMPTY slot the cell is
zeroed and no count moves (R39). -/
def State.retireKey (s : State) (n : Nat) : State :=
  if (s.keySlot n).state = .empty then s.writeCell n zeroCell
  else (s.moveKey n emptySlot fun c => { c with retired := c.retired + 1 }).writeCell n zeroCell

/-- Spends the key of an entry: cell zeroed, slot EMPTY, spent count up, binding cleared (R37). A
slot that is EMPTY already, which R79 rules out, holds nothing to spend (log 12). -/
def State.spendKey (s : State) (n : Nat) : State :=
  if (s.keySlot n).state = .empty then s
  else ((s.moveKey n emptySlot fun c => { c with spent := c.spent + 1 }).writeCell n zeroCell).unbind n

/-- Withdraws the key of an entry: cell zeroed, slot EMPTY, retired count up, binding cleared (R35). -/
def State.withdrawKey (s : State) (n : Nat) : State :=
  if (s.keySlot n).state = .empty then s else (s.retireKey n).unbind n

/-- Pushes the key slot of an entry on the return stack (R34 row 4). -/
def State.pushKey (s : State) (n : Nat) : State :=
  if (s.keySlot n).state = .empty then s
  else
    let s1 := (s.moveKey n ⟨.returned, false⟩ fun c => { c with returned := c.returned + 1 }).unbind n
    { s1 with pool := { s1.pool with stack := n :: s1.pool.stack } }

/-- Binds an allocated key slot to an entry cell (R32, R67). -/
def State.bindKey (s : State) (n cell : Nat) : State :=
  let s1 := s.moveKey n ⟨.bound, false⟩ fun c => { c with bound := c.bound + 1 }
  { s1 with table := { s1.table with binding := mapSet none s1.table.binding n (some cell) } }

/-- What the pool does with a fault found in a key slot (R36). -/
def State.markKeyFault (s : State) (n : Nat) : State :=
  match (s.keySlot n).state with
  | .fresh | .returned => s.moveKey n ⟨.faulted, false⟩ fun c => { c with faulted := c.faulted + 1 }
  | .bound => { s with pool := { s.pool with slots := mapSet emptySlot s.pool.slots n ⟨.bound, true⟩ } }
  | .faulted | .empty => s

/-- A fault in a key slot: recorded, the slot marked, ISSUE HALT set under the strict flag (R158). -/
def State.keyFault (s : State) (n : Nat) (g : FaultGroup) (o : FaultOrigin) : State :=
  let s1 := (s.recordFault (.cell n) g o).markKeyFault n
  if s.limits.strict then s1.setHalt else s1

/-- The fault that a read of a key slot finds, if any (R157). -/
def State.keyReadFault (s : State) (n : Nat) : Option FaultGroup := cellFault (s.cell n) keyCheckOk

/-- The fields in a key slot's cell, as they stand. -/
def State.keyAt (s : State) (n : Nat) : KeyCell := keyCellOf (s.cell n).content

/-- Reads and checks the key slot of an entry; a fault is handled before the step goes on (R157). -/
def State.checkKey (s : State) (n : Nat) (o : FaultOrigin) : State :=
  match s.keyReadFault n with
  | some g => s.keyFault n g o
  | none => s

/-- The next candidate and the pool without it: the top of the return stack, else the head of the
fresh queue (R32 step 1). -/
def State.drawKey (s : State) : Option (Nat × State) :=
  match s.pool.stack with
  | n :: rest => some (n, { s with pool := { s.pool with stack := rest } })
  | [] =>
    match s.pool.fresh with
    | n :: rest => some (n, { s with pool := { s.pool with fresh := rest } })
    | [] => none

/-- Allocation: draws candidates, retiring faulted and blocked ones, until one is usable (R32, R33).
`fuel` bounds the draws by the slots there are. A number whose slot is neither FRESH, RETURNED nor
FAULTED, which R22 rules out, is passed over (log 12). -/
def State.allocateKey : Nat → State → Option (Nat × KeyCell) × State
  | 0, s => (none, s)
  | fuel + 1, s =>
    match s.drawKey with
    | none => (none, s)
    | some (n, s1) =>
      match (s1.keySlot n).state with
      | .empty | .bound => State.allocateKey fuel s1
      | .faulted => State.allocateKey fuel (s1.retireKey n)
      | .fresh | .returned =>
        match s1.keyReadFault n with
        | some g => State.allocateKey fuel ((s1.keyFault n g .access).retireKey n)
        | none =>
          if s1.blocked (s1.keyAt n).batch then State.allocateKey fuel (s1.retireKey n)
          else (some (n, s1.keyAt n), s1)

/-- The draws that allocation can make. -/
def State.candidates (s : State) : Nat := s.pool.stack.length + s.pool.fresh.length

/-! ## Journal -/

/-- The journal entry of an issue entry's outcome (R148). -/
def journalEntryOf (number : Half) (e : Entry) (kind : JournalKind)
    (origin : Option (Station × Site)) (reason : Option Reason) (counts : Option (Nat × Nat)) :
    JournalEntry :=
  { number := number, kind := kind, wafer := e.wafer, x := e.x, y := e.y, batch := e.batch
    index := e.index, serial := e.serial, digit := e.digit, cls := e.cls, attempts := e.attempts
    origin := origin, reason := reason, counts := counts }

/-- Appends an outcome on the reservation of its entry (R149, R150). Where no reservation stands and
every place is taken, which R154 rules out, the queue has no place to take it (log 12). -/
def State.appendOutcome (s : State) (e : Entry) (kind : JournalKind)
    (origin : Option (Station × Site)) (reason : Option Reason) (counts : Option (Nat × Nat)) :
    State :=
  if s.journal.reservations = 0 ∧ Config.journalPlaces ≤ s.held then s
  else { s with journal :=
    { queue := s.journal.queue ++ [journalEntryOf s.journal.nextNumber e kind origin reason counts]
      reservations := s.journal.reservations - 1
      nextNumber := s.journal.nextNumber + 1 } }

/-- Appends a QUARANTINE_HIT, which uses a place that no reservation holds (R150). -/
def State.appendHit (s : State) (e : Entry) : State :=
  { s with journal := { s.journal with
      queue := s.journal.queue ++ [journalEntryOf s.journal.nextNumber e .quarantineHit none none none]
      nextNumber := s.journal.nextNumber + 1 } }

/-- Ends a level-2 wait when held plus reservations is below 256 (R137). -/
def State.endWait (s : State) : State :=
  if s.sweeps.quarantine.waiting && s.journalSum < Config.journalPlaces then
    { s with sweeps := { s.sweeps with
        quarantine := { s.sweeps.quarantine with waiting := false } } }
  else s

/-- Frees a reservation (R149), which may end a level-2 wait. -/
def State.freeReservation (s : State) : State :=
  { s with journal := { s.journal with reservations := s.journal.reservations - 1 } }.endWait

/-! ## Issue Table -/

/-- The key slot that an entry names; an entry without one names a number that no slot has. -/
def Entry.keyNo (e : Entry) : Nat :=
  match e.slot with
  | some n => n.val
  | none => Config.storeCells

/-- Whether an entry is open (R69). -/
def EntryState.isOpen : EntryState → Bool
  | .issued | .burning | .uncertain => true
  | .provisioned | .void => false

/-- Whether the read of a bucket head fails its parity check (R64). -/
def State.headFault (s : State) (h : Nat) : Bool := (s.head h).parity ≠ headParityOf (s.head h)

/-- The fault that a read of an entry cell finds, if any (R66, R157). -/
def State.entryFault (s : State) (c : Nat) : Option FaultGroup := cellFault (s.cell c) entryCheckOk

/-- The entry in a cell. -/
def State.entryAt (s : State) (c : Nat) : Entry := entryOf (s.cell c).content

/-- Whether a cell's last flag is set (R66): any value but 0 reads as set (log 7). -/
def State.isLast (s : State) (c : Nat) : Bool := (s.cell c).last ≠ 0

/-- The cell that a cell's next pointer names (R66). -/
def State.nextCell (s : State) (c : Nat) : Nat := (s.cell c).next.toNat

/-- The structural checks of R71 on a cell number reached in the walk of a bucket. -/
def State.inChain (s : State) (h c : Nat) : Bool :=
  s.keySlots ≤ c && c < Config.storeCells && s.cellBucket c = some h

/-- The record whose pointer led to the entry after `pred`: the head for the first entry (R71). -/
def pointerOf (h : Nat) : Option Nat → FaultPlace
  | none => .head h
  | some d => .cell d

/-- What the walk for a die identity comes to (R70). -/
inductive Lookup where
  /-- the bucket was marked damaged before, or the read's fault has been handled -/
  | damaged
  /-- a read failed its checks -/
  | fault (p : FaultPlace) (g : FaultGroup)
  /-- not found: the chain length and the last cell -/
  | notFound (length : Nat) (last : Option Nat)
  /-- found: the entry's cell and the cell before it -/
  | found (cell : Nat) (pred : Option Nat)
  deriving DecidableEq, Repr

/-- The walk along a chain from step 4 of R70. `fuel` starts at the entry capacity: a walk that has
read as many entries without a set last flag fails (R71). -/
def State.walk (s : State) (h : Nat) (wafer x y : Byte) : Nat → Nat → Option Nat → Nat → Lookup
  | 0, _, pred, _ => .fault (pointerOf h pred) .link
  | fuel + 1, n, pred, c =>
    if !s.inChain h c then .fault (pointerOf h pred) .link
    else match s.entryFault c with
      | some g => .fault (.cell c) g
      | none =>
        if (s.entryAt c).wafer = wafer ∧ (s.entryAt c).x = x ∧ (s.entryAt c).y = y then .found c pred
        else if s.isLast c then .notFound (n + 1) (some c)
        else s.walk h wafer x y fuel (n + 1) (some c) (s.nextCell c)

/-- The lookup of a die identity, without its effect on the state (R70). -/
def State.find (s : State) (wafer x y : Byte) : Lookup :=
  let h := bucketOf wafer x y
  if s.headFault h then .fault (.head h) .link
  else if (s.head h).damaged then .damaged
  else if !(s.head h).valid then .notFound 0 none
  else s.walk h wafer x y s.capacity 0 none (s.head h).first.toNat

/-- How many entries the walk along a chain reads cleanly (R70, R128). -/
def State.walkReads (s : State) (h : Nat) (wafer x y : Byte) : Nat → Nat → Nat
  | 0, _ => 0
  | fuel + 1, c =>
    if !s.inChain h c || (s.entryFault c).isSome then 0
    else if ((s.entryAt c).wafer = wafer ∧ (s.entryAt c).x = x ∧ (s.entryAt c).y = y) ∨ s.isLast c then 1
    else 1 + s.walkReads h wafer x y fuel (s.nextCell c)

/-- How many entries the lookup of a die identity reads cleanly (R70, R128). -/
def State.findReads (s : State) (wafer x y : Byte) : Nat :=
  let h := bucketOf wafer x y
  if s.headFault h || (s.head h).damaged || !(s.head h).valid then 0
  else s.walkReads h wafer x y s.capacity (s.head h).first.toNat

/-- The lookup of a die identity: a fault it finds is handled, and it reports DAMAGED (R70, R158). -/
def State.lookup (s : State) (o : FaultOrigin) (wafer x y : Byte) : Lookup × State :=
  match s.find wafer x y with
  | .fault p g => (.damaged, s.tableFault p g o)
  | r => (r, s)

/-- A reference access to an entry cell: the entry, or none for DAMAGED (R72). A cell that the cell
map does not show in use, which R14 and R79 rule out, reads as DAMAGED (log 11). -/
def State.access (s : State) (o : FaultOrigin) (c : Nat) : Option Entry × State :=
  match s.cellBucket c with
  | none => (none, s)
  | some h =>
    if s.headFault h then (none, s.tableFault (.head h) .link o)
    else if (s.head h).damaged then (none, s)
    else match s.entryFault c with
      | some g => (none, s.tableFault (.cell c) g o)
      | none => (some (s.entryAt c), s)

/-- Writes an entry in place: the chain link stays (R66, R72). -/
def State.writeEntry (s : State) (c : Nat) (e : Entry) : State :=
  s.writeCell c { s.cell c with content := entryContent e }

/-- Insertion at the tail of a chain of the length found, with the last cell found (R73); the binding
map's record is made by `bindKey`. A set last flag is written as 1 (log 7). -/
def State.insertEntry (s : State) (h length : Nat) (last : Option Nat) (e : Entry) : State :=
  match s.table.free with
  | [] => s
  | c :: rest =>
    let s1 := s.writeCell c ⟨entryContent e, 0, 1, false, false⟩
    let s2 := match last with
      | none => s1.writeHead h ⟨true, BitVec.ofNat 16 c, false, false⟩
      | some d => s1.writeCell d { s1.cell d with next := BitVec.ofNat 16 c, last := 0 }
    { s2 with table := { s2.table with
        cellMap := mapSet none s2.table.cellMap c (some h)
        free := rest
        inUse := s2.table.inUse + 1
        freeCount := s2.table.freeCount - 1
        openCount := s2.table.openCount + 1
        longest := max s2.table.longest (min 255 (length + 1)) } }

/-- Removal of the entry in a cell, with the cell before it in its chain (R74). A set last flag is
written as 1 (log 7). -/
def State.removeEntry (s : State) (h c : Nat) (pred : Option Nat) (wasOpen : Bool) : State :=
  let s1 := match pred with
    | none =>
      if s.isLast c then s.writeHead h { s.head h with valid := false, first := 0 }
      else s.writeHead h { s.head h with first := (s.cell c).next }
    | some d =>
      if s.isLast c then s.writeCell d { s.cell d with next := 0, last := 1 }
      else s.writeCell d { s.cell d with next := (s.cell c).next, last := 0 }
  let s2 := s1.writeCell c zeroCell
  { s2 with table := { s2.table with
      cellMap := mapSet none s2.table.cellMap c none
      free := s2.table.free ++ [c]
      inUse := s2.table.inUse - 1
      freeCount := s2.table.freeCount + 1
      openCount := if wasOpen then s2.table.openCount - 1 else s2.table.openCount } }

/-! ## Ending an entry -/

/-- An open entry becomes PROVISIONED or VOID, written in place: key slot and owner absent, open
count down, key spent (R37, R69). -/
def State.closeEntry (s : State) (c : Nat) (e : Entry) (final : EntryState) : State :=
  let s1 := s.writeEntry c { e with state := final, slot := none, owner := none }
  { s1 with table := { s1.table with openCount := s1.table.openCount - 1 } }.spendKey e.keyNo

/-- An open entry becomes VOID with a reason, and a VOIDED journal entry is appended (R88, R95, R102,
R107, R112 to R115, R133, R136, R141). -/
def State.voidEntry (s : State) (c : Nat) (e : Entry) (reason : Reason)
    (origin : Option (Station × Site)) (counts : Option (Nat × Nat)) : State :=
  (s.closeEntry c e .void).appendOutcome e .voided origin (some reason) counts

/-- An entry's key is withdrawn with a reason, a KEY_WITHDRAWN journal entry appended and the entry
removed (R35, R74, R88, R107, R136, R141). -/
def State.withdrawEntry (s : State) (c : Nat) (pred : Option Nat) (e : Entry) (reason : Reason)
    (origin : Option (Station × Site)) : State :=
  ((s.withdrawKey e.keyNo).appendOutcome e .keyWithdrawn origin (some reason) none).removeEntry
    (bucketOf e.wafer e.x e.y) c pred true

/-- Why a return is a withdrawal, if it is one (R34 rows 1 to 3). -/
def State.returnRefusal (s : State) (e : Entry) : Option Reason :=
  if (s.keySlot e.keyNo).damaged then some .keyDamaged
  else if s.blocked e.batch then some .blocked
  else if Config.returnDepth ≤ s.pool.stack.length then some .returnFull
  else none

/-- A return of the key of an entry ISSUED with attempts 0, with the removal of the entry (R34, R101,
R118): the reason where the key was withdrawn, none where it went on the return stack. -/
def State.returnEntry (s : State) (c : Nat) (pred : Option Nat) (e : Entry)
    (origin : Option (Station × Site)) : Option Reason × State :=
  match s.returnRefusal e with
  | some reason => (some reason, s.withdrawEntry c pred e reason origin)
  | none =>
    (none, ((s.pushKey e.keyNo).freeReservation).removeEntry (bucketOf e.wafer e.x e.y) c pred true)

/-- An entry becomes UNCERTAIN, written in place: owner absent, the key kept (R100, R119). -/
def State.makeUncertain (s : State) (c : Nat) (e : Entry) : State :=
  s.writeEntry c { e with state := .uncertain, owner := none }

/-- The owner's site slot becomes REVOKED, keeping its die coordinates (R136, R141). -/
def State.revokeOwner (s : State) (e : Entry) : State :=
  match e.owner with
  | none => s
  | some (st, site) =>
    match s.slot st site with
    | .held x y _ _ => s.setSlot st site (.revoked x y)
    | _ => s

/-- A claim is revoked over its key: at attempts 0 the key is withdrawn and the entry removed, else
the entry becomes VOID; false where the walk for the removal reports DAMAGED (R88, R107), and where it
ends NOT FOUND, of which no rule speaks (log 29). -/
def State.revokeClaim (s : State) (st : Station) (site : Site) (c : Nat) (e : Entry)
    (withdrawn voided : Reason) : Bool × State :=
  if e.attempts = 0 then
    match s.lookup .access e.wafer e.x e.y with
    | (.found c' pred, s1) => (true, s1.withdrawEntry c' pred e withdrawn (some (st, site)))
    | (_, s1) => (false, s1)
  else (true, s.voidEntry c e voided (some (st, site)) none)

/-! ## Lease expiry -/

/-- How a claim taken back ended on its entry (R117, R123). -/
inductive ClaimEnd where
  | released
  | uncertain
  | unreachable
  deriving DecidableEq, Repr

/-- What a lease expiry or a STATION RESET does to the entry of a HELD slot (R117 to R120, R123). An
entry that is neither ISSUED nor BURNING, which R14 rules out, counts as unreachable (log 11), and so
does one that the removal's walk does not find (log 29). -/
def State.endClaim (s : State) (st : Station) (site : Site) (c : Nat) : ClaimEnd × State :=
  match s.access .access c with
  | (none, s1) => (.unreachable, s1)
  | (some e, s1) =>
    match e.state with
    | .burning => (.uncertain, s1.makeUncertain c e)
    | .issued =>
      if e.attempts = 0 then
        match s1.lookup .access e.wafer e.x e.y with
        | (.found c' pred, s2) => (.released, (s2.returnEntry c' pred e (some (st, site))).2)
        | (_, s2) => (.unreachable, s2)
      else (.uncertain, s1.makeUncertain c e)
    | _ => (.unreachable, s1)

/-- The lease expiry of a HELD slot (R117). -/
def State.expire (s : State) (st : Station) (site : Site) : State :=
  match s.slot st site with
  | .held x y c _ => (s.endClaim st site c).2.setSlot st site (.expired x y)
  | _ => s

/-- Whether a slot's lease has reached 0 and its expiry is not yet taken (R15). -/
def State.expiryDue (s : State) (st : Station) (site : Site) : Bool :=
  match s.slot st site with
  | .held _ _ _ lease => lease = 0
  | _ => false

/-- The 64 sites in the order of R15: ascending station, then ascending site. -/
def allSites : List (Station × Site) :=
  (List.finRange 4).flatMap fun st => (List.finRange 16).map fun site => (st, site)

/-- Takes every expiry that is due, in the order of R15, each on the state the ones before left. -/
def State.settleExpiries (s : State) : State :=
  allSites.foldl (fun s p => if s.expiryDue p.1 p.2 then s.expire p.1 p.2 else s) s

/-- A slot's lease one unit down (R15). -/
def Slot.tick : Slot → Slot
  | .held x y c lease => .held x y c (lease - 1)
  | v => v

/-- A boundary's decrements: every HELD slot's lease falls by one while the timer runs (R15). -/
def State.countDown (s : State) : State :=
  if s.lotLive then
    { s with stations := s.stations.map fun t => { t with slots := t.slots.map Slot.tick } }
  else s

/-- A boundary that fell while the engine was busy: decrements, then the expiries (R15). -/
def State.boundary (s : State) : State := s.countDown.settleExpiries

/-- `n` boundaries one after another. -/
def State.boundaries : Nat → State → State
  | 0, s => s
  | n + 1, s => State.boundaries n s.boundary

/-- The boundaries held back by item `k` are applied when it ends (R15). -/
def State.endItem (s : State) (k : Nat) : State :=
  State.boundaries (s.deferred.count k) { s with deferred := s.deferred.filter (· ≠ k) }

/-- The boundaries held back by a request or step are applied when it ends (R15). -/
def State.endWork (s : State) : State :=
  State.boundaries s.deferred.length { s with deferred := [] }

/-! ## Link Units -/

/-- A link's place among the five Link Units. -/
def linkNo : Link → Fin 5
  | .station st => st.castSucc
  | .lot => 4

/-- A Link Unit. -/
def State.link (s : State) (l : Link) : LinkUnit := s.links[linkNo l]

/-- Replaces a Link Unit. -/
def State.setLink (s : State) (l : Link) (u : LinkUnit) : State :=
  { s with links := s.links.set (linkNo l) u }

/-- A link-level reply joins the tail of the reply queue, unless it would be a fourth one waiting
(R164, R165). One that is being sent counts among the waiting ones until it has left (log 30). -/
def State.linkReply (s : State) (l : Link) (kind : Byte) (c : Code) : State :=
  if Config.linkReplyLimit ≤ ((s.link l).replies.filter (·.linkLevel)).length then s
  else s.setLink l { s.link l with replies := (s.link l).replies ++ [⟨kind, .code c, true, false⟩] }

/-- A request is placed before the arbiter and the outstanding flag set (R164 check 6, R166). -/
def State.place (s : State) (l : Link) (r : Request) : State :=
  s.setLink l { s.link l with outstanding := true, request := some r }

/-- Whether a reply reports the SWEEP_DONE latch as the state has it (R10). -/
def State.reportsDone (s : State) : ReplyBody → Bool
  | .lotStatus _ => s.sweeps.sweepDone
  | _ => false

/-- The engine places a request's reply and the outstanding flag is cleared (R166); the grant of the
request has made room for it (R165). -/
def State.reply (s : State) (l : Link) (kind : Byte) (body : ReplyBody) : State :=
  s.setLink l { s.link l with
    replies := (s.link l).replies ++ [⟨kind, body, false, s.reportsDone body⟩]
    outstanding := false }

/-- The oldest reply of a link has been sent; a LOT STATUS reply that reports the SWEEP_DONE latch
clears it (R10, R143, R165, log 16). Until then the reply stands in the queue, the one being sent
included (log 30). -/
def State.sent (s : State) (l : Link) : State :=
  match (s.link l).replies with
  | [] => s
  | r :: rest =>
    let s1 := s.setLink l { s.link l with replies := rest }
    if r.clearsDone then { s1 with sweeps := { s1.sweeps with sweepDone := false } } else s1

/-- Whether a request reply, made by the engine, waits in a link's queue (R165). -/
def State.replyWaits (s : State) (l : Link) : Bool := (s.link l).replies.any (!·.linkLevel)

/-- Replies are sent, oldest first, until no request reply waits; `fuel` bounds the sendings by the
replies there are. -/
def State.sendAhead (l : Link) : Nat → State → State
  | 0, s => s
  | fuel + 1, s => if s.replyWaits l then State.sendAhead l fuel (s.sent l) else s

/-- Room for the reply of a link's next request: the queue holds at most one request reply (R165), so
the one before has been sent when the engine grants the next request of the link (log 14). -/
def State.makeRoom (s : State) (l : Link) : State :=
  State.sendAhead l (s.link l).replies.length s

/-- Whether a request comes on the kind of link that it belongs to (R164 check 5). -/
def permitted (l : Link) (r : Request) : Bool := isLotRequest r == decide (l = .lot)

/-- The Link Unit's decision on a frame at its arrival (R164). `bytes` are the frame's, check word
included. -/
def State.frameArrived (s : State) (l : Link) (bytes : List Byte) (bad : Bool) : State :=
  let kind := byteAt bytes 0
  let front := bytes.take (bytes.length - 2)
  if bad then s.linkReply l kind .frameCheck
  else if twoSum front ≠ halfAt bytes (bytes.length - 2) then s.linkReply l kind .frameCheck
  else if (s.link l).outstanding then s.linkReply l kind .linkBusy
  else match readRequest kind (front.drop 3) with
    | none => s.linkReply l kind .format
    | some r => if permitted l r then s.place l r else s.linkReply l kind .notPermitted

/-- The receive framer of a link takes a new state. -/
def State.setRx (s : State) (l : Link) (rx : RxState) : State :=
  s.setLink l { s.link l with rx := rx }

/-- A byte arrives on a link (R163): discarded while hunting, the kind of a new frame when ready,
else collected; the frame may then be cut off by its length or be complete. -/
def State.rxByte (s : State) (l : Link) (badStop : Bool) (b : Byte) : State :=
  match (s.link l).rx with
  | .hunting => s
  | .ready => s.setRx l (.inFrame [b] badStop)
  | .inFrame bs bad =>
    let bytes := bs ++ [b]
    let marked := bad || badStop
    if bytes.length = 3 ∧ Config.bodyLimit < fieldOf bytes 1 2 then
      (s.setRx l .hunting).linkReply l (byteAt bytes 0) .format
    else if 3 ≤ bytes.length ∧ bytes.length = 5 + fieldOf bytes 1 2 then
      (s.setRx l .hunting).frameArrived l bytes marked
    else s.setRx l (.inFrame bytes marked)

/-- Bytes arrive on a link one after another. -/
def State.rxBytes (s : State) (l : Link) (bytes : List Byte) : State :=
  bytes.foldl (fun s b => s.rxByte l false b) s

/-! ## Sweeps and the arbiter -/

/-- The step that the Sweep Controller offers (R129). -/
def State.offer (s : State) : Option SweepStep :=
  match s.lot.state with
  | .closing => if s.sweeps.scrubActive then some .scrub else none
  | .opened | .locked =>
    if s.sweeps.quarantine.active then
      if s.sweeps.quarantine.waiting then none else some .quarantine
    else if s.sweeps.purge.active then some .purge
    else if s.sweeps.audit.active then
      match s.sweeps.audit.phase with
      | .table => some .auditTable
      | .pool => some .auditPool
    else none
  | .init | .idle => none

/-- Sets the SWEEP_DONE latch. A LOT STATUS reply that was built before does not clear what is
latched after it (R10, R143). -/
def State.latchDone (s : State) : State :=
  let s1 := { s with sweeps := { s.sweeps with sweepDone := true } }
  s1.setLink .lot { s1.link .lot with
    replies := (s1.link .lot).replies.map fun r => { r with clearsDone := false } }

/-- The arbiter's fixed cyclic order (R167). -/
def arbiterOrder : List Requester :=
  [.link (.station 0), .link (.station 1), .link (.station 2), .link (.station 3), .link .lot, .sweep]

/-- The requester just after one in the cyclic order (R167). -/
def Requester.after : Requester → Requester
  | .link (.station st) => if h : st.val < 3 then .link (.station ⟨st.val + 1, by omega⟩) else .link .lot
  | .link .lot => .sweep
  | .sweep => .link (.station 0)

/-- The cyclic order from a requester on (R167). -/
def orderFrom (p : Requester) : List Requester :=
  arbiterOrder.dropWhile (· ≠ p) ++ arbiterOrder.takeWhile (· ≠ p)

/-- Whether a requester holds a request or step (R167). -/
def State.holds (s : State) : Requester → Bool
  | .link l => (s.link l).request.isSome
  | .sweep => s.offer.isSome

/-- The requester that the arbiter grants the engine to, if one holds anything (R167). -/
def State.nextGrant (s : State) : Option Requester := (orderFrom s.arbiter).find? s.holds

/-- What the Link Unit does with a request that reaches it whole: checks 3 and 4 of R164, then the
request is placed (log 2). -/
def State.submit (s : State) (l : Link) (r : Request) : State :=
  if (s.link l).outstanding then s.linkReply l (kindOf r) .linkBusy
  else if !r.wf then s.linkReply l (kindOf r) .format
  else s.place l r

/-- An answer of a single outcome that changes nothing. -/
def answer (s : State) (c : Code) : Option ReplyBody × State := (some (.code c), s)

/-- What the grant of a link's request does before the request is decided: the arbiter's pointer moves
to the requester just after the link, and the link holds no request any more (R167). -/
def State.taken (s : State) (l : Link) : State :=
  { s with
    arbiter := (Requester.link l).after
    links := s.links.set (linkNo l) { s.link l with request := none } }

/-- The engine tests the lot state (R2); a request that passes is decided by its own rule `act`. -/
def State.decideRequest (s : State) (r : Request) (act : State → Option ReplyBody × State) :
    Option ReplyBody × State :=
  match lotGate s.lot.state r with
  | some c => answer s c
  | none => act s

/-- The reply, where there is one, is placed as the grant ends (R166). -/
def placeReply (l : Link) (kind : Byte) (out : Option ReplyBody × State) : State :=
  match out.1 with
  | some body => out.2.reply l kind body
  | none => out.2

/-- The grant of a request (R166, R167): an accepted LOT CLOSE alone gives no reply. -/
def State.grant (s : State) (l : Link) (r : Request) (act : State → Option ReplyBody × State) :
    State :=
  (placeReply l (kindOf r) ((s.taken l).decideRequest r act)).endWork

/-- A request command: the expiries that are due come first (R15); a request that its link does not
hold yet is brought to the Link Unit; and if the arbiter's next grant is its link's, it is granted, once
the link's queue has room for its reply. Otherwise it waits (logs 2, 4 and 14). -/
def State.request (s : State) (l : Link) (r : Request) (act : State → Option ReplyBody × State) :
    State :=
  let s0 := s.settleExpiries
  let s1 := if (s0.link l).request = some r then s0 else s0.submit l r
  if (s1.link l).request = some r ∧ s1.nextGrant = some (.link l) then (s1.makeRoom l).grant l r act else s1

/-- A sweep step command: the expiries that are due come first; the step runs if the Sweep Controller
offers it and the arbiter grants the sweep requester (R129, R167). A step that is not granted is not
taken, and nothing changes (log 3). -/
def State.sweepStep (s : State) (k : SweepStep) (act : State → State) : State :=
  let s0 := s.settleExpiries
  if s0.offer = some k ∧ s0.nextGrant = some .sweep then
    (act { s0 with arbiter := Requester.sweep.after }).endWork
  else s0

/-- Takes the items of a list request in order, each on the state the ones before left; the
boundaries that fell during an item are applied when it ends (R15, R16). -/
def runItems {α : Type} (f : Nat → α → State → ItemOutcome × State) :
    Nat → List α → State → List ItemOutcome × State
  | _, [], s => ([], s)
  | k, a :: rest, s =>
    let one := f k a s
    let more := runItems f (k + 1) rest (one.2.endItem k)
    (one.1 :: more.1, more.2)

/-- A list reply (R169). -/
def listReply (r : List ItemOutcome × State) : Option ReplyBody × State := (some (.items r.1), r.2)

/-- What an item's site byte comes to under R16. -/
inductive SiteCheck where
  /-- the item ends with this outcome -/
  | ended (c : Code)
  | free (site : Site)
  | held (site : Site) (x y : Byte) (entry : Nat)
  deriving DecidableEq, Repr

/-- R16: an item settles its site before any check of its own. A REVOKED or EXPIRED slot answers its
notice and becomes FREE. -/
def State.siteCheck (s : State) (st : Station) (b : Byte) : SiteCheck × State :=
  match siteOf b with
  | none => (.ended .outOfRange, s)
  | some site =>
    match s.slot st site with
    | .revoked _ _ => (.ended .revoked, s.setSlot st site .free)
    | .expired _ _ => (.ended .expired, s.setSlot st site .free)
    | .free => (.free site, s)
    | .held x y c _ => (.held site x y c, s)

/-- An item's outcome without data. -/
def plainItem (site : Byte) (c : Code) : ItemOutcome := ⟨site, c, .none⟩

/-- The item is answered and its site slot becomes FREE (R87, R88, R100, R102, R106, R111). -/
def State.freeSite (s : State) (st : Station) (site : Site) (out : ItemOutcome) :
    ItemOutcome × State := (out, s.setSlot st site .free)

end Sys2Proof.Machine
end

