-- ==== Sys2Proof/Machine/Burning.lean ====
section
/-! DEFINITION. BURN BEGIN (R105 to R108), BURN RESULT (R109 to R115), the lease timer's tick (R15) and
the lease expiry as a step of its own (R117). -/

namespace Sys2Proof.Machine

/-- A BURN BEGIN item whose key fails a test: the claim is revoked (R107; a removal's walk that ends NOT
FOUND: log 29). -/
def revokeBurn (st : Station) (site : Site) (b : Byte) (c : Nat) (e : Entry)
    (withdrawn voided : Reason) (s : State) : ItemOutcome × State :=
  let done := s.revokeClaim st site c e withdrawn voided
  done.2.freeSite st site (plainItem b (if done.1 then .revoked else .bucketDamaged))

/-- An accepted BURN BEGIN item (R108). -/
def acceptBurn (st : Station) (site : Site) (b x y : Byte) (c : Nat) (e : Entry) (s : State) :
    ItemOutcome × State :=
  let s1 := s.writeEntry c { e with state := .burning, attempts := e.attempts + 1 }
  (⟨b, .ok, .attempts (e.attempts + 1)⟩, s1.setSlot st site (.held x y c s1.limits.burnLease))

/-- The key tests of a BURN BEGIN item on an ISSUED entry (R106). -/
def burnIssued (st : Station) (site : Site) (b x y : Byte) (c : Nat) (e : Entry) (s : State) :
    ItemOutcome × State :=
  if s.blocked e.batch then revokeBurn st site b c e .blocked .quarantine s
  else
    let s1 := s.checkKey e.keyNo .access
    if (s1.keySlot e.keyNo).damaged then revokeBurn st site b c e .keyDamaged .keyDamaged s1
    else acceptBurn st site b x y c e s1

/-- One BURN BEGIN item (R106). -/
def burnBeginItem (st : Station) (_ : Nat) (b : Byte) (s : State) : ItemOutcome × State :=
  match s.siteCheck st b with
  | (.ended c, s1) => (plainItem b c, s1)
  | (.free _, s1) => (plainItem b .siteIdle, s1)
  | (.held site x y c, s1) =>
    match s1.access .access c with
    | (none, s2) => s2.freeSite st site (plainItem b .bucketDamaged)
    | (some e, s2) =>
      match e.state with
      | .issued => burnIssued st site b x y c e s2
      -- BURNING (R106); the other states never stand behind a HELD slot (R14, log 11)
      | _ => (plainItem b .wrongState, s2)

/-- The rule of BURN BEGIN (R105). -/
def burnBeginRule (st : Station) (sites : List Byte) (s : State) : Option ReplyBody × State :=
  listReply (runItems (burnBeginItem st) 0 sites s)

/-- A BURN RESULT item over a blocked or damaged key (R112). -/
def resultRevoked (st : Station) (site : Site) (b : Byte) (c : Nat) (e : Entry) (reason : Reason)
    (missing extra : Nat) (s : State) : ItemOutcome × State :=
  (s.voidEntry c e reason (some (st, site)) (some (missing, extra))).freeSite st site
    (plainItem b .revoked)

/-- A BURN RESULT item judged pass (R113). -/
def resultPass (st : Station) (site : Site) (b : Byte) (c : Nat) (e : Entry) (s : State) :
    ItemOutcome × State :=
  ((s.closeEntry c e .provisioned).appendOutcome e .provisioned (some (st, site)) none
    (some (0, 0))).freeSite st site ⟨b, .provisioned, .serial e.serial e.digit e.cls⟩

/-- A BURN RESULT item that ends the die VOID with both counts (R114, R115). -/
def resultVoided (st : Station) (site : Site) (b : Byte) (c : Nat) (e : Entry) (reason : Reason)
    (missing extra : Nat) (s : State) : ItemOutcome × State :=
  (s.voidEntry c e reason (some (st, site)) (some (missing, extra))).freeSite st site
    ⟨b, .voided, .voided reason missing extra⟩

/-- A BURN RESULT item judged partial below the attempt limit (R114). -/
def resultPartial (st : Station) (site : Site) (b x y : Byte) (c : Nat) (e : Entry) (missing : Nat)
    (s : State) : ItemOutcome × State :=
  let s1 := s.writeEntry c { e with state := .issued }
  (⟨b, .partialBurn, .missing missing e.attempts⟩,
    s1.setSlot st site (.held x y c s1.limits.claimLease))

/-- A BURN RESULT item on a BURNING entry: the key is read, then blocked batch, damaged key and the
judgement of R109 in order (R111). -/
def judgeBurn (st : Station) (site : Site) (b x y : Byte) (image : Key) (c : Nat) (e : Entry)
    (s : State) : ItemOutcome × State :=
  let key := (s.keyAt e.keyNo).key
  let s1 := s.checkKey e.keyNo .access
  let missing := missingBits key image
  let extra := extraBits key image
  if s1.blocked e.batch then resultRevoked st site b c e .quarantine missing extra s1
  else if (s1.keySlot e.keyNo).damaged then resultRevoked st site b c e .keyDamaged missing extra s1
  else if 0 < extra then resultVoided st site b c e .spoiled missing extra s1
  else if missing = 0 then resultPass st site b c e s1
  else if e.attempts.toNat = s1.limits.attemptLimit then
    resultVoided st site b c e .attempts missing extra s1
  else resultPartial st site b x y c e missing s1

/-- One BURN RESULT item (R111). -/
def burnResultItem (st : Station) (_ : Nat) (i : ResultItem) (s : State) : ItemOutcome × State :=
  match s.siteCheck st i.site with
  | (.ended c, s1) => (plainItem i.site c, s1)
  | (.free _, s1) => (plainItem i.site .siteIdle, s1)
  | (.held site x y c, s1) =>
    match s1.access .access c with
    | (none, s2) => s2.freeSite st site (plainItem i.site .bucketDamaged)
    | (some e, s2) =>
      match e.state with
      | .burning => judgeBurn st site i.site x y i.image c e s2
      -- ISSUED (R111); the other states never stand behind a HELD slot (R14, log 11)
      | _ => (plainItem i.site .wrongState, s2)

/-- The rule of BURN RESULT (R110). -/
def burnResultRule (st : Station) (items : List ResultItem) (s : State) :
    Option ReplyBody × State :=
  listReply (runItems (burnResultItem st) 0 items s)

/-- BURN_BEGIN (R106). -/
def execBurnBegin (st : Station) (sites : List Byte) (s : State) :
    Host.Outcome State Fault Refusal :=
  .next (s.request (.station st) (.burnBegin sites) (burnBeginRule st sites))

/-- BURN_RESULT (R111). -/
def execBurnResult (st : Station) (items : List ResultItem) (s : State) :
    Host.Outcome State Fault Refusal :=
  .next (s.request (.station st) (.burnResult items) (burnResultRule st items))

/-- LEASE_TIMER_TICK (R15). A boundary with the engine free is applied at once: expiries still due
from the boundary before come first, then every HELD slot's lease falls by one, and a slot that
reaches 0 awaits its LEASE_EXPIRY (log 5). A boundary that falls during item k of the next grant is
held back until that item ends (log 6). -/
def execLeaseTimerTick (during : Option Nat) (s : State) : Host.Outcome State Fault Refusal :=
  match during with
  | none => .next s.settleExpiries.countDown
  | some k => .next { s with deferred := s.deferred ++ [k] }

/-- LEASE_EXPIRY of a slot whose lease has reached 0 (R117), in the order of R15: expiries due at
sites before it are taken first. A slot whose lease has not reached 0 does not expire (log 3). -/
def execLeaseExpiry (st : Station) (site : Site) (s : State) : Host.Outcome State Fault Refusal :=
  if s.expiryDue st site then
    .next (((allSites.takeWhile (· ≠ (st, site))).foldl
      (fun s p => if s.expiryDue p.1 p.2 then s.expire p.1 p.2 else s) s).expire st site)
  else .next s

end Sys2Proof.Machine
end

