-- ==== Sys2Proof/Machine/Claiming.lean ====
section
/-! DEFINITION. CLAIM with its ordered checks (R82 to R99), RELEASE (R100, R101) and ABANDON (R102). -/

namespace Sys2Proof.Machine

/-! ## Serial allocation (R46, R48) -/

/-- A unit advances next; the carry out of the top digit sets the overflow mark (R46). -/
def SerialUnit.advance (u : SerialUnit) : SerialUnit :=
  match u.next with
  | none => u
  | some n =>
    if n = Config.serialMax then { u with next := some 0, overflow := true }
    else { u with next := some (n + 1) }

/-- Allocation step 1: a next of check value 10 is passed over (R48). -/
def SerialUnit.passOver (u : SerialUnit) : SerialUnit :=
  match u.next with
  | some n => if checkValue n = 10 then { u.advance with skipped := satAdd u.skipped } else u
  | none => u

/-- Allocation takes one serial from a unit (R48). -/
def SerialUnit.allocate (u : SerialUnit) : Nat × SerialUnit :=
  let v := u.passOver
  (v.next.getD 0, { v.advance with issued := satAdd v.issued })

/-- Replaces the unit of a class. -/
def State.setUnit (s : State) (c : SerialClass) (u : SerialUnit) : State :=
  match c with
  | .p => { s with unitP := u }
  | .e => { s with unitE := u }

/-! ## The site check (R85 to R88) -/

/-- The key data that an ISSUED or REISSUED item carries (R99). -/
def keyGrantOf (e : Entry) (key : Key) : KeyGrant :=
  ⟨e.batch, e.index, key, e.serial, e.digit, e.cls, e.attempts⟩

/-- A repeat whose key slot carries the damaged mark (R88, R87; a walk that ends NOT FOUND: log 29). -/
def repeatOnDamaged (st : Station) (site : Site) (b : Byte) (c : Nat) (e : Entry) (s : State) :
    ItemOutcome × State :=
  let done := s.revokeClaim st site c e .keyDamaged .keyDamaged
  done.2.freeSite st site (plainItem b (if done.1 then .revoked else .bucketDamaged))

/-- A claim item on its own HELD site and die (R85, R86). -/
def claimRepeat (st : Station) (site : Site) (b x y : Byte) (c : Nat) (s : State) :
    ItemOutcome × State :=
  match s.access .access c with
  | (none, s1) => s1.freeSite st site (plainItem b .bucketDamaged)
  | (some e, s1) =>
    match e.state with
    | .issued =>
      let s2 := s1.checkKey e.keyNo .access
      if (s2.keySlot e.keyNo).damaged then repeatOnDamaged st site b c e s2
      else (⟨b, .reissued, .grant (keyGrantOf e (s2.keyAt e.keyNo).key)⟩,
        s2.setSlot st site (.held x y c s2.limits.claimLease))
    -- BURNING (R85); the other states never stand behind a HELD slot (R14, log 11)
    | _ => (plainItem b .wrongState, s1)

/-! ## The existing entry (R93 to R95) -/

/-- A claim item voids an UNCERTAIN entry (R95). -/
def voidUncertain (st : Station) (site : Site) (b : Byte) (c : Nat) (e : Entry) (reason : Reason)
    (s : State) : ItemOutcome × State :=
  (plainItem b .dieVoid, s.voidEntry c e reason (some (st, site)) none)

/-- The takeover tests on an UNCERTAIN entry, in order (R94). -/
def takeover (st : Station) (site : Site) (b x y : Byte) (c : Nat) (e : Entry) (s : State) :
    ItemOutcome × State :=
  if s.blocked e.batch then voidUncertain st site b c e .quarantine s
  else
    let s1 := s.checkKey e.keyNo .access
    if (s1.keySlot e.keyNo).damaged then voidUncertain st site b c e .keyDamaged s1
    else if e.attempts.toNat = s1.limits.attemptLimit then voidUncertain st site b c e .attempts s1
    else
      let s2 := s1.writeEntry c { e with state := .issued, owner := some (st, site) }
      (⟨b, .reissued, .grant (keyGrantOf e (s1.keyAt e.keyNo).key)⟩,
        s2.setSlot st site (.held x y c s2.limits.claimLease))

/-- A claim item whose lookup found an entry (R93). -/
def claimExisting (st : Station) (site : Site) (b x y : Byte) (c : Nat) (s : State) :
    ItemOutcome × State :=
  let e := s.entryAt c
  match e.state with
  | .issued | .burning => (plainItem b .heldElsewhere, s)
  | .uncertain => takeover st site b x y c e s
  | .provisioned => (⟨b, .alreadyProvisioned, .serial e.serial e.digit e.cls⟩, s)
  | .void => (plainItem b .dieVoid, s)

/-! ## Resources, allocation and commit (R96 to R98) -/

/-- The first resource test that fails (R96). -/
def resourceRefusal (cls : SerialClass) (s : State) : Option Code :=
  if s.table.free.isEmpty then some .tableFull
  else if (s.unit cls).exhausted then some .serialExhausted
  else if Config.journalPlaces ≤ s.journalSum then some .journalFull
  else if s.candidates = 0 then some .poolEmpty
  else none

/-- The entry that a commit inserts (R98 step 2). -/
def newEntry (st : Station) (site : Site) (wafer x y : Byte) (cls : SerialClass) (n : Nat)
    (k : KeyCell) (serial : Nat) : Entry :=
  { wafer := wafer, x := x, y := y, state := .issued, batch := k.batch, index := k.index
    slot := if h : n < 8192 then some ⟨n, h⟩ else none
    serial := packSerial serial, digit := BitVec.ofNat 8 (checkValue serial), cls := cls
    owner := some (st, site), attempts := 0, noted := 0 }

/-- A claim item answered ISSUED locks an OPEN lot (R7). -/
def State.lockLot (s : State) : State :=
  if s.lot.state = .opened then { s with lot := { s.lot with state := .locked, lock := true } } else s

/-- The commit of a claim item with the key slot that allocation chose (R98). -/
def commitClaim (st : Station) (site : Site) (b wafer x y : Byte) (cls : SerialClass) (h length : Nat)
    (last : Option Nat) (n : Nat) (k : KeyCell) (s : State) : ItemOutcome × State :=
  let unit := (s.unit cls).allocate
  let e := newEntry st site wafer x y cls n k unit.1
  let cell := s.table.free.headD 0
  let s1 := (s.setUnit cls unit.2).insertEntry h length last e
  let s2 := { s1 with journal := { s1.journal with reservations := s1.journal.reservations + 1 } }
  let s3 := s2.bindKey n cell
  let s4 := s3.setSlot st site (.held x y cell s3.limits.claimLease)
  (⟨b, .issued, .grant (keyGrantOf e k.key)⟩, s4.lockLot)

/-- A claim item whose lookup reported NOT FOUND: resources, allocation, commit (R96 to R98). -/
def claimNew (st : Station) (site : Site) (b wafer x y : Byte) (cls : SerialClass) (length : Nat)
    (last : Option Nat) (s : State) : ItemOutcome × State :=
  match resourceRefusal cls s with
  | some c => (plainItem b c, s)
  | none =>
    match s.allocateKey s.candidates with
    | (none, s1) => (plainItem b .poolEmpty, s1)
    | (some (n, k), s1) =>
      commitClaim st site b wafer x y cls (bucketOf wafer x y) length last n k s1

/-! ## CLAIM -/

/-- The bucket check and the existing-entry check (R92, R93). -/
def claimBucket (st : Station) (site : Site) (b wafer x y : Byte) (cls : SerialClass) (s : State) :
    ItemOutcome × State :=
  let h := bucketOf wafer x y
  if s.headFault h then (plainItem b .bucketDamaged, s.tableFault (.head h) .link .access)
  else if (s.head h).damaged then (plainItem b .bucketDamaged, s)
  else
    match s.lookup .access wafer x y with
    | (.notFound length last, s1) => claimNew st site b wafer x y cls length last s1
    | (.found c _, s1) => claimExisting st site b x y c s1
    | (_, s1) => (plainItem b .bucketDamaged, s1)

/-- A claim item on a FREE site: wafer, duplicate, halt and rules (R89 to R91, R59), then the bucket.
`earlier` are the items of the same CLAIM before it. -/
def claimFree (st : Station) (site : Site) (i : ClaimItem) (earlier : List ClaimItem) (s : State) :
    ItemOutcome × State :=
  match s.stations[st].attached with
  | none => (plainItem i.site .noWafer, s)
  | some wafer =>
    if earlier.any (fun j => j.x = i.x && j.y = i.y) then (plainItem i.site .duplicateInSet, s)
    else if s.check.halt then (plainItem i.site .issueHalted, s)
    else match s.decision wafer i.x i.y with
      | .exclude => (plainItem i.site .excluded, s)
      | .cls cls => claimBucket st site i.site wafer i.x i.y cls s

/-- One CLAIM item, the k-th of its list (R83). -/
def claimItem (st : Station) (items : List ClaimItem) (k : Nat) (i : ClaimItem) (s : State) :
    ItemOutcome × State :=
  match s.siteCheck st i.site with
  | (.ended c, s1) => (plainItem i.site c, s1)
  | (.held site x y c, s1) =>
    if x = i.x ∧ y = i.y then claimRepeat st site i.site x y c s1
    else (plainItem i.site .siteBusy, s1)
  | (.free site, s1) => claimFree st site i (items.take k) s1

/-- The rule of CLAIM (R82, R83). -/
def claimRule (st : Station) (items : List ClaimItem) (s : State) : Option ReplyBody × State :=
  listReply (runItems (claimItem st items) 0 items s)

/-! ## RELEASE and ABANDON -/

/-- A RELEASE item on an ISSUED entry with attempts 0 (R101). A walk that ends NOT FOUND, of which no rule
speaks, is answered as one that ends DAMAGED (R87, log 29). -/
def releaseUnburned (st : Station) (site : Site) (b : Byte) (e : Entry) (s : State) :
    ItemOutcome × State :=
  match s.lookup .access e.wafer e.x e.y with
  | (.found c pred, s1) =>
    let done := s1.returnEntry c pred e (some (st, site))
    done.2.freeSite st site ⟨b, .released, .disposition done.1⟩
  | (_, s1) => s1.freeSite st site (plainItem b .bucketDamaged)

/-- One RELEASE item (R100). -/
def releaseItem (st : Station) (_ : Nat) (b : Byte) (s : State) : ItemOutcome × State :=
  match s.siteCheck st b with
  | (.ended c, s1) => (plainItem b c, s1)
  | (.free _, s1) => (plainItem b .siteIdle, s1)
  | (.held site _ _ c, s1) =>
    match s1.access .access c with
    | (none, s2) => s2.freeSite st site (plainItem b .bucketDamaged)
    | (some e, s2) =>
      match e.state with
      | .issued =>
        if e.attempts = 0 then releaseUnburned st site b e s2
        else (s2.makeUncertain c e).freeSite st site (plainItem b .releasedUncertain)
      -- BURNING (R100); the other states never stand behind a HELD slot (R14, log 11)
      | _ => (plainItem b .wrongState, s2)

/-- The rule of RELEASE (R100). -/
def releaseRule (st : Station) (sites : List Byte) (s : State) : Option ReplyBody × State :=
  listReply (runItems (releaseItem st) 0 sites s)

/-- One ABANDON item (R102). -/
def abandonItem (st : Station) (_ : Nat) (b : Byte) (s : State) : ItemOutcome × State :=
  match s.siteCheck st b with
  | (.ended c, s1) => (plainItem b c, s1)
  | (.free _, s1) => (plainItem b .siteIdle, s1)
  | (.held site _ _ c, s1) =>
    match s1.access .access c with
    | (none, s2) => s2.freeSite st site (plainItem b .bucketDamaged)
    | (some e, s2) =>
      match e.state with
      | .issued | .burning =>
        (s2.voidEntry c e .abandoned (some (st, site)) none).freeSite st site (plainItem b .voided)
      -- no other state stands behind a HELD slot (R14, log 11)
      | _ => (plainItem b .wrongState, s2)

/-- The rule of ABANDON (R102). -/
def abandonRule (st : Station) (sites : List Byte) (s : State) : Option ReplyBody × State :=
  listReply (runItems (abandonItem st) 0 sites s)

/-- CLAIM (R83). -/
def execClaim (st : Station) (items : List ClaimItem) (s : State) :
    Host.Outcome State Fault Refusal :=
  .next (s.request (.station st) (.claim items) (claimRule st items))

/-- RELEASE (R100). -/
def execRelease (st : Station) (sites : List Byte) (s : State) :
    Host.Outcome State Fault Refusal :=
  .next (s.request (.station st) (.release sites) (releaseRule st sites))

/-- ABANDON (R102). -/
def execAbandon (st : Station) (sites : List Byte) (s : State) :
    Host.Outcome State Fault Refusal :=
  .next (s.request (.station st) (.abandon sites) (abandonRule st sites))

end Sys2Proof.Machine
end

