-- ==== Sys2Proof/Machine/Links.lean ====
section
/-! DEFINITION. The events of a link: a byte, a whole frame, an idle gap, a length too great, a byte
framing error and a reply sent (R163 to R165). Machine/Ops.lean holds the framer, the Link Unit's decision on a
frame and the sending of a reply. -/

namespace Sys2Proof.Machine

/-- The line has been idle for 2 byte times: a hunting framer becomes READY; a frame still being
collected is truncated and answered FRAME_CHECK with its kind (R163, R164). -/
def State.gap (s : State) (l : Link) : State :=
  match (s.link l).rx with
  | .hunting => s.setRx l .ready
  | .ready => s
  | .inFrame bs _ => (s.setRx l .ready).linkReply l (byteAt bs 0) .frameCheck

/-- FRAME_ARRIVAL: the bytes given arrive on a link; where the last of them completes a frame, the Link
Unit decides it (R163, R164, log 20). -/
def execFrameArrival (l : Link) (bytes : List Byte) (s : State) : Host.Outcome State Fault Refusal :=
  .next (s.rxBytes l bytes)

/-- IDLE_GAP (R163). -/
def execIdleGap (l : Link) (s : State) : Host.Outcome State Fault Refusal := .next (s.gap l)

/-- LENGTH_TOO_GREAT: the two length bytes arrive; where they are a frame's and give a body length above
1219, the frame is answered FORMAT and the framer hunts (R163). -/
def execLengthTooGreat (l : Link) (high low : Byte) (s : State) :
    Host.Outcome State Fault Refusal := .next (s.rxBytes l [high, low])

/-- REPLY_FRAME_SENT (R165). -/
def execReplyFrameSent (l : Link) (s : State) : Host.Outcome State Fault Refusal := .next (s.sent l)

/-- FRAME_START: a byte arrives; at a READY framer it is the kind of a new frame (R163). -/
def execFrameStart (l : Link) (b : Byte) (s : State) : Host.Outcome State Fault Refusal :=
  .next (s.rxByte l false b)

/-- BYTE_FRAMING_ERROR: a byte arrives with a bad stop bit; the frame it belongs to is marked bad and
still collected (R163, log 19). -/
def execByteFramingError (l : Link) (b : Byte) (s : State) : Host.Outcome State Fault Refusal :=
  .next (s.rxByte l true b)

end Sys2Proof.Machine
end

