-- ==== Sys2Proof/Machine/Lots.lean ====
section
/-! DEFINITION. The lot link's requests on the lot, the pool, the journal and the halt: LOT OPEN (R4),
LOT AMEND (R6), LOT LOCK (R7), LOT CLOSE (R9), LOT STATUS (R10), KEY LOAD (R28, R29), JOURNAL READ
(R151), JOURNAL TAKE (R152) and RESUME (R161). -/

namespace Sys2Proof.Machine

/-! ## Opening, amending and locking -/

/-- A Serial Unit at lot start, or with a replaced window (R6, R43). -/
def SerialUnit.start (w : Option Window) : SerialUnit := ⟨w, w.map (·.first), 0, 0, false⟩

/-- What a BAD_PARAM reply to LOT OPEN or LOT AMEND carries (R3, R56). -/
def refuseParameter (s : State) (p : Nat × Option Nat) : Option ReplyBody × State :=
  (some (.badParameter p.1 p.2), s)

/-- The Issue Table at lot start for a split with K key slots: every head zero, every cell not in
use, every entry cell in the free-entry list in ascending order (R64, R67, R68, R75). -/
def IssueTable.start (keys : Nat) : IssueTable :=
  { IssueTable.absent with
    free := List.range' keys (Config.storeCells - keys)
    freeCount := Config.storeCells - keys }

/-- The lot that an accepted LOT OPEN sets up (R4). -/
def State.openLot (s : State) (name : BitVec 64) (split : Nat) (p : Settled) : State :=
  { s with
    lot := ⟨.opened, false, some ⟨name, split, p.limits⟩, List.replicate Config.wafers .new, []⟩
    stations := Vector.replicate 4 .clear
    pool := .absent
    unitP := .start (some p.windowP)
    unitE := .start p.windowE
    rules := some p.rules
    table := .start (keySlotsOf split)
    journal := .empty }

/-- The rule of LOT OPEN (R4). -/
def lotOpenRule (b : OpenBody) (s : State) : Option ReplyBody × State :=
  if s.lot.state ≠ .idle then answer s .lotOpen
  else match settleOpen b with
    | .error p => refuseParameter s p
    | .ok p =>
      let keys := keySlotsOf b.split.toNat
      (some (.lotOpened b.name b.split.toNat p keys (Config.storeCells - keys)),
        s.openLot b.name b.split.toNat p)

/-- What an accepted LOT AMEND replaces: parameters 3 to 12 at once (R6). -/
def State.amendLot (s : State) (p : Settled) : State :=
  { s with
    lot := { s.lot with params := s.lot.params.map fun q => { q with limits := p.limits } }
    unitP := .start (some p.windowP)
    unitE := .start p.windowE
    rules := some p.rules }

/-- The rule of LOT AMEND (R6). -/
def lotAmendRule (b : AmendBody) (s : State) : Option ReplyBody × State :=
  if s.lot.state ≠ .opened then answer s .lotLocked
  else match settle b s.unitP.next s.unitE.next with
    | .error p => refuseParameter s p
    | .ok p => (some (.lotAmended p), s.amendLot p)

/-- The rule of LOT LOCK (R7). -/
def lotLockRule (s : State) : Option ReplyBody × State :=
  if s.lot.state ≠ .opened then answer s .lotLocked
  else (some (.code .ok), { s with lot := { s.lot with state := .locked, lock := true } })

/-! ## Closing -/

/-- Whether a wafer record is ATTACHED or PURGING (R9 condition 1). -/
def WaferState.inUse : WaferState → Bool
  | .attached _ | .purging => true
  | .new | .detached | .finished => false

/-- The numbers of the close conditions that fail (R9). R9 and 11.6 give the list no order: that it is
ascending is the model's choice (DESIGN CHOICE, log 32). -/
def State.closeFailures (s : State) : List Nat :=
  (if s.lot.wafers.any (·.inUse) then [1] else [])
    ++ (if s.table.openCount ≠ 0 then [2] else [])
    ++ (if s.held ≠ 0 ∨ s.journal.reservations ≠ 0 then [3] else [])
    ++ (if s.sweeps.audit.active || s.sweeps.purge.active || s.sweeps.quarantine.active then [4]
        else [])

/-- The rule of LOT CLOSE: an accepted close gives no reply yet (R9, R144, R166). -/
def lotCloseRule (s : State) : Option ReplyBody × State :=
  match s.closeFailures with
  | [] =>
    (none, { s with
      lot := { s.lot with state := .closing }
      sweeps := { s.sweeps with scrubActive := true, scrubCursor := 0 } })
  | failed => (some (.notClosable failed), s)

/-! ## Lot status -/

/-- The effective parameters 3 to 12 as the lot holds them (R10, R61). -/
def State.settled (s : State) : Settled :=
  ⟨s.unitP.window.getD ⟨0, 0⟩, s.unitE.window, s.limits, s.rules.getD []⟩

/-- A wafer record: its state and, for ATTACHED, the station (11.6). -/
def waferBytes : WaferState → List Byte
  | .new => [0, 0xFF]
  | .attached st => [1, BitVec.ofNat 8 st.val]
  | .detached => [2, 0xFF]
  | .purging => [3, 0xFF]
  | .finished => [4, 0xFF]

/-- A station's part of the report (11.6). -/
def stationBytes (t : StationTable) : List Byte :=
  let count := fun (p : Slot → Bool) => bytesOf 1 (t.slots.toList.filter p).length
  waferByte t.attached :: count Slot.isHeld
    ++ count (fun v => match v with | .revoked _ _ => true | _ => false)
    ++ count (fun v => match v with | .expired _ _ => true | _ => false)

/-- The blocked ranges with their numbers (11.6). -/
def rangesBytes (rs : List BatchRange) : List Byte :=
  listBody (fun p : BatchRange × Nat => bytesOf 1 (p.2 + 1) ++ halfBytes p.1.low ++ halfBytes p.1.high)
    rs.zipIdx

/-- The pool's part of the report (R27, 11.6). -/
def State.poolBytes (s : State) : List Byte :=
  let c := s.pool.counts
  bytesOf 4 c.loaded ++ bytesOf 2 c.fresh ++ bytesOf 1 c.returned ++ bytesOf 2 c.bound
    ++ bytesOf 2 c.faulted ++ bytesOf 4 c.spent ++ bytesOf 4 c.retired ++ bytesOf 2 s.emptyCount
    ++ bytesOf 2 s.damagedSlots ++ bytesOf 2 s.pool.fresh.length ++ bytesOf 1 s.pool.stack.length
    ++ bytesOf 2 s.pool.batches.length

/-- A unit's part of the report, absent fields 0 (R51, 11.6). -/
def unitBytes (u : SerialUnit) : List Byte :=
  flagByte u.window.isSome :: windowBytes (u.window.getD ⟨0, 0⟩)
    ++ bytesOf 5 (packDigits 10 (u.next.getD 0)) ++ bytesOf 4 u.issued ++ bytesOf 4 u.skipped
    ++ [flagByte u.overflow, flagByte u.exhausted]

/-- The table's part of the report (R75, 11.6). -/
def tableBytes (t : IssueTable) : List Byte :=
  bytesOf 2 t.inUse ++ bytesOf 2 t.freeCount ++ bytesOf 2 t.openCount ++ bytesOf 2 t.damagedBuckets
    ++ bytesOf 1 t.longest

/-- A sweep context's part of the report (11.6). A parameter that a context does not have is sent as 0,
that of a purge too, though it is a wafer (log 22). -/
def contextBytes (c : SweepContext) : List Byte :=
  [flagByte c.active, flagByte c.waiting] ++ bytesOf 1 (c.param.getD 0) ++ [phaseByte c.phase]
    ++ bytesOf 2 c.cursor ++ countsBytes c.counts

/-- The part of the report that is given in OPEN and LOCKED alone (R10, 11.6). -/
def State.lotBytes (s : State) (p : LotParams) : List Byte :=
  bytesOf 8 p.name.toNat ++ bytesOf 1 p.split ++ settledBytes s.settled ++ bytesOf 2 s.keySlots
    ++ bytesOf 2 s.capacity ++ s.lot.wafers.flatMap waferBytes
    ++ s.stations.toList.flatMap stationBytes ++ rangesBytes s.lot.blocked ++ s.poolBytes
    ++ unitBytes s.unitP ++ unitBytes s.unitE ++ tableBytes s.table ++ bytesOf 2 s.held
    ++ bytesOf 2 s.journal.reservations ++ contextBytes s.sweeps.audit
    ++ contextBytes s.sweeps.purge ++ contextBytes s.sweeps.quarantine

/-- The LOT STATUS report after its outcome byte (R10, 11.6). In IDLE no lot is held, so its part is
absent. -/
def State.statusReport (s : State) : List Byte :=
  [lotStateByte s.lot.state, flagByte s.lot.lock]
    ++ (match s.lot.params with | some p => s.lotBytes p | none => [])
    ++ flagByte s.check.halt :: faultRecordBytes s.check.faults s.check.first ++ [s.causes]

/-- The rule of LOT STATUS (R10): the latch it reports is cleared when the reply is sent. -/
def lotStatusRule (s : State) : Option ReplyBody × State := (some (.lotStatus s.statusReport), s)

/-! ## Loading keys -/

/-- The number of the first record with an index above 63 or with an earlier record's index (R28
check 2). -/
def badIndex (seen : List Byte) : Nat → List KeyRecord → Option Nat
  | _, [] => none
  | n, r :: rs => if 63 < r.index ∨ r.index ∈ seen then some n else badIndex (r.index :: seen) (n + 1) rs

/-- The indices of the records whose check word fails (R30). -/
def failingRecords (batch : Half) (records : List KeyRecord) : List Byte :=
  (records.filter fun r => twoSum (keyFields batch r.index r.key) ≠ r.check).map (·.index)

/-- The first check of R28 that fails, as its reply. -/
def loadRefusal (batch : Half) (records : List KeyRecord) (s : State) : Option ReplyBody :=
  if batch = 0 ∨ records.length = 0 ∨ Config.recordLimit < records.length then some (.badRecord 0)
  else match badIndex [] 1 records with
    | some n => some (.badRecord n)
    | none =>
      if batch ∈ s.pool.batches then some (.code .batchDuplicate)
      else match s.blockedBy batch with
        | some g => some (.batchBlocked g)
        | none =>
          if Config.batchLimit ≤ s.pool.batches.length then some (.code .batchListFull)
          else if s.emptyCount < records.length then some (.poolFull s.emptyCount)
          else match failingRecords batch records with
            | [] => none
            | failing => some (.recordCheck failing)

/-- The first `count` EMPTY slot numbers of the `fuel` numbers from `n` on (R29). -/
def State.emptySlots (s : State) : Nat → Nat → Nat → List Nat
  | 0, _, _ => []
  | _, _, 0 => []
  | fuel + 1, n, count + 1 =>
    if (s.keySlot n).state = .empty then n :: s.emptySlots fuel (n + 1) count
    else s.emptySlots fuel (n + 1) (count + 1)

/-- One record goes into a slot, which becomes FRESH and joins the tail of the fresh queue (R29). -/
def loadRecord (batch : Half) (s : State) (p : Nat × KeyRecord) : State :=
  let k : KeyCell := ⟨batch, p.2.index, p.2.key, p.2.check⟩
  let s1 := s.writeCell p.1 ⟨keyContent k, 0, 0, false, false⟩
  let s2 := s1.moveKey p.1 ⟨.fresh, false⟩ fun c =>
    { c with fresh := c.fresh + 1, loaded := c.loaded + 1 }
  { s2 with pool := { s2.pool with fresh := s2.pool.fresh ++ [p.1] } }

/-- An accepted KEY LOAD (R29). -/
def State.loadKeys (s : State) (batch : Half) (records : List KeyRecord) : State :=
  let slots := s.emptySlots s.keySlots 0 records.length
  let s1 := (slots.zip records).foldl (loadRecord batch) s
  { s1 with pool := { s1.pool with batches := s1.pool.batches ++ [batch] } }

/-- The rule of KEY LOAD (R28, R29). -/
def keyLoadRule (batch : Half) (records : List KeyRecord) (s : State) : Option ReplyBody × State :=
  match loadRefusal batch records s with
  | some body => (some body, s)
  | none =>
    let s1 := s.loadKeys batch records
    (some (.keyLoaded batch records.length s1.pool.counts.fresh s1.pool.fresh.length), s1)

/-! ## Journal requests and RESUME -/

/-- The rule of JOURNAL READ (R151). -/
def journalReadRule (n : Byte) (s : State) : Option ReplyBody × State :=
  if n = 0 ∨ 8 < n then answer s .badParam
  else (some (.journalRead s.held s.journal.reservations (s.journal.queue.take n.toNat)), s)

/-- The number of a journal entry, 0 for none. -/
def entryNumber (j : Option JournalEntry) : Half :=
  match j with
  | some e => e.number
  | none => 0

/-- The rule of JOURNAL TAKE (R152); a take may end a level-2 wait (R137). A count above 256 that is above
the entries held too meets two rows of R152's table, and the first decides it: BAD_PARAM without the
entries held (log 31). -/
def journalTakeRule (n : Half) (s : State) : Option ReplyBody × State :=
  if n = 0 ∨ Config.journalPlaces < n.toNat then answer s .badParam
  else if s.held < n.toNat then (some (.badTake s.held), s)
  else
    let s1 := { s with journal := { s.journal with queue := s.journal.queue.drop n.toNat } }.endWait
    (some (.journalTaken (entryNumber s.journal.queue.head?)
      (entryNumber s.journal.queue[n.toNat - 1]?) s1.held s1.journal.reservations), s1)

/-- The rule of RESUME (R161). -/
def resumeRule (clear : Byte) (s : State) : Option ReplyBody × State :=
  let body := ReplyBody.resumed s.check.halt s.check.faults s.check.first
  if clear = 0 then (some body, { s with check := { s.check with halt := false } })
  else if clear = 1 then
    (some body, { s with check :=
      { s.check with halt := false, faults := 0, first := none, storeFault := false } })
  else answer s .badParam

/-- LOT_OPEN (R4). -/
def execLotOpen (b : OpenBody) (s : State) : Host.Outcome State Fault Refusal :=
  .next (s.request .lot (.lotOpen b) (lotOpenRule b))

/-- LOT_AMEND (R6). -/
def execLotAmend (b : AmendBody) (s : State) : Host.Outcome State Fault Refusal :=
  .next (s.request .lot (.lotAmend b) (lotAmendRule b))

/-- LOT_LOCK (R7). -/
def execLotLock (s : State) : Host.Outcome State Fault Refusal :=
  .next (s.request .lot .lotLock lotLockRule)

/-- KEY_LOAD (R28). -/
def execKeyLoad (batch : Half) (records : List KeyRecord) (s : State) :
    Host.Outcome State Fault Refusal :=
  .next (s.request .lot (.keyLoad batch records) (keyLoadRule batch records))

/-- JOURNAL_READ (R151). -/
def execJournalRead (n : Byte) (s : State) : Host.Outcome State Fault Refusal :=
  .next (s.request .lot (.journalRead n) (journalReadRule n))

/-- JOURNAL_TAKE (R152). -/
def execJournalTake (n : Half) (s : State) : Host.Outcome State Fault Refusal :=
  .next (s.request .lot (.journalTake n) (journalTakeRule n))

/-- LOT_STATUS (R10). -/
def execLotStatus (s : State) : Host.Outcome State Fault Refusal :=
  .next (s.request .lot .lotStatus lotStatusRule)

/-- RESUME (R161). -/
def execResume (clear : Byte) (s : State) : Host.Outcome State Fault Refusal :=
  .next (s.request .lot (.resume clear) (resumeRule clear))

/-- LOT_CLOSE (R9). -/
def execLotClose (s : State) : Host.Outcome State Fault Refusal :=
  .next (s.request .lot .lotClose lotCloseRule)

end Sys2Proof.Machine
end

