-- ==== Sys2Proof/Machine/Reset.lean ====
section
/-! DEFINITION. Device reset and the completion of the store clear (R162). -/

namespace Sys2Proof.Machine

/-- Device reset: every block takes its reset value and the store clear starts. The cells and heads
keep what they held until the clear has written them (log 9), and the queue of commands, which is the
model's, stays (log 23). -/
def State.deviceReset (s : State) : State :=
  { State.reset with
    store := s.store
    table := { IssueTable.absent with heads := s.table.heads }
    pending := s.pending }

/-- The store clear completes: every cell and head is zero with parity zero, and the lot state becomes
IDLE (R162). -/
def State.clearStore (s : State) : State :=
  { s with
    store := []
    table := { s.table with heads := [] }
    check := { s.check with clearing := false }
    lot := { s.lot with state := .idle } }

/-- DEVICE_RESET (R162). -/
def execDeviceReset (s : State) : Host.Outcome State Fault Refusal := .next s.deviceReset

/-- STORE_CLEAR_COMPLETE (R162). While no clear is in flight none completes, and nothing changes
(log 3). -/
def execStoreClearComplete (s : State) : Host.Outcome State Fault Refusal :=
  if s.check.clearing then .next s.clearStore else .next s

end Sys2Proof.Machine
end

