-- ==== Sys2Proof/Machine/Stations.lean ====
section
/-! DEFINITION. The station requests that act on the station's wafer and site slots: ATTACH (R12),
DETACH (R13), STATION STATUS (R17) and STATION RESET (R123, R124). -/

namespace Sys2Proof.Machine

/-- A station gives its wafer up: the wafer becomes DETACHED and the notices are freed (R13). -/
def State.detachWafer (s : State) (st : Station) (w : Byte) : State :=
  (s.setWafer w .detached).setStation st { s.stations[st].freeNotices with attached := none }

/-- A station takes a wafer (R12). -/
def State.attachWafer (s : State) (st : Station) (w : Byte) : State :=
  (s.setWafer w (.attached st)).setStation st { s.stations[st] with attached := some w }

/-- ATTACH that goes through: the implicit detach, then the attach (R12). -/
def State.moveStation (s : State) (st : Station) (w : Byte) : Option ReplyBody × State :=
  match s.stations[st].attached with
  | none => (some (.attached w none 0), s.attachWafer st w)
  | some old =>
    (some (.attached w (some old) s.stations[st].notices), (s.detachWafer st old).attachWafer st w)

/-- The rule of ATTACH (R12): the first matching case gives the answer. -/
def attachRule (st : Station) (w : Byte) (s : State) : Option ReplyBody × State :=
  match s.wafer w with
  | none => answer s .badParam
  | some (.attached t) =>
    if t = st then (some (.attached w none 0), s) else answer s .waferBusy
  | some .finished => answer s .waferFinished
  | some .purging => answer s .waferBusy
  | some .new | some .detached =>
    if s.stations[st].holds then answer s .claimsActive else s.moveStation st w

/-- The rule of DETACH (R13). -/
def detachRule (st : Station) (s : State) : Option ReplyBody × State :=
  match s.stations[st].attached with
  | none => answer s .noWafer
  | some w =>
    if s.stations[st].holds then answer s .claimsActive
    else (some (.detached w s.stations[st].notices), s.detachWafer st w)

/-- The rule of STATION STATUS: a report of the requesting station; nothing changes (R17). -/
def stationStatusRule (st : Station) (s : State) : Option ReplyBody × State :=
  (some (.stationStatus s.lot.state s.check.halt s.stations[st]), s)

/-- The three counts of a STATION RESET reply (R124). -/
structure ResetTally where
  released : Nat
  uncertain : Nat
  freed : Nat
  deriving DecidableEq, Repr

/-- STATION RESET on one site slot (R123). -/
def resetSite (st : Station) (acc : ResetTally × State) (site : Site) : ResetTally × State :=
  let t := acc.1
  let s := acc.2
  match s.slot st site with
  | .free => acc
  | .revoked _ _ | .expired _ _ => ({ t with freed := t.freed + 1 }, s.setSlot st site .free)
  | .held _ _ c _ =>
    let ended := s.endClaim st site c
    let s1 := ended.2.setSlot st site .free
    match ended.1 with
    | .released => ({ t with released := t.released + 1 }, s1)
    | .uncertain => ({ t with uncertain := t.uncertain + 1 }, s1)
    | .unreachable => ({ t with freed := t.freed + 1 }, s1)

/-- The rule of STATION RESET: the sixteen slots in ascending site order (R123, R124). -/
def stationResetRule (st : Station) (s : State) : Option ReplyBody × State :=
  let done := (List.finRange 16).foldl (resetSite st) (⟨0, 0, 0⟩, s)
  (some (.stationReset done.1.released done.1.uncertain done.1.freed), done.2)

/-- ATTACH (R12). -/
def execAttach (st : Station) (w : Byte) (s : State) : Host.Outcome State Fault Refusal :=
  .next (s.request (.station st) (.attach w) (attachRule st w))

/-- DETACH (R13). -/
def execDetach (st : Station) (s : State) : Host.Outcome State Fault Refusal :=
  .next (s.request (.station st) .detach (detachRule st))

/-- STATION_STATUS (R17). -/
def execStationStatus (st : Station) (s : State) : Host.Outcome State Fault Refusal :=
  .next (s.request (.station st) .stationStatus (stationStatusRule st))

/-- STATION_RESET (R123, R124). -/
def execStationReset (st : Station) (s : State) : Host.Outcome State Fault Refusal :=
  .next (s.request (.station st) .stationReset (stationResetRule st))

end Sys2Proof.Machine
end

