-- ==== Sys2Proof/Machine/Sweeps.lean ====
section
/-! DEFINITION. The sweeps (chapter 8): QUARANTINE (R135), PURGE WAFER (R132), AUDIT START and AUDIT
STOP (R139), the steps of the three sweeps (R131, R133 to R142) and of the close scrub (R144, R145). -/

namespace Sys2Proof.Machine

/-! ## Contexts -/

/-- The three sweep levels (R128). -/
inductive SweepLevel where
  | audit
  | purge
  | quarantine
  deriving DecidableEq, Repr

/-- The context of a level. -/
def State.context (s : State) : SweepLevel → SweepContext
  | .audit => s.sweeps.audit
  | .purge => s.sweeps.purge
  | .quarantine => s.sweeps.quarantine

/-- Replaces the context of a level. -/
def State.setContext (s : State) (lv : SweepLevel) (c : SweepContext) : State :=
  match lv with
  | .audit => { s with sweeps := { s.sweeps with audit := c } }
  | .purge => { s with sweeps := { s.sweeps with purge := c } }
  | .quarantine => { s with sweeps := { s.sweeps with quarantine := c } }

/-- A context as its sweep starts: cursor 0 and counts 0 (R128, R132, R135, R139). -/
def SweepContext.start (param : Option Nat) : SweepContext :=
  ⟨true, false, param, .table, 0, ⟨0, 0, 0, 0⟩⟩

/-- The origin of the faults that a level's reads find (R131, R159). -/
def SweepLevel.origin : SweepLevel → FaultOrigin
  | .audit => .audit
  | .purge | .quarantine => .access

/-- Changes the result counts of a level. -/
def State.countSweep (s : State) (lv : SweepLevel) (f : SweepCounts → SweepCounts) : State :=
  s.setContext lv { s.context lv with counts := f (s.context lv).counts }

/-- Entries visited rises by one (R128). -/
def SweepCounts.visit (c : SweepCounts) : SweepCounts := { c with visited := satAdd c.visited }

/-- Entries visited rises by the entries that a walk has read (R128). -/
def SweepCounts.visits (n : Nat) (c : SweepCounts) : SweepCounts :=
  { c with visited := min Config.countMax (c.visited + n) }

/-- Entries changed rises by one (R128). -/
def SweepCounts.change (c : SweepCounts) : SweepCounts := { c with changed := satAdd c.changed }

/-- Entries changed and journal entries appended rise by one (R128). -/
def SweepCounts.journal (c : SweepCounts) : SweepCounts :=
  { c with changed := satAdd c.changed, appended := satAdd c.appended }

/-- Faults found rises by one (R128). -/
def SweepCounts.fault (c : SweepCounts) : SweepCounts := { c with faults := satAdd c.faults }

/-- The cursor of a level goes on by one. -/
def State.advanceCursor (s : State) (lv : SweepLevel) : State :=
  s.setContext lv { s.context lv with cursor := (s.context lv).cursor + 1 }

/-! ## The requests that start and stop sweeps -/

/-- The rule of PURGE WAFER (R132). -/
def purgeWaferRule (w : Byte) (s : State) : Option ReplyBody × State :=
  match s.wafer w with
  | none => answer s .badParam
  | some v =>
    if s.sweeps.purge.active then answer s .sweepActive
    else if v ≠ .detached then answer s .wrongState
    else (some (.purging w), (s.setWafer w .purging).setContext .purge (.start (some w.toNat)))

/-- A range joins the blocked-range list under the next number (R8). -/
def State.blockRange (s : State) (low high : Half) : State :=
  { s with lot := { s.lot with blocked := s.lot.blocked ++ [⟨low, high⟩] } }

/-- The rule of QUARANTINE (R135). -/
def quarantineRule (low high : Half) (s : State) : Option ReplyBody × State :=
  if low = 0 ∨ high = 0 ∨ high < low then answer s .badParam
  else if s.sweeps.quarantine.active then answer s .sweepActive
  else if Config.blockedLimit ≤ s.lot.blocked.length then answer s .blockListFull
  else
    let g := s.lot.blocked.length + 1
    (some (.quarantined g), (s.blockRange low high).setContext .quarantine (.start (some g)))

/-- The rule of AUDIT START (R139). -/
def auditStartRule (s : State) : Option ReplyBody × State :=
  if s.sweeps.audit.active then answer s .sweepActive
  else (some (.code .ok), s.setContext .audit (.start none))

/-- The rule of AUDIT STOP (R139). -/
def auditStopRule (s : State) : Option ReplyBody × State :=
  let c := s.sweeps.audit
  if c.active then (some (.auditStopped c.phase c.cursor c.counts), s.setContext .audit .clear)
  else answer s .wrongState

/-! ## A step on one bucket (R131) -/

/-- What a sweep's action on an entry leaves of it for the walk. -/
inductive Visit where
  | kept
  | removed
  /-- the quarantine meets an entry for whose journal entry there is no room (R137) -/
  | noRoom
  deriving DecidableEq, Repr

/-- How a step on a bucket ends (R131). -/
inductive BucketEnd where
  | walked
  | damaged
  | waits
  deriving DecidableEq, Repr

/-- The action of a sweep on an entry that its walk has read: the entry's cell, the cell before it
and the entry. -/
abbrev SweepAction := Nat → Option Nat → Entry → State → Visit × State

/-- The walk of a sweep step along a chain: each entry read cleanly is counted and acted on before the
next one is read; after a removal the walk goes on from the successor with the predecessor unchanged
(R71, R131). A bad successor pointer of an entry that the step has removed is charged to the record that
has taken it over, the predecessor or the head (log 13). -/
def sweepWalk (lv : SweepLevel) (act : SweepAction) (h : Nat) :
    Nat → Option Nat → Nat → State → BucketEnd × State
  | 0, pred, _, s => (.damaged, s.tableFault (pointerOf h pred) .link lv.origin)
  | fuel + 1, pred, c, s =>
    if !s.inChain h c then (.damaged, s.tableFault (pointerOf h pred) .link lv.origin)
    else match s.entryFault c with
      | some g => (.damaged, s.tableFault (.cell c) g lv.origin)
      | none =>
        let done := act c pred (s.entryAt c) (s.countSweep lv .visit)
        match done.1 with
        | .noRoom => (.waits, done.2)
        | .kept =>
          if s.isLast c then (.walked, done.2)
          else sweepWalk lv act h fuel (some c) (s.nextCell c) done.2
        | .removed =>
          if s.isLast c then (.walked, done.2)
          else sweepWalk lv act h fuel pred (s.nextCell c) done.2

/-- A step on the bucket that the level's cursor names (R131 steps 1 to 3). -/
def visitBucket (lv : SweepLevel) (act : SweepAction) (s : State) : BucketEnd × State :=
  let h := (s.context lv).cursor
  if s.headFault h then (.damaged, s.tableFault (.head h) .link lv.origin)
  else if (s.head h).damaged then (.damaged, s)
  else if !(s.head h).valid then (.walked, s)
  else sweepWalk lv act h s.capacity none (s.head h).first.toNat s

/-- A step on a bucket with what its ending does to the context: a DAMAGED step counts a fault, and
the cursor advances unless the step waits (R131 steps 5 and 6, R137). -/
def stepBucket (lv : SweepLevel) (act : SweepAction) (s : State) : State :=
  match visitBucket lv act s with
  | (.walked, s1) => s1.advanceCursor lv
  | (.damaged, s1) => (s1.countSweep lv .fault).advanceCursor lv
  | (.waits, s1) => s1.setContext lv { s1.context lv with waiting := true }

/-! ## PURGE (R133, R134) -/

/-- The action of a purge of wafer `w` on an entry (R133). An ISSUED or BURNING entry, which R133 rules
out for a purging wafer, is left unchanged (log 12). -/
def purgeAction (w : Byte) (h : Nat) : SweepAction := fun c pred e s =>
  if e.wafer ≠ w then (.kept, s)
  else match e.state with
    | .provisioned | .void => (.removed, (s.countSweep .purge .change).removeEntry h c pred false)
    | .uncertain =>
      (.removed, ((s.countSweep .purge .journal).voidEntry c e .unresolved none none).removeEntry
        h c pred false)
    | .issued | .burning => (.kept, s)

/-- The end of a purge (R134). -/
def State.endPurge (s : State) : State :=
  let c := s.sweeps.purge
  let v : WaferState := if c.counts.faults = 0 then .finished else .detached
  ((s.setContext .purge { c with active := false }).latchDone).setWafer
    (BitVec.ofNat 8 (c.param.getD 0)) v

/-- A purge step (R133, R134). -/
def purgeStep (s : State) : State :=
  let c := s.sweeps.purge
  let s1 := stepBucket .purge (purgeAction (BitVec.ofNat 8 (c.param.getD 0)) c.cursor) s
  if Config.buckets ≤ s1.sweeps.purge.cursor then s1.endPurge else s1

/-! ## QUARANTINE (R136 to R138) -/

/-- Whether a batch number lies inside the blocked range of number g (R136). -/
def State.inRangeNo (s : State) (g : Nat) (batch : Half) : Bool :=
  match s.lot.blocked[g - 1]? with
  | some r => r.low ≤ batch && batch ≤ r.high
  | none => false

/-- A PROVISIONED entry that the quarantine has not noted yet: a QUARANTINE_HIT where the journal has
room, and the noted generation (R136, R137). -/
def noteHit (g : Nat) (c : Nat) (e : Entry) (s : State) : Visit × State :=
  if s.journalSum < Config.journalPlaces then
    (.kept, ((s.countSweep .quarantine .journal).appendHit e).writeEntry c
      { e with noted := BitVec.ofNat 8 g })
  else (.noRoom, s)

/-- The action of a quarantine of range g on an entry (R136). -/
def quarantineAction (g : Nat) : SweepAction := fun c pred e s =>
  if !s.inRangeNo g e.batch then (.kept, s)
  else match e.state with
    | .void => (.kept, s)
    | .provisioned => if e.noted = BitVec.ofNat 8 g then (.kept, s) else noteHit g c e s
    | .issued =>
      if e.attempts = 0 then
        (.removed, ((s.countSweep .quarantine .journal).withdrawEntry c pred e .blocked none).revokeOwner
          e)
      else
        (.kept, ((s.countSweep .quarantine .journal).voidEntry c e .quarantine none none).revokeOwner e)
    | .burning | .uncertain =>
      (.kept, ((s.countSweep .quarantine .journal).voidEntry c e .quarantine none none).revokeOwner e)

/-- A quarantine step, and the end of the quarantine (R136 to R138). -/
def quarantineStep (s : State) : State :=
  let s1 := stepBucket .quarantine (quarantineAction (s.sweeps.quarantine.param.getD 0)) s
  if Config.buckets ≤ s1.sweeps.quarantine.cursor then
    (s1.setContext .quarantine
      { s1.sweeps.quarantine with active := false, waiting := false }).latchDone
  else s1

/-! ## AUDIT (R140 to R142) -/

/-- The action of the audit's TABLE phase: the entry has been counted and nothing changes (R140). -/
def auditAction : SweepAction := fun _ _ _ s => (.kept, s)

/-- An audit TABLE step; the one that ends the phase begins the POOL phase (R140). -/
def auditTableStep (s : State) : State :=
  let s1 := stepBucket .audit auditAction s
  if Config.buckets ≤ s1.sweeps.audit.cursor then
    s1.setContext .audit { s1.sweeps.audit with phase := .pool, cursor := 0 }
  else s1

/-- A settled entry is counted, and its owner's site slot revoked (R141). -/
def settleOwner (e : Entry) (s : State) : State :=
  (s.countSweep .audit .journal).revokeOwner e

/-- Whether a reference access to an entry cell finds a fault, rather than meeting a damage mark (R72,
R158). -/
def State.accessFaults (s : State) (c : Nat) : Bool :=
  match s.cellBucket c with
  | none => false
  | some h => s.headFault h || (!(s.head h).damaged && (s.entryFault c).isSome)

/-- Settles the entry of a damaged BOUND slot that its reference access has read (R141). The entries
that the walk reads count as visited (R128, log 27), and the fault that it finds counts; a bucket that
was marked before does not (log 24). An entry that the walk does not find, of which no rule speaks, is
left (log 29). -/
def settleRead (c : Nat) (e : Entry) (s : State) : State :=
  match e.state with
  | .issued =>
    if e.attempts = 0 then
      let s1 := s.countSweep .audit (.visits (s.findReads e.wafer e.x e.y))
      match s.find e.wafer e.x e.y with
      | .found c' pred => settleOwner e (s1.withdrawEntry c' pred e .keyDamaged none)
      | .fault p g => (s1.tableFault p g .audit).countSweep .audit .fault
      | .damaged | .notFound _ _ => s1
    else settleOwner e (s.voidEntry c e .keyDamaged none none)
  | .burning | .uncertain => settleOwner e (s.voidEntry c e .keyDamaged none none)
  | .provisioned | .void => s

/-- Settles the entry of a damaged BOUND slot (R141). A slot that the binding map gives no cell, or an
entry that is not open, which R67 and R79 rule out, is left (log 12). -/
def settleDamaged (n : Nat) (s : State) : State :=
  match s.boundCell n with
  | none => s
  | some c =>
    match s.access .audit c with
    | (none, s1) => if s.accessFaults c then s1.countSweep .audit .fault else s1
    | (some e, s1) => settleRead c e s1

/-- A key slot read by the audit: counted, and a fault handled and counted (R141). -/
def auditRead (n : Nat) (s : State) : State :=
  let s1 := s.countSweep .audit .visit
  match s1.keyReadFault n with
  | some g => (s1.keyFault n g .audit).countSweep .audit .fault
  | none => s1

/-- One key slot of an audit POOL step (R141). -/
def auditSlot (s : State) (n : Nat) : State :=
  match s.keySlot n with
  | ⟨.empty, _⟩ | ⟨.faulted, _⟩ => s
  | ⟨.fresh, _⟩ | ⟨.returned, _⟩ => auditRead n s
  | ⟨.bound, true⟩ => settleDamaged n s
  | ⟨.bound, false⟩ =>
    let s1 := auditRead n s
    if (s1.keySlot n).damaged then settleDamaged n s1 else s1

/-- An audit POOL step, and the end of the audit (R141, R142). -/
def auditPoolStep (s : State) : State :=
  let m := s.sweeps.audit.cursor
  let s1 := ((List.range' (32 * m) 32).foldl auditSlot s).advanceCursor .audit
  if s.keySlots / 32 ≤ s1.sweeps.audit.cursor then
    (s1.setContext .audit { s1.sweeps.audit with active := false, phase := .table }).latchDone
  else s1

/-! ## The close scrub (R144, R145) -/

/-- The scrub clears one store cell: a key slot is disposed of under R39, an entry cell is zeroed with
its cell map record cleared (R144). -/
def scrubCell (s : State) (c : Nat) : State :=
  if c < s.keySlots then s.retireKey c
  else
    let s1 := s.writeCell c zeroCell
    { s1 with table := { s1.table with cellMap := mapSet none s1.table.cellMap c none } }

/-- The scrub clears one bucket head (R144). -/
def scrubHead (s : State) (h : Nat) : State := s.writeHead h zeroHead

/-- Step n of the scrub: cells 32 n to 32 n + 31 and heads 8 n to 8 n + 7 (R144). -/
def State.scrubGroup (s : State) (n : Nat) : State :=
  (List.range' (8 * n) 8).foldl scrubHead ((List.range' (32 * n) 32).foldl scrubCell s)

/-- What completes together when the scrub ends; the fault record and STORE_FAULT are kept (R145). -/
def State.discardLot (s : State) : State :=
  { s with
    lot := .noLot .idle
    stations := Vector.replicate 4 .clear
    pool := .absent
    unitP := .absent
    unitE := .absent
    rules := none
    table := { IssueTable.absent with heads := s.table.heads }
    sweeps := .clear
    check := { s.check with halt := false } }

/-- The reply to the LOT CLOSE (R145). -/
def State.closeReply (s : State) : ReplyBody :=
  .lotClosed ((s.lot.params.map (·.name)).getD 0) s.lot.lock s.pool.counts.loaded
    s.pool.counts.spent s.pool.counts.retired

/-- A close scrub step, and the close of the lot (R144, R145). -/
def closeScrubStep (s : State) : State :=
  let n := s.sweeps.scrubCursor
  let s1 := s.scrubGroup n
  let s2 := { s1 with sweeps := { s1.sweeps with scrubCursor := n + 1 } }
  if Config.scrubSteps ≤ n + 1 then
    s2.discardLot.reply .lot (kindOf .lotClose) s2.closeReply
  else s2

/-! ## The commands -/

/-- QUARANTINE (R135). -/
def execQuarantine (low high : Half) (s : State) : Host.Outcome State Fault Refusal :=
  .next (s.request .lot (.quarantine low high) (quarantineRule low high))

/-- PURGE_WAFER (R132). -/
def execPurgeWafer (w : Byte) (s : State) : Host.Outcome State Fault Refusal :=
  .next (s.request .lot (.purgeWafer w) (purgeWaferRule w))

/-- AUDIT_START (R139). -/
def execAuditStart (s : State) : Host.Outcome State Fault Refusal :=
  .next (s.request .lot .auditStart auditStartRule)

/-- AUDIT_STOP (R139). -/
def execAuditStop (s : State) : Host.Outcome State Fault Refusal :=
  .next (s.request .lot .auditStop auditStopRule)

/-- PURGE_STEP (R133). -/
def execPurgeStep (s : State) : Host.Outcome State Fault Refusal :=
  .next (s.sweepStep .purge purgeStep)

/-- QUARANTINE_STEP (R136). -/
def execQuarantineStep (s : State) : Host.Outcome State Fault Refusal :=
  .next (s.sweepStep .quarantine quarantineStep)

/-- AUDIT_TABLE_STEP (R140). -/
def execAuditTableStep (s : State) : Host.Outcome State Fault Refusal :=
  .next (s.sweepStep .auditTable auditTableStep)

/-- AUDIT_POOL_STEP (R141). -/
def execAuditPoolStep (s : State) : Host.Outcome State Fault Refusal :=
  .next (s.sweepStep .auditPool auditPoolStep)

/-- CLOSE_SCRUB_STEP (R144). -/
def execCloseScrubStep (s : State) : Host.Outcome State Fault Refusal :=
  .next (s.sweepStep .scrub closeScrubStep)

end Sys2Proof.Machine
end

