-- ==== Sys2Proof/Machine/Dispatch.lean ====
section
/-! DEFINITION. The meaning of each command: one arm for each row of spec/opcode_table.json. -/

namespace Sys2Proof.Machine

def exec (i : Instr) (s : State) : Host.Outcome State Fault Refusal :=
  match i with
  | .deviceReset => Sys2Proof.Machine.execDeviceReset s
  | .storeClearComplete => Sys2Proof.Machine.execStoreClearComplete s
  | .frameArrival link bytes => Sys2Proof.Machine.execFrameArrival link bytes s
  | .idleGap link => Sys2Proof.Machine.execIdleGap link s
  | .lengthTooGreat link high low => Sys2Proof.Machine.execLengthTooGreat link high low s
  | .attach st wafer => Sys2Proof.Machine.execAttach st wafer s
  | .detach st => Sys2Proof.Machine.execDetach st s
  | .claim st items => Sys2Proof.Machine.execClaim st items s
  | .burnBegin st sites => Sys2Proof.Machine.execBurnBegin st sites s
  | .burnResult st items => Sys2Proof.Machine.execBurnResult st items s
  | .release st sites => Sys2Proof.Machine.execRelease st sites s
  | .abandon st sites => Sys2Proof.Machine.execAbandon st sites s
  | .stationReset st => Sys2Proof.Machine.execStationReset st s
  | .stationStatus st => Sys2Proof.Machine.execStationStatus st s
  | .lotOpen body => Sys2Proof.Machine.execLotOpen body s
  | .lotAmend body => Sys2Proof.Machine.execLotAmend body s
  | .lotLock => Sys2Proof.Machine.execLotLock s
  | .keyLoad batch records => Sys2Proof.Machine.execKeyLoad batch records s
  | .quarantine low high => Sys2Proof.Machine.execQuarantine low high s
  | .purgeWafer wafer => Sys2Proof.Machine.execPurgeWafer wafer s
  | .auditStart => Sys2Proof.Machine.execAuditStart s
  | .auditStop => Sys2Proof.Machine.execAuditStop s
  | .journalRead n => Sys2Proof.Machine.execJournalRead n s
  | .journalTake n => Sys2Proof.Machine.execJournalTake n s
  | .lotStatus => Sys2Proof.Machine.execLotStatus s
  | .resume clear => Sys2Proof.Machine.execResume clear s
  | .lotClose => Sys2Proof.Machine.execLotClose s
  | .purgeStep => Sys2Proof.Machine.execPurgeStep s
  | .quarantineStep => Sys2Proof.Machine.execQuarantineStep s
  | .auditTableStep => Sys2Proof.Machine.execAuditTableStep s
  | .auditPoolStep => Sys2Proof.Machine.execAuditPoolStep s
  | .closeScrubStep => Sys2Proof.Machine.execCloseScrubStep s
  | .leaseTimerTick during => Sys2Proof.Machine.execLeaseTimerTick during s
  | .leaseExpiry st site => Sys2Proof.Machine.execLeaseExpiry st site s
  | .replyFrameSent link => Sys2Proof.Machine.execReplyFrameSent link s
  | .frameStart link byte => Sys2Proof.Machine.execFrameStart link byte s
  | .byteFramingError link byte => Sys2Proof.Machine.execByteFramingError link byte s

end Sys2Proof.Machine
end

