-- ==== Sys2Proof/Safety.lean ====
section
/-! DEFINITION. The terms in which the statements speak: when a request or a sweep step is granted,
what its grant leaves beside its own effect, and the laws of the manual that every step keeps. A safe
run is one that keeps them all; no step of the part ends in a fault. -/

namespace Sys2Proof.Machine

/-! ## Grants -/

/-- The lot takes every request (R2). -/
def State.taking (s : State) : Prop := s.lot.state = .opened ∨ s.lot.state = .locked

/-- No lease expiry is due and no timer boundary is to fall during the next grant (R15). -/
structure State.Calm (s : State) : Prop where
  noExpiry : ∀ st site, s.expiryDue st site = false
  noBoundary : s.deferred = []

/-- A link's request is the one that the arbiter grants now (R167). -/
structure State.Turn (s : State) (l : Link) (r : Request) : Prop where
  held : (s.link l).request = some r
  turn : s.nextGrant = some (.link l)

/-- No request reply waits in a link's queue, so that it has room for the next one (R165). -/
def State.Room (s : State) (l : Link) : Prop := ∀ r ∈ (s.link l).replies, r.linkLevel = true

/-- A link's request is the one that the arbiter grants now (R167), with no lease in the way and with
room for its reply. What comes first where an expiry is due or a reply waits is a statement of its own. -/
structure State.Granted (s : State) (l : Link) (r : Request) : Prop where
  calm : s.Calm
  held : (s.link l).request = some r
  turn : s.nextGrant = some (.link l)
  room : s.Room l

/-- A sweep step is the one that the arbiter grants now (R129, R167), with no lease in the way. -/
structure State.Offered (s : State) (k : SweepStep) : Prop where
  calm : s.Calm
  offer : s.offer = some k
  turn : s.nextGrant = some .sweep

/-- The answer to a link's request: the pointer stands just after the link, the request has left, its
reply stands at the tail of the reply queue and the outstanding flag is clear (R166, R167). -/
def State.answered (s : State) (l : Link) (kind : Byte) (body : ReplyBody) (clearsDone : Bool) :
    State :=
  { s with
    arbiter := (Requester.link l).after
    links := s.links.set (linkNo l)
      { s.link l with
        request := none
        outstanding := false
        replies := (s.link l).replies ++ [⟨kind, body, false, clearsDone⟩] } }

/-- The answer to a link's request that a list reply gives. -/
def State.answeredItems (s : State) (l : Link) (kind : Byte) (items : List ItemOutcome) : State :=
  s.answered l kind (.items items) false

/-- The answer to a link's request that an outcome code alone gives. -/
def State.answeredCode (s : State) (l : Link) (kind : Byte) (c : Code) : State :=
  s.answered l kind (.code c) false

/-- The grant of a sweep step, beside the step's own effect: the pointer stands at S0 (R167). -/
def State.swept (s : State) : State := { s with arbiter := .link (.station 0) }

/-- The items of a list request taken one after another, with no timer boundary between them: the
outcomes in item order, and the state that the last one leaves (R16, R82). -/
def takeItems {α : Type} (f : Nat → α → State → ItemOutcome × State) :
    Nat → List α → State → List ItemOutcome × State
  | _, [], s => ([], s)
  | k, a :: rest, s =>
    ((f k a s).1 :: (takeItems f (k + 1) rest (f k a s).2).1, (takeItems f (k + 1) rest (f k a s).2).2)

/-- As `takeItems`, where one timer boundary falls during the item numbered `during`: it is applied when
that item ends, before the next one is taken (R15). -/
def takeItemsAcross {α : Type} (f : Nat → α → State → ItemOutcome × State) (during : Nat) :
    Nat → List α → State → List ItemOutcome × State
  | _, [], s => ([], s)
  | k, a :: rest, s =>
    let one := f k a s
    let u := if k = during then ({ one.2 with deferred := [] } : State).countDown.settleExpiries else one.2
    ((one.1 :: (takeItemsAcross f during (k + 1) rest u).1, (takeItemsAcross f during (k + 1) rest u).2))

/-- A list request is granted while one timer boundary is held back for its item numbered `during`; where
the list has no such item, the boundary is applied when the request has ended (R15). -/
structure State.GrantedAcross (s : State) (l : Link) (r : Request) (during : Nat) : Prop where
  noExpiry : ∀ st site, s.expiryDue st site = false
  boundary : s.deferred = [during]
  held : (s.link l).request = some r
  turn : s.nextGrant = some (.link l)
  room : s.Room l

/-- The end of a list request of `count` items across a boundary: its reply is placed, and a boundary that
fell after the last item is applied (R15, R166). -/
def State.answeredAcross (l : Link) (kind : Byte) (during count : Nat)
    (done : List ItemOutcome × State) : State :=
  let t := done.2.reply l kind (.items done.1)
  if during < count then t else ({ t with deferred := [] } : State).countDown.settleExpiries

/-- A Link Unit takes a framer state and answers a frame of a kind with an outcome, unless three
link-level replies wait already (R164, R165). -/
def State.linkAnswered (s : State) (l : Link) (rx : RxState) (kind : Byte) (c : Code) : State :=
  s.setLink l { s.link l with
    rx := rx
    replies := (s.link l).replies
      ++ if ((s.link l).replies.filter (·.linkLevel)).length < 3 then [⟨kind, .code c, true, false⟩]
        else [] }

/-- A requester's place in the cyclic order of R167. -/
def Requester.number : Requester → Nat
  | .link (.station st) => st.val
  | .link .lot => 4
  | .sweep => 5

/-- How far a requester stands after the pointer in the cyclic order (R167). -/
def Requester.distance (pointer p : Requester) : Nat := (p.number + 6 - pointer.number) % 6

/-! ## What a command leaves unchanged -/

/-- The parts of the state that a frame names. -/
inductive Block where
  | lot | stations | pool | unitP | unitE | rules | table | store | journal | sweeps | check | links
  | arbiter | deferred | pending
  deriving DecidableEq, Repr

/-- A part of the state is the same in two states. -/
def Block.same (s t : State) : Block → Prop
  | .lot => t.lot = s.lot
  | .stations => t.stations = s.stations
  | .pool => t.pool = s.pool
  | .unitP => t.unitP = s.unitP
  | .unitE => t.unitE = s.unitE
  | .rules => t.rules = s.rules
  | .table => t.table = s.table
  | .store => t.store = s.store
  | .journal => t.journal = s.journal
  | .sweeps => t.sweeps = s.sweeps
  | .check => t.check = s.check
  | .links => t.links = s.links
  | .arbiter => t.arbiter = s.arbiter
  | .deferred => t.deferred = s.deferred
  | .pending => t.pending = s.pending

/-- Every part but those named is the same in `t` as in `s`. -/
def State.sameBeside (s t : State) (changed : List Block) : Prop := ∀ b, b ∉ changed → b.same s t

/-- The arbiter and the Link Units stand in `t` as the answer to a link's request leaves those of `s`. -/
structure State.Replies (s t : State) (l : Link) (kind : Byte) (body : ReplyBody) (clearsDone : Bool) :
    Prop where
  arbiter : t.arbiter = (Requester.link l).after
  links : t.links = (s.answered l kind body clearsDone).links

/-- One site slot takes a value; every other slot and every attached wafer is the same. -/
def State.onlySite (s t : State) (st : Station) (site : Site) (v : Slot) : Prop :=
  ∀ st' : Station, t.stations[st'].attached = s.stations[st'].attached
    ∧ ∀ site', t.slot st' site' = if st' = st ∧ site' = site then v else s.slot st' site'

/-- Every cell of the store but those named reads the same. -/
def State.onlyCells (s t : State) (changed : List Nat) : Prop := ∀ n, n ∉ changed → t.cell n = s.cell n

/-! ## Entries and claims -/

/-- The store and the four maps stand in canonical form. -/
def State.MapsOk (s : State) : Prop := s.mapsWf = true

/-- A reference access to a cell reaches an entry: the bucket is whole and the cell reads cleanly
(R72). -/
structure State.Reaches (s : State) (c : Nat) (e : Entry) : Prop where
  bucket : s.cellBucket c = some (bucketOf e.wafer e.x e.y)
  head : s.headFault (bucketOf e.wafer e.x e.y) = false
  whole : (s.head (bucketOf e.wafer e.x e.y)).damaged = false
  cell : s.entryFault c = none
  entry : s.entryAt c = e

/-- An open entry in cell c with its key slot n BOUND, in their places of the store, and a reservation
for its outcome (R5, R65, R79, R154). -/
structure State.OpenEntry (s : State) (c : Nat) (e : Entry) (n : Fin 8192) : Prop where
  reach : s.Reaches c e
  key : e.slot = some n
  bound : (s.keySlot n).state = .bound
  place : n.val < s.keySlots ∧ s.keySlots ≤ c
  reserved : 0 < s.journal.reservations
  maps : s.MapsOk

/-- A station's site byte b names a HELD site, whose slot holds the open entry in cell c (R14). -/
structure State.Claimed (s : State) (st : Station) (b : Byte) (site : Site) (x y : Byte) (c : Nat)
    (e : Entry) (n : Fin 8192) : Prop where
  named : siteOf b = some site
  slot : ∃ lease, s.slot st site = .held x y c lease
  opened : s.OpenEntry c e n

/-- The key slot's cell reads cleanly and carries no damaged mark (R23). -/
def State.keyClean (s : State) (n : Nat) : Prop :=
  s.keyReadFault n = none ∧ (s.keySlot n).damaged = false

/-- An entry is rewritten in its cell, which reads cleanly; its chain link is kept (R66, R72). -/
structure State.Rewrites (s t : State) (c : Nat) (e : Entry) : Prop where
  entry : t.entryAt c = e
  clean : t.entryFault c = none
  next : (t.cell c).next = (s.cell c).next
  last : (t.cell c).last = (s.cell c).last

/-- The journal after one outcome of entry e has been appended on its reservation (R148, R149). -/
def State.journaled (s : State) (e : Entry) (kind : JournalKind) (origin : Option (Station × Site))
    (reason : Option Reason) (counts : Option (Nat × Nat)) : Journal :=
  { queue := s.journal.queue ++ [⟨s.journal.nextNumber, kind, e.wafer, e.x, e.y, e.batch, e.index,
      e.serial, e.digit, e.cls, e.attempts, origin, reason, counts⟩]
    reservations := s.journal.reservations - 1
    nextNumber := s.journal.nextNumber + 1 }

/-- The open entry in cell c ends in a final state, its key in slot n spent and its outcome journaled
(R37, R69). -/
structure State.Ends (s t : State) (c : Nat) (e : Entry) (n : Fin 8192) (final : EntryState)
    (kind : JournalKind) (origin : Option (Station × Site)) (reason : Option Reason)
    (counts : Option (Nat × Nat)) : Prop where
  entry : s.Rewrites t c { e with state := final, slot := none, owner := none }
  key : t.cell n = zeroCell
  cells : s.onlyCells t [c, n]
  pool : t.pool = { s.pool with
    slots := mapSet emptySlot s.pool.slots n emptySlot
    counts := { s.pool.counts with
      bound := s.pool.counts.bound - 1, spent := s.pool.counts.spent + 1 } }
  table : t.table = { s.table with
    binding := mapSet none s.table.binding n none
    openCount := s.table.openCount - 1 }
  journal : t.journal = s.journaled e kind origin reason counts

/-- The entry in cell c leaves the chain of bucket h, pred before it, by the four cases of R74; `open_`
says whether it was open. The binding map is not spoken of. -/
structure State.Removes (s t : State) (h c : Nat) (pred : Option Nat) (open_ : Bool) : Prop where
  heads : ∀ k, t.head k = if k = h ∧ pred = none then
      (if s.isLast c then ({ s.head h with valid := false, first := 0 } : BucketHead).written
        else ({ s.head h with first := (s.cell c).next } : BucketHead).written)
    else s.head k
  before : ∀ d, pred = some d → (t.cell d).content = (s.cell d).content
    ∧ (t.cell d).next = (if s.isLast c then 0 else (s.cell c).next)
    ∧ (t.cell d).last = (if s.isLast c then 1 else 0)
    ∧ (t.cell d).linkParity = linkParityOf (t.cell d)
    ∧ (t.cell d).contentParity = parityOf (t.cell d).content
  cell : t.cell c = zeroCell
  map : ∀ k, t.cellBucket k = if k = c then none else s.cellBucket k
  free : t.table.free = s.table.free ++ [c]
  inUse : t.table.inUse = s.table.inUse - 1
  freeCount : t.table.freeCount = s.table.freeCount + 1
  openCount : t.table.openCount = if open_ then s.table.openCount - 1 else s.table.openCount
  longest : t.table.longest = s.table.longest
  damaged : t.table.damagedBuckets = s.table.damagedBuckets

/-- The key of an open entry is withdrawn with a reason, and the entry removed (R35, R74). -/
structure State.Withdraws (s t : State) (c : Nat) (pred : Option Nat) (e : Entry) (n : Fin 8192)
    (reason : Reason) (origin : Option (Station × Site)) : Prop where
  removed : s.Removes t (bucketOf e.wafer e.x e.y) c pred true
  key : t.cell n = zeroCell
  cells : s.onlyCells t (c :: n.val :: pred.toList)
  binding : t.table.binding = mapSet none s.table.binding n none
  pool : t.pool = { s.pool with
    slots := mapSet emptySlot s.pool.slots n emptySlot
    counts := { s.pool.counts with
      bound := s.pool.counts.bound - 1, retired := s.pool.counts.retired + 1 } }
  journal : t.journal = s.journaled e .keyWithdrawn origin (some reason) none

/-- The key of an open entry goes on top of the return stack, and the entry is removed (R34, R74). The
reservation is freed, which may end a level-2 wait (R137). -/
structure State.Returns (s t : State) (c : Nat) (pred : Option Nat) (e : Entry) (n : Fin 8192) :
    Prop where
  removed : s.Removes t (bucketOf e.wafer e.x e.y) c pred true
  cells : s.onlyCells t (c :: pred.toList)
  binding : t.table.binding = mapSet none s.table.binding n none
  pool : t.pool = { s.pool with
    slots := mapSet emptySlot s.pool.slots n ⟨.returned, false⟩
    stack := n.val :: s.pool.stack
    counts := { s.pool.counts with
      bound := s.pool.counts.bound - 1, returned := s.pool.counts.returned + 1 } }
  journal : t.journal = { s.journal with reservations := s.journal.reservations - 1 }
  wait : t.sweeps = { s.sweeps with quarantine := { s.sweeps.quarantine with
    waiting := s.sweeps.quarantine.waiting
      && decide (256 ≤ s.journal.queue.length + (s.journal.reservations - 1)) } }

/-- Why a return of the key of entry e, in slot n, is a withdrawal, or that it is none (R34). -/
def State.returnIs (s : State) (e : Entry) (n : Nat) : Option Reason → Prop
  | some .keyDamaged => (s.keySlot n).damaged = true
  | some .blocked => (s.keySlot n).damaged = false ∧ s.blocked e.batch = true
  | some .returnFull => (s.keySlot n).damaged = false ∧ s.blocked e.batch = false
      ∧ 64 ≤ s.pool.stack.length
  | none => (s.keySlot n).damaged = false ∧ s.blocked e.batch = false ∧ s.pool.stack.length < 64
  | some _ => False

/-- The chain of a bucket h holds one entry e alone, in cell c, and all of it reads cleanly (R70, R71). -/
structure State.LoneEntry (s : State) (h c : Nat) (e : Entry) : Prop where
  head : s.headFault h = false
  valid : (s.head h).valid = true
  whole : (s.head h).damaged = false
  first : (s.head h).first.toNat = c
  place : s.keySlots ≤ c ∧ c < 8192
  bucket : s.cellBucket c = some h
  cell : s.entryFault c = none
  entry : s.entryAt c = e
  last : (s.cell c).last ≠ 0
  room : 0 < s.capacity

/-- A cell stands in the chain of bucket h as far as its number and the cell map show (R71). -/
def State.InPlace (s : State) (h c : Nat) : Prop :=
  s.keySlots ≤ c ∧ c < 8192 ∧ s.cellBucket c = some h

/-- From the pointer value `from_` on, the cells listed follow one another in the chain of bucket h, each
in place, reading cleanly and with its last flag clear; `last` is the pointer value that they lead to (R70, R71). -/
def State.Leads (s : State) (h : Nat) : Nat → List Nat → Nat → Prop
  | from_, [], last => from_ = last
  | from_, c :: cs, last => from_ = c ∧ s.InPlace h c ∧ s.entryFault c = none ∧ (s.cell c).last = 0
      ∧ State.Leads s h (s.cell c).next.toNat cs last

/-- A walk of bucket h reads its head cleanly, finds it valid and not damaged, reads the cells `before`,
and comes to the pointer value c (R70). -/
structure State.WalksTo (s : State) (h : Nat) (before : List Nat) (c : Nat) : Prop where
  head : s.headFault h = false
  whole : (s.head h).damaged = false
  valid : (s.head h).valid = true
  leads : s.Leads h (s.head h).first.toNat before c
  room : before.length ≤ s.capacity

/-- A walk of bucket h reads the cells `before` and then the cell c cleanly (R66, R70, R71). -/
structure State.Reads (s : State) (h : Nat) (before : List Nat) (c : Nat) : Prop where
  walks : s.WalksTo h before c
  room : before.length < s.capacity
  place : s.InPlace h c
  clean : s.entryFault c = none

/-- The whole chain of bucket h is the cells `before` and the cell c, and all of it reads cleanly (R70). -/
structure State.Chain (s : State) (h : Nat) (before : List Nat) (c : Nat) : Prop where
  reads : s.Reads h before c
  last : (s.cell c).last ≠ 0

/-- A walk of bucket h reads the cells `before` cleanly and no further: the next read fails, and its fault
is charged to place p and group g (R66, R71). A pointer that leads out of the chain, or a chain longer
than the entry capacity, is charged to the record that holds the pointer. -/
def State.Breaks (s : State) (h : Nat) (before : List Nat) (p : FaultPlace) (g : FaultGroup) : Prop :=
  let pointer : FaultPlace := match before.getLast? with
    | none => .head h
    | some d => .cell d
  ∃ c, s.WalksTo h before c
    ∧ ((¬ s.InPlace h c ∧ p = pointer ∧ g = .link)
      ∨ (before.length = s.capacity ∧ p = pointer ∧ g = .link)
      ∨ (before.length < s.capacity ∧ s.InPlace h c ∧ s.entryFault c = some g ∧ p = .cell c))

/-- The owner's site slot, where an entry has an owner and its slot is HELD, is REVOKED with its die's
coordinates; every other slot and every attached wafer is the same (R136, R141). -/
def State.ownerRevoked (s t : State) (owner : Option (Station × Site)) : Prop :=
  ∀ st : Station, t.stations[st].attached = s.stations[st].attached ∧ ∀ site, t.slot st site =
    match s.slot st site with
    | .held x y c lease => if owner = some (st, site) then .revoked x y else .held x y c lease
    | v => v

/-- The SWEEP_DONE latch is set; no reply built before clears it (R10, R143). -/
def State.doneLatched (s : State) : Vector LinkUnit 5 :=
  s.links.set 4 { s.link .lot with
    replies := (s.link .lot).replies.map fun r => { r with clearsDone := false } }

/-- The key data of an entry in a reply, with its key value (R99). -/
def grantData (e : Entry) (key : Key) : ItemData :=
  .grant ⟨e.batch, e.index, key, e.serial, e.digit, e.cls, e.attempts⟩

/-- A claim item on a FREE site of a station with wafer w attached has passed the checks up to the
existing entry (R89, R91, R59, R92). -/
structure State.AtTable (s : State) (st : Station) (b : Byte) (site : Site) (w x y : Byte)
    (cls : SerialClass) : Prop where
  named : siteOf b = some site
  slot : s.slot st site = .free
  wafer : s.stations[st].attached = some w
  halt : s.check.halt = false
  decided : s.decision w x y = .cls cls
  head : s.headFault (bucketOf w x y) = false
  whole : (s.head (bucketOf w x y)).damaged = false

/-! ## The laws -/

/-- The journal law: entries held plus reservations never exceed 256, and reservations equal the open
entries (R154); in CLOSING none is left (R9). -/
def State.JournalOk (s : State) : Prop :=
  s.journal.queue.length + s.journal.reservations ≤ 256
    ∧ s.journal.reservations = s.table.openCount
    ∧ (s.lot.state = .closing → s.journal.reservations = 0)

/-- The number of key slots in a state other than EMPTY, by the slot state map. -/
def KeyPool.inState (p : KeyPool) (k : KeyState) : Nat := (p.slots.filter fun e => e.2.state = k).length

/-- The conservation of keys: the counts agree with the slot state map (R27), and the keys loaded equal
FRESH + RETURNED + FAULTED + BOUND + spent + retired (R41). -/
def State.PoolOk (s : State) : Prop :=
  mapWf emptySlot s.pool.slots = true
    ∧ s.pool.counts.fresh = s.pool.inState .fresh
    ∧ s.pool.counts.returned = s.pool.inState .returned
    ∧ s.pool.counts.bound = s.pool.inState .bound
    ∧ s.pool.counts.faulted = s.pool.inState .faulted
    ∧ s.pool.counts.loaded = s.pool.counts.fresh + s.pool.counts.returned + s.pool.counts.faulted
        + s.pool.counts.bound + s.pool.counts.spent + s.pool.counts.retired

/-- The law of the entry cells, in OPEN and LOCKED: cells in use plus free cells equal the capacity, and
the free-entry list holds no duplicate and no cell in use (R68), and both are entry cells (R67). -/
def State.CellsOk (s : State) : Prop :=
  mapWf none s.table.cellMap = true
    ∧ (s.taking →
        s.table.inUse = s.table.cellMap.length
          ∧ s.table.freeCount = s.table.free.length
          ∧ s.table.inUse + s.table.freeCount = s.capacity
          ∧ s.table.free.Nodup
          ∧ (∀ c ∈ s.table.free, s.keySlots ≤ c ∧ c < 8192 ∧ s.cellBucket c = none)
          ∧ ∀ c, s.cellBucket c ≠ none → s.keySlots ≤ c ∧ c < 8192)

/-- The fault record: the count holds at 255, the first fault is present while the count is above 0
(R159), and STORE_FAULT is latched then (R158, R161). -/
def State.FaultsOk (s : State) : Prop :=
  s.check.faults ≤ 255 ∧ (s.check.first.isSome = true ↔ 0 < s.check.faults)
    ∧ (0 < s.check.faults → s.check.storeFault = true)

/-- The Link Units: a reply queue holds at most three link-level replies and at most one request reply
(R165); a link that holds a request has its outstanding flag set (R166), and the request belongs on the
link (R164); through CLOSING the lot link's flag is set, it holds no request (R166), and its queue has
room for the reply to the LOT CLOSE (R165, log 14). -/
def State.LinksOk (s : State) : Prop :=
  (∀ l, ((s.link l).replies.filter (·.linkLevel)).length ≤ 3
      ∧ ((s.link l).replies.filter (!·.linkLevel)).length ≤ 1)
    ∧ (∀ l r, (s.link l).request = some r → (s.link l).outstanding = true ∧ permitted l r = true)
    ∧ (s.lot.state = .closing → (s.link .lot).outstanding = true ∧ (s.link .lot).request = none
      ∧ s.Room .lot)

/-- A level-2 context waits only while it is active in an open lot and held plus reservations is 256 or
more (R137); the store clear runs in INIT alone (R162). -/
def State.WaitOk (s : State) : Prop :=
  (s.sweeps.quarantine.waiting = true →
      s.sweeps.quarantine.active = true ∧ s.taking
        ∧ 256 ≤ s.journal.queue.length + s.journal.reservations)
    ∧ (s.check.clearing = true → s.lot.state = .init)

/-- The wafer table: a record is ATTACHED(s) exactly when station s holds that wafer number (R11); the
wafer of an active purge is PURGING (R132, R134); the store clear runs in INIT alone (R162). -/
def State.WafersOk (s : State) : Prop :=
  (∀ (st : Station) (w : Byte), s.stations[st].attached = some w ↔ s.wafer w = some (.attached st))
    ∧ (s.sweeps.purge.active = true →
        s.taking ∧ ∃ w : Byte, s.sweeps.purge.param = some w.toNat ∧ s.wafer w = some .purging)
    ∧ (s.check.clearing = true → s.lot.state = .init)

end Sys2Proof.Machine
end

