-- ==== Sys2Proof/Certificates/Slice0/Obligations.lean ====
section
/-! DEFINITION. The statements for the provers. Each is about every state and operand that meets its
hypotheses; the witnesses of the hypotheses stand in Tests/Slice0.lean. -/

open Sys2Proof
open Sys2Proof.Machine

/-! ## The machine, the links and the arbiter -/

/-- One step runs the command at the front of the queue on the state with the queue's rest; on an
empty queue the part idles. The queue is the model's own (log 1). -/
def Obligations.StepRunsFrontCommand : Prop :=
  ∀ s : State,
    (∀ c rest, s.pending = c :: rest → step s = exec c { s with pending := rest })
      ∧ (s.pending = [] → step s = .next s)

/-- What device reset leaves in each block: the values that chapters 1 to 11 state (R1, R11, R14, R24
to R27, R43, R54, R67, R68, R75, R128, R143, R147, R160, R162, R163, R167, R168). -/
def Obligations.ResetValues : Prop :=
  State.reset.lot = ⟨.init, false, none, [], []⟩
    ∧ (∀ st : Station, State.reset.stations[st].attached = none
        ∧ ∀ site, State.reset.slot st site = .free)
    ∧ State.reset.pool = ⟨[], [], [], [], ⟨0, 0, 0, 0, 0, 0, 0⟩⟩
    ∧ State.reset.unitP = ⟨none, none, 0, 0, false⟩
    ∧ State.reset.unitE = ⟨none, none, 0, 0, false⟩
    ∧ State.reset.rules = none
    ∧ (∀ c, State.reset.cellBucket c = none) ∧ (∀ n, State.reset.boundCell n = none)
    ∧ State.reset.table.free = [] ∧ State.reset.table.longest = 0
    ∧ State.reset.table.damagedBuckets = 0
    ∧ State.reset.journal = ⟨[], 0, 0⟩
    ∧ State.reset.sweeps.audit = ⟨false, false, none, .table, 0, ⟨0, 0, 0, 0⟩⟩
    ∧ State.reset.sweeps.purge = ⟨false, false, none, .table, 0, ⟨0, 0, 0, 0⟩⟩
    ∧ State.reset.sweeps.quarantine = ⟨false, false, none, .table, 0, ⟨0, 0, 0, 0⟩⟩
    ∧ State.reset.sweeps.scrubActive = false ∧ State.reset.sweeps.scrubCursor = 0
    ∧ State.reset.sweeps.sweepDone = false
    ∧ State.reset.check.halt = false ∧ State.reset.check.faults = 0
    ∧ State.reset.check.first = none ∧ State.reset.check.storeFault = false
    ∧ State.reset.check.clearing = true
    ∧ (∀ l, State.reset.link l = ⟨.hunting, [], false, none⟩)
    ∧ State.reset.arbiter = .link (.station 0)
    ∧ State.reset.attention = false

/-- Device reset gives every block its reset value from any state, and the store clear that follows
leaves every cell and head zero and the lot IDLE (R1, R162). That the store and the heads stand until
the clear completes, that the queue of commands outlasts the reset and that no clear completes while
none is in flight are the model's (logs 9, 23, 3). -/
def Obligations.DeviceResetAndStoreClear : Prop :=
  ∀ s : State,
    exec .deviceReset s = .next { State.reset with
        store := s.store
        table := { State.reset.table with heads := s.table.heads }
        pending := s.pending }
      ∧ (s.check.clearing = true → ∃ t, exec .storeClearComplete s = .next t
          ∧ (∀ n, t.cell n = ⟨List.replicate 29 0, 0, 0, false, false⟩)
          ∧ (∀ h, t.head h = ⟨false, 0, false, false⟩)
          ∧ t.lot = { s.lot with state := .idle }
          ∧ t.check = { s.check with clearing := false }
          ∧ t.table = { s.table with heads := t.table.heads }
          ∧ s.sameBeside t [.lot, .check, .table, .store])
      ∧ (s.check.clearing = false → exec .storeClearComplete s = .next s)

/-- Every request that a frame can carry past check 4 of R164 is read back whole from the kind and
body that its frame is built with, and its body keeps within 1219 bytes (11.5). -/
def Obligations.RequestBodyRoundTrip : Prop :=
  ∀ r : Request, r.wf = true →
    readRequest (kindOf r) (bodyOf r) = some r ∧ (bodyOf r).length ≤ 1219

/-- The frame of a request that arrives whole on a READY link of its kind, with no request outstanding,
is placed before the arbiter, and nothing else changes (R163, R164 check 6, R166). -/
def Obligations.RequestFrameIsPlaced : Prop :=
  ∀ (s : State) (l : Link) (r : Request), r.wf = true →
    (isLotRequest r = true ↔ l = .lot) →
    (s.link l).rx = .ready → (s.link l).outstanding = false →
    exec (.frameArrival l (requestFrame r)) s = .next (s.setLink l { s.link l with
      rx := .hunting, outstanding := true, request := some r })

/-- The Link Unit's decision at a frame's last byte: the checks of R164 in order, with the limit of R165
on its replies. That a bad stop bit in the last byte marks the frame as one in an earlier byte does is the
model's reading (log 19). -/
def Obligations.FrameChecksInOrder : Prop :=
  ∀ (s : State) (l : Link) (bs : List Byte) (bad : Bool) (b : Byte),
    (s.link l).rx = .inFrame bs bad →
    (bs ++ [b]).length = 5 + fieldOf (bs ++ [b]) 1 2 →
    let kind := byteAt (bs ++ [b]) 0
    let front := (bs ++ [b]).take ((bs ++ [b]).length - 2)
    let good := bad = false ∧ twoSum front = halfAt (bs ++ [b]) ((bs ++ [b]).length - 2)
    exec (.byteFramingError l b) s = .next (s.linkAnswered l .hunting kind .frameCheck)
      ∧ (¬ good →
          exec (.frameArrival l [b]) s = .next (s.linkAnswered l .hunting kind .frameCheck))
      ∧ (good → (s.link l).outstanding = true →
          exec (.frameArrival l [b]) s = .next (s.linkAnswered l .hunting kind .linkBusy))
      ∧ (good → (s.link l).outstanding = false → readRequest kind (front.drop 3) = none →
          exec (.frameArrival l [b]) s = .next (s.linkAnswered l .hunting kind .format))
      ∧ (∀ r, good → (s.link l).outstanding = false → readRequest kind (front.drop 3) = some r →
          ¬ (isLotRequest r = true ↔ l = .lot) →
          exec (.frameArrival l [b]) s = .next (s.linkAnswered l .hunting kind .notPermitted))
      ∧ (∀ r, good → (s.link l).outstanding = false → readRequest kind (front.drop 3) = some r →
          (isLotRequest r = true ↔ l = .lot) →
          exec (.frameArrival l [b]) s = .next (s.setLink l { s.link l with
            rx := .hunting, outstanding := true, request := some r }))

/-- The receive framer (R163): a hunting framer discards bytes until an idle gap, a READY one starts a
frame at the next byte, a frame collects its bytes, an idle gap truncates it (FRAME_CHECK with its
kind), and a length above 1219 cuts it off (FORMAT). That a byte with a bad stop bit may be a frame's
first, and that LENGTH_TOO_GREAT stands for the two length bytes, are the model's (logs 19 and 20). -/
def Obligations.ReceiveFramer : Prop :=
  ∀ (s : State) (l : Link),
    ((s.link l).rx = .hunting →
        exec (.idleGap l) s = .next (s.setLink l { s.link l with rx := .ready })
          ∧ ∀ b, exec (.frameStart l b) s = .next s ∧ exec (.byteFramingError l b) s = .next s)
      ∧ ((s.link l).rx = .ready → exec (.idleGap l) s = .next s
          ∧ ∀ b, exec (.frameStart l b) s =
              .next (s.setLink l { s.link l with rx := .inFrame [b] false })
            ∧ exec (.byteFramingError l b) s =
              .next (s.setLink l { s.link l with rx := .inFrame [b] true }))
      ∧ (∀ bs bad, (s.link l).rx = .inFrame bs bad →
          exec (.idleGap l) s = .next (s.linkAnswered l .ready (byteAt bs 0) .frameCheck)
            ∧ ∀ b, (bs.length < 2 ∨ (fieldOf (bs ++ [b]) 1 2 ≤ 1219
                ∧ bs.length + 1 < 5 + fieldOf (bs ++ [b]) 1 2)) →
              exec (.frameStart l b) s =
                  .next (s.setLink l { s.link l with rx := .inFrame (bs ++ [b]) bad })
                ∧ exec (.byteFramingError l b) s =
                  .next (s.setLink l { s.link l with rx := .inFrame (bs ++ [b]) true }))
      ∧ (∀ kind bad (high low : Byte), (s.link l).rx = .inFrame [kind] bad →
          exec (.lengthTooGreat l high low) s = .next (
            if 1219 < high.toNat * 256 + low.toNat then s.linkAnswered l .hunting kind .format
            else s.setLink l { s.link l with rx := .inFrame [kind, high, low] bad }))

/-- The oldest reply of a link leaves its queue when it has been sent; a LOT STATUS reply that reports
the SWEEP_DONE latch clears it (R10, R143, R165). That the latch goes at the reply's sending, not at
its grant, follows R10; which reply reports it is kept in a mark of the model (log 16), and the reply
being sent stands in the queue until then (log 30). A queue holds at most one request reply (R165), so a
request whose turn has come while one waits is granted once that one has been sent (log 14). The frame
sent is the kind with 0x80 added, the body's length, the body and the two-sum; its body is laid out as
11.6 has it, numbers most significant byte first (R165, R169); the bytes of an absent window E are the
model's reading (log 22), and the kind is a single byte (log 15). -/
def Obligations.ReplyFrameSent : Prop :=
  (∀ (s : State) (l : Link),
    ((s.link l).replies = [] → exec (.replyFrameSent l) s = .next s)
      ∧ (∀ r rest, (s.link l).replies = r :: rest → ∃ t, exec (.replyFrameSent l) s = .next t
          ∧ t.links = s.links.set (linkNo l) { s.link l with replies := rest }
          ∧ t.sweeps = { s.sweeps with
              sweepDone := if r.clearsDone = true then false else s.sweeps.sweepDone }
          ∧ s.sameBeside t [.links, .sweeps])
      ∧ (∀ i r t, Instr.request i = some (l, r) → s.Calm → s.Turn l r → ¬ s.Room l →
          exec (.replyFrameSent l) s = .next t → exec i s = exec i t))
    ∧ (let num (k v : Nat) : List Byte :=
        (List.range k).map fun i => BitVec.ofNat 8 (v / 256 ^ (k - 1 - i))
      let codes : List Code := [.ok, .issued, .reissued, .provisioned, .partialBurn, .voided, .released,
        .releasedUncertain, .notReady, .noLot, .lotLocked, .lotClosing, .lotOpen, .badParam,
        .notPermitted, .format, .frameCheck, .linkBusy, .waferBusy, .waferFinished, .noWafer,
        .claimsActive, .siteBusy, .siteIdle, .duplicateInSet, .outOfRange, .excluded,
        .alreadyProvisioned, .dieVoid, .heldElsewhere, .bucketDamaged, .tableFull, .poolEmpty,
        .serialExhausted, .journalFull, .issueHalted, .wrongState, .revoked, .expired, .poolFull,
        .batchDuplicate, .batchBlocked, .batchListFull, .recordCheck, .blockListFull, .sweepActive,
        .notClosable]
      let serial (v : PackedSerial) (digit : Byte) (c : SerialClass) : List Byte :=
        num 5 v.toNat ++ [digit, match c with | .p => 0 | .e => 1]
      let reason (r : Reason) : Byte := match r with
        | .spoiled => 1 | .attempts => 2 | .abandoned => 3 | .quarantine => 4 | .unresolved => 5
        | .keyDamaged => 6 | .returnFull => 7 | .blocked => 8
      let data (d : ItemData) : List Byte := match d with
        | .none => []
        | .grant g => num 2 g.batch.toNat ++ [g.index] ++ num 16 g.key.toNat
          ++ serial g.serial g.digit g.cls ++ [g.attempts]
        | .serial v digit c => serial v digit c
        | .attempts n => [n]
        | .missing bits attempts => num 1 bits ++ [attempts]
        | .voided r missing extra => [reason r] ++ num 1 missing ++ num 1 extra
        | .disposition none => [0, 0]
        | .disposition (some r) => [1, reason r]
      let wafer (w : Option Byte) : Byte := w.getD 0xFF
      let flag (b : Bool) : Byte := if b then 1 else 0
      let counts (c : SweepCounts) : List Byte :=
        num 4 c.visited ++ num 4 c.changed ++ num 4 c.appended ++ num 4 c.faults
      let slot (v : Slot) : List Byte := match v with
        | .free => [0, 0, 0, 0, 0]
        | .held x y _ lease => [1, x, y] ++ num 2 lease
        | .revoked x y => [2, x, y, 0, 0]
        | .expired x y => [3, x, y, 0, 0]
      let lot (v : LotState) : Byte := match v with
        | .init => 0 | .idle => 1 | .opened => 2 | .locked => 3 | .closing => 4
      let kind (k : JournalKind) : Byte := match k with
        | .provisioned => 1 | .voided => 2 | .keyWithdrawn => 3 | .quarantineHit => 4
      let phase (p : SweepPhase) : Byte := match p with | .table => 0 | .pool => 1
      let journal (j : JournalEntry) : List Byte := num 2 j.number.toNat
        ++ [kind j.kind, j.wafer, j.x, j.y] ++ num 2 j.batch.toNat ++ [j.index] ++ serial j.serial j.digit j.cls
        ++ [j.attempts]
        ++ (match j.origin with
          | some (st, site) => [BitVec.ofNat 8 st.val, BitVec.ofNat 8 site.val] | none => [0xFF, 0xFF])
        ++ [(j.reason.map reason).getD 0]
        ++ (match j.counts with | some (m, x) => num 1 m ++ num 1 x | none => [0xFF, 0xFF])
        ++ List.replicate 10 0
      let faults (n : Nat) (first : Option FaultNote) : List Byte := num 1 n ++ match first with
        | none => [0, 0, 0, 0, 0]
        | some f => (match f.place with | .cell c => 1 :: num 2 c | .head h => 2 :: num 2 h)
          ++ [if f.group = .link then 0 else 1, if f.origin = .access then 0 else 1]
      let window (w : Window) : List Byte :=
        num 5 (packSerial w.first).toNat ++ num 5 (packSerial w.last).toNat
      let range (v : Option (Byte × Byte)) : List Byte := match v with
        | none => [1, 0, 0] | some (lo, hi) => [0, lo, hi]
      let action (a : RuleAction) : Byte := match a with | .exclude => 0 | .cls .p => 1 | .cls .e => 2
      let settled (p : Settled) : List Byte := window p.windowP
        ++ (match p.windowE with | some w => 1 :: window w | none => List.replicate 11 0)
        ++ num 2 p.limits.claimLease ++ num 2 p.limits.burnLease ++ num 1 p.limits.attemptLimit
        ++ num 2 p.limits.poolLow ++ num 2 p.limits.tableLow ++ num 2 p.limits.journalHigh
        ++ [flag p.limits.strict] ++ num 1 p.rules.length
        ++ p.rules.flatMap fun r => flag r.enabled :: range r.wafer ++ range r.xRange ++ range r.yRange
          ++ num 1 r.priority ++ [action r.action]
      (∀ r : Reply, let front := (r.kind + 0x80) :: num 2 (replyBytes r.body).length ++ replyBytes r.body
          r.frame = front ++ num 2 (twoSum front).toNat)
        ∧ codes.length = 47 ∧ codes.map codeByte = (List.range 47).map (BitVec.ofNat 8)
        ∧ (∀ c, replyBytes (.code c) = [codeByte c])
        ∧ (∀ items, replyBytes (.items items) = 0 :: num 1 items.length
          ++ items.flatMap fun i => [i.site, codeByte i.code] ++ data i.data)
        ∧ (∀ w d freed, replyBytes (.attached w d freed) = [0, w, wafer d] ++ num 1 freed)
        ∧ (∀ w freed, replyBytes (.detached w freed) = [0, w] ++ num 1 freed)
        ∧ (∀ a b c, replyBytes (.stationReset a b c) = [0] ++ num 1 a ++ num 1 b ++ num 1 c)
        ∧ (∀ v halt table, replyBytes (.stationStatus v halt table)
          = [0, lot v, flag halt, wafer table.attached] ++ table.slots.toList.flatMap slot)
        ∧ (∀ name split p keys capacity, replyBytes (.lotOpened name split p keys capacity)
          = [0] ++ num 8 name.toNat ++ num 1 split ++ settled p ++ num 2 keys ++ num 2 capacity)
        ∧ (∀ p, replyBytes (.lotAmended p) = 0 :: settled p)
        ∧ (∀ batch count fresh depth, replyBytes (.keyLoaded batch count fresh depth)
          = [0] ++ num 2 batch.toNat ++ num 1 count ++ num 2 fresh ++ num 2 depth)
        ∧ (∀ g, replyBytes (.quarantined g) = [0] ++ num 1 g)
        ∧ (∀ w, replyBytes (.purging w) = [0, w])
        ∧ (∀ p cursor c, replyBytes (.auditStopped p cursor c) = [0, phase p] ++ num 2 cursor ++ counts c)
        ∧ (∀ held reservations entries, replyBytes (.journalRead held reservations entries)
          = [0] ++ num 2 held ++ num 2 reservations ++ num 1 entries.length ++ entries.flatMap journal)
        ∧ (∀ a b held reservations, replyBytes (.journalTaken a b held reservations)
          = [0] ++ num 2 a.toNat ++ num 2 b.toNat ++ num 2 held ++ num 2 reservations)
        ∧ (∀ halt n first, replyBytes (.resumed halt n first) = [0, flag halt] ++ faults n first)
        ∧ (∀ name lock a b c, replyBytes (.lotClosed name lock a b c)
          = [0] ++ num 8 name.toNat ++ [flag lock] ++ num 4 a ++ num 4 b ++ num 4 c)
        ∧ (∀ report, replyBytes (.lotStatus report) = 0 :: report)
        ∧ (∀ n k, replyBytes (.badParameter n k) = [0x0D] ++ num 1 n
          ++ [match k with | some k => BitVec.ofNat 8 k | none => 0xFF])
        ∧ (∀ n, replyBytes (.badRecord n) = [0x0D] ++ num 1 n)
        ∧ (∀ n, replyBytes (.badTake n) = [0x0D] ++ num 2 n)
        ∧ (∀ g, replyBytes (.batchBlocked g) = [0x29] ++ num 1 g)
        ∧ (∀ n, replyBytes (.poolFull n) = [0x27] ++ num 2 n)
        ∧ (∀ indices, replyBytes (.recordCheck indices) = [0x2B] ++ num 1 indices.length ++ indices)
        ∧ (∀ ks, replyBytes (.notClosable ks) = [0x2E] ++ num 1 ks.length ++ ks.flatMap (num 1)))

/-- The arbiter grants the requester that stands first from its pointer in the cyclic order among those
that hold something, and none where none does; and a requester that holds something comes nearer with
every grant that goes to another, so at most five go to others first (R167). -/
def Obligations.ArbiterGrantsInTurn : Prop :=
  ∀ s : State,
    (∀ p, s.nextGrant = some p ↔ s.holds p = true
        ∧ ∀ q, s.holds q = true → s.arbiter.distance p ≤ s.arbiter.distance q)
      ∧ (s.nextGrant = none ↔ ∀ q, s.holds q = false)
      ∧ (∀ p q, s.nextGrant = some p → s.holds q = true → q ≠ p →
          p.after.distance q < s.arbiter.distance q)
      ∧ ∀ q, s.arbiter.distance q ≤ 5

/-- Every request is tested against the lot state first: in INIT, IDLE and CLOSING all but the requests
of R2's table are answered with its code, and no block changes. -/
def Obligations.LotStateTest : Prop :=
  ∀ (s : State) (i : Instr) (l : Link) (r : Request), i.request = some (l, r) → s.Granted l r →
    (s.lot.state = .init → exec i s = .next (s.answeredCode l (kindOf r) .notReady))
      ∧ (s.lot.state = .idle → (∀ b, r ≠ .lotOpen b) → r ≠ .lotStatus → r ≠ .stationStatus →
          (∀ n, r ≠ .journalRead n) → exec i s = .next (s.answeredCode l (kindOf r) .noLot))
      ∧ (s.lot.state = .closing → r ≠ .stationStatus →
          exec i s = .next (s.answeredCode l (kindOf r) .lotClosing))

/-- A request command whose link does not hold its request brings it to the Link Unit: LINK_BUSY where
one is outstanding, else it is placed, and it waits while another requester's turn comes first. The
request command as the grant of its own request is the model's reading of the table's rows (logs 2 and
4). -/
def Obligations.RequestWaitsItsTurn : Prop :=
  ∀ (s : State) (i : Instr) (l : Link) (r : Request), i.request = some (l, r) → r.wf = true →
    s.Calm →
    ((s.link l).request = some r → s.nextGrant ≠ some (.link l) → exec i s = .next s)
      ∧ ((s.link l).request ≠ some r → (s.link l).outstanding = true →
          exec i s = .next (s.linkAnswered l (s.link l).rx (kindOf r) .linkBusy))
      ∧ ((s.link l).request ≠ some r → (s.link l).outstanding = false →
          let u := s.setLink l { s.link l with outstanding := true, request := some r }
          exec i s = if u.nextGrant = some (.link l) then exec i u else .next u)

/-- The lease timer (R15): a boundary with the engine free takes one unit from every HELD slot's lease
in OPEN, LOCKED and CLOSING and nothing else; one that falls during item k of the next grant is held
back for it. That a tick only counts down, each expiry being a command of its own or taken before the
next grant, is the model's (logs 5 and 6). -/
def Obligations.LeaseTimerTick : Prop :=
  ∀ s : State,
    (s.Calm → ∃ t, exec (.leaseTimerTick none) s = .next t
        ∧ s.sameBeside t [.stations]
        ∧ ∀ st : Station, t.stations[st].attached = s.stations[st].attached
          ∧ ∀ site, t.slot st site = match s.slot st site with
            | .held x y c lease =>
              if s.lot.state = .init ∨ s.lot.state = .idle then .held x y c lease
              else .held x y c (lease - 1)
            | v => v)
      ∧ ∀ k, exec (.leaseTimerTick (some k)) s = .next { s with deferred := s.deferred ++ [k] }

/-- Every expiry that is due is taken before anything is granted: each request command, each sweep step
and the tick does on a state what it does on the state in which they have been taken. There each slot
whose lease had reached 0 is EXPIRED with its die's coordinates, no other slot has changed and none is
due; and each is the LEASE_EXPIRY of its slot, the lowest station and site first (R15, R117), whose ends
LeaseExpiryDecides states. That an expiry may be commanded, or else comes with the next command that
needs it, is the model's (log 5). -/
def Obligations.DueExpiriesAreTaken : Prop :=
  ∀ s : State,
    (∀ i l r, Instr.request i = some (l, r) → exec i s = exec i s.settleExpiries)
      ∧ (∀ i ∈ [Instr.purgeStep, .quarantineStep, .auditTableStep, .auditPoolStep, .closeScrubStep,
          .leaseTimerTick none], exec i s = exec i s.settleExpiries)
      ∧ (∀ st site, s.settleExpiries.slot st site = match s.slot st site with
          | .held x y _ 0 => .expired x y
          | v => v)
      ∧ (∀ st site, s.settleExpiries.expiryDue st site = false)
      ∧ ((∀ st site, s.expiryDue st site = false) → s.settleExpiries = s)
      ∧ (∀ (st : Station) (site : Site), s.expiryDue st site = true →
          (∀ (st' : Station) (site' : Site), st' < st ∨ (st' = st ∧ site' < site) →
            s.expiryDue st' site' = false) →
          ∃ t, exec (.leaseExpiry st site) s = .next t ∧ t.expiryDue st site = false
            ∧ t.settleExpiries = s.settleExpiries)

/-! ## Stations -/

/-- ATTACH is decided by the first matching case of R12; an attach that goes through detaches the
station's other wafer first, freeing its notices. The reply to an ATTACH of the wafer already attached
gives no detached wafer and 0 freed, which is the model's reading (log 25). -/
def Obligations.AttachDecides : Prop :=
  ∀ (s : State) (st : Station) (w : Byte), s.Granted (.station st) (.attach w) → s.taking →
    s.WafersOk →
    let code (c : Code) := s.answeredCode (.station st) 0x01 c
    let open_ := s.wafer w = some .new ∨ s.wafer w = some .detached
    let claims := ∃ site, (s.slot st site).isHeld = true
    (w = 0 ∨ 25 < w.toNat → exec (.attach st w) s = .next (code .badParam))
      ∧ (s.wafer w = some (.attached st) → exec (.attach st w) s =
          .next (s.answered (.station st) 0x01 (.attached w none 0) false))
      ∧ (s.wafer w = some .finished → exec (.attach st w) s = .next (code .waferFinished))
      ∧ ((∃ t, t ≠ st ∧ s.wafer w = some (.attached t)) ∨ s.wafer w = some .purging →
          exec (.attach st w) s = .next (code .waferBusy))
      ∧ (open_ → claims → exec (.attach st w) s = .next (code .claimsActive))
      ∧ (open_ → ¬ claims → s.stations[st].attached = none →
          exec (.attach st w) s = .next (({ s with
            lot := { s.lot with wafers := s.lot.wafers.set (w.toNat - 1) (.attached st) }
            stations := s.stations.set st { s.stations[st] with attached := some w } }).answered
              (.station st) 0x01 (.attached w none 0) false))
      ∧ (∀ old, open_ → ¬ claims → s.stations[st].attached = some old →
          ∃ t freed, exec (.attach st w) s = .next t
            ∧ s.Replies t (.station st) 0x01 (.attached w (some old) freed) false
            ∧ freed = (List.finRange 16).countP (fun site => (s.slot st site).isNotice)
            ∧ t.stations[st].attached = some w
            ∧ (∀ site, t.slot st site = if (s.slot st site).isNotice then .free else s.slot st site)
            ∧ (∀ st' : Station, st' ≠ st → t.stations[st'] = s.stations[st'])
            ∧ (∀ v, t.wafer v = if v = w then some (.attached st)
                else if v = old then some .detached else s.wafer v)
            ∧ t.lot = { s.lot with wafers := t.lot.wafers }
            ∧ s.sameBeside t [.lot, .stations, .links, .arbiter])

/-- DETACH (R13): NO_WAFER, CLAIMS_ACTIVE, or the wafer DETACHED and every notice of the station freed. -/
def Obligations.DetachDecides : Prop :=
  ∀ (s : State) (st : Station), s.Granted (.station st) .detach → s.taking → s.WafersOk →
    let claims := ∃ site, (s.slot st site).isHeld = true
    (s.stations[st].attached = none →
        exec (.detach st) s = .next (s.answeredCode (.station st) 0x02 .noWafer))
      ∧ (∀ w, s.stations[st].attached = some w → claims →
          exec (.detach st) s = .next (s.answeredCode (.station st) 0x02 .claimsActive))
      ∧ (∀ w, s.stations[st].attached = some w → ¬ claims →
          ∃ t freed, exec (.detach st) s = .next t
            ∧ s.Replies t (.station st) 0x02 (.detached w freed) false
            ∧ freed = (List.finRange 16).countP (fun site => (s.slot st site).isNotice)
            ∧ t.stations[st].attached = none
            ∧ (∀ site, t.slot st site = if (s.slot st site).isNotice then .free else s.slot st site)
            ∧ (∀ st' : Station, st' ≠ st → t.stations[st'] = s.stations[st'])
            ∧ (∀ v, t.wafer v = if v = w then some .detached else s.wafer v)
            ∧ t.lot = { s.lot with wafers := t.lot.wafers }
            ∧ s.sameBeside t [.lot, .stations, .links, .arbiter])

/-- STATION STATUS, taken in IDLE, OPEN, LOCKED and CLOSING, reports the station's wafer and sixteen
slots with the lot state and the halt, and changes nothing (R17). -/
def Obligations.StationStatusReports : Prop :=
  ∀ (s : State) (st : Station), s.Granted (.station st) .stationStatus → s.lot.state ≠ .init →
    exec (.stationStatus st) s = .next (s.answered (.station st) 0x09
      (.stationStatus s.lot.state s.check.halt s.stations[st]) false)

/-- STATION RESET frees every slot of its station and no other, leaves the wafer attached, and its
three counts add up to the slots that were not FREE (R18, R20, R123, R124). -/
def Obligations.StationResetFreesEverySite : Prop :=
  ∀ (s : State) (st : Station), s.Granted (.station st) .stationReset → s.taking →
    ∃ t released uncertain freed, exec (.stationReset st) s = .next t
      ∧ s.Replies t (.station st) 0x08 (.stationReset released uncertain freed) false
      ∧ released + uncertain + freed
          = (List.finRange 16).countP (fun site => decide (s.slot st site ≠ .free))
      ∧ t.stations[st].attached = s.stations[st].attached
      ∧ (∀ site, t.slot st site = .free)
      ∧ (∀ st' : Station, st' ≠ st → t.stations[st'] = s.stations[st'])
      ∧ s.sameBeside t
          [.stations, .pool, .table, .store, .journal, .sweeps, .check, .links, .arbiter]

/-- A lone claim of a station that resets ends as a lease expiry would end it, with the slot FREE: at
attempts 0 its key is returned or withdrawn, after a burn its entry is UNCERTAIN (R123). -/
def Obligations.StationResetEndsAClaim : Prop :=
  ∀ (s : State) (st : Station) (b : Byte) (site : Site) (x y : Byte) (c : Nat) (e : Entry)
    (n : Fin 8192),
    s.Granted (.station st) .stationReset → s.taking → s.Claimed st b site x y c e n →
    (∀ site', site' ≠ site → s.slot st site' = .free) →
    (∀ c' pred why, e.state = .issued → e.attempts = 0 → s.returnIs e n why →
        s.find e.wafer e.x e.y = .found c' pred →
        ∃ t, exec (.stationReset st) s = .next t
          ∧ s.Replies t (.station st) 0x08 (.stationReset 1 0 0) false
          ∧ s.onlySite t st site .free
          ∧ (why = none → s.Returns t c' pred e n
              ∧ s.sameBeside t
                [.stations, .pool, .table, .store, .journal, .sweeps, .links, .arbiter])
          ∧ (∀ reason, why = some reason → s.Withdraws t c' pred e n reason (some (st, site))
              ∧ s.sameBeside t [.stations, .pool, .table, .store, .journal, .links, .arbiter]))
      ∧ (e.state = .burning ∨ (e.state = .issued ∧ e.attempts ≠ 0) →
        ∃ t, exec (.stationReset st) s = .next t
          ∧ s.Replies t (.station st) 0x08 (.stationReset 0 1 0) false
          ∧ s.onlySite t st site .free
          ∧ s.Rewrites t c { e with state := .uncertain, owner := none }
          ∧ s.onlyCells t [c]
          ∧ s.sameBeside t [.stations, .store, .links, .arbiter])

/-- The five list requests settle an item's site before any check of their own: OUT_OF_RANGE above 15,
and REVOKED or EXPIRED from a notice, which frees the slot, whatever the item asks for (R16). -/
def Obligations.SiteNoticesAnswerFirst : Prop :=
  ∀ (s : State) (st : Station) (b x y : Byte) (image : Key) (i : Instr) (r : Request),
    i ∈ [Instr.claim st [⟨b, x, y⟩], .burnBegin st [b], .burnResult st [⟨b, image⟩],
      .release st [b], .abandon st [b]] →
    i.request = some (.station st, r) → s.Granted (.station st) r → s.taking →
    (15 < b.toNat → exec i s =
        .next (s.answeredItems (.station st) (kindOf r) [⟨b, .outOfRange, .none⟩]))
      ∧ (∀ site dx dy, b.toNat = site.val → s.slot st site = .revoked dx dy →
          ∃ t, exec i s = .next t ∧ s.onlySite t st site .free
            ∧ s.Replies t (.station st) (kindOf r) (.items [⟨b, .revoked, .none⟩]) false
            ∧ s.sameBeside t [.stations, .links, .arbiter])
      ∧ (∀ site dx dy, b.toNat = site.val → s.slot st site = .expired dx dy →
          ∃ t, exec i s = .next t ∧ s.onlySite t st site .free
            ∧ s.Replies t (.station st) (kindOf r) (.items [⟨b, .expired, .none⟩]) false
            ∧ s.sameBeside t [.stations, .links, .arbiter])

/-- BURN BEGIN, BURN RESULT, RELEASE and ABANDON on a FREE site are answered SITE_IDLE; on a HELD site
whose entry's bucket is marked damaged they are answered BUCKET_DAMAGED and free the slot, and the
entry, its key and its reservation stay (R87, R100, R102, R106, R111). So they are where the item's own
read of the head or of the cell finds the fault, which is handled in the same step (R72, R77, R158). -/
def Obligations.IdleAndFrozenSites : Prop :=
  ∀ (s : State) (st : Station) (b : Byte) (site : Site) (image : Key) (i : Instr) (r : Request),
    i ∈ [Instr.burnBegin st [b], .burnResult st [⟨b, image⟩], .release st [b], .abandon st [b]] →
    i.request = some (.station st, r) → s.Granted (.station st) r → s.taking →
    b.toNat = site.val →
    (s.slot st site = .free → exec i s =
        .next (s.answeredItems (.station st) (kindOf r) [⟨b, .siteIdle, .none⟩]))
      ∧ (∀ x y c lease h, s.slot st site = .held x y c lease → s.cellBucket c = some h →
          s.headFault h = false → (s.head h).damaged = true →
          ∃ t, exec i s = .next t ∧ s.onlySite t st site .free
            ∧ s.Replies t (.station st) (kindOf r) (.items [⟨b, .bucketDamaged, .none⟩]) false
            ∧ s.sameBeside t [.stations, .links, .arbiter])
      ∧ (∀ x y c lease h p g, s.slot st site = .held x y c lease → s.cellBucket c = some h →
          (s.headFault h = true ∧ p = .head h ∧ g = .link)
            ∨ (s.headFault h = false ∧ (s.head h).damaged = false ∧ s.entryFault c = some g
              ∧ p = .cell c) →
          ∃ t, exec i s = .next t ∧ s.onlySite t st site .free
            ∧ s.Replies t (.station st) (kindOf r) (.items [⟨b, .bucketDamaged, .none⟩]) false
            ∧ (s.tableFault p g .access).sameBeside t [.stations, .links, .arbiter])

/-- A list request takes its items in list order, each on the state that the items before it left, and
answers OK with one outcome per item; where no boundary falls during it, nothing comes between (R16,
R82, R100, R102, R105, R110). The items are those that the statements on single items describe. A timer
boundary that falls during an item is applied as that item ends: every lease runs down by one and the
slots that reach 0 expire before the next item is taken, which then answers EXPIRED (R15, R121). That the
boundary is commanded beforehand, with the item it falls in, is the model's (log 6). -/
def Obligations.ListItemsAreTakenInOrder : Prop :=
  ∀ (s : State) (st : Station), s.taking →
    (∀ items, s.Granted (.station st) (.claim items) → exec (.claim st items) s =
        let done := takeItems (claimItem st items) 0 items (s.taken (.station st))
        .next (done.2.reply (.station st) 0x03 (.items done.1)))
      ∧ (∀ sites, s.Granted (.station st) (.burnBegin sites) → exec (.burnBegin st sites) s =
        let done := takeItems (burnBeginItem st) 0 sites (s.taken (.station st))
        .next (done.2.reply (.station st) 0x04 (.items done.1)))
      ∧ (∀ items, s.Granted (.station st) (.burnResult items) → exec (.burnResult st items) s =
        let done := takeItems (burnResultItem st) 0 items (s.taken (.station st))
        .next (done.2.reply (.station st) 0x05 (.items done.1)))
      ∧ (∀ sites, s.Granted (.station st) (.release sites) → exec (.release st sites) s =
        let done := takeItems (releaseItem st) 0 sites (s.taken (.station st))
        .next (done.2.reply (.station st) 0x06 (.items done.1)))
      ∧ (∀ sites, s.Granted (.station st) (.abandon sites) → exec (.abandon st sites) s =
        let done := takeItems (abandonItem st) 0 sites (s.taken (.station st))
        .next (done.2.reply (.station st) 0x07 (.items done.1)))
      ∧ (∀ items k, s.GrantedAcross (.station st) (.claim items) k → exec (.claim st items) s =
        .next (State.answeredAcross (.station st) 0x03 k items.length
          (takeItemsAcross (claimItem st items) k 0 items (s.taken (.station st)))))
      ∧ (∀ sites k, s.GrantedAcross (.station st) (.burnBegin sites) k → exec (.burnBegin st sites) s =
        .next (State.answeredAcross (.station st) 0x04 k sites.length
          (takeItemsAcross (burnBeginItem st) k 0 sites (s.taken (.station st)))))
      ∧ (∀ items k, s.GrantedAcross (.station st) (.burnResult items) k → exec (.burnResult st items) s =
        .next (State.answeredAcross (.station st) 0x05 k items.length
          (takeItemsAcross (burnResultItem st) k 0 items (s.taken (.station st)))))
      ∧ (∀ sites k, s.GrantedAcross (.station st) (.release sites) k → exec (.release st sites) s =
        .next (State.answeredAcross (.station st) 0x06 k sites.length
          (takeItemsAcross (releaseItem st) k 0 sites (s.taken (.station st)))))
      ∧ (∀ sites k, s.GrantedAcross (.station st) (.abandon sites) k → exec (.abandon st sites) s =
        .next (State.answeredAcross (.station st) 0x07 k sites.length
          (takeItemsAcross (abandonItem st) k 0 sites (s.taken (.station st)))))
      ∧ (∀ (b b' : Byte) (site : Site) (x y : Byte) (c : Nat),
        s.GrantedAcross (.station st) (.release [b, b']) 0 → 15 < b.toNat → b'.toNat = site.val →
        s.slot st site = .held x y c 1 →
        ∃ t, exec (.release st [b, b']) s = .next t ∧ t.deferred = []
          ∧ s.Replies t (.station st) 0x06
            (.items [⟨b, .outOfRange, .none⟩, ⟨b', .expired, .none⟩]) false
          ∧ ∀ st' site', t.slot st' site' = if st' = st ∧ site' = site then .free
            else match s.slot st' site' with
            | .held x y _ 1 => .expired x y
            | .held x y c lease => .held x y c (lease - 1)
            | v => v)

/-- The lease expiry of the one slot that is due (R117 to R120): at attempts 0 the key is returned or
withdrawn and the entry removed, after a burn the entry is UNCERTAIN, and a frozen entry stays; the
slot is EXPIRED with its die's coordinates. An entry stays too where the expiry's own read of the head or
the cell, or the removal's walk, finds a fault, which is handled in the same step (R72, R158). -/
def Obligations.LeaseExpiryDecides : Prop :=
  ∀ (s : State) (st : Station) (site : Site) (x y : Byte) (c : Nat),
    s.slot st site = .held x y c 0 →
    (∀ st' site', (st', site') ≠ (st, site) → s.expiryDue st' site' = false) →
    (∀ e n c' pred why, s.OpenEntry c e n → e.state = .issued → e.attempts = 0 →
        s.returnIs e n why → s.find e.wafer e.x e.y = .found c' pred →
        ∃ t, exec (.leaseExpiry st site) s = .next t
          ∧ s.onlySite t st site (.expired x y)
          ∧ (why = none → s.Returns t c' pred e n
              ∧ s.sameBeside t [.stations, .pool, .table, .store, .journal, .sweeps])
          ∧ (∀ reason, why = some reason → s.Withdraws t c' pred e n reason (some (st, site))
              ∧ s.sameBeside t [.stations, .pool, .table, .store, .journal]))
      ∧ (∀ e n, s.OpenEntry c e n →
        e.state = .burning ∨ (e.state = .issued ∧ e.attempts ≠ 0) →
        ∃ t, exec (.leaseExpiry st site) s = .next t
          ∧ s.onlySite t st site (.expired x y)
          ∧ s.Rewrites t c { e with state := .uncertain, owner := none }
          ∧ s.onlyCells t [c]
          ∧ s.sameBeside t [.stations, .store])
      ∧ (∀ h, s.cellBucket c = some h → s.headFault h = false → (s.head h).damaged = true →
        ∃ t, exec (.leaseExpiry st site) s = .next t
          ∧ s.onlySite t st site (.expired x y)
          ∧ s.sameBeside t [.stations])
      ∧ (∀ h p g, s.cellBucket c = some h →
        (s.headFault h = true ∧ p = .head h ∧ g = .link)
          ∨ (s.headFault h = false ∧ (s.head h).damaged = false ∧ s.entryFault c = some g ∧ p = .cell c)
          ∨ (∃ e n, s.OpenEntry c e n ∧ e.state = .issued ∧ e.attempts = 0
            ∧ s.find e.wafer e.x e.y = .fault p g) →
        ∃ t, exec (.leaseExpiry st site) s = .next t
          ∧ s.onlySite t st site (.expired x y)
          ∧ (s.tableFault p g .access).sameBeside t [.stations])

/-! ## Claiming -/

/-- A claim item on a FREE site that is refused before the resource tests leaves every block as it
was: NO_WAFER, ISSUE_HALTED, EXCLUDED, BUCKET_DAMAGED, HELD_ELSEWHERE, ALREADY_PROVISIONED and DIE_VOID, in
the order of R83 (R89, R91, R59, R92, R93). Where its own read of the head or its walk finds a fault it is
BUCKET_DAMAGED too, and the fault is handled in the same step (R77, R158). An item of a CLAIM whose x and
y equal those of an earlier item of it is answered DUPLICATE_IN_SET, whatever became of the earlier one
(R90). -/
def Obligations.ClaimRefusedAtTheTable : Prop :=
  (∀ (s : State) (st : Station) (b x y : Byte) (site : Site),
    s.Granted (.station st) (.claim [⟨b, x, y⟩]) → s.taking →
    b.toNat = site.val → s.slot st site = .free →
    let answered (code : Code) (data : ItemData) :=
      exec (.claim st [⟨b, x, y⟩]) s =
        .next (s.answeredItems (.station st) 0x03 [⟨b, code, data⟩])
    (s.stations[st].attached = none → answered .noWafer .none)
      ∧ (∀ w, s.stations[st].attached = some w → s.check.halt = true →
          answered .issueHalted .none)
      ∧ (∀ w, s.stations[st].attached = some w → s.check.halt = false →
          s.decision w x y = .exclude → answered .excluded .none)
      ∧ (∀ w cls, s.stations[st].attached = some w → s.check.halt = false →
          s.decision w x y = .cls cls → s.headFault (bucketOf w x y) = false →
          (s.head (bucketOf w x y)).damaged = true → answered .bucketDamaged .none)
      ∧ (∀ w cls c pred, s.AtTable st b site w x y cls → s.find w x y = .found c pred →
          ((s.entryAt c).state = .issued ∨ (s.entryAt c).state = .burning →
              answered .heldElsewhere .none)
            ∧ ((s.entryAt c).state = .provisioned → answered .alreadyProvisioned
              (.serial (s.entryAt c).serial (s.entryAt c).digit (s.entryAt c).cls))
            ∧ ((s.entryAt c).state = .void → answered .dieVoid .none))
      ∧ (∀ w cls p g, s.stations[st].attached = some w → s.check.halt = false →
          s.decision w x y = .cls cls → s.find w x y = .fault p g →
          exec (.claim st [⟨b, x, y⟩]) s = .next ((s.tableFault p g .access).answeredItems
            (.station st) 0x03 [⟨b, .bucketDamaged, .none⟩])))
    ∧ (∀ (s : State) (st : Station) (items : List ClaimItem) (k : Nat) (i : ClaimItem) (site : Site)
        (w : Byte), i.site.toNat = site.val → s.slot st site = .free → s.stations[st].attached = some w →
        (∃ j, j < k ∧ ∃ h : j < items.length, items[j].x = i.x ∧ items[j].y = i.y) →
        claimItem st items k i s = (⟨i.site, .duplicateInSet, .none⟩, s))
    ∧ (∀ (s : State) (st : Station) (b b' x y w : Byte) (site : Site),
        s.Granted (.station st) (.claim [⟨b, x, y⟩, ⟨b', x, y⟩]) → s.taking → 15 < b.toNat →
        b'.toNat = site.val → s.slot st site = .free → s.stations[st].attached = some w →
        exec (.claim st [⟨b, x, y⟩, ⟨b', x, y⟩]) s = .next (s.answeredItems (.station st) 0x03
          [⟨b, .outOfRange, .none⟩, ⟨b', .duplicateInSet, .none⟩]))

/-- A claim item whose die has no entry makes the four resource tests in order, and a refusal changes
nothing (R96). -/
def Obligations.ClaimResourceOrder : Prop :=
  ∀ (s : State) (st : Station) (b w x y : Byte) (site : Site) (cls : SerialClass) (len : Nat)
    (last : Option Nat),
    s.Granted (.station st) (.claim [⟨b, x, y⟩]) → s.taking → s.AtTable st b site w x y cls →
    s.find w x y = .notFound len last →
    let refused (code : Code) := exec (.claim st [⟨b, x, y⟩]) s =
      .next (s.answeredItems (.station st) 0x03 [⟨b, code, .none⟩])
    let unit := match cls with | .p => s.unitP | .e => s.unitE
    let sum := s.journal.queue.length + s.journal.reservations
    (s.table.free = [] → refused .tableFull)
      ∧ (s.table.free ≠ [] → unit.exhausted = true → refused .serialExhausted)
      ∧ (s.table.free ≠ [] → unit.exhausted = false → 256 ≤ sum → refused .journalFull)
      ∧ (s.table.free ≠ [] → unit.exhausted = false → sum < 256 →
          s.pool.stack = [] → s.pool.fresh = [] → refused .poolEmpty)

/-- Allocation takes the return stack first, top first, then the fresh queue; where it fails both are
used up, and the slot it chooses was among them, is FRESH or RETURNED, reads cleanly and is of a batch
that is not blocked (R32). With every candidate named once and in a state that R22 allows there, each
candidate passed over was FAULTED, was read with a fault, which is recorded, or was of a blocked batch, and
is retired: its slot EMPTY, its cell zero, the count of its state one down, the retired count one up; the
chosen one and every other slot stand (R32, R33). A claim item that has passed the resource tests is
answered POOL_EMPTY where allocation finds none, its retirements standing and nothing else changed, and is
ISSUED with the key chosen otherwise (R97). -/
def Obligations.AllocationFindsAUsableKey : Prop :=
  ∀ (s : State),
    (∀ t, s.allocateKey s.candidates = (none, t) → t.pool.stack = [] ∧ t.pool.fresh = [])
      ∧ (∀ n k t, s.allocateKey s.candidates = (some (n, k), t) →
          n ∈ s.pool.stack ++ s.pool.fresh
            ∧ (∃ used, s.pool.stack ++ s.pool.fresh = used ++ n :: (t.pool.stack ++ t.pool.fresh))
            ∧ ((t.keySlot n).state = .fresh ∨ (t.keySlot n).state = .returned)
            ∧ t.keyReadFault n = none ∧ k = t.keyAt n ∧ s.blocked k.batch = false)
      ∧ (let all := s.pool.stack ++ s.pool.fresh
        let state (v : KeyState) (m : Nat) := decide ((s.keySlot m).state = v)
        let fault (m : Nat) : Option FaultGroup := if state .faulted m then none else s.keyReadFault m
        let recorded (c : StoreCheck) (m : Nat) : StoreCheck := match fault m with
          | none => c
          | some g => { c with
              halt := c.halt || s.limits.strict
              faults := if c.faults < 255 then c.faults + 1 else 255
              first := if c.faults = 0 then some ⟨.cell m, g, .access⟩ else c.first
              storeFault := true }
        s.MapsOk → all.Nodup →
        (∀ m ∈ all, (s.keySlot m).state = .fresh ∨ (s.keySlot m).state = .returned
          ∨ (s.keySlot m).state = .faulted) →
        ∀ r t, s.allocateKey s.candidates = (r, t) →
        ∃ used, all = used ++ (r.map (·.1)).toList ++ (t.pool.stack ++ t.pool.fresh)
          ∧ (∃ drawn, drawn = used.length + (r.map (·.1)).toList.length
            ∧ t.pool.stack = s.pool.stack.drop drawn
            ∧ t.pool.fresh = s.pool.fresh.drop (drawn - s.pool.stack.length))
          ∧ (∀ m ∈ used,
            ((s.keySlot m).state = .faulted ∨ s.keyReadFault m ≠ none
              ∨ s.blocked (s.keyAt m).batch = true)
            ∧ t.keySlot m = ⟨.empty, false⟩ ∧ t.cell m = zeroCell)
          ∧ (∀ m, m ∉ used → t.keySlot m = s.keySlot m) ∧ s.onlyCells t used
          ∧ t.pool = { s.pool with
            slots := t.pool.slots
            stack := t.pool.stack
            fresh := t.pool.fresh
            counts := { s.pool.counts with
              fresh := s.pool.counts.fresh - used.countP (state .fresh)
              returned := s.pool.counts.returned - used.countP (state .returned)
              faulted := s.pool.counts.faulted - used.countP (state .faulted)
              retired := s.pool.counts.retired + used.length } }
          ∧ t.check = used.foldl recorded s.check
          ∧ s.sameBeside t [.pool, .store, .check])
      ∧ (∀ (st : Station) (b w x y : Byte) (site : Site) (cls : SerialClass) (len : Nat)
        (last : Option Nat) (cell : Nat) (rest : List Nat),
        s.Granted (.station st) (.claim [⟨b, x, y⟩]) → s.taking → s.AtTable st b site w x y cls →
        s.find w x y = .notFound len last → s.MapsOk → s.table.free = cell :: rest →
        s.journal.queue.length + s.journal.reservations < 256 →
        s.pool.stack ++ s.pool.fresh ≠ [] →
        let unit := match cls with | .p => s.unitP | .e => s.unitE
        unit.exhausted = false →
        (∀ t, s.allocateKey s.candidates = (none, t) → exec (.claim st [⟨b, x, y⟩]) s =
          .next (t.answeredItems (.station st) 0x03 [⟨b, .poolEmpty, .none⟩]))
        ∧ ∀ n k t, s.allocateKey s.candidates = (some (n, k), t) →
          let v := unit.allocate.1
          ∃ u, exec (.claim st [⟨b, x, y⟩]) s = .next u
            ∧ s.Replies u (.station st) 0x03 (.items [⟨b, .issued, .grant ⟨k.batch, k.index, k.key,
              packSerial v, BitVec.ofNat 8 (checkValue v), cls, 0⟩⟩]) false
            ∧ s.onlySite u st site (.held x y cell s.limits.claimLease)
            ∧ u.boundCell n = some cell
            ∧ (∀ m, u.keySlot m = if m = n then ⟨.bound, false⟩ else t.keySlot m)
            ∧ u.pool.stack = t.pool.stack ∧ u.pool.fresh = t.pool.fresh ∧ u.check = t.check)

/-- An ISSUED claim item: the serial, the new entry at the tail of its chain, the reservation, the BOUND
key slot, the HELD site and the lock, with everything else as it was. The first candidate is usable
here (R48, R73, R98). -/
def Obligations.ClaimCommits : Prop :=
  ∀ (s : State) (st : Station) (b w x y : Byte) (site : Site) (cls : SerialClass) (len : Nat)
    (last : Option Nat) (cell : Nat) (rest : List Nat) (n : Fin 8192) (win : Window) (nx : Nat),
    s.Granted (.station st) (.claim [⟨b, x, y⟩]) → s.taking → s.AtTable st b site w x y cls →
    s.find w x y = .notFound len last →
    s.MapsOk → s.CellsOk → s.table.free = cell :: rest →
    s.journal.queue.length + s.journal.reservations < 256 →
    let unit := match cls with | .p => s.unitP | .e => s.unitE
    unit.exhausted = false → unit.window = some win → unit.next = some nx → nx ≤ 9999999999 →
    (s.pool.stack.head? = some n.val ∨ (s.pool.stack = [] ∧ s.pool.fresh.head? = some n.val)) →
    ((s.keySlot n).state = .fresh ∨ (s.keySlot n).state = .returned) → n.val < s.keySlots →
    s.keyReadFault n = none → s.blocked (s.keyAt n).batch = false →
    let v := if checkValue nx = 10 then nx + 1 else nx
    let e : Entry := ⟨w, x, y, .issued, (s.keyAt n).batch, (s.keyAt n).index, some n, packSerial v,
      BitVec.ofNat 8 (checkValue v), cls, some (st, site), 0, 0⟩
    let unit' : SerialUnit :=
      { window := unit.window
        next := some (if v = 9999999999 then 0 else v + 1)
        issued := min 4294967295 (unit.issued + 1)
        skipped := if checkValue nx = 10 then min 4294967295 (unit.skipped + 1) else unit.skipped
        overflow := decide (v = 9999999999) }
    ∃ t, exec (.claim st [⟨b, x, y⟩]) s = .next t
      ∧ s.Replies t (.station st) 0x03
        (.items [⟨b, .issued, grantData e (s.keyAt n).key⟩]) false
      ∧ s.onlySite t st site (.held x y cell s.limits.claimLease)
      ∧ (t.entryAt cell = e ∧ t.entryFault cell = none ∧ (t.cell cell).next = 0
        ∧ (t.cell cell).last = 1)
      ∧ s.onlyCells t (cell :: last.toList)
      ∧ (∀ k, t.head k = if k = bucketOf w x y ∧ last = none then
          BucketHead.written ⟨true, BitVec.ofNat 16 cell, false, false⟩ else s.head k)
      ∧ (∀ d, last = some d → t.cell d =
          StoreCell.written { s.cell d with next := BitVec.ofNat 16 cell, last := 0 })
      ∧ (∀ k, t.cellBucket k = if k = cell then some (bucketOf w x y) else s.cellBucket k)
      ∧ (∀ k, t.boundCell k = if k = n then some cell else s.boundCell k)
      ∧ (t.table.free = rest ∧ t.table.inUse = s.table.inUse + 1
        ∧ t.table.freeCount = s.table.freeCount - 1 ∧ t.table.openCount = s.table.openCount + 1
        ∧ t.table.longest = max s.table.longest (min 255 (len + 1))
        ∧ t.table.damagedBuckets = s.table.damagedBuckets)
      ∧ (∀ k, t.keySlot k = if k = n then ⟨.bound, false⟩ else s.keySlot k)
      ∧ t.pool.stack = s.pool.stack.tail
      ∧ t.pool.fresh = (if s.pool.stack = [] then s.pool.fresh.tail else s.pool.fresh)
      ∧ t.pool.batches = s.pool.batches
      ∧ t.pool.counts = { s.pool.counts with
          fresh := s.pool.counts.fresh - if (s.keySlot n).state = .fresh then 1 else 0
          returned := s.pool.counts.returned - if (s.keySlot n).state = .returned then 1 else 0
          bound := s.pool.counts.bound + 1 }
      ∧ (match cls with
        | .p => t.unitP = unit' ∧ t.unitE = s.unitE
        | .e => t.unitE = unit' ∧ t.unitP = s.unitP)
      ∧ t.journal = { s.journal with reservations := s.journal.reservations + 1 }
      ∧ t.lot = (if s.lot.state = .opened then { s.lot with state := .locked, lock := true }
        else s.lot)
      ∧ s.sameBeside t [.lot, .stations, .pool, .unitP, .unitE, .table, .store, .journal, .links,
        .arbiter]

/-- A claim item on a HELD site (R85 to R88): SITE_BUSY for another die; for its own die REISSUED with its
own key and a fresh lease, WRONG_STATE while the burn is open, BUCKET_DAMAGED where its bucket is frozen or its own reads find the fault that freezes it, and a
revocation over a damaged key. -/
def Obligations.ClaimRepeat : Prop :=
  ∀ (s : State) (st : Station) (b x y : Byte) (site : Site) (c : Nat),
    s.Granted (.station st) (.claim [⟨b, x, y⟩]) → s.taking →
    let i := Instr.claim st [⟨b, x, y⟩]
    let u (n : Nat) := s.checkKey n .access
    (∀ e n, s.Claimed st b site x y c e n → e.state = .burning →
        exec i s = .next (s.answeredItems (.station st) 0x03 [⟨b, .wrongState, .none⟩]))
      ∧ (∀ e n, s.Claimed st b site x y c e n → e.state = .issued → s.keyClean n →
          ∃ t, exec i s = .next t
            ∧ s.Replies t (.station st) 0x03
              (.items [⟨b, .reissued, grantData e (s.keyAt n).key⟩]) false
            ∧ s.onlySite t st site (.held x y c s.limits.claimLease)
            ∧ s.sameBeside t [.stations, .links, .arbiter])
      ∧ (∀ e n c' pred, s.Claimed st b site x y c e n → e.state = .issued →
          ((u n).keySlot n).damaged = true → e.attempts = 0 →
          s.find e.wafer e.x e.y = .found c' pred →
          ∃ t, exec i s = .next t
            ∧ s.Replies t (.station st) 0x03 (.items [⟨b, .revoked, .none⟩]) false
            ∧ s.onlySite t st site .free
            ∧ (u n).Withdraws t c' pred e n .keyDamaged (some (st, site))
            ∧ (u n).sameBeside t [.stations, .pool, .table, .store, .journal, .links, .arbiter])
      ∧ (∀ e n, s.Claimed st b site x y c e n → e.state = .issued →
          ((u n).keySlot n).damaged = true → e.attempts ≠ 0 →
          ∃ t, exec i s = .next t
            ∧ s.Replies t (.station st) 0x03 (.items [⟨b, .revoked, .none⟩]) false
            ∧ s.onlySite t st site .free
            ∧ (u n).Ends t c e n .void .voided (some (st, site)) (some .keyDamaged) none
            ∧ (u n).sameBeside t [.stations, .pool, .table, .store, .journal, .links, .arbiter])
      ∧ (∀ x' y' lease, b.toNat = site.val → s.slot st site = .held x' y' c lease →
          ¬ (x' = x ∧ y' = y) →
          exec i s = .next (s.answeredItems (.station st) 0x03 [⟨b, .siteBusy, .none⟩]))
      ∧ (∀ lease h, b.toNat = site.val → s.slot st site = .held x y c lease →
          s.cellBucket c = some h → s.headFault h = false → (s.head h).damaged = true →
          ∃ t, exec i s = .next t ∧ s.onlySite t st site .free
            ∧ s.Replies t (.station st) 0x03 (.items [⟨b, .bucketDamaged, .none⟩]) false
            ∧ s.sameBeside t [.stations, .links, .arbiter])
      ∧ (∀ lease h p g, b.toNat = site.val → s.slot st site = .held x y c lease →
          s.cellBucket c = some h →
          (s.headFault h = true ∧ p = .head h ∧ g = .link)
            ∨ (s.headFault h = false ∧ (s.head h).damaged = false ∧ s.entryFault c = some g
              ∧ p = .cell c) →
          ∃ t, exec i s = .next t ∧ s.onlySite t st site .free
            ∧ s.Replies t (.station st) 0x03 (.items [⟨b, .bucketDamaged, .none⟩]) false
            ∧ (s.tableFault p g .access).sameBeside t [.stations, .links, .arbiter])
      ∧ (∀ e n p g, s.Claimed st b site x y c e n → e.state = .issued →
          ((u n).keySlot n).damaged = true → e.attempts = 0 → s.find e.wafer e.x e.y = .fault p g →
          ∃ t, exec i s = .next t ∧ s.onlySite t st site .free
            ∧ s.Replies t (.station st) 0x03 (.items [⟨b, .bucketDamaged, .none⟩]) false
            ∧ ((u n).tableFault p g .access).sameBeside t [.stations, .links, .arbiter])

/-- A claim item that finds an UNCERTAIN entry (R94, R95): voided over a blocked batch, a damaged key or
spent attempts, in that order, else taken over by the claiming station and site with its own key. -/
def Obligations.ClaimTakesOver : Prop :=
  ∀ (s : State) (st : Station) (b w x y : Byte) (site : Site) (cls : SerialClass) (c : Nat)
    (pred : Option Nat) (e : Entry) (n : Fin 8192),
    s.Granted (.station st) (.claim [⟨b, x, y⟩]) → s.taking → s.AtTable st b site w x y cls →
    s.find w x y = .found c pred → s.OpenEntry c e n → e.state = .uncertain →
    let u := s.checkKey n .access
    let voided (v : State) (reason : Reason) := ∃ t, exec (.claim st [⟨b, x, y⟩]) s = .next t
      ∧ s.Replies t (.station st) 0x03 (.items [⟨b, .dieVoid, .none⟩]) false
      ∧ v.Ends t c e n .void .voided (some (st, site)) (some reason) none
      ∧ v.sameBeside t [.pool, .table, .store, .journal, .links, .arbiter]
    (s.blocked e.batch = true → voided s .quarantine)
      ∧ (s.blocked e.batch = false → (u.keySlot n).damaged = true → voided u .keyDamaged)
      ∧ (s.blocked e.batch = false → s.keyClean n → e.attempts.toNat = s.limits.attemptLimit →
          voided s .attempts)
      ∧ (s.blocked e.batch = false → s.keyClean n → e.attempts.toNat ≠ s.limits.attemptLimit →
          ∃ t, exec (.claim st [⟨b, x, y⟩]) s = .next t
            ∧ s.Replies t (.station st) 0x03
              (.items [⟨b, .reissued, grantData e (s.keyAt n).key⟩]) false
            ∧ s.onlySite t st site (.held x y c s.limits.claimLease)
            ∧ s.Rewrites t c { e with state := .issued, owner := some (st, site) }
            ∧ s.onlyCells t [c]
            ∧ s.sameBeside t [.stations, .store, .links, .arbiter])

/-- RELEASE of a HELD site (R100, R101): at attempts 0 the key is returned or withdrawn and the entry
removed; above 0 the entry is UNCERTAIN and keeps its key; a burn in flight is WRONG_STATE; and where the
removal's walk finds a fault the item is BUCKET_DAMAGED and the entry stays (R87). -/
def Obligations.ReleaseDecides : Prop :=
  ∀ (s : State) (st : Station) (b x y : Byte) (site : Site) (c : Nat) (e : Entry) (n : Fin 8192),
    s.Granted (.station st) (.release [b]) → s.taking → s.Claimed st b site x y c e n →
    (e.state = .burning → exec (.release st [b]) s =
        .next (s.answeredItems (.station st) 0x06 [⟨b, .wrongState, .none⟩]))
      ∧ (∀ c' pred why, e.state = .issued → e.attempts = 0 → s.returnIs e n why →
          s.find e.wafer e.x e.y = .found c' pred →
          ∃ t, exec (.release st [b]) s = .next t
            ∧ s.Replies t (.station st) 0x06 (.items [⟨b, .released, .disposition why⟩]) false
            ∧ s.onlySite t st site .free
            ∧ (why = none → s.Returns t c' pred e n
                ∧ s.sameBeside t
                  [.stations, .pool, .table, .store, .journal, .sweeps, .links, .arbiter])
            ∧ (∀ reason, why = some reason → s.Withdraws t c' pred e n reason (some (st, site))
                ∧ s.sameBeside t [.stations, .pool, .table, .store, .journal, .links, .arbiter]))
      ∧ (e.state = .issued → e.attempts ≠ 0 →
          ∃ t, exec (.release st [b]) s = .next t
            ∧ s.Replies t (.station st) 0x06 (.items [⟨b, .releasedUncertain, .none⟩]) false
            ∧ s.onlySite t st site .free
            ∧ s.Rewrites t c { e with state := .uncertain, owner := none }
            ∧ s.onlyCells t [c]
            ∧ s.sameBeside t [.stations, .store, .links, .arbiter])
      ∧ (∀ p g, e.state = .issued → e.attempts = 0 → s.find e.wafer e.x e.y = .fault p g →
          ∃ t, exec (.release st [b]) s = .next t ∧ s.onlySite t st site .free
            ∧ s.Replies t (.station st) 0x06 (.items [⟨b, .bucketDamaged, .none⟩]) false
            ∧ (s.tableFault p g .access).sameBeside t [.stations, .links, .arbiter])

/-- ABANDON of a HELD site voids its ISSUED or BURNING entry, spends its key and journals VOIDED with
reason ABANDONED, whatever the attempts, the batch or the damaged mark (R102). -/
def Obligations.AbandonVoids : Prop :=
  ∀ (s : State) (st : Station) (b x y : Byte) (site : Site) (c : Nat) (e : Entry) (n : Fin 8192),
    s.Granted (.station st) (.abandon [b]) → s.taking → s.Claimed st b site x y c e n →
    e.state = .issued ∨ e.state = .burning →
    ∃ t, exec (.abandon st [b]) s = .next t
      ∧ s.Replies t (.station st) 0x07 (.items [⟨b, .voided, .none⟩]) false
      ∧ s.onlySite t st site .free
      ∧ s.Ends t c e n .void .voided (some (st, site)) (some .abandoned) none
      ∧ s.sameBeside t [.stations, .pool, .table, .store, .journal, .links, .arbiter]

/-! ## Burning -/

/-- BURN BEGIN of a HELD site (R106 to R108): accepted with one attempt more and the burn lease; revoked
over a blocked batch or a damaged key, by withdrawal at attempts 0 and by VOID above, or BUCKET_DAMAGED
where the withdrawal's walk finds a fault (R87); WRONG_STATE while a burn is open. -/
def Obligations.BurnBeginDecides : Prop :=
  ∀ (s : State) (st : Station) (b x y : Byte) (site : Site) (c : Nat) (e : Entry) (n : Fin 8192),
    s.Granted (.station st) (.burnBegin [b]) → s.taking → s.Claimed st b site x y c e n →
    let i := Instr.burnBegin st [b]
    let u := s.checkKey n .access
    let withdrawn (v : State) (reason : Reason) := ∀ c' pred,
      s.find e.wafer e.x e.y = .found c' pred → ∃ t, exec i s = .next t
        ∧ s.Replies t (.station st) 0x04 (.items [⟨b, .revoked, .none⟩]) false
        ∧ s.onlySite t st site .free
        ∧ v.Withdraws t c' pred e n reason (some (st, site))
        ∧ v.sameBeside t [.stations, .pool, .table, .store, .journal, .links, .arbiter]
    let voided (v : State) (reason : Reason) := ∃ t, exec i s = .next t
        ∧ s.Replies t (.station st) 0x04 (.items [⟨b, .revoked, .none⟩]) false
        ∧ s.onlySite t st site .free
        ∧ v.Ends t c e n .void .voided (some (st, site)) (some reason) none
        ∧ v.sameBeside t [.stations, .pool, .table, .store, .journal, .links, .arbiter]
    (e.state = .burning →
        exec i s = .next (s.answeredItems (.station st) 0x04 [⟨b, .wrongState, .none⟩]))
      ∧ (e.state = .issued → s.blocked e.batch = true → e.attempts = 0 → withdrawn s .blocked)
      ∧ (e.state = .issued → s.blocked e.batch = true → e.attempts ≠ 0 → voided s .quarantine)
      ∧ (e.state = .issued → s.blocked e.batch = false → (u.keySlot n).damaged = true →
          e.attempts = 0 → withdrawn u .keyDamaged)
      ∧ (e.state = .issued → s.blocked e.batch = false → (u.keySlot n).damaged = true →
          e.attempts ≠ 0 → voided u .keyDamaged)
      ∧ (e.state = .issued → s.blocked e.batch = false → s.keyClean n →
          ∃ t, exec i s = .next t
            ∧ s.Replies t (.station st) 0x04
              (.items [⟨b, .ok, .attempts (e.attempts + 1)⟩]) false
            ∧ s.onlySite t st site (.held x y c s.limits.burnLease)
            ∧ s.Rewrites t c { e with state := .burning, attempts := e.attempts + 1 }
            ∧ s.onlyCells t [c]
            ∧ s.sameBeside t [.stations, .store, .links, .arbiter])
      ∧ (∀ p g v, e.state = .issued → e.attempts = 0 → s.find e.wafer e.x e.y = .fault p g →
          (s.blocked e.batch = true ∧ v = s)
            ∨ (s.blocked e.batch = false ∧ (u.keySlot n).damaged = true ∧ v = u) →
          ∃ t, exec i s = .next t ∧ s.onlySite t st site .free
            ∧ s.Replies t (.station st) 0x04 (.items [⟨b, .bucketDamaged, .none⟩]) false
            ∧ (v.tableFault p g .access).sameBeside t [.stations, .links, .arbiter])

/-- BURN RESULT of a HELD site (R109, R111 to R115): a blocked batch, a damaged key, extra bits, no
difference, and missing bits at or below the attempt limit, in that order; the counts are those of the
bit places at which key and image differ. -/
def Obligations.BurnResultDecides : Prop :=
  ∀ (s : State) (st : Station) (b x y : Byte) (site : Site) (image : Key) (c : Nat) (e : Entry)
    (n : Fin 8192),
    s.Granted (.station st) (.burnResult [⟨b, image⟩]) → s.taking →
    s.Claimed st b site x y c e n →
    let i := Instr.burnResult st [⟨b, image⟩]
    let key := (s.keyAt n).key
    let missing := (List.finRange 128).countP fun k => key.getLsbD k && !image.getLsbD k
    let extra := (List.finRange 128).countP fun k => image.getLsbD k && !key.getLsbD k
    let u := s.checkKey n .access
    let ended (v : State) (out : ItemOutcome) (final : EntryState) (kind : JournalKind)
        (reason : Option Reason) := ∃ t, exec i s = .next t
      ∧ s.Replies t (.station st) 0x05 (.items [out]) false
      ∧ s.onlySite t st site .free
      ∧ v.Ends t c e n final kind (some (st, site)) reason (some (missing, extra))
      ∧ v.sameBeside t [.stations, .pool, .table, .store, .journal, .links, .arbiter]
    (e.state = .issued →
        exec i s = .next (s.answeredItems (.station st) 0x05 [⟨b, .wrongState, .none⟩]))
      ∧ (e.state = .burning → s.blocked e.batch = true →
          ended u ⟨b, .revoked, .none⟩ .void .voided (some .quarantine))
      ∧ (e.state = .burning → s.blocked e.batch = false → (u.keySlot n).damaged = true →
          ended u ⟨b, .revoked, .none⟩ .void .voided (some .keyDamaged))
      ∧ (e.state = .burning → s.blocked e.batch = false → s.keyClean n → 0 < extra →
          ended s ⟨b, .voided, .voided .spoiled missing extra⟩ .void .voided (some .spoiled))
      ∧ (e.state = .burning → s.blocked e.batch = false → s.keyClean n → extra = 0 →
          missing = 0 →
          ended s ⟨b, .provisioned, .serial e.serial e.digit e.cls⟩ .provisioned .provisioned none)
      ∧ (e.state = .burning → s.blocked e.batch = false → s.keyClean n → extra = 0 →
          0 < missing → e.attempts.toNat = s.limits.attemptLimit →
          ended s ⟨b, .voided, .voided .attempts missing extra⟩ .void .voided (some .attempts))
      ∧ (e.state = .burning → s.blocked e.batch = false → s.keyClean n → extra = 0 →
          0 < missing → e.attempts.toNat ≠ s.limits.attemptLimit →
          ∃ t, exec i s = .next t
            ∧ s.Replies t (.station st) 0x05
              (.items [⟨b, .partialBurn, .missing missing e.attempts⟩]) false
            ∧ s.onlySite t st site (.held x y c s.limits.claimLease)
            ∧ s.Rewrites t c { e with state := .issued }
            ∧ s.onlyCells t [c]
            ∧ s.sameBeside t [.stations, .store, .links, .arbiter])

/-! ## Lots -/

/-- LOT OPEN (R4): LOT_OPEN while a lot is open; in IDLE refused with the number of the first parameter
that R3 refuses, or accepted with every block at its lot-start value. The reply echoes the effective
parameters. That the store's cells stand and the Journal starts empty is the model's reading (log 21). -/
def Obligations.LotOpenDecides : Prop :=
  ∀ (s : State) (b : OpenBody), s.Granted .lot (.lotOpen b) →
    let k := (if b.split = 0 then 2048 else if b.split = 1 then 4096 else 6144 : Nat)
    (s.taking → exec (.lotOpen b) s = .next (s.answeredCode .lot 0x20 .lotOpen))
      ∧ (∀ number rule, s.lot.state = .idle → settleOpen b = .error (number, rule) →
          exec (.lotOpen b) s =
            .next (s.answered .lot 0x20 (.badParameter number rule) false))
      ∧ (∀ p, s.lot.state = .idle → settleOpen b = .ok p →
          exec (.lotOpen b) s = .next (({ s with
            lot := ⟨.opened, false, some ⟨b.name, b.split.toNat, p.limits⟩,
              List.replicate 25 .new, []⟩
            stations := Vector.replicate 4 ⟨none, Vector.replicate 16 .free⟩
            pool := ⟨[], [], [], [], ⟨0, 0, 0, 0, 0, 0, 0⟩⟩
            unitP := ⟨some p.windowP, some p.windowP.first, 0, 0, false⟩
            unitE := ⟨p.windowE, p.windowE.map Window.first, 0, 0, false⟩
            rules := some p.rules
            table := ⟨[], [], [], List.range' k (8192 - k), 0, 8192 - k, 0, 0, 0⟩
            journal := ⟨[], 0, 0⟩ }).answered .lot 0x20
              (.lotOpened b.name b.split.toNat p k (8192 - k)) false))

/-- What settles the parameters of a LOT OPEN (R3, R55, R56): the limits are clamped into their ranges
and kept within them, each window is a range of ten-digit values, and the die rules are at most sixteen
and well formed; the first refused parameter is one of 1, 2, 3, 4, 11 and 12, with a die rule number
for 12 alone. Each is refused where its own check fails and those before it pass: a name with a character
outside 0x20..0x7E, a split code above 2, a window with a digit above 9, with a first value above its last
or, in a LOT AMEND, with a first value below its unit's next (R6), a presence mark or a strict flag above 1,
and a rule list that is too long (rule number 16) or whose first bad rule fails R56. What is settled is
what the digits and bytes of the body say. -/
def Obligations.ParametersSettleInRange : Prop :=
  (∀ b : OpenBody,
    (∀ p, settleOpen b = .ok p →
        p.limits = ⟨max 1 (min 60000 b.rest.claimLease.toNat), max 1 (min 6000 b.rest.burnLease.toNat),
          max 1 (min 7 b.rest.attemptLimit.toNat), min 1024 b.rest.poolLow.toNat,
          min 1024 b.rest.tableLow.toNat, max 1 (min 256 b.rest.journalHigh.toNat),
          decide (b.rest.strict = 1)⟩
        ∧ b.split.toNat ≤ 2 ∧ b.rest.strict.toNat ≤ 1
        ∧ p.windowP.first ≤ p.windowP.last ∧ p.windowP.last ≤ 9999999999
        ∧ (b.rest.presenceE = 0 ∧ p.windowE = none ∨ b.rest.presenceE = 1 ∧ ∃ w, p.windowE = some w
            ∧ w.first ≤ w.last ∧ w.last ≤ 9999999999)
        ∧ p.rules.length = b.rest.rules.length ∧ p.rules.length ≤ 16
        ∧ ∀ r ∈ p.rules, 1 ≤ r.priority ∧ r.priority ≤ 7
          ∧ (∀ lo hi, r.wafer = some (lo, hi) → 1 ≤ lo.toNat ∧ lo.toNat ≤ hi.toNat ∧ hi.toNat ≤ 25)
          ∧ (∀ lo hi, r.xRange = some (lo, hi) → lo.toInt ≤ hi.toInt)
          ∧ ∀ lo hi, r.yRange = some (lo, hi) → lo.toInt ≤ hi.toInt)
      ∧ ∀ number rule, settleOpen b = .error (number, rule) →
        number ∈ [1, 2, 3, 4, 11, 12] ∧ (rule.isSome = true ↔ number = 12)
          ∧ ∀ k, rule = some k → k ≤ 16 ∧ (k < b.rest.rules.length))
    ∧ (let digit (p : PackedSerial) (i : Nat) : Nat := p.toNat / 16 ^ i % 16
      let value (p : PackedSerial) : Nat := ((List.range 10).map fun i => digit p i * 10 ^ i).sum
      let window (w : RawWindow) : Window := ⟨value w.first, value w.last⟩
      let windowOk (w : RawWindow) (next : Option Nat) :=
        (∀ i, i < 10 → digit w.first i ≤ 9 ∧ digit w.last i ≤ 9) ∧ value w.first ≤ value w.last
          ∧ ∀ n, next = some n → n ≤ value w.first
      let rangeOk (any lo hi : Byte) (v : Byte → Int) := any = 1 ∨ (any = 0 ∧ v lo ≤ v hi)
      let range (any lo hi : Byte) : Option (Byte × Byte) := if any = 1 then none else some (lo, hi)
      let ruleOk (r : RawRule) := r.enabled.toNat ≤ 1
        ∧ rangeOk r.waferAny r.waferLo r.waferHi (fun v => v.toNat)
        ∧ (r.waferAny = 0 → 1 ≤ r.waferLo.toNat ∧ r.waferLo.toNat ≤ 25 ∧ 1 ≤ r.waferHi.toNat
          ∧ r.waferHi.toNat ≤ 25)
        ∧ rangeOk r.xAny r.xLo r.xHi BitVec.toInt ∧ rangeOk r.yAny r.yLo r.yHi BitVec.toInt
        ∧ 1 ≤ r.priority.toNat ∧ r.priority.toNat ≤ 7 ∧ r.action.toNat ≤ 2
      (∀ b : OpenBody,
        let one := ∀ i, i < 8 → 0x20 ≤ b.name.toNat / 256 ^ i % 256 ∧ b.name.toNat / 256 ^ i % 256 ≤ 0x7E
        (¬ one → settleOpen b = .error (1, none))
          ∧ (one → 2 < b.split.toNat → settleOpen b = .error (2, none))
          ∧ (one → b.split.toNat ≤ 2 → settleOpen b = settle b.rest none none))
      ∧ ∀ (a : AmendBody) (nextP nextE : Option Nat),
        let three := windowOk a.windowP nextP
        let four := a.presenceE = 0 ∨ (a.presenceE = 1 ∧ windowOk a.windowE nextE)
        let eleven := a.strict.toNat ≤ 1
        (¬ three → settle a nextP nextE = .error (3, none))
          ∧ (three → ¬ four → settle a nextP nextE = .error (4, none))
          ∧ (three → four → ¬ eleven → settle a nextP nextE = .error (11, none))
          ∧ (three → four → eleven → 16 < a.rules.length →
            settle a nextP nextE = .error (12, some 16))
          ∧ (∀ k, ∀ h : k < a.rules.length, three → four → eleven → a.rules.length ≤ 16 →
            ¬ ruleOk a.rules[k] → (∀ j, ∀ g : j < k, ruleOk (a.rules[j]'(by omega))) →
            settle a nextP nextE = .error (12, some k))
          ∧ (three → four → eleven → a.rules.length ≤ 16 → (∀ r ∈ a.rules, ruleOk r) →
            settle a nextP nextE = .ok ⟨window a.windowP,
              if a.presenceE = 0 then none else some (window a.windowE),
              ⟨max 1 (min 60000 a.claimLease.toNat), max 1 (min 6000 a.burnLease.toNat),
                max 1 (min 7 a.attemptLimit.toNat), min 1024 a.poolLow.toNat,
                min 1024 a.tableLow.toNat, max 1 (min 256 a.journalHigh.toNat), decide (a.strict = 1)⟩,
              a.rules.map fun r => ⟨decide (r.enabled = 1), range r.waferAny r.waferLo r.waferHi,
                range r.xAny r.xLo r.xHi, range r.yAny r.yLo r.yHi, r.priority.toNat,
                if r.action = 0 then .exclude else if r.action = 1 then .cls .p else .cls .e⟩⟩))

/-- LOT AMEND and LOT LOCK (R6, R7): in OPEN the amend replaces parameters 3 to 12 at once or is refused
with a parameter's number, and the lock locks the lot; in LOCKED both are answered LOT_LOCKED. -/
def Obligations.LotAmendAndLock : Prop :=
  ∀ (s : State) (b : AmendBody),
    (s.Granted .lot (.lotAmend b) →
        (s.lot.state = .locked →
            exec (.lotAmend b) s = .next (s.answeredCode .lot 0x21 .lotLocked))
          ∧ (∀ number rule, s.lot.state = .opened →
              settle b s.unitP.next s.unitE.next = .error (number, rule) →
              exec (.lotAmend b) s =
                .next (s.answered .lot 0x21 (.badParameter number rule) false))
          ∧ (∀ p q, s.lot.state = .opened → settle b s.unitP.next s.unitE.next = .ok p →
              s.lot.params = some q →
              exec (.lotAmend b) s = .next (({ s with
                lot := { s.lot with params := some { q with limits := p.limits } }
                unitP := ⟨some p.windowP, some p.windowP.first, 0, 0, false⟩
                unitE := ⟨p.windowE, p.windowE.map Window.first, 0, 0, false⟩
                rules := some p.rules }).answered .lot 0x21 (.lotAmended p) false)))
      ∧ (s.Granted .lot .lotLock →
        (s.lot.state = .locked →
            exec .lotLock s = .next (s.answeredCode .lot 0x22 .lotLocked))
          ∧ (s.lot.state = .opened → exec .lotLock s =
              .next (({ s with lot := { s.lot with state := .locked, lock := true } }).answeredCode
                .lot 0x22 .ok)))

/-- LOT CLOSE (R9): refused NOT_CLOSABLE with the numbers of the conditions that fail, or accepted: the
lot is CLOSING, the close scrub begins, and the request stays outstanding without a reply (R166). That the
numbers stand in ascending order is the model's choice (log 32). -/
def Obligations.LotCloseTestsItsConditions : Prop :=
  ∀ s : State, s.Granted .lot .lotClose → s.taking →
    let fails : Nat → Prop
      | 1 => ∃ v ∈ s.lot.wafers, v = .purging ∨ ∃ st, v = .attached st
      | 2 => s.table.openCount ≠ 0
      | 3 => s.journal.queue ≠ [] ∨ s.journal.reservations ≠ 0
      | 4 => s.sweeps.audit.active = true ∨ s.sweeps.purge.active = true
          ∨ s.sweeps.quarantine.active = true
      | _ => False
    ((∃ k, fails k) → ∃ ks, exec .lotClose s =
        .next (s.answered .lot 0x2C (.notClosable ks) false)
          ∧ (∀ k, k ∈ ks ↔ fails k) ∧ ks.Pairwise (· < ·))
      ∧ ((∀ k, ¬ fails k) → exec .lotClose s = .next { s with
          lot := { s.lot with state := .closing }
          sweeps := { s.sweeps with scrubActive := true, scrubCursor := 0 }
          arbiter := .sweep
          links := s.links.set 4 { s.link .lot with request := none } })

/-- LOT STATUS, taken in IDLE, OPEN and LOCKED, reports the state as it stands at the grant and changes
nothing; its reply is marked where it reports the SWEEP_DONE latch (R10; the mark is the model's, log
16). In IDLE the report gives the lot state, the integrity part and the attention causes alone; in OPEN and
LOCKED every part stands between them in the order of 11.6, the LOT AMEND body as the reply to a LOT AMEND
echoes it (a parameter that a context does not have is sent as 0, which is the model's reading: log 22). The
attention line is asserted exactly while a cause is present, the three live ones under a lot alone (R2,
R40, R76, R153, R168). -/
def Obligations.LotStatusAndAttention : Prop :=
  ∀ s : State,
    (s.Granted .lot .lotStatus → s.lot.state = .idle ∨ s.taking →
        exec .lotStatus s = .next (s.answered .lot 0x2A (.lotStatus s.statusReport) s.sweeps.sweepDone)
          ∧ (s.lot.state = .idle → s.lot.params = none → s.lot.lock = false →
            s.statusReport = [1, 0, flagByte s.check.halt]
              ++ faultRecordBytes s.check.faults s.check.first
              ++ [flagByte s.check.halt <<< 3 ||| flagByte s.check.storeFault <<< 4
                ||| flagByte s.sweeps.sweepDone <<< 5])
          ∧ (∀ p wp rs, s.taking → s.lot.params = some p → s.unitP.window = some wp →
            s.rules = some rs →
            let num (k v : Nat) : List Byte :=
              (List.range k).map fun i => BitVec.ofNat 8 (v / 256 ^ (k - 1 - i))
            let flag (c : Bool) : Byte := if c then 1 else 0
            let keys : Nat := if p.split = 0 then 2048 else if p.split = 1 then 4096 else 6144
            let count (st : Station) (c : Slot → Bool) : List Byte :=
              num 1 ((List.finRange 16).countP fun site => c (s.slot st site))
            let unit (u : SerialUnit) : List Byte := flag u.window.isSome
              :: (match u.window with
                | some w => num 5 (packSerial w.first).toNat ++ num 5 (packSerial w.last).toNat
                | none => List.replicate 10 0)
              ++ num 5 (packSerial (u.next.getD 0)).toNat ++ num 4 u.issued ++ num 4 u.skipped
              ++ [flag u.overflow, flag u.exhausted]
            let context (c : SweepContext) : List Byte := [flag c.active, flag c.waiting]
              ++ num 1 (c.param.getD 0) ++ [(match c.phase with | .table => 0 | .pool => 1 : Byte)]
              ++ num 2 c.cursor ++ num 4 c.counts.visited ++ num 4 c.counts.changed
              ++ num 4 c.counts.appended ++ num 4 c.counts.faults
            let cause (i : Nat) (c : Bool) : Nat := if c then 2 ^ i else 0
            let counts := s.pool.counts
            s.statusReport = [if s.lot.state = .opened then 2 else 3, flag s.lot.lock]
              ++ num 8 p.name.toNat ++ num 1 p.split
              ++ (replyBytes (.lotAmended ⟨wp, s.unitE.window, p.limits, rs⟩)).tail
              ++ num 2 keys ++ num 2 (8192 - keys)
              ++ s.lot.wafers.flatMap (fun v => match v with
                | .new => [0, 0xFF]
                | .attached st => [1, BitVec.ofNat 8 st.val]
                | .detached => [2, 0xFF]
                | .purging => [3, 0xFF]
                | .finished => [4, 0xFF])
              ++ (List.finRange 4).flatMap (fun st => s.stations[st].attached.getD 0xFF
                :: count st (fun v => match v with | .held _ _ _ _ => true | _ => false)
                ++ count st (fun v => match v with | .revoked _ _ => true | _ => false)
                ++ count st (fun v => match v with | .expired _ _ => true | _ => false))
              ++ num 1 s.lot.blocked.length
              ++ s.lot.blocked.zipIdx.flatMap (fun r =>
                num 1 (r.2 + 1) ++ num 2 r.1.low.toNat ++ num 2 r.1.high.toNat)
              ++ num 4 counts.loaded ++ num 2 counts.fresh ++ num 1 counts.returned
              ++ num 2 counts.bound ++ num 2 counts.faulted ++ num 4 counts.spent
              ++ num 4 counts.retired
              ++ num 2 (keys - (counts.fresh + counts.returned + counts.bound + counts.faulted))
              ++ num 2 (s.pool.slots.countP fun v => v.2.damaged) ++ num 2 s.pool.fresh.length
              ++ num 1 s.pool.stack.length ++ num 2 s.pool.batches.length
              ++ unit s.unitP ++ unit s.unitE
              ++ num 2 s.table.inUse ++ num 2 s.table.freeCount ++ num 2 s.table.openCount
              ++ num 2 s.table.damagedBuckets ++ num 1 s.table.longest
              ++ num 2 s.journal.queue.length ++ num 2 s.journal.reservations
              ++ context s.sweeps.audit ++ context s.sweeps.purge ++ context s.sweeps.quarantine
              ++ (replyBytes (.resumed s.check.halt s.check.faults s.check.first)).tail
              ++ [BitVec.ofNat 8 (cause 0 (decide (counts.fresh + counts.returned ≤ p.limits.poolLow))
                + cause 1 (decide (s.table.freeCount ≤ p.limits.tableLow))
                + cause 2 (decide (p.limits.journalHigh ≤ s.journal.queue.length))
                + cause 3 s.check.halt + cause 4 s.check.storeFault
                + cause 5 s.sweeps.sweepDone)]))
      ∧ (s.lot.state = .init ∨ s.lot.state = .idle → (s.attention = true ↔ s.check.halt = true
        ∨ s.check.storeFault = true ∨ s.sweeps.sweepDone = true))
      ∧ (∀ p, s.lot.params = some p → s.taking ∨ s.lot.state = .closing → (s.attention = true ↔
        s.pool.counts.fresh + s.pool.counts.returned ≤ p.limits.poolLow
          ∨ s.table.freeCount ≤ p.limits.tableLow ∨ p.limits.journalHigh ≤ s.journal.queue.length
          ∨ s.check.halt = true ∨ s.check.storeFault = true ∨ s.sweeps.sweepDone = true))

/-! ## Keys, journal and halt -/

/-- The checks of a KEY LOAD in the order of R28: each refusal, where the checks before it pass, gives
its own answer, and nothing is loaded. -/
def Obligations.KeyLoadChecksInOrder : Prop :=
  ∀ (s : State) (batch : Half) (records : List KeyRecord),
    s.Granted .lot (.keyLoad batch records) → s.taking →
    let refused (body : ReplyBody) :=
      exec (.keyLoad batch records) s = .next (s.answered .lot 0x23 body false)
    let one := batch ≠ 0 ∧ records ≠ [] ∧ records.length ≤ 64
    let bad (k : Nat) := ∃ h : k < records.length,
      63 < records[k].index.toNat ∨ ∃ j, ∃ g : j < k, (records[j]'(by omega)).index = records[k].index
    let two := ∀ k, ¬ bad k
    let three := batch ∉ s.pool.batches
    let within (r : BatchRange) := r.low.toNat ≤ batch.toNat ∧ batch.toNat ≤ r.high.toNat
    let four := ∀ r ∈ s.lot.blocked, ¬ within r
    let five := s.pool.batches.length < 512
    let six := records.length ≤ s.emptyCount
    let wrong (r : KeyRecord) :=
      twoSum (halfBytes batch ++ r.index :: bytesOf 16 r.key.toNat) ≠ r.check
    (¬ one → refused (.badRecord 0))
      ∧ (∀ k, one → bad k → (∀ j, j < k → ¬ bad j) → refused (.badRecord (k + 1)))
      ∧ (one → two → ¬ three → refused (.code .batchDuplicate))
      ∧ (∀ g, one → two → three → ∀ h : g < s.lot.blocked.length, within s.lot.blocked[g] →
          (∀ j, ∀ k : j < g, ¬ within (s.lot.blocked[j]'(by omega))) → refused (.batchBlocked (g + 1)))
      ∧ (one → two → three → four → ¬ five → refused (.code .batchListFull))
      ∧ (one → two → three → four → five → ¬ six → refused (.poolFull s.emptyCount))
      ∧ (one → two → three → four → five → six → (∃ r ∈ records, wrong r) →
          refused (.recordCheck ((records.filter fun r => decide (wrong r)).map (·.index))))

/-- An accepted KEY LOAD puts its records, in order, into the EMPTY slots with the lowest numbers, which
become FRESH and join the tail of the fresh queue; the batch list, the loaded total and the FRESH count
rise, and nothing else changes (R29). -/
def Obligations.KeyLoadFillsLowestSlots : Prop :=
  ∀ (s : State) (batch : Half) (records : List KeyRecord),
    s.Granted .lot (.keyLoad batch records) → s.taking → s.MapsOk → s.PoolOk →
    batch ≠ 0 → records ≠ [] → records.length ≤ 64 →
    (∀ r ∈ records, r.index.toNat ≤ 63) → (records.map (·.index)).Nodup →
    batch ∉ s.pool.batches → s.blocked batch = false → s.pool.batches.length < 512 →
    records.length ≤ s.emptyCount →
    (∀ r ∈ records, twoSum (halfBytes batch ++ r.index :: bytesOf 16 r.key.toNat) = r.check) →
    ∃ t ns, exec (.keyLoad batch records) s = .next t
      ∧ ns.length = records.length ∧ ns.Pairwise (· < ·)
      ∧ (∀ n ∈ ns, n < s.keySlots ∧ (s.keySlot n).state = .empty)
      ∧ (∀ m, (s.keySlot m).state = .empty → m ∉ ns → ∀ n ∈ ns, n < m)
      ∧ (∀ p ∈ ns.zip records, t.keyAt p.1 = ⟨batch, p.2.index, p.2.key, p.2.check⟩
          ∧ t.keyReadFault p.1 = none ∧ t.keySlot p.1 = ⟨.fresh, false⟩)
      ∧ (∀ m, m ∉ ns → t.keySlot m = s.keySlot m) ∧ s.onlyCells t ns
      ∧ t.pool.fresh = s.pool.fresh ++ ns ∧ t.pool.stack = s.pool.stack
      ∧ t.pool.batches = s.pool.batches ++ [batch]
      ∧ t.pool.counts = { s.pool.counts with
          loaded := s.pool.counts.loaded + records.length
          fresh := s.pool.counts.fresh + records.length }
      ∧ s.Replies t .lot 0x23 (.keyLoaded batch records.length t.pool.counts.fresh
          t.pool.fresh.length) false
      ∧ s.sameBeside t [.pool, .store, .links, .arbiter]

/-- JOURNAL READ copies the oldest n entries and changes nothing, in IDLE too; a count outside 1..8 is
BAD_PARAM, and in INIT and CLOSING it is answered under R2 (R151). -/
def Obligations.JournalReadCopies : Prop :=
  ∀ (s : State) (n : Byte), s.Granted .lot (.journalRead n) →
    (s.lot.state = .init →
        exec (.journalRead n) s = .next (s.answeredCode .lot 0x28 .notReady))
      ∧ (s.lot.state = .closing →
        exec (.journalRead n) s = .next (s.answeredCode .lot 0x28 .lotClosing))
      ∧ (s.lot.state = .idle ∨ s.taking → n.toNat = 0 ∨ 8 < n.toNat →
        exec (.journalRead n) s = .next (s.answeredCode .lot 0x28 .badParam))
      ∧ (s.lot.state = .idle ∨ s.taking → 1 ≤ n.toNat → n.toNat ≤ 8 →
        exec (.journalRead n) s = .next (s.answered .lot 0x28 (.journalRead s.journal.queue.length
          s.journal.reservations (s.journal.queue.take n.toNat)) false))

/-- JOURNAL TAKE removes the oldest n entries and nothing else, with their first and last numbers in
its reply; it is BAD_PARAM for a count outside 1..256 or above the entries held. Where it brings held
plus reservations below 256 it ends a level-2 wait (R137, R152). Outside OPEN and LOCKED it is answered
under R2. That a count above 256 is answered without the entries held is the model's choice (log 31). -/
def Obligations.JournalTakeRemoves : Prop :=
  ∀ (s : State) (n : Half), s.Granted .lot (.journalTake n) →
    let held := s.journal.queue.length
    (s.lot.state = .init →
        exec (.journalTake n) s = .next (s.answeredCode .lot 0x29 .notReady))
      ∧ (s.lot.state = .idle → exec (.journalTake n) s = .next (s.answeredCode .lot 0x29 .noLot))
      ∧ (s.lot.state = .closing →
        exec (.journalTake n) s = .next (s.answeredCode .lot 0x29 .lotClosing))
      ∧ (s.taking → n.toNat = 0 ∨ 256 < n.toNat →
        exec (.journalTake n) s = .next (s.answeredCode .lot 0x29 .badParam))
      ∧ (s.taking → 1 ≤ n.toNat → n.toNat ≤ 256 → held < n.toNat →
        exec (.journalTake n) s = .next (s.answered .lot 0x29 (.badTake held) false))
      ∧ (s.taking → 1 ≤ n.toNat → n.toNat ≤ 256 → n.toNat ≤ held →
        ∃ t first last, exec (.journalTake n) s = .next t
          ∧ s.journal.queue.head? = some first ∧ s.journal.queue[n.toNat - 1]? = some last
          ∧ s.Replies t .lot 0x29 (.journalTaken first.number last.number (held - n.toNat)
            s.journal.reservations) false
          ∧ t.journal = { s.journal with queue := s.journal.queue.drop n.toNat }
          ∧ t.sweeps = { s.sweeps with quarantine := { s.sweeps.quarantine with
              waiting := s.sweeps.quarantine.waiting
                && decide (256 ≤ held - n.toNat + s.journal.reservations) } }
          ∧ s.sameBeside t [.journal, .sweeps, .links, .arbiter])

/-- RESUME clears ISSUE HALT, and with clear flag 1 the fault record and the STORE_FAULT latch too; the
reply gives the halt and the record as they stood. Another flag is BAD_PARAM. Outside OPEN and LOCKED it
is answered under R2 (R161). -/
def Obligations.ResumeClearsTheHalt : Prop :=
  ∀ (s : State) (clear : Byte), s.Granted .lot (.resume clear) →
    let reply := ReplyBody.resumed s.check.halt s.check.faults s.check.first
    (s.lot.state = .init → exec (.resume clear) s = .next (s.answeredCode .lot 0x2B .notReady))
      ∧ (s.lot.state = .idle → exec (.resume clear) s = .next (s.answeredCode .lot 0x2B .noLot))
      ∧ (s.lot.state = .closing →
          exec (.resume clear) s = .next (s.answeredCode .lot 0x2B .lotClosing))
      ∧ (s.taking → clear ≠ 0 → clear ≠ 1 →
          exec (.resume clear) s = .next (s.answeredCode .lot 0x2B .badParam))
      ∧ (s.taking → clear = 0 → exec (.resume clear) s =
          .next (({ s with check := { s.check with halt := false } }).answered .lot 0x2B reply false))
      ∧ (s.taking → clear = 1 → exec (.resume clear) s =
          .next (({ s with check := { s.check with
            halt := false, faults := 0, first := none, storeFault := false } }).answered
              .lot 0x2B reply false))

/-! ## Sweeps -/

/-- QUARANTINE, PURGE WAFER, AUDIT START and AUDIT STOP are decided by the first matching case; what
starts has cursor 0 and counts 0, and what stops is cleared (R8, R132, R135, R139). -/
def Obligations.SweepRequestsDecide : Prop :=
  ∀ s : State, s.taking →
    (∀ low high : Half, s.Granted .lot (.quarantine low high) →
        let refused (c : Code) := exec (.quarantine low high) s = .next (s.answeredCode .lot 0x24 c)
        let bad := low = 0 ∨ high = 0 ∨ high.toNat < low.toNat
        (bad → refused .badParam)
          ∧ (¬ bad → s.sweeps.quarantine.active = true → refused .sweepActive)
          ∧ (¬ bad → s.sweeps.quarantine.active = false → 8 ≤ s.lot.blocked.length →
              refused .blockListFull)
          ∧ (¬ bad → s.sweeps.quarantine.active = false → s.lot.blocked.length < 8 →
              exec (.quarantine low high) s = .next (({ s with
                lot := { s.lot with blocked := s.lot.blocked ++ [BatchRange.mk low high] }
                sweeps := { s.sweeps with quarantine := ⟨true, false,
                  some (s.lot.blocked.length + 1), .table, 0, ⟨0, 0, 0, 0⟩⟩ } }).answered
                    .lot 0x24 (.quarantined (s.lot.blocked.length + 1)) false)))
      ∧ (∀ w : Byte, s.Granted .lot (.purgeWafer w) →
        let refused (c : Code) := exec (.purgeWafer w) s = .next (s.answeredCode .lot 0x25 c)
        (w = 0 ∨ 25 < w.toNat → refused .badParam)
          ∧ (∀ v, s.wafer w = some v → s.sweeps.purge.active = true → refused .sweepActive)
          ∧ (∀ v, s.wafer w = some v → s.sweeps.purge.active = false → v ≠ .detached →
              refused .wrongState)
          ∧ (s.wafer w = some .detached → s.sweeps.purge.active = false →
              exec (.purgeWafer w) s = .next (({ s with
                lot := { s.lot with wafers := s.lot.wafers.set (w.toNat - 1) .purging }
                sweeps := { s.sweeps with purge :=
                  ⟨true, false, some w.toNat, .table, 0, ⟨0, 0, 0, 0⟩⟩ } }).answered
                    .lot 0x25 (.purging w) false)))
      ∧ (s.Granted .lot .auditStart →
        (s.sweeps.audit.active = true →
            exec .auditStart s = .next (s.answeredCode .lot 0x26 .sweepActive))
          ∧ (s.sweeps.audit.active = false → exec .auditStart s = .next (({ s with
              sweeps := { s.sweeps with audit :=
                ⟨true, false, none, .table, 0, ⟨0, 0, 0, 0⟩⟩ } }).answeredCode .lot 0x26 .ok)))
      ∧ (s.Granted .lot .auditStop →
        (s.sweeps.audit.active = false →
            exec .auditStop s = .next (s.answeredCode .lot 0x27 .wrongState))
          ∧ (s.sweeps.audit.active = true → exec .auditStop s = .next (({ s with
              sweeps := { s.sweeps with audit :=
                ⟨false, false, none, .table, 0, ⟨0, 0, 0, 0⟩⟩ } }).answered .lot 0x27
                  (.auditStopped s.sweeps.audit.phase s.sweeps.audit.cursor s.sweeps.audit.counts)
                  false)))

/-- The step offered is that of the highest active level, none while level 2 waits, the scrub's in
CLOSING and none without a lot (R129). -/
def Obligations.SweepOffersHighestLevel : Prop :=
  ∀ s : State,
    (s.taking → s.sweeps.quarantine.active = true → s.sweeps.quarantine.waiting = true →
        s.offer = none)
      ∧ (s.taking → s.sweeps.quarantine.active = true → s.sweeps.quarantine.waiting = false →
        s.offer = some .quarantine)
      ∧ (s.taking → s.sweeps.quarantine.active = false → s.sweeps.purge.active = true →
        s.offer = some .purge)
      ∧ (s.taking → s.sweeps.quarantine.active = false → s.sweeps.purge.active = false →
        s.sweeps.audit.active = true → s.offer =
          some (match s.sweeps.audit.phase with | .table => .auditTable | .pool => .auditPool))
      ∧ (s.taking → s.sweeps.quarantine.active = false → s.sweeps.purge.active = false →
        s.sweeps.audit.active = false → s.offer = none)
      ∧ (s.lot.state = .closing → s.sweeps.scrubActive = true → s.offer = some .scrub)
      ∧ (s.lot.state = .init ∨ s.lot.state = .idle → s.offer = none)

/-- A step of each of the three sweeps on a bucket before the last that is empty, marked damaged or of
faulty head parity: the cursor goes on, and a bucket skipped as damaged counts as a fault found (R131).
Nothing else changes but what the fault of a head's own read marks. On a bucket that holds a chain of which
the sweep has nothing to change, each entry read is counted and the cursor goes on; a read that fails its
checks ends the step DAMAGED at that entry: the fault is recorded, with origin AUDIT for an audit's, the
bucket marked and the halt set, the entries read before it are counted, a fault is counted, and the cursor
goes on (R131, R136, R140). -/
def Obligations.SweepPassesABucket : Prop :=
  ∀ (s : State) (h : Nat), h < 2047 →
    let on (c : SweepContext) := { c with cursor := h + 1 }
    let skip (c : SweepContext) : SweepContext := { c with
      cursor := h + 1, counts := { c.counts with faults := min 4294967295 (c.counts.faults + 1) } }
    let walked (n : Nat) (c : SweepContext) : SweepContext := { c with
      cursor := h + 1, counts := { c.counts with visited := min 4294967295 (c.counts.visited + n) } }
    let broken (n : Nat) (c : SweepContext) : SweepContext := { c with
      cursor := h + 1
      counts := { c.counts with
        visited := min 4294967295 (c.counts.visited + n)
        faults := min 4294967295 (c.counts.faults + 1) } }
    let clear := s.headFault h = false ∧ (s.head h).damaged = false ∧ (s.head h).valid = false
    let marked := s.headFault h = false ∧ (s.head h).damaged = true
    (s.Offered .purge → s.sweeps.purge.cursor = h →
        (clear → exec .purgeStep s =
            .next { s.swept with sweeps := { s.sweeps with purge := on s.sweeps.purge } })
          ∧ (marked → exec .purgeStep s =
            .next { s.swept with sweeps := { s.sweeps with purge := skip s.sweeps.purge } })
          ∧ (s.headFault h = true → exec .purgeStep s =
            .next { (s.tableFault (.head h) .link .access).swept with
              sweeps := { s.sweeps with purge := skip s.sweeps.purge } }))
      ∧ (s.Offered .quarantine → s.sweeps.quarantine.cursor = h →
        (clear → exec .quarantineStep s =
            .next { s.swept with sweeps := { s.sweeps with quarantine := on s.sweeps.quarantine } })
          ∧ (marked → exec .quarantineStep s =
            .next { s.swept with sweeps := { s.sweeps with quarantine := skip s.sweeps.quarantine } })
          ∧ (s.headFault h = true → exec .quarantineStep s =
            .next { (s.tableFault (.head h) .link .access).swept with
              sweeps := { s.sweeps with quarantine := skip s.sweeps.quarantine } }))
      ∧ (s.Offered .auditTable → s.sweeps.audit.cursor = h →
        (clear → exec .auditTableStep s =
            .next { s.swept with sweeps := { s.sweeps with audit := on s.sweeps.audit } })
          ∧ (marked → exec .auditTableStep s =
            .next { s.swept with sweeps := { s.sweeps with audit := skip s.sweeps.audit } })
          ∧ (s.headFault h = true → exec .auditTableStep s =
            .next { (s.tableFault (.head h) .link .audit).swept with
              sweeps := { s.sweeps with audit := skip s.sweeps.audit } }))
      ∧ (∀ w : Byte, s.Offered .purge → s.sweeps.purge.cursor = h →
        s.sweeps.purge.param = some w.toNat → s.sweeps.purge.counts.visited ≤ 4294967295 →
        (∀ before c, s.Chain h before c → (∀ d ∈ before ++ [c], (s.entryAt d).wafer ≠ w) →
            exec .purgeStep s = .next { s.swept with
              sweeps := { s.sweeps with purge := walked (before.length + 1) s.sweeps.purge } })
          ∧ ∀ before p g, s.Breaks h before p g → (∀ d ∈ before, (s.entryAt d).wafer ≠ w) →
            exec .purgeStep s = .next { (s.tableFault p g .access).swept with
              sweeps := { s.sweeps with purge := broken before.length s.sweeps.purge } })
      ∧ (∀ (n : Nat) (r : BatchRange), s.Offered .quarantine → s.sweeps.quarantine.cursor = h →
        s.sweeps.quarantine.param = some n → 1 ≤ n → n ≤ 8 → s.lot.blocked[n - 1]? = some r →
        s.sweeps.quarantine.counts.visited ≤ 4294967295 →
        let passed (d : Nat) :=
          ¬ (r.low.toNat ≤ (s.entryAt d).batch.toNat ∧ (s.entryAt d).batch.toNat ≤ r.high.toNat)
            ∨ (s.entryAt d).state = .void
            ∨ ((s.entryAt d).state = .provisioned ∧ (s.entryAt d).noted.toNat = n)
        (∀ before c, s.Chain h before c → (∀ d ∈ before ++ [c], passed d) →
            exec .quarantineStep s = .next { s.swept with sweeps := { s.sweeps with
              quarantine := walked (before.length + 1) s.sweeps.quarantine } })
          ∧ ∀ before p g, s.Breaks h before p g → (∀ d ∈ before, passed d) →
            exec .quarantineStep s = .next { (s.tableFault p g .access).swept with
              sweeps := { s.sweeps with quarantine := broken before.length s.sweeps.quarantine } })
      ∧ (s.Offered .auditTable → s.sweeps.audit.cursor = h →
        s.sweeps.audit.counts.visited ≤ 4294967295 →
        (∀ before c, s.Chain h before c →
            exec .auditTableStep s = .next { s.swept with
              sweeps := { s.sweeps with audit := walked (before.length + 1) s.sweeps.audit } })
          ∧ ∀ before p g, s.Breaks h before p g →
            exec .auditTableStep s = .next { (s.tableFault p g .audit).swept with
              sweeps := { s.sweeps with audit := broken before.length s.sweeps.audit } })

/-- The step on the last bucket, empty here, completes a purge (the wafer FINISHED, or DETACHED where a
damaged bucket was skipped) or a quarantine, with the SWEEP_DONE latch set, and takes an audit into its
POOL phase without it (R134, R138, R140, R143). The parameter and the cursor stand after completion, and
a latch set anew outlasts reports built before it: both are the model's readings (logs 17 and 16). -/
def Obligations.LastBucketCompletes : Prop :=
  ∀ s : State, s.headFault 2047 = false → (s.head 2047).damaged = false →
    (s.head 2047).valid = false →
    (∀ w : Byte, s.Offered .purge → s.sweeps.purge.cursor = 2047 →
        s.sweeps.purge.param = some w.toNat → s.wafer w = some .purging →
        let after : WaferState := if s.sweeps.purge.counts.faults = 0 then .finished else .detached
        exec .purgeStep s = .next { s.swept with
          lot := { s.lot with wafers := s.lot.wafers.set (w.toNat - 1) after }
          sweeps := { s.sweeps with
            purge := { s.sweeps.purge with active := false, cursor := 2048 }, sweepDone := true }
          links := s.doneLatched })
      ∧ (s.Offered .quarantine → s.sweeps.quarantine.cursor = 2047 →
        exec .quarantineStep s = .next { s.swept with
          sweeps := { s.sweeps with
            quarantine := { s.sweeps.quarantine with active := false, waiting := false, cursor := 2048 }
            sweepDone := true }
          links := s.doneLatched })
      ∧ (s.Offered .auditTable → s.sweeps.audit.cursor = 2047 →
        exec .auditTableStep s = .next { s.swept with
          sweeps := { s.sweeps with audit := { s.sweeps.audit with phase := .pool, cursor := 0 } } })

/-- A purge step on a bucket that holds one entry (R133): an entry of another wafer is only counted, a
PROVISIONED or VOID one is removed, and an UNCERTAIN one is voided as UNRESOLVED, its key spent and its
outcome journaled without station or counts, and removed. On a chain of two, each is acted on before the
next is read, a removal going on from the successor with the predecessor unchanged, and what was done to
the first stands where the second's read fails (R131). That a bad successor pointer of a removed entry is
then charged to the head that has taken it over is the model's (log 13). -/
def Obligations.PurgeStepActs : Prop :=
  (∀ (s : State) (w : Byte) (h c : Nat) (e : Entry), h < 2047 → s.Offered .purge →
    s.sweeps.purge.cursor = h → s.sweeps.purge.param = some w.toNat → s.LoneEntry h c e → s.MapsOk →
    let p := s.sweeps.purge
    let counted (changed appended : Nat) : SweepController := { s.sweeps with purge := { p with
      cursor := h + 1
      counts := { p.counts with
        visited := min 4294967295 (p.counts.visited + 1)
        changed := min 4294967295 (p.counts.changed + changed)
        appended := min 4294967295 (p.counts.appended + appended) } } }
    p.counts.changed ≤ 4294967295 → p.counts.appended ≤ 4294967295 →
    (e.wafer ≠ w → exec .purgeStep s = .next { s.swept with sweeps := counted 0 0 })
      ∧ (e.wafer = w → e.state = .provisioned ∨ e.state = .void →
        ∃ t, exec .purgeStep s = .next t ∧ t.sweeps = counted 1 0
          ∧ s.Removes t h c none false ∧ s.onlyCells t [c]
          ∧ t.table.binding = s.table.binding ∧ t.arbiter = .link (.station 0)
          ∧ s.sameBeside t [.table, .store, .sweeps, .arbiter])
      ∧ (∀ n, e.wafer = w → e.state = .uncertain → s.OpenEntry c e n →
        ∃ t, exec .purgeStep s = .next t ∧ t.sweeps = counted 1 1
          ∧ s.Removes t h c none true ∧ t.cell n = zeroCell ∧ s.onlyCells t [c, n]
          ∧ t.table.binding = mapSet none s.table.binding n none
          ∧ t.pool = { s.pool with
            slots := mapSet emptySlot s.pool.slots n emptySlot
            counts := { s.pool.counts with
              bound := s.pool.counts.bound - 1, spent := s.pool.counts.spent + 1 } }
          ∧ t.journal = s.journaled e .voided none (some .unresolved) none
          ∧ t.arbiter = .link (.station 0)
          ∧ s.sameBeside t [.pool, .table, .store, .journal, .sweeps, .arbiter]))
    ∧ ∀ (s : State) (w : Byte) (h c d : Nat), h < 2047 → s.Offered .purge →
    s.sweeps.purge.cursor = h → s.sweeps.purge.param = some w.toNat → s.MapsOk →
    let p := s.sweeps.purge
    let counted (visited changed faults : Nat) : SweepController := { s.sweeps with purge := { p with
      cursor := h + 1
      counts := { p.counts with
        visited := p.counts.visited + visited
        changed := p.counts.changed + changed
        faults := p.counts.faults + faults } } }
    let gone (k : Nat) := (s.entryAt k).wafer = w
      ∧ ((s.entryAt k).state = .provisioned ∨ (s.entryAt k).state = .void)
    let kept (k : Nat) := (s.entryAt k).wafer ≠ w
    p.counts.visited + 2 ≤ 4294967295 → p.counts.changed + 2 ≤ 4294967295 →
    p.counts.faults + 1 ≤ 4294967295 →
    (s.Chain h [c] d → gone c → gone d → ∃ u t, exec .purgeStep s = .next t
        ∧ s.Removes u h c none false ∧ s.onlyCells u [c] ∧ s.sameBeside u [.table, .store]
        ∧ u.Removes t h d none false ∧ u.onlyCells t [d] ∧ t.table.binding = s.table.binding
        ∧ t.sweeps = counted 2 2 0 ∧ t.arbiter = .link (.station 0)
        ∧ s.sameBeside t [.table, .store, .sweeps, .arbiter])
      ∧ (s.Chain h [c] d → gone c → kept d → ∃ t, exec .purgeStep s = .next t
        ∧ s.Removes t h c none false ∧ s.onlyCells t [c] ∧ t.table.binding = s.table.binding
        ∧ t.sweeps = counted 2 1 0 ∧ t.arbiter = .link (.station 0)
        ∧ s.sameBeside t [.table, .store, .sweeps, .arbiter])
      ∧ (s.Chain h [c] d → kept c → gone d → ∃ t, exec .purgeStep s = .next t
        ∧ s.Removes t h d (some c) false ∧ s.onlyCells t [c, d] ∧ t.table.binding = s.table.binding
        ∧ t.sweeps = counted 2 1 0 ∧ t.arbiter = .link (.station 0)
        ∧ s.sameBeside t [.table, .store, .sweeps, .arbiter])
      ∧ (∀ place group, gone c → s.WalksTo h [c] d →
        (s.InPlace h d ∧ 1 < s.capacity ∧ s.entryFault d = some group ∧ place = .cell d)
          ∨ (¬ s.InPlace h d ∧ place = .head h ∧ group = .link) →
        ∃ u, s.Removes u h c none false ∧ s.onlyCells u [c] ∧ u.table.binding = s.table.binding
          ∧ s.sameBeside u [.table, .store]
          ∧ exec .purgeStep s = .next { (u.tableFault place group .access).swept with
            sweeps := counted 1 1 1 })

/-- A quarantine step on a bucket that holds one entry (R136, R137): an entry outside range g, a VOID
one and one noted already are only counted; an unburned claim is withdrawn as BLOCKED and removed, and
its owner's site REVOKED; a burned one is voided; a PROVISIONED one is reported once, or the step waits on
its bucket where the journal has no room. On a chain of two PROVISIONED ones both are reported in chain
order; with room for one entry the first is, and the step waits; and what was done to the first stands where
the second's read fails (R131). -/
def Obligations.QuarantineStepActs : Prop :=
  (∀ (s : State) (g : Nat) (r : BatchRange) (h c : Nat) (e : Entry), h < 2047 → 1 ≤ g → g ≤ 8 →
    s.Offered .quarantine → s.sweeps.quarantine.cursor = h →
    s.sweeps.quarantine.param = some g → s.lot.blocked[g - 1]? = some r → s.LoneEntry h c e →
    s.MapsOk →
    let p := s.sweeps.quarantine
    let counted (cursor changed : Nat) (waiting : Bool) : SweepController :=
      { s.sweeps with quarantine := { p with
        cursor := cursor
        waiting := waiting
        counts := { p.counts with
          visited := min 4294967295 (p.counts.visited + 1)
          changed := min 4294967295 (p.counts.changed + changed)
          appended := min 4294967295 (p.counts.appended + changed) } } }
    let inside := r.low.toNat ≤ e.batch.toNat ∧ e.batch.toNat ≤ r.high.toNat
    let sum := s.journal.queue.length + s.journal.reservations
    p.counts.changed ≤ 4294967295 → p.counts.appended ≤ 4294967295 → p.waiting = false →
    (¬ inside ∨ e.state = .void ∨ (e.state = .provisioned ∧ e.noted.toNat = g) →
        exec .quarantineStep s = .next { s.swept with sweeps := counted (h + 1) 0 false })
      ∧ (∀ n, inside → e.state = .issued → e.attempts = 0 → s.OpenEntry c e n →
        ∃ t, exec .quarantineStep s = .next t ∧ t.sweeps = counted (h + 1) 1 false
          ∧ s.Withdraws t c none e n .blocked none ∧ s.ownerRevoked t e.owner
          ∧ t.arbiter = .link (.station 0)
          ∧ s.sameBeside t [.stations, .pool, .table, .store, .journal, .sweeps, .arbiter])
      ∧ (∀ n, inside → (e.state = .issued ∧ e.attempts ≠ 0) ∨ e.state = .burning
            ∨ e.state = .uncertain → s.OpenEntry c e n →
        ∃ t, exec .quarantineStep s = .next t ∧ t.sweeps = counted (h + 1) 1 false
          ∧ s.Ends t c e n .void .voided none (some .quarantine) none ∧ s.ownerRevoked t e.owner
          ∧ t.arbiter = .link (.station 0)
          ∧ s.sameBeside t [.stations, .pool, .table, .store, .journal, .sweeps, .arbiter])
      ∧ (inside → e.state = .provisioned → e.noted.toNat ≠ g → sum < 256 →
        ∃ t, exec .quarantineStep s = .next t ∧ t.sweeps = counted (h + 1) 1 false
          ∧ s.Rewrites t c { e with noted := BitVec.ofNat 8 g } ∧ s.onlyCells t [c]
          ∧ t.journal = { s.journal with
            queue := s.journal.queue ++ [⟨s.journal.nextNumber, .quarantineHit, e.wafer, e.x, e.y,
              e.batch, e.index, e.serial, e.digit, e.cls, e.attempts, none, none, none⟩]
            nextNumber := s.journal.nextNumber + 1 }
          ∧ t.arbiter = .link (.station 0)
          ∧ s.sameBeside t [.store, .journal, .sweeps, .arbiter])
      ∧ (inside → e.state = .provisioned → e.noted.toNat ≠ g → 256 ≤ sum →
        exec .quarantineStep s = .next { s.swept with sweeps := counted h 0 true }))
    ∧ ∀ (s : State) (g : Nat) (r : BatchRange) (h c d : Nat), h < 2047 → 1 ≤ g → g ≤ 8 →
    s.Offered .quarantine → s.sweeps.quarantine.cursor = h →
    s.sweeps.quarantine.param = some g → s.lot.blocked[g - 1]? = some r → s.MapsOk →
    let p := s.sweeps.quarantine
    let counted (cursor visited changed faults : Nat) (waiting : Bool) : SweepController :=
      { s.sweeps with quarantine := { p with
        cursor := cursor
        waiting := waiting
        counts := ⟨p.counts.visited + visited, p.counts.changed + changed,
          p.counts.appended + changed, p.counts.faults + faults⟩ } }
    let hit (k : Nat) := r.low.toNat ≤ (s.entryAt k).batch.toNat ∧ (s.entryAt k).batch.toNat ≤ r.high.toNat
      ∧ (s.entryAt k).state = .provisioned ∧ (s.entryAt k).noted.toNat ≠ g
    let note (number : Half) (k : Nat) : JournalEntry := let e := s.entryAt k
      ⟨number, .quarantineHit, e.wafer, e.x, e.y, e.batch, e.index, e.serial, e.digit, e.cls,
        e.attempts, none, none, none⟩
    let noted (t : State) (k : Nat) := s.Rewrites t k { s.entryAt k with noted := BitVec.ofNat 8 g }
    let sum := s.journal.queue.length + s.journal.reservations
    let number := s.journal.nextNumber
    p.counts.visited + 2 ≤ 4294967295 → p.counts.changed + 2 ≤ 4294967295 →
    p.counts.appended + 2 ≤ 4294967295 → p.counts.faults + 1 ≤ 4294967295 → p.waiting = false →
    (s.Chain h [c] d → hit c → hit d → sum + 2 ≤ 256 →
        ∃ t, exec .quarantineStep s = .next t ∧ noted t c ∧ noted t d ∧ s.onlyCells t [c, d]
          ∧ t.journal = { s.journal with
            queue := s.journal.queue ++ [note number c, note (number + 1) d]
            nextNumber := number + 2 }
          ∧ t.sweeps = counted (h + 1) 2 2 0 false ∧ t.arbiter = .link (.station 0)
          ∧ s.sameBeside t [.store, .journal, .sweeps, .arbiter])
      ∧ (s.Chain h [c] d → hit c → hit d → sum = 255 →
        ∃ t, exec .quarantineStep s = .next t ∧ noted t c ∧ s.onlyCells t [c]
          ∧ t.journal = { s.journal with
            queue := s.journal.queue ++ [note number c], nextNumber := number + 1 }
          ∧ t.sweeps = counted h 2 1 0 true ∧ t.arbiter = .link (.station 0)
          ∧ s.sameBeside t [.store, .journal, .sweeps, .arbiter])
      ∧ (∀ place group, s.Breaks h [c] place group → hit c → sum < 256 →
        ∃ u, noted u c ∧ s.onlyCells u [c]
          ∧ u.journal = { s.journal with
            queue := s.journal.queue ++ [note number c], nextNumber := number + 1 }
          ∧ s.sameBeside u [.store, .journal]
          ∧ exec .quarantineStep s = .next { (u.tableFault place group .access).swept with
            sweeps := counted (h + 1) 1 1 1 false })

/-- An audit POOL step (R141, R142). Over a group whose slots are EMPTY, FAULTED or read cleanly only the
count of slots read and the cursor change, and the last group completes the audit; a fault in the one
occupied slot marks it and counts; and the entry of a damaged BOUND slot is settled, its owner's site
REVOKED. The visited count takes the slots read and the entries that the removal's walk reads (R128, the
model's reading: log 27); a damaged mark set before counts no fault (log 24); a completed context keeps
its cursor (log 17), and a latch set anew outlasts reports built before it (log 16). -/
def Obligations.AuditPoolStepActs : Prop :=
  ∀ (s : State) (m : Nat), s.Offered .auditPool → s.sweeps.audit.cursor = m →
    let p := s.sweeps.audit
    let counted (visited changed faults : Nat) : SweepController := { s.sweeps with audit := { p with
      cursor := m + 1
      counts := ⟨p.counts.visited + visited, p.counts.changed + changed,
        p.counts.appended + changed, p.counts.faults + faults⟩ } }
    let idle (k : Nat) := (s.keySlot k).state = .empty ∨ (s.keySlot k).state = .faulted
    let alone (n : Nat) := 32 * m ≤ n ∧ n < 32 * m + 32 ∧ ∀ k, 32 * m ≤ k → k < 32 * m + 32 → k ≠ n →
      idle k
    let group := List.range' (32 * m) 32
    p.counts.visited + 32 ≤ 4294967295 → p.counts.changed + 1 ≤ 4294967295 →
    p.counts.appended + 1 ≤ 4294967295 → p.counts.faults + 1 ≤ 4294967295 →
    ((∀ k ∈ group, idle k ∨ s.keyClean k) →
        let visited := group.countP fun k =>
          decide ((s.keySlot k).state ≠ .empty) && decide ((s.keySlot k).state ≠ .faulted)
        (m + 1 < s.keySlots / 32 →
            exec .auditPoolStep s = .next { s.swept with sweeps := counted visited 0 0 })
          ∧ (m + 1 = s.keySlots / 32 → exec .auditPoolStep s = .next { s.swept with
            sweeps := { (counted visited 0 0) with
              audit := { (counted visited 0 0).audit with active := false, phase := .table }
              sweepDone := true }
            links := s.doneLatched }))
      ∧ (∀ n g, m + 1 < s.keySlots / 32 → alone n → s.keyReadFault n = some g →
        (s.keySlot n).state = .fresh ∨ (s.keySlot n).state = .returned →
        exec .auditPoolStep s = .next { (s.keyFault n g .audit).swept with
          sweeps := counted 1 0 1 })
      ∧ (∀ (n : Fin 8192) c e, m + 1 < s.keySlots / 32 → alone n → (s.keySlot n).damaged = true →
        s.boundCell n = some c → s.OpenEntry c e n →
        (∀ c' pred, e.state = .issued → e.attempts = 0 → s.find e.wafer e.x e.y = .found c' pred →
            s.findReads e.wafer e.x e.y ≤ 32 →
            ∃ t, exec .auditPoolStep s = .next t
              ∧ t.sweeps = counted (s.findReads e.wafer e.x e.y) 1 0
              ∧ s.Withdraws t c' pred e n .keyDamaged none ∧ s.ownerRevoked t e.owner
              ∧ t.arbiter = .link (.station 0)
              ∧ s.sameBeside t [.stations, .pool, .table, .store, .journal, .sweeps, .arbiter])
          ∧ ((e.state = .issued ∧ e.attempts ≠ 0) ∨ e.state = .burning ∨ e.state = .uncertain →
            ∃ t, exec .auditPoolStep s = .next t ∧ t.sweeps = counted 0 1 0
              ∧ s.Ends t c e n .void .voided none (some .keyDamaged) none ∧ s.ownerRevoked t e.owner
              ∧ t.arbiter = .link (.station 0)
              ∧ s.sameBeside t [.stations, .pool, .table, .store, .journal, .sweeps, .arbiter]))

/-- A close scrub step clears its 32 cells and 8 heads and retires the keys among them, each leaving the
count of its state; the table's other records and counters stand until the last step. The last one closes
the lot and answers the LOT CLOSE: it clears heads 2040 to 2047 like the others, discards the table's maps,
free-entry list and counters, and keeps the fault record and the STORE_FAULT latch (R39, R75, R80, R144,
R145). That those records and counters stand until then is the model's reading (log 18). -/
def Obligations.CloseScrubStepClears : Prop :=
  ∀ s : State, s.Offered .scrub → s.MapsOk →
    let n := s.sweeps.scrubCursor
    let cells (k : Nat) := 32 * n ≤ k ∧ k < 32 * n + 32
    let left (v : KeyState) := (List.range' (32 * n) 32).countP fun k =>
      decide (k < s.keySlots) && decide ((s.keySlot k).state = v)
    let retired := s.pool.counts.retired + (List.range' (32 * n) 32).countP fun k =>
      decide (k < s.keySlots) && decide ((s.keySlot k).state ≠ .empty)
    (n < 255 → ∃ t, exec .closeScrubStep s = .next t
        ∧ (∀ k, cells k → t.cell k = zeroCell) ∧ (∀ k, ¬ cells k → t.cell k = s.cell k)
        ∧ (∀ k, t.head k = if 8 * n ≤ k ∧ k < 8 * n + 8 then zeroHead else s.head k)
        ∧ (∀ k, (cells k → k < s.keySlots → (t.keySlot k).state = .empty)
          ∧ (¬ cells k ∨ s.keySlots ≤ k → t.keySlot k = s.keySlot k))
        ∧ (∀ k, (cells k → s.keySlots ≤ k → t.cellBucket k = none)
          ∧ (¬ cells k ∨ k < s.keySlots → t.cellBucket k = s.cellBucket k))
        ∧ t.pool = { s.pool with
            slots := t.pool.slots
            counts := { s.pool.counts with
              fresh := s.pool.counts.fresh - left .fresh
              returned := s.pool.counts.returned - left .returned
              bound := s.pool.counts.bound - left .bound
              faulted := s.pool.counts.faulted - left .faulted
              retired := retired } }
        ∧ t.table = { s.table with heads := t.table.heads, cellMap := t.table.cellMap }
        ∧ t.sweeps = { s.sweeps with scrubCursor := n + 1 } ∧ t.arbiter = .link (.station 0)
        ∧ s.sameBeside t [.pool, .table, .store, .sweeps, .arbiter])
      ∧ (n = 255 → ∀ q, s.lot.params = some q → ∃ t, exec .closeScrubStep s = .next t
        ∧ t.lot = ⟨.idle, false, none, [], []⟩
        ∧ (∀ st : Station, t.stations[st] = ⟨none, Vector.replicate 16 .free⟩)
        ∧ t.pool = ⟨[], [], [], [], ⟨0, 0, 0, 0, 0, 0, 0⟩⟩
        ∧ t.unitP = ⟨none, none, 0, 0, false⟩ ∧ t.unitE = ⟨none, none, 0, 0, false⟩
        ∧ t.rules = none
        ∧ (∀ k, t.head k = if 2040 ≤ k ∧ k < 2048 then zeroHead else s.head k)
        ∧ t.table = ⟨t.table.heads, [], [], [], 0, 0, 0, 0, 0⟩
        ∧ t.sweeps = SweepController.clear
        ∧ t.check = { s.check with halt := false }
        ∧ (∀ k, t.cell k = if cells k then zeroCell else s.cell k)
        ∧ t.links = s.links.set 4 { s.link .lot with
          replies := (s.link .lot).replies ++ [⟨0x2C, .lotClosed q.name s.lot.lock
            s.pool.counts.loaded s.pool.counts.spent retired, false, false⟩]
          outstanding := false }
        ∧ t.arbiter = .link (.station 0)
        ∧ s.sameBeside t [.lot, .stations, .pool, .unitP, .unitE, .rules, .table, .store, .sweeps,
          .check, .links, .arbiter])

/-! ## Serials, die rules and store faults -/

/-- No two consecutive serial values have check value 10 and the highest has none; an allocation made
after the availability test has passed yields a serial of the window with a check digit, not below next,
and next passes beyond it or overflows (R45, R46, R47, R48, R52). -/
def Obligations.AllocationYieldsASerial : Prop :=
  (∀ v, v < 9999999999 → ¬ (checkValue v = 10 ∧ checkValue (v + 1) = 10))
    ∧ checkValue 9999999999 = 2
    ∧ ∀ (u : SerialUnit) (w : Window) (n : Nat), u.window = some w → u.next = some n →
      w.first ≤ n → w.last ≤ 9999999999 →
      (u.exhausted = true ↔ u.overflow = true ∨ w.last < n ∨ (n = w.last ∧ checkValue n = 10))
        ∧ (u.exhausted = false → ∃ v, u.allocate.1 = v
          ∧ w.first ≤ v ∧ v ≤ w.last ∧ checkValue v ≤ 9 ∧ n ≤ v ∧ v ≤ n + 1
          ∧ u.allocate.2.window = u.window
          ∧ u.allocate.2.issued = min 4294967295 (u.issued + 1)
          ∧ u.allocate.2.skipped =
            (if v = n then u.skipped else min 4294967295 (u.skipped + 1))
          ∧ (v = 9999999999 → u.allocate.2.next = some 0 ∧ u.allocate.2.overflow = true)
          ∧ (v ≠ 9999999999 → u.allocate.2.next = some (v + 1) ∧ u.allocate.2.overflow = u.overflow))

/-- The decision for a die (R57, R58): class P where no die rule matches; else the action of the matching
die rule of the highest priority, and among those of the lowest number. A die rule matches when it is
enabled and each of its ranges is ANY or covers the die's value, x and y compared as signed numbers. -/
def Obligations.DieRulesDecide : Prop :=
  ∀ (rules : List DieRule) (w x y : Byte),
    let covers (range : Option (Byte × Byte)) (value : Byte → Int) (v : Byte) :=
      range = none ∨ ∃ lo hi, range = some (lo, hi) ∧ value lo ≤ value v ∧ value v ≤ value hi
    let matching (r : DieRule) := r.enabled = true ∧ covers r.wafer (fun b => b.toNat) w
      ∧ covers r.xRange BitVec.toInt x ∧ covers r.yRange BitVec.toInt y
    ((∀ r ∈ rules, ¬ matching r) → decideDie rules w x y = .cls .p)
      ∧ (∀ (i : Nat) (h : i < rules.length), matching rules[i] →
        (∀ (j : Nat) (g : j < rules.length), matching rules[j] →
          rules[j].priority < rules[i].priority
            ∨ (rules[j].priority = rules[i].priority ∧ i ≤ j)) →
        decideDie rules w x y = rules[i].action)
      ∧ ∀ s : State, s.rules = some rules → s.decision w x y = decideDie rules w x y

/-- What a store fault does within the read that finds it (R36, R77, R158, R159): the fault record and
the STORE_FAULT latch, the mark of the bucket or key slot, and ISSUE HALT, for a key slot under the
strict flag alone. And which faults the walk for a die identity finds (R70, R71): a head of bad parity, an
entry whose read fails, and a pointer out of the chain, charged to the head or cell that holds it; else it
finds the die's entry with the cell before it, or comes to the chain's end with its length and last cell. -/
def Obligations.StoreFaultIsHandled : Prop :=
  ∀ (s : State) (p : FaultPlace) (g : FaultGroup) (o : FaultOrigin) (n : Nat), s.MapsOk →
    let recorded (place : FaultPlace) (halt : Bool) : StoreCheck := { s.check with
      halt := halt
      faults := if s.check.faults < 255 then s.check.faults + 1 else 255
      first := if s.check.faults = 0 then some ⟨place, g, o⟩ else s.check.first
      storeFault := true }
    let pool := (s.keyFault n g o).pool
    (∀ h, (p = .head h ∨ ∃ c, p = .cell c ∧ s.cellBucket c = some h) →
        (s.tableFault p g o).check = recorded p true
          ∧ (∀ k, (s.tableFault p g o).head k = if k = h then
              BucketHead.written { s.head h with damaged := true } else s.head k)
          ∧ (s.tableFault p g o).table = { s.table with
              heads := (s.tableFault p g o).table.heads
              damagedBuckets := s.table.damagedBuckets + if (s.head h).damaged then 0 else 1 }
          ∧ s.sameBeside (s.tableFault p g o) [.table, .check])
      ∧ (s.keyFault n g o).check = recorded (.cell n) (s.check.halt || s.limits.strict)
      ∧ s.sameBeside (s.keyFault n g o) [.pool, .check]
      ∧ pool = { s.pool with slots := pool.slots, counts := pool.counts }
      ∧ (∀ k, k ≠ n → (s.keyFault n g o).keySlot k = s.keySlot k)
      ∧ ((s.keySlot n).state = .fresh → (s.keyFault n g o).keySlot n = ⟨.faulted, false⟩
        ∧ pool.counts = { s.pool.counts with
          fresh := s.pool.counts.fresh - 1, faulted := s.pool.counts.faulted + 1 })
      ∧ ((s.keySlot n).state = .returned → (s.keyFault n g o).keySlot n = ⟨.faulted, false⟩
        ∧ pool.counts = { s.pool.counts with
          returned := s.pool.counts.returned - 1, faulted := s.pool.counts.faulted + 1 })
      ∧ ((s.keySlot n).state = .bound → (s.keyFault n g o).keySlot n = ⟨.bound, true⟩
        ∧ pool.counts = s.pool.counts)
      ∧ ((s.keySlot n).state = .faulted ∨ (s.keySlot n).state = .empty → pool = s.pool)
      ∧ ∀ w x y : Byte,
        let h := bucketOf w x y
        let sought (d : Nat) := (s.entryAt d).wafer = w ∧ (s.entryAt d).x = x ∧ (s.entryAt d).y = y
        (s.headFault h = true → s.find w x y = .fault (.head h) .link ∧ s.findReads w x y = 0)
          ∧ (s.headFault h = false → (s.head h).damaged = true →
            s.find w x y = .damaged ∧ s.findReads w x y = 0)
          ∧ (s.headFault h = false → (s.head h).damaged = false → (s.head h).valid = false →
            s.find w x y = .notFound 0 none ∧ s.findReads w x y = 0)
          ∧ (∀ before c, s.Reads h before c → (∀ d ∈ before, ¬ sought d) → sought c →
            s.find w x y = .found c before.getLast? ∧ s.findReads w x y = before.length + 1)
          ∧ (∀ before c, s.Chain h before c → (∀ d ∈ before ++ [c], ¬ sought d) →
            s.find w x y = .notFound (before.length + 1) (some c)
              ∧ s.findReads w x y = before.length + 1)
          ∧ (∀ before place group, s.Breaks h before place group → (∀ d ∈ before, ¬ sought d) →
            s.find w x y = .fault place group ∧ s.findReads w x y = before.length)
          ∧ s.lookup o w x y = match s.find w x y with
            | .fault place group => (.damaged, s.tableFault place group o)
            | r => (r, s)

/-! ## The laws -/

/-- Every command changes the lot state only as R1's table has it. -/
def Obligations.LotStateTransitions : Prop :=
  ∀ (s t : State) (i : Instr), exec i s = .next t →
    (s.check.clearing = true → s.lot.state = .init) →
    t.lot.state = s.lot.state
      ∨ (t.lot.state = .init ∧ i = .deviceReset)
      ∨ (s.lot.state = .init ∧ t.lot.state = .idle ∧ i = .storeClearComplete)
      ∨ (s.lot.state = .idle ∧ t.lot.state = .opened ∧ ∃ b, i = .lotOpen b)
      ∨ (s.lot.state = .opened ∧ t.lot.state = .locked
        ∧ (i = .lotLock ∨ ∃ st items, i = .claim st items))
      ∨ (s.taking ∧ t.lot.state = .closing ∧ i = .lotClose)
      ∨ (s.lot.state = .closing ∧ t.lot.state = .idle ∧ i = .closeScrubStep)

/-- Every step keeps the store and the four maps in canonical form, and keeps the law of the entry
cells: cells in use plus free cells equal the capacity, and no cell is both (R68). -/
def Obligations.StepKeepsTheTable : Prop :=
  ∀ s t : State, step s = .next t → (s.MapsOk → t.MapsOk) ∧ (s.CellsOk → t.CellsOk)

/-- Every step keeps the journal law: entries held plus reservations never exceed 256, and reservations
equal the count of open entries (R154); in CLOSING none is left. -/
def Obligations.StepKeepsTheJournalLaw : Prop :=
  ∀ s t : State, s.JournalOk → step s = .next t → t.JournalOk

/-- Every step keeps the conservation of keys: the counts are those of the slots, and the keys loaded
are the FRESH, RETURNED, FAULTED and BOUND slots with the spent and the retired counts (R27, R41). -/
def Obligations.StepConservesKeys : Prop :=
  ∀ s t : State, s.PoolOk → step s = .next t → t.PoolOk

/-- Every step keeps the fault record's law (R159) and the Link Units' laws: at most three link-level
replies and at most one request reply wait in a queue (R165), and a link that holds a request has its
outstanding flag set (R166). That the reply before is sent first where a request is granted while it waits,
and that the queue of the lot link has room through CLOSING for the reply to the LOT CLOSE, are the model's
way of keeping that bound (log 14). -/
def Obligations.StepKeepsFaultsAndLinks : Prop :=
  ∀ s t : State, step s = .next t → (s.FaultsOk → t.FaultsOk) ∧ (s.LinksOk → t.LinksOk)

/-- Every step keeps the laws of the level-2 wait (R137) and of the wafer table (R11, R134). -/
def Obligations.StepKeepsWaitAndWafers : Prop :=
  ∀ s t : State, step s = .next t → (s.WaitOk → t.WaitOk) ∧ (s.WafersOk → t.WafersOk)

/-- The state after device reset meets every law. -/
def Obligations.ResetMeetsTheLaws : Prop :=
  State.reset.MapsOk ∧ State.reset.CellsOk ∧ State.reset.JournalOk ∧ State.reset.PoolOk
    ∧ State.reset.FaultsOk ∧ State.reset.LinksOk ∧ State.reset.WaitOk ∧ State.reset.WafersOk
end

