-- ==== Sys2Proof/Laws/Cells.lean ====
section
/-! SUPPORT. Cells as they are written and read: bytes and the numbers they denote, an entry and a key
slot read back from their contents, and the checks of a cell just written. -/

namespace Sys2Proof.Machine

/-! ## Bytes -/

@[simp] theorem bytesOf_length (n v : Nat) : (bytesOf n v).length = n := by
  induction n with
  | zero => rfl
  | succ n ih => simp [bytesOf, ih]

theorem foldl_number (bs : List Byte) (v : Nat) :
    bs.foldl (fun v b => v * 256 + b.toNat) v = v * 256 ^ bs.length + numberOf bs := by
  unfold numberOf
  induction bs generalizing v with
  | nil => simp
  | cons b bs ih =>
    rw [List.foldl_cons, List.foldl_cons, ih (v * 256 + b.toNat), ih (0 * 256 + b.toNat)]
    simp only [List.length_cons, Nat.zero_mul, Nat.zero_add]
    ring

theorem numberOf_cons (b : Byte) (bs : List Byte) :
    numberOf (b :: bs) = b.toNat * 256 ^ bs.length + numberOf bs := by
  have := foldl_number bs b.toNat
  simpa [numberOf] using this

theorem numberOf_bytesOf (n v : Nat) : numberOf (bytesOf n v) = v % 256 ^ n := by
  induction n with
  | zero => simp [bytesOf, numberOf, Nat.mod_one]
  | succ n ih =>
    have h := Nat.mod_mul (x := v) (a := 256 ^ n) (b := 256)
    rw [bytesOf, numberOf_cons, bytesOf_length, ih, BitVec.toNat_ofNat, pow_succ 256 n, h]
    ring

/-- A number's bytes at the head of a list denote it. -/
theorem take_bytesOf (n v : Nat) (bs : List Byte) : (bytesOf n v ++ bs).take n = bytesOf n v := by
  have := List.take_left' (l₁ := bytesOf n v) (l₂ := bs) (bytesOf_length n v)
  exact this

theorem fieldOf_append (pre bs : List Byte) (n v : Nat) (at_ : Nat) (h : pre.length = at_) :
    fieldOf (pre ++ (bytesOf n v ++ bs)) at_ n = v % 256 ^ n := by
  unfold fieldOf
  rw [List.drop_left' h, take_bytesOf, numberOf_bytesOf]

theorem halfAt_append (pre bs : List Byte) (v : Half) (at_ : Nat) (h : pre.length = at_) :
    halfAt (pre ++ (halfBytes v ++ bs)) at_ = v := by
  unfold halfAt halfBytes
  rw [fieldOf_append pre bs 2 v.toNat at_ h]
  apply BitVec.eq_of_toNat_eq
  rw [BitVec.toNat_ofNat]
  have := v.isLt
  omega

/-! ## Entries and key slots -/

theorem entryStateOf_byte (v : EntryState) : entryStateOf (entryStateByte v) = v := by
  cases v <;> rfl

theorem classOf_byte (v : SerialClass) : classOf (classByte v) = v := by
  cases v <;> rfl

theorem slotCode_lt (v : Option (Fin 8192)) : slotCode v < 65536 := by
  rcases v with _ | n
  · decide
  · have := n.isLt; simp only [slotCode]; omega

theorem slotOfCode_code (v : Option (Fin 8192)) : slotOfCode (slotCode v) = v := by
  rcases v with _ | n
  · decide
  · simp [slotCode, slotOfCode]

theorem ownerOfCode_code (v : Option (Station × Site)) :
    ownerOfCode (ownerCode v).1 (ownerCode v).2 = v := by
  rcases v with _ | ⟨st, site⟩
  · decide
  · revert st site; decide

@[simp] theorem entryFields_length (e : Entry) : (entryFields e).length = 20 := by
  simp [entryFields, halfBytes]

/-- An entry is read back whole from the content that was written for it (R65, R66). -/
theorem entryOf_entryContent (e : Entry) : entryOf (entryContent e) = e := by
  have hv := slotCode_lt e.slot
  have hs := e.serial.isLt
  let head : List Byte := [e.wafer, e.x, e.y, entryStateByte e.state]
  let tail : List Byte := [e.digit, classByte e.cls, (ownerCode e.owner).1, (ownerCode e.owner).2,
    e.attempts, e.noted] ++ halfBytes (twoSum (entryFields e)) ++ List.replicate 7 0
  have whole : entryContent e = head ++ (halfBytes e.batch ++ ([e.index]
      ++ (bytesOf 2 (slotCode e.slot) ++ (bytesOf 5 e.serial.toNat ++ tail)))) := by
    simp [entryContent, entryFields, head, tail]
  have h1 : halfAt (entryContent e) 4 = e.batch := by
    rw [whole]; exact halfAt_append head _ e.batch 4 rfl
  have h2 : fieldOf (entryContent e) 7 2 = slotCode e.slot := by
    have := fieldOf_append (head ++ halfBytes e.batch ++ [e.index]) (bytesOf 5 e.serial.toNat ++ tail)
      2 (slotCode e.slot) 7 (by simp [head, halfBytes])
    rw [Nat.mod_eq_of_lt (by simpa using hv)] at this
    rw [whole]; simpa using this
  have h3 : fieldOf (entryContent e) 9 5 = e.serial.toNat := by
    have := fieldOf_append (head ++ halfBytes e.batch ++ [e.index] ++ bytesOf 2 (slotCode e.slot)) tail
      5 e.serial.toNat 9 (by simp [head, halfBytes])
    rw [Nat.mod_eq_of_lt (by simpa using hs)] at this
    rw [whole]; simpa using this
  have h4 : ∀ k, byteAt (entryContent e) (14 + k) = byteAt tail k := by
    intro k
    have : (head ++ halfBytes e.batch ++ [e.index] ++ bytesOf 2 (slotCode e.slot)
        ++ bytesOf 5 e.serial.toNat).length = 14 := by simp [head, halfBytes]
    have h := List.getD_append_right (head ++ halfBytes e.batch ++ [e.index]
      ++ bytesOf 2 (slotCode e.slot) ++ bytesOf 5 e.serial.toNat) tail 0 (14 + k) (by omega)
    rw [this, Nat.add_sub_cancel_left] at h
    rw [whole]
    simpa [byteAt] using h
  have h5 : byteAt (entryContent e) 6 = e.index := by
    rw [whole]; simp [head, halfBytes, bytesOf, byteAt]
  have h6 : byteAt (entryContent e) 0 = e.wafer ∧ byteAt (entryContent e) 1 = e.x
      ∧ byteAt (entryContent e) 2 = e.y
      ∧ byteAt (entryContent e) 3 = entryStateByte e.state := by
    rw [whole]; simp [head, byteAt]
  have t : byteAt (entryContent e) 14 = e.digit ∧ byteAt (entryContent e) 15 = classByte e.cls
      ∧ byteAt (entryContent e) 16 = (ownerCode e.owner).1
      ∧ byteAt (entryContent e) 17 = (ownerCode e.owner).2
      ∧ byteAt (entryContent e) 18 = e.attempts ∧ byteAt (entryContent e) 19 = e.noted :=
    ⟨h4 0, h4 1, h4 2, h4 3, h4 4, h4 5⟩
  unfold entryOf
  rw [h1, h2, h3, h5, h6.1, h6.2.1, h6.2.2.1, h6.2.2.2, t.1, t.2.1, t.2.2.1, t.2.2.2.1,
    t.2.2.2.2.1, t.2.2.2.2.2, entryStateOf_byte, classOf_byte, slotOfCode_code, ownerOfCode_code]
  simp

/-- The check word of an entry's content agrees with its fields (R66). -/
theorem entryCheckOk_content (e : Entry) : entryCheckOk (entryContent e) = true := by
  unfold entryCheckOk entryContent
  have h1 : (entryFields e ++ halfBytes (twoSum (entryFields e)) ++ List.replicate 7 0).take 20
      = entryFields e := by
    rw [List.append_assoc]; exact List.take_left' (entryFields_length e)
  have h2 := halfAt_append (entryFields e) (List.replicate 7 0) (twoSum (entryFields e)) 20
    (entryFields_length e)
  rw [← List.append_assoc] at h2
  simp only [h1, h2, decide_true]

@[simp] theorem keyFields_length (b : Half) (i : Byte) (k : Key) : (keyFields b i k).length = 19 := by
  simp [keyFields, halfBytes]

/-- A key slot is read back whole from the content that was written for it (R21). -/
theorem keyCellOf_keyContent (k : KeyCell) : keyCellOf (keyContent k) = k := by
  have hk := k.key.isLt
  have h1 : halfAt (keyContent k) 0 = k.batch := by
    have := halfAt_append [] ([k.index] ++ bytesOf 16 k.key.toNat ++ halfBytes k.check
      ++ List.replicate 8 0) k.batch 0 rfl
    simpa [keyContent, keyFields] using this
  have h2 : fieldOf (keyContent k) 3 16 = k.key.toNat := by
    have := fieldOf_append (halfBytes k.batch ++ [k.index]) (halfBytes k.check ++ List.replicate 8 0)
      16 k.key.toNat 3 (by simp [halfBytes])
    rw [Nat.mod_eq_of_lt (by simpa using hk)] at this
    simpa [keyContent, keyFields] using this
  have h3 : halfAt (keyContent k) 19 = k.check := by
    have := halfAt_append (keyFields k.batch k.index k.key) (List.replicate 8 0) k.check 19
      (keyFields_length _ _ _)
    simpa [keyContent] using this
  have h4 : byteAt (keyContent k) 2 = k.index := by
    simp [keyContent, keyFields, halfBytes, bytesOf, byteAt]
  unfold keyCellOf
  rw [h1, h2, h3, h4]
  simp

/-- The check word of a key slot agrees with its bytes where the key's own check word does (R21, R30). -/
theorem keyCheckOk_content (k : KeyCell) (h : twoSum (keyFields k.batch k.index k.key) = k.check) :
    keyCheckOk (keyContent k) = true := by
  unfold keyCheckOk keyContent
  have h1 : (keyFields k.batch k.index k.key ++ halfBytes k.check ++ List.replicate 8 0).take 19
      = keyFields k.batch k.index k.key := by
    rw [List.append_assoc]; exact List.take_left' (keyFields_length _ _ _)
  have h2 := halfAt_append (keyFields k.batch k.index k.key) (List.replicate 8 0) k.check 19
    (keyFields_length _ _ _)
  rw [← List.append_assoc] at h2
  simp only [h1, h2, h, decide_true]

/-! ## Cells just written -/

@[simp] theorem written_content (c : StoreCell) : c.written.content = c.content := by
  simp only [StoreCell.written]
@[simp] theorem written_next (c : StoreCell) : c.written.next = c.next := by
  simp only [StoreCell.written]
@[simp] theorem written_last (c : StoreCell) : c.written.last = c.last := by
  simp only [StoreCell.written]

/-- A cell just written fails no parity check, and the check word is its content's own (R156). -/
theorem cellFault_written (c : StoreCell) (ok : List Byte → Bool) (h : ok c.content = true) :
    cellFault c.written ok = none := by
  simp [cellFault, StoreCell.written, linkParityOf, h]

/-- A head just written passes its parity check (R64). -/
theorem headParity_written (h : BucketHead) : h.written.parity = headParityOf h.written := by
  simp only [BucketHead.written, headParityOf]

@[simp] theorem zeroCell_written : zeroCell.written = zeroCell := by decide +kernel

@[simp] theorem zeroHead_written : zeroHead.written = zeroHead := by decide +kernel

end Sys2Proof.Machine
end

