-- ==== Sys2Proof/Laws/State.lean ====
section
/-! SUPPORT. What each named update of the state leaves as it was: one lemma for each update and each
field that it does not touch. -/

namespace Sys2Proof.Machine

variable (s : State)

/-! `State.setStation` -/

@[simp] theorem State.setStation_lot (st : Station) (t : StationTable) :
    (s.setStation st t).lot = s.lot := rfl
@[simp] theorem State.setStation_pool (st : Station) (t : StationTable) :
    (s.setStation st t).pool = s.pool := rfl
@[simp] theorem State.setStation_unitP (st : Station) (t : StationTable) :
    (s.setStation st t).unitP = s.unitP := rfl
@[simp] theorem State.setStation_unitE (st : Station) (t : StationTable) :
    (s.setStation st t).unitE = s.unitE := rfl
@[simp] theorem State.setStation_rules (st : Station) (t : StationTable) :
    (s.setStation st t).rules = s.rules := rfl
@[simp] theorem State.setStation_table (st : Station) (t : StationTable) :
    (s.setStation st t).table = s.table := rfl
@[simp] theorem State.setStation_store (st : Station) (t : StationTable) :
    (s.setStation st t).store = s.store := rfl
@[simp] theorem State.setStation_journal (st : Station) (t : StationTable) :
    (s.setStation st t).journal = s.journal := rfl
@[simp] theorem State.setStation_sweeps (st : Station) (t : StationTable) :
    (s.setStation st t).sweeps = s.sweeps := rfl
@[simp] theorem State.setStation_check (st : Station) (t : StationTable) :
    (s.setStation st t).check = s.check := rfl
@[simp] theorem State.setStation_links (st : Station) (t : StationTable) :
    (s.setStation st t).links = s.links := rfl
@[simp] theorem State.setStation_arbiter (st : Station) (t : StationTable) :
    (s.setStation st t).arbiter = s.arbiter := rfl
@[simp] theorem State.setStation_deferred (st : Station) (t : StationTable) :
    (s.setStation st t).deferred = s.deferred := rfl
@[simp] theorem State.setStation_pending (st : Station) (t : StationTable) :
    (s.setStation st t).pending = s.pending := rfl

/-! `State.setSlot` -/

@[simp] theorem State.setSlot_lot (st : Station) (site : Site) (v : Slot) :
    (s.setSlot st site v).lot = s.lot := rfl
@[simp] theorem State.setSlot_pool (st : Station) (site : Site) (v : Slot) :
    (s.setSlot st site v).pool = s.pool := rfl
@[simp] theorem State.setSlot_unitP (st : Station) (site : Site) (v : Slot) :
    (s.setSlot st site v).unitP = s.unitP := rfl
@[simp] theorem State.setSlot_unitE (st : Station) (site : Site) (v : Slot) :
    (s.setSlot st site v).unitE = s.unitE := rfl
@[simp] theorem State.setSlot_rules (st : Station) (site : Site) (v : Slot) :
    (s.setSlot st site v).rules = s.rules := rfl
@[simp] theorem State.setSlot_table (st : Station) (site : Site) (v : Slot) :
    (s.setSlot st site v).table = s.table := rfl
@[simp] theorem State.setSlot_store (st : Station) (site : Site) (v : Slot) :
    (s.setSlot st site v).store = s.store := rfl
@[simp] theorem State.setSlot_journal (st : Station) (site : Site) (v : Slot) :
    (s.setSlot st site v).journal = s.journal := rfl
@[simp] theorem State.setSlot_sweeps (st : Station) (site : Site) (v : Slot) :
    (s.setSlot st site v).sweeps = s.sweeps := rfl
@[simp] theorem State.setSlot_check (st : Station) (site : Site) (v : Slot) :
    (s.setSlot st site v).check = s.check := rfl
@[simp] theorem State.setSlot_links (st : Station) (site : Site) (v : Slot) :
    (s.setSlot st site v).links = s.links := rfl
@[simp] theorem State.setSlot_arbiter (st : Station) (site : Site) (v : Slot) :
    (s.setSlot st site v).arbiter = s.arbiter := rfl
@[simp] theorem State.setSlot_deferred (st : Station) (site : Site) (v : Slot) :
    (s.setSlot st site v).deferred = s.deferred := rfl
@[simp] theorem State.setSlot_pending (st : Station) (site : Site) (v : Slot) :
    (s.setSlot st site v).pending = s.pending := rfl

/-! `State.setWafer` -/

@[simp] theorem State.setWafer_stations (w : Byte) (v : WaferState) :
    (s.setWafer w v).stations = s.stations := rfl
@[simp] theorem State.setWafer_pool (w : Byte) (v : WaferState) :
    (s.setWafer w v).pool = s.pool := rfl
@[simp] theorem State.setWafer_unitP (w : Byte) (v : WaferState) :
    (s.setWafer w v).unitP = s.unitP := rfl
@[simp] theorem State.setWafer_unitE (w : Byte) (v : WaferState) :
    (s.setWafer w v).unitE = s.unitE := rfl
@[simp] theorem State.setWafer_rules (w : Byte) (v : WaferState) :
    (s.setWafer w v).rules = s.rules := rfl
@[simp] theorem State.setWafer_table (w : Byte) (v : WaferState) :
    (s.setWafer w v).table = s.table := rfl
@[simp] theorem State.setWafer_store (w : Byte) (v : WaferState) :
    (s.setWafer w v).store = s.store := rfl
@[simp] theorem State.setWafer_journal (w : Byte) (v : WaferState) :
    (s.setWafer w v).journal = s.journal := rfl
@[simp] theorem State.setWafer_sweeps (w : Byte) (v : WaferState) :
    (s.setWafer w v).sweeps = s.sweeps := rfl
@[simp] theorem State.setWafer_check (w : Byte) (v : WaferState) :
    (s.setWafer w v).check = s.check := rfl
@[simp] theorem State.setWafer_links (w : Byte) (v : WaferState) :
    (s.setWafer w v).links = s.links := rfl
@[simp] theorem State.setWafer_arbiter (w : Byte) (v : WaferState) :
    (s.setWafer w v).arbiter = s.arbiter := rfl
@[simp] theorem State.setWafer_deferred (w : Byte) (v : WaferState) :
    (s.setWafer w v).deferred = s.deferred := rfl
@[simp] theorem State.setWafer_pending (w : Byte) (v : WaferState) :
    (s.setWafer w v).pending = s.pending := rfl

/-! `State.writeCell` -/

@[simp] theorem State.writeCell_lot (n : Nat) (c : StoreCell) : (s.writeCell n c).lot = s.lot := rfl
@[simp] theorem State.writeCell_stations (n : Nat) (c : StoreCell) :
    (s.writeCell n c).stations = s.stations := rfl
@[simp] theorem State.writeCell_pool (n : Nat) (c : StoreCell) :
    (s.writeCell n c).pool = s.pool := rfl
@[simp] theorem State.writeCell_unitP (n : Nat) (c : StoreCell) :
    (s.writeCell n c).unitP = s.unitP := rfl
@[simp] theorem State.writeCell_unitE (n : Nat) (c : StoreCell) :
    (s.writeCell n c).unitE = s.unitE := rfl
@[simp] theorem State.writeCell_rules (n : Nat) (c : StoreCell) :
    (s.writeCell n c).rules = s.rules := rfl
@[simp] theorem State.writeCell_table (n : Nat) (c : StoreCell) :
    (s.writeCell n c).table = s.table := rfl
@[simp] theorem State.writeCell_journal (n : Nat) (c : StoreCell) :
    (s.writeCell n c).journal = s.journal := rfl
@[simp] theorem State.writeCell_sweeps (n : Nat) (c : StoreCell) :
    (s.writeCell n c).sweeps = s.sweeps := rfl
@[simp] theorem State.writeCell_check (n : Nat) (c : StoreCell) :
    (s.writeCell n c).check = s.check := rfl
@[simp] theorem State.writeCell_links (n : Nat) (c : StoreCell) :
    (s.writeCell n c).links = s.links := rfl
@[simp] theorem State.writeCell_arbiter (n : Nat) (c : StoreCell) :
    (s.writeCell n c).arbiter = s.arbiter := rfl
@[simp] theorem State.writeCell_deferred (n : Nat) (c : StoreCell) :
    (s.writeCell n c).deferred = s.deferred := rfl
@[simp] theorem State.writeCell_pending (n : Nat) (c : StoreCell) :
    (s.writeCell n c).pending = s.pending := rfl

/-! `State.writeHead` -/

@[simp] theorem State.writeHead_lot (h : Nat) (hd : BucketHead) :
    (s.writeHead h hd).lot = s.lot := rfl
@[simp] theorem State.writeHead_stations (h : Nat) (hd : BucketHead) :
    (s.writeHead h hd).stations = s.stations := rfl
@[simp] theorem State.writeHead_pool (h : Nat) (hd : BucketHead) :
    (s.writeHead h hd).pool = s.pool := rfl
@[simp] theorem State.writeHead_unitP (h : Nat) (hd : BucketHead) :
    (s.writeHead h hd).unitP = s.unitP := rfl
@[simp] theorem State.writeHead_unitE (h : Nat) (hd : BucketHead) :
    (s.writeHead h hd).unitE = s.unitE := rfl
@[simp] theorem State.writeHead_rules (h : Nat) (hd : BucketHead) :
    (s.writeHead h hd).rules = s.rules := rfl
@[simp] theorem State.writeHead_store (h : Nat) (hd : BucketHead) :
    (s.writeHead h hd).store = s.store := rfl
@[simp] theorem State.writeHead_journal (h : Nat) (hd : BucketHead) :
    (s.writeHead h hd).journal = s.journal := rfl
@[simp] theorem State.writeHead_sweeps (h : Nat) (hd : BucketHead) :
    (s.writeHead h hd).sweeps = s.sweeps := rfl
@[simp] theorem State.writeHead_check (h : Nat) (hd : BucketHead) :
    (s.writeHead h hd).check = s.check := rfl
@[simp] theorem State.writeHead_links (h : Nat) (hd : BucketHead) :
    (s.writeHead h hd).links = s.links := rfl
@[simp] theorem State.writeHead_arbiter (h : Nat) (hd : BucketHead) :
    (s.writeHead h hd).arbiter = s.arbiter := rfl
@[simp] theorem State.writeHead_deferred (h : Nat) (hd : BucketHead) :
    (s.writeHead h hd).deferred = s.deferred := rfl
@[simp] theorem State.writeHead_pending (h : Nat) (hd : BucketHead) :
    (s.writeHead h hd).pending = s.pending := rfl

/-! `State.recordFault` -/

@[simp] theorem State.recordFault_lot (p : FaultPlace) (g : FaultGroup) (o : FaultOrigin) :
    (s.recordFault p g o).lot = s.lot := rfl
@[simp] theorem State.recordFault_stations (p : FaultPlace) (g : FaultGroup) (o : FaultOrigin) :
    (s.recordFault p g o).stations = s.stations := rfl
@[simp] theorem State.recordFault_pool (p : FaultPlace) (g : FaultGroup) (o : FaultOrigin) :
    (s.recordFault p g o).pool = s.pool := rfl
@[simp] theorem State.recordFault_unitP (p : FaultPlace) (g : FaultGroup) (o : FaultOrigin) :
    (s.recordFault p g o).unitP = s.unitP := rfl
@[simp] theorem State.recordFault_unitE (p : FaultPlace) (g : FaultGroup) (o : FaultOrigin) :
    (s.recordFault p g o).unitE = s.unitE := rfl
@[simp] theorem State.recordFault_rules (p : FaultPlace) (g : FaultGroup) (o : FaultOrigin) :
    (s.recordFault p g o).rules = s.rules := rfl
@[simp] theorem State.recordFault_table (p : FaultPlace) (g : FaultGroup) (o : FaultOrigin) :
    (s.recordFault p g o).table = s.table := rfl
@[simp] theorem State.recordFault_store (p : FaultPlace) (g : FaultGroup) (o : FaultOrigin) :
    (s.recordFault p g o).store = s.store := rfl
@[simp] theorem State.recordFault_journal (p : FaultPlace) (g : FaultGroup) (o : FaultOrigin) :
    (s.recordFault p g o).journal = s.journal := rfl
@[simp] theorem State.recordFault_sweeps (p : FaultPlace) (g : FaultGroup) (o : FaultOrigin) :
    (s.recordFault p g o).sweeps = s.sweeps := rfl
@[simp] theorem State.recordFault_links (p : FaultPlace) (g : FaultGroup) (o : FaultOrigin) :
    (s.recordFault p g o).links = s.links := rfl
@[simp] theorem State.recordFault_arbiter (p : FaultPlace) (g : FaultGroup) (o : FaultOrigin) :
    (s.recordFault p g o).arbiter = s.arbiter := rfl
@[simp] theorem State.recordFault_deferred (p : FaultPlace) (g : FaultGroup) (o : FaultOrigin) :
    (s.recordFault p g o).deferred = s.deferred := rfl
@[simp] theorem State.recordFault_pending (p : FaultPlace) (g : FaultGroup) (o : FaultOrigin) :
    (s.recordFault p g o).pending = s.pending := rfl

/-! `State.setHalt` -/

@[simp] theorem State.setHalt_lot : s.setHalt.lot = s.lot := rfl
@[simp] theorem State.setHalt_stations : s.setHalt.stations = s.stations := rfl
@[simp] theorem State.setHalt_pool : s.setHalt.pool = s.pool := rfl
@[simp] theorem State.setHalt_unitP : s.setHalt.unitP = s.unitP := rfl
@[simp] theorem State.setHalt_unitE : s.setHalt.unitE = s.unitE := rfl
@[simp] theorem State.setHalt_rules : s.setHalt.rules = s.rules := rfl
@[simp] theorem State.setHalt_table : s.setHalt.table = s.table := rfl
@[simp] theorem State.setHalt_store : s.setHalt.store = s.store := rfl
@[simp] theorem State.setHalt_journal : s.setHalt.journal = s.journal := rfl
@[simp] theorem State.setHalt_sweeps : s.setHalt.sweeps = s.sweeps := rfl
@[simp] theorem State.setHalt_links : s.setHalt.links = s.links := rfl
@[simp] theorem State.setHalt_arbiter : s.setHalt.arbiter = s.arbiter := rfl
@[simp] theorem State.setHalt_deferred : s.setHalt.deferred = s.deferred := rfl
@[simp] theorem State.setHalt_pending : s.setHalt.pending = s.pending := rfl

/-! `State.markDamaged` -/

@[simp] theorem State.markDamaged_lot (h : Nat) : (s.markDamaged h).lot = s.lot := rfl
@[simp] theorem State.markDamaged_stations (h : Nat) :
    (s.markDamaged h).stations = s.stations := rfl
@[simp] theorem State.markDamaged_pool (h : Nat) : (s.markDamaged h).pool = s.pool := rfl
@[simp] theorem State.markDamaged_unitP (h : Nat) : (s.markDamaged h).unitP = s.unitP := rfl
@[simp] theorem State.markDamaged_unitE (h : Nat) : (s.markDamaged h).unitE = s.unitE := rfl
@[simp] theorem State.markDamaged_rules (h : Nat) : (s.markDamaged h).rules = s.rules := rfl
@[simp] theorem State.markDamaged_store (h : Nat) : (s.markDamaged h).store = s.store := rfl
@[simp] theorem State.markDamaged_journal (h : Nat) : (s.markDamaged h).journal = s.journal := rfl
@[simp] theorem State.markDamaged_sweeps (h : Nat) : (s.markDamaged h).sweeps = s.sweeps := rfl
@[simp] theorem State.markDamaged_check (h : Nat) : (s.markDamaged h).check = s.check := rfl
@[simp] theorem State.markDamaged_links (h : Nat) : (s.markDamaged h).links = s.links := rfl
@[simp] theorem State.markDamaged_arbiter (h : Nat) : (s.markDamaged h).arbiter = s.arbiter := rfl
@[simp] theorem State.markDamaged_deferred (h : Nat) :
    (s.markDamaged h).deferred = s.deferred := rfl
@[simp] theorem State.markDamaged_pending (h : Nat) : (s.markDamaged h).pending = s.pending := rfl

/-! `State.tableFault` -/

@[simp] theorem State.tableFault_lot (p : FaultPlace) (g : FaultGroup) (o : FaultOrigin) :
    (s.tableFault p g o).lot = s.lot := by unfold State.tableFault; dsimp only; split <;> rfl
@[simp] theorem State.tableFault_stations (p : FaultPlace) (g : FaultGroup) (o : FaultOrigin) :
    (s.tableFault p g o).stations = s.stations := by unfold State.tableFault; dsimp only; split <;> rfl
@[simp] theorem State.tableFault_pool (p : FaultPlace) (g : FaultGroup) (o : FaultOrigin) :
    (s.tableFault p g o).pool = s.pool := by unfold State.tableFault; dsimp only; split <;> rfl
@[simp] theorem State.tableFault_unitP (p : FaultPlace) (g : FaultGroup) (o : FaultOrigin) :
    (s.tableFault p g o).unitP = s.unitP := by unfold State.tableFault; dsimp only; split <;> rfl
@[simp] theorem State.tableFault_unitE (p : FaultPlace) (g : FaultGroup) (o : FaultOrigin) :
    (s.tableFault p g o).unitE = s.unitE := by unfold State.tableFault; dsimp only; split <;> rfl
@[simp] theorem State.tableFault_rules (p : FaultPlace) (g : FaultGroup) (o : FaultOrigin) :
    (s.tableFault p g o).rules = s.rules := by unfold State.tableFault; dsimp only; split <;> rfl
@[simp] theorem State.tableFault_store (p : FaultPlace) (g : FaultGroup) (o : FaultOrigin) :
    (s.tableFault p g o).store = s.store := by unfold State.tableFault; dsimp only; split <;> rfl
@[simp] theorem State.tableFault_journal (p : FaultPlace) (g : FaultGroup) (o : FaultOrigin) :
    (s.tableFault p g o).journal = s.journal := by unfold State.tableFault; dsimp only; split <;> rfl
@[simp] theorem State.tableFault_sweeps (p : FaultPlace) (g : FaultGroup) (o : FaultOrigin) :
    (s.tableFault p g o).sweeps = s.sweeps := by unfold State.tableFault; dsimp only; split <;> rfl
@[simp] theorem State.tableFault_links (p : FaultPlace) (g : FaultGroup) (o : FaultOrigin) :
    (s.tableFault p g o).links = s.links := by unfold State.tableFault; dsimp only; split <;> rfl
@[simp] theorem State.tableFault_arbiter (p : FaultPlace) (g : FaultGroup) (o : FaultOrigin) :
    (s.tableFault p g o).arbiter = s.arbiter := by unfold State.tableFault; dsimp only; split <;> rfl
@[simp] theorem State.tableFault_deferred (p : FaultPlace) (g : FaultGroup) (o : FaultOrigin) :
    (s.tableFault p g o).deferred = s.deferred := by unfold State.tableFault; dsimp only; split <;> rfl
@[simp] theorem State.tableFault_pending (p : FaultPlace) (g : FaultGroup) (o : FaultOrigin) :
    (s.tableFault p g o).pending = s.pending := by unfold State.tableFault; dsimp only; split <;> rfl

/-! `State.moveKey` -/

@[simp] theorem State.moveKey_lot (n : Nat) (v : KeySlot) (f : PoolCounts → PoolCounts) :
    (s.moveKey n v f).lot = s.lot := rfl
@[simp] theorem State.moveKey_stations (n : Nat) (v : KeySlot) (f : PoolCounts → PoolCounts) :
    (s.moveKey n v f).stations = s.stations := rfl
@[simp] theorem State.moveKey_unitP (n : Nat) (v : KeySlot) (f : PoolCounts → PoolCounts) :
    (s.moveKey n v f).unitP = s.unitP := rfl
@[simp] theorem State.moveKey_unitE (n : Nat) (v : KeySlot) (f : PoolCounts → PoolCounts) :
    (s.moveKey n v f).unitE = s.unitE := rfl
@[simp] theorem State.moveKey_rules (n : Nat) (v : KeySlot) (f : PoolCounts → PoolCounts) :
    (s.moveKey n v f).rules = s.rules := rfl
@[simp] theorem State.moveKey_table (n : Nat) (v : KeySlot) (f : PoolCounts → PoolCounts) :
    (s.moveKey n v f).table = s.table := rfl
@[simp] theorem State.moveKey_store (n : Nat) (v : KeySlot) (f : PoolCounts → PoolCounts) :
    (s.moveKey n v f).store = s.store := rfl
@[simp] theorem State.moveKey_journal (n : Nat) (v : KeySlot) (f : PoolCounts → PoolCounts) :
    (s.moveKey n v f).journal = s.journal := rfl
@[simp] theorem State.moveKey_sweeps (n : Nat) (v : KeySlot) (f : PoolCounts → PoolCounts) :
    (s.moveKey n v f).sweeps = s.sweeps := rfl
@[simp] theorem State.moveKey_check (n : Nat) (v : KeySlot) (f : PoolCounts → PoolCounts) :
    (s.moveKey n v f).check = s.check := rfl
@[simp] theorem State.moveKey_links (n : Nat) (v : KeySlot) (f : PoolCounts → PoolCounts) :
    (s.moveKey n v f).links = s.links := rfl
@[simp] theorem State.moveKey_arbiter (n : Nat) (v : KeySlot) (f : PoolCounts → PoolCounts) :
    (s.moveKey n v f).arbiter = s.arbiter := rfl
@[simp] theorem State.moveKey_deferred (n : Nat) (v : KeySlot) (f : PoolCounts → PoolCounts) :
    (s.moveKey n v f).deferred = s.deferred := rfl
@[simp] theorem State.moveKey_pending (n : Nat) (v : KeySlot) (f : PoolCounts → PoolCounts) :
    (s.moveKey n v f).pending = s.pending := rfl

/-! `State.unbind` -/

@[simp] theorem State.unbind_lot (n : Nat) : (s.unbind n).lot = s.lot := rfl
@[simp] theorem State.unbind_stations (n : Nat) : (s.unbind n).stations = s.stations := rfl
@[simp] theorem State.unbind_pool (n : Nat) : (s.unbind n).pool = s.pool := rfl
@[simp] theorem State.unbind_unitP (n : Nat) : (s.unbind n).unitP = s.unitP := rfl
@[simp] theorem State.unbind_unitE (n : Nat) : (s.unbind n).unitE = s.unitE := rfl
@[simp] theorem State.unbind_rules (n : Nat) : (s.unbind n).rules = s.rules := rfl
@[simp] theorem State.unbind_store (n : Nat) : (s.unbind n).store = s.store := rfl
@[simp] theorem State.unbind_journal (n : Nat) : (s.unbind n).journal = s.journal := rfl
@[simp] theorem State.unbind_sweeps (n : Nat) : (s.unbind n).sweeps = s.sweeps := rfl
@[simp] theorem State.unbind_check (n : Nat) : (s.unbind n).check = s.check := rfl
@[simp] theorem State.unbind_links (n : Nat) : (s.unbind n).links = s.links := rfl
@[simp] theorem State.unbind_arbiter (n : Nat) : (s.unbind n).arbiter = s.arbiter := rfl
@[simp] theorem State.unbind_deferred (n : Nat) : (s.unbind n).deferred = s.deferred := rfl
@[simp] theorem State.unbind_pending (n : Nat) : (s.unbind n).pending = s.pending := rfl

/-! `State.retireKey` -/

@[simp] theorem State.retireKey_lot (n : Nat) :
    (s.retireKey n).lot = s.lot := by unfold State.retireKey; split <;> rfl
@[simp] theorem State.retireKey_stations (n : Nat) :
    (s.retireKey n).stations = s.stations := by unfold State.retireKey; split <;> rfl
@[simp] theorem State.retireKey_unitP (n : Nat) :
    (s.retireKey n).unitP = s.unitP := by unfold State.retireKey; split <;> rfl
@[simp] theorem State.retireKey_unitE (n : Nat) :
    (s.retireKey n).unitE = s.unitE := by unfold State.retireKey; split <;> rfl
@[simp] theorem State.retireKey_rules (n : Nat) :
    (s.retireKey n).rules = s.rules := by unfold State.retireKey; split <;> rfl
@[simp] theorem State.retireKey_table (n : Nat) :
    (s.retireKey n).table = s.table := by unfold State.retireKey; split <;> rfl
@[simp] theorem State.retireKey_journal (n : Nat) :
    (s.retireKey n).journal = s.journal := by unfold State.retireKey; split <;> rfl
@[simp] theorem State.retireKey_sweeps (n : Nat) :
    (s.retireKey n).sweeps = s.sweeps := by unfold State.retireKey; split <;> rfl
@[simp] theorem State.retireKey_check (n : Nat) :
    (s.retireKey n).check = s.check := by unfold State.retireKey; split <;> rfl
@[simp] theorem State.retireKey_links (n : Nat) :
    (s.retireKey n).links = s.links := by unfold State.retireKey; split <;> rfl
@[simp] theorem State.retireKey_arbiter (n : Nat) :
    (s.retireKey n).arbiter = s.arbiter := by unfold State.retireKey; split <;> rfl
@[simp] theorem State.retireKey_deferred (n : Nat) :
    (s.retireKey n).deferred = s.deferred := by unfold State.retireKey; split <;> rfl
@[simp] theorem State.retireKey_pending (n : Nat) :
    (s.retireKey n).pending = s.pending := by unfold State.retireKey; split <;> rfl

/-! `State.spendKey` -/

@[simp] theorem State.spendKey_lot (n : Nat) :
    (s.spendKey n).lot = s.lot := by unfold State.spendKey; split <;> rfl
@[simp] theorem State.spendKey_stations (n : Nat) :
    (s.spendKey n).stations = s.stations := by unfold State.spendKey; split <;> rfl
@[simp] theorem State.spendKey_unitP (n : Nat) :
    (s.spendKey n).unitP = s.unitP := by unfold State.spendKey; split <;> rfl
@[simp] theorem State.spendKey_unitE (n : Nat) :
    (s.spendKey n).unitE = s.unitE := by unfold State.spendKey; split <;> rfl
@[simp] theorem State.spendKey_rules (n : Nat) :
    (s.spendKey n).rules = s.rules := by unfold State.spendKey; split <;> rfl
@[simp] theorem State.spendKey_journal (n : Nat) :
    (s.spendKey n).journal = s.journal := by unfold State.spendKey; split <;> rfl
@[simp] theorem State.spendKey_sweeps (n : Nat) :
    (s.spendKey n).sweeps = s.sweeps := by unfold State.spendKey; split <;> rfl
@[simp] theorem State.spendKey_check (n : Nat) :
    (s.spendKey n).check = s.check := by unfold State.spendKey; split <;> rfl
@[simp] theorem State.spendKey_links (n : Nat) :
    (s.spendKey n).links = s.links := by unfold State.spendKey; split <;> rfl
@[simp] theorem State.spendKey_arbiter (n : Nat) :
    (s.spendKey n).arbiter = s.arbiter := by unfold State.spendKey; split <;> rfl
@[simp] theorem State.spendKey_deferred (n : Nat) :
    (s.spendKey n).deferred = s.deferred := by unfold State.spendKey; split <;> rfl
@[simp] theorem State.spendKey_pending (n : Nat) :
    (s.spendKey n).pending = s.pending := by unfold State.spendKey; split <;> rfl

/-! `State.withdrawKey` -/

@[simp] theorem State.withdrawKey_lot (n : Nat) :
    (s.withdrawKey n).lot = s.lot := by unfold State.withdrawKey; split <;> simp
@[simp] theorem State.withdrawKey_stations (n : Nat) :
    (s.withdrawKey n).stations = s.stations := by unfold State.withdrawKey; split <;> simp
@[simp] theorem State.withdrawKey_unitP (n : Nat) :
    (s.withdrawKey n).unitP = s.unitP := by unfold State.withdrawKey; split <;> simp
@[simp] theorem State.withdrawKey_unitE (n : Nat) :
    (s.withdrawKey n).unitE = s.unitE := by unfold State.withdrawKey; split <;> simp
@[simp] theorem State.withdrawKey_rules (n : Nat) :
    (s.withdrawKey n).rules = s.rules := by unfold State.withdrawKey; split <;> simp
@[simp] theorem State.withdrawKey_journal (n : Nat) :
    (s.withdrawKey n).journal = s.journal := by unfold State.withdrawKey; split <;> simp
@[simp] theorem State.withdrawKey_sweeps (n : Nat) :
    (s.withdrawKey n).sweeps = s.sweeps := by unfold State.withdrawKey; split <;> simp
@[simp] theorem State.withdrawKey_check (n : Nat) :
    (s.withdrawKey n).check = s.check := by unfold State.withdrawKey; split <;> simp
@[simp] theorem State.withdrawKey_links (n : Nat) :
    (s.withdrawKey n).links = s.links := by unfold State.withdrawKey; split <;> simp
@[simp] theorem State.withdrawKey_arbiter (n : Nat) :
    (s.withdrawKey n).arbiter = s.arbiter := by unfold State.withdrawKey; split <;> simp
@[simp] theorem State.withdrawKey_deferred (n : Nat) :
    (s.withdrawKey n).deferred = s.deferred := by unfold State.withdrawKey; split <;> simp
@[simp] theorem State.withdrawKey_pending (n : Nat) :
    (s.withdrawKey n).pending = s.pending := by unfold State.withdrawKey; split <;> simp

/-! `State.pushKey` -/

@[simp] theorem State.pushKey_lot (n : Nat) :
    (s.pushKey n).lot = s.lot := by unfold State.pushKey; split <;> rfl
@[simp] theorem State.pushKey_stations (n : Nat) :
    (s.pushKey n).stations = s.stations := by unfold State.pushKey; split <;> rfl
@[simp] theorem State.pushKey_unitP (n : Nat) :
    (s.pushKey n).unitP = s.unitP := by unfold State.pushKey; split <;> rfl
@[simp] theorem State.pushKey_unitE (n : Nat) :
    (s.pushKey n).unitE = s.unitE := by unfold State.pushKey; split <;> rfl
@[simp] theorem State.pushKey_rules (n : Nat) :
    (s.pushKey n).rules = s.rules := by unfold State.pushKey; split <;> rfl
@[simp] theorem State.pushKey_store (n : Nat) :
    (s.pushKey n).store = s.store := by unfold State.pushKey; split <;> rfl
@[simp] theorem State.pushKey_journal (n : Nat) :
    (s.pushKey n).journal = s.journal := by unfold State.pushKey; split <;> rfl
@[simp] theorem State.pushKey_sweeps (n : Nat) :
    (s.pushKey n).sweeps = s.sweeps := by unfold State.pushKey; split <;> rfl
@[simp] theorem State.pushKey_check (n : Nat) :
    (s.pushKey n).check = s.check := by unfold State.pushKey; split <;> rfl
@[simp] theorem State.pushKey_links (n : Nat) :
    (s.pushKey n).links = s.links := by unfold State.pushKey; split <;> rfl
@[simp] theorem State.pushKey_arbiter (n : Nat) :
    (s.pushKey n).arbiter = s.arbiter := by unfold State.pushKey; split <;> rfl
@[simp] theorem State.pushKey_deferred (n : Nat) :
    (s.pushKey n).deferred = s.deferred := by unfold State.pushKey; split <;> rfl
@[simp] theorem State.pushKey_pending (n : Nat) :
    (s.pushKey n).pending = s.pending := by unfold State.pushKey; split <;> rfl

/-! `State.bindKey` -/

@[simp] theorem State.bindKey_lot (n c : Nat) : (s.bindKey n c).lot = s.lot := rfl
@[simp] theorem State.bindKey_stations (n c : Nat) : (s.bindKey n c).stations = s.stations := rfl
@[simp] theorem State.bindKey_unitP (n c : Nat) : (s.bindKey n c).unitP = s.unitP := rfl
@[simp] theorem State.bindKey_unitE (n c : Nat) : (s.bindKey n c).unitE = s.unitE := rfl
@[simp] theorem State.bindKey_rules (n c : Nat) : (s.bindKey n c).rules = s.rules := rfl
@[simp] theorem State.bindKey_store (n c : Nat) : (s.bindKey n c).store = s.store := rfl
@[simp] theorem State.bindKey_journal (n c : Nat) : (s.bindKey n c).journal = s.journal := rfl
@[simp] theorem State.bindKey_sweeps (n c : Nat) : (s.bindKey n c).sweeps = s.sweeps := rfl
@[simp] theorem State.bindKey_check (n c : Nat) : (s.bindKey n c).check = s.check := rfl
@[simp] theorem State.bindKey_links (n c : Nat) : (s.bindKey n c).links = s.links := rfl
@[simp] theorem State.bindKey_arbiter (n c : Nat) : (s.bindKey n c).arbiter = s.arbiter := rfl
@[simp] theorem State.bindKey_deferred (n c : Nat) : (s.bindKey n c).deferred = s.deferred := rfl
@[simp] theorem State.bindKey_pending (n c : Nat) : (s.bindKey n c).pending = s.pending := rfl

/-! `State.markKeyFault` -/

@[simp] theorem State.markKeyFault_lot (n : Nat) :
    (s.markKeyFault n).lot = s.lot := by unfold State.markKeyFault; split <;> rfl
@[simp] theorem State.markKeyFault_stations (n : Nat) :
    (s.markKeyFault n).stations = s.stations := by unfold State.markKeyFault; split <;> rfl
@[simp] theorem State.markKeyFault_unitP (n : Nat) :
    (s.markKeyFault n).unitP = s.unitP := by unfold State.markKeyFault; split <;> rfl
@[simp] theorem State.markKeyFault_unitE (n : Nat) :
    (s.markKeyFault n).unitE = s.unitE := by unfold State.markKeyFault; split <;> rfl
@[simp] theorem State.markKeyFault_rules (n : Nat) :
    (s.markKeyFault n).rules = s.rules := by unfold State.markKeyFault; split <;> rfl
@[simp] theorem State.markKeyFault_table (n : Nat) :
    (s.markKeyFault n).table = s.table := by unfold State.markKeyFault; split <;> rfl
@[simp] theorem State.markKeyFault_store (n : Nat) :
    (s.markKeyFault n).store = s.store := by unfold State.markKeyFault; split <;> rfl
@[simp] theorem State.markKeyFault_journal (n : Nat) :
    (s.markKeyFault n).journal = s.journal := by unfold State.markKeyFault; split <;> rfl
@[simp] theorem State.markKeyFault_sweeps (n : Nat) :
    (s.markKeyFault n).sweeps = s.sweeps := by unfold State.markKeyFault; split <;> rfl
@[simp] theorem State.markKeyFault_check (n : Nat) :
    (s.markKeyFault n).check = s.check := by unfold State.markKeyFault; split <;> rfl
@[simp] theorem State.markKeyFault_links (n : Nat) :
    (s.markKeyFault n).links = s.links := by unfold State.markKeyFault; split <;> rfl
@[simp] theorem State.markKeyFault_arbiter (n : Nat) :
    (s.markKeyFault n).arbiter = s.arbiter := by unfold State.markKeyFault; split <;> rfl
@[simp] theorem State.markKeyFault_deferred (n : Nat) :
    (s.markKeyFault n).deferred = s.deferred := by unfold State.markKeyFault; split <;> rfl
@[simp] theorem State.markKeyFault_pending (n : Nat) :
    (s.markKeyFault n).pending = s.pending := by unfold State.markKeyFault; split <;> rfl

/-! `State.keyFault` -/

@[simp] theorem State.keyFault_lot (n : Nat) (g : FaultGroup) (o : FaultOrigin) :
    (s.keyFault n g o).lot = s.lot := by unfold State.keyFault; split <;> simp
@[simp] theorem State.keyFault_stations (n : Nat) (g : FaultGroup) (o : FaultOrigin) :
    (s.keyFault n g o).stations = s.stations := by unfold State.keyFault; split <;> simp
@[simp] theorem State.keyFault_unitP (n : Nat) (g : FaultGroup) (o : FaultOrigin) :
    (s.keyFault n g o).unitP = s.unitP := by unfold State.keyFault; split <;> simp
@[simp] theorem State.keyFault_unitE (n : Nat) (g : FaultGroup) (o : FaultOrigin) :
    (s.keyFault n g o).unitE = s.unitE := by unfold State.keyFault; split <;> simp
@[simp] theorem State.keyFault_rules (n : Nat) (g : FaultGroup) (o : FaultOrigin) :
    (s.keyFault n g o).rules = s.rules := by unfold State.keyFault; split <;> simp
@[simp] theorem State.keyFault_table (n : Nat) (g : FaultGroup) (o : FaultOrigin) :
    (s.keyFault n g o).table = s.table := by unfold State.keyFault; split <;> simp
@[simp] theorem State.keyFault_store (n : Nat) (g : FaultGroup) (o : FaultOrigin) :
    (s.keyFault n g o).store = s.store := by unfold State.keyFault; split <;> simp
@[simp] theorem State.keyFault_journal (n : Nat) (g : FaultGroup) (o : FaultOrigin) :
    (s.keyFault n g o).journal = s.journal := by unfold State.keyFault; split <;> simp
@[simp] theorem State.keyFault_sweeps (n : Nat) (g : FaultGroup) (o : FaultOrigin) :
    (s.keyFault n g o).sweeps = s.sweeps := by unfold State.keyFault; split <;> simp
@[simp] theorem State.keyFault_links (n : Nat) (g : FaultGroup) (o : FaultOrigin) :
    (s.keyFault n g o).links = s.links := by unfold State.keyFault; split <;> simp
@[simp] theorem State.keyFault_arbiter (n : Nat) (g : FaultGroup) (o : FaultOrigin) :
    (s.keyFault n g o).arbiter = s.arbiter := by unfold State.keyFault; split <;> simp
@[simp] theorem State.keyFault_deferred (n : Nat) (g : FaultGroup) (o : FaultOrigin) :
    (s.keyFault n g o).deferred = s.deferred := by unfold State.keyFault; split <;> simp
@[simp] theorem State.keyFault_pending (n : Nat) (g : FaultGroup) (o : FaultOrigin) :
    (s.keyFault n g o).pending = s.pending := by unfold State.keyFault; split <;> simp

/-! `State.checkKey` -/

@[simp] theorem State.checkKey_lot (n : Nat) (o : FaultOrigin) :
    (s.checkKey n o).lot = s.lot := by unfold State.checkKey; split <;> simp
@[simp] theorem State.checkKey_stations (n : Nat) (o : FaultOrigin) :
    (s.checkKey n o).stations = s.stations := by unfold State.checkKey; split <;> simp
@[simp] theorem State.checkKey_unitP (n : Nat) (o : FaultOrigin) :
    (s.checkKey n o).unitP = s.unitP := by unfold State.checkKey; split <;> simp
@[simp] theorem State.checkKey_unitE (n : Nat) (o : FaultOrigin) :
    (s.checkKey n o).unitE = s.unitE := by unfold State.checkKey; split <;> simp
@[simp] theorem State.checkKey_rules (n : Nat) (o : FaultOrigin) :
    (s.checkKey n o).rules = s.rules := by unfold State.checkKey; split <;> simp
@[simp] theorem State.checkKey_table (n : Nat) (o : FaultOrigin) :
    (s.checkKey n o).table = s.table := by unfold State.checkKey; split <;> simp
@[simp] theorem State.checkKey_store (n : Nat) (o : FaultOrigin) :
    (s.checkKey n o).store = s.store := by unfold State.checkKey; split <;> simp
@[simp] theorem State.checkKey_journal (n : Nat) (o : FaultOrigin) :
    (s.checkKey n o).journal = s.journal := by unfold State.checkKey; split <;> simp
@[simp] theorem State.checkKey_sweeps (n : Nat) (o : FaultOrigin) :
    (s.checkKey n o).sweeps = s.sweeps := by unfold State.checkKey; split <;> simp
@[simp] theorem State.checkKey_links (n : Nat) (o : FaultOrigin) :
    (s.checkKey n o).links = s.links := by unfold State.checkKey; split <;> simp
@[simp] theorem State.checkKey_arbiter (n : Nat) (o : FaultOrigin) :
    (s.checkKey n o).arbiter = s.arbiter := by unfold State.checkKey; split <;> simp
@[simp] theorem State.checkKey_deferred (n : Nat) (o : FaultOrigin) :
    (s.checkKey n o).deferred = s.deferred := by unfold State.checkKey; split <;> simp
@[simp] theorem State.checkKey_pending (n : Nat) (o : FaultOrigin) :
    (s.checkKey n o).pending = s.pending := by unfold State.checkKey; split <;> simp

/-! `State.appendOutcome` -/

@[simp] theorem State.appendOutcome_lot (e : Entry) (k : JournalKind) (o : Option (Station × Site)) (r : Option Reason)
    (c : Option (Nat × Nat)) :
    (s.appendOutcome e k o r c).lot = s.lot := by unfold State.appendOutcome; split <;> rfl
@[simp] theorem State.appendOutcome_stations (e : Entry) (k : JournalKind) (o : Option (Station × Site)) (r : Option Reason)
    (c : Option (Nat × Nat)) :
    (s.appendOutcome e k o r c).stations = s.stations := by unfold State.appendOutcome; split <;> rfl
@[simp] theorem State.appendOutcome_pool (e : Entry) (k : JournalKind) (o : Option (Station × Site)) (r : Option Reason)
    (c : Option (Nat × Nat)) :
    (s.appendOutcome e k o r c).pool = s.pool := by unfold State.appendOutcome; split <;> rfl
@[simp] theorem State.appendOutcome_unitP (e : Entry) (k : JournalKind) (o : Option (Station × Site)) (r : Option Reason)
    (c : Option (Nat × Nat)) :
    (s.appendOutcome e k o r c).unitP = s.unitP := by unfold State.appendOutcome; split <;> rfl
@[simp] theorem State.appendOutcome_unitE (e : Entry) (k : JournalKind) (o : Option (Station × Site)) (r : Option Reason)
    (c : Option (Nat × Nat)) :
    (s.appendOutcome e k o r c).unitE = s.unitE := by unfold State.appendOutcome; split <;> rfl
@[simp] theorem State.appendOutcome_rules (e : Entry) (k : JournalKind) (o : Option (Station × Site)) (r : Option Reason)
    (c : Option (Nat × Nat)) :
    (s.appendOutcome e k o r c).rules = s.rules := by unfold State.appendOutcome; split <;> rfl
@[simp] theorem State.appendOutcome_table (e : Entry) (k : JournalKind) (o : Option (Station × Site)) (r : Option Reason)
    (c : Option (Nat × Nat)) :
    (s.appendOutcome e k o r c).table = s.table := by unfold State.appendOutcome; split <;> rfl
@[simp] theorem State.appendOutcome_store (e : Entry) (k : JournalKind) (o : Option (Station × Site)) (r : Option Reason)
    (c : Option (Nat × Nat)) :
    (s.appendOutcome e k o r c).store = s.store := by unfold State.appendOutcome; split <;> rfl
@[simp] theorem State.appendOutcome_sweeps (e : Entry) (k : JournalKind) (o : Option (Station × Site)) (r : Option Reason)
    (c : Option (Nat × Nat)) :
    (s.appendOutcome e k o r c).sweeps = s.sweeps := by unfold State.appendOutcome; split <;> rfl
@[simp] theorem State.appendOutcome_check (e : Entry) (k : JournalKind) (o : Option (Station × Site)) (r : Option Reason)
    (c : Option (Nat × Nat)) :
    (s.appendOutcome e k o r c).check = s.check := by unfold State.appendOutcome; split <;> rfl
@[simp] theorem State.appendOutcome_links (e : Entry) (k : JournalKind) (o : Option (Station × Site)) (r : Option Reason)
    (c : Option (Nat × Nat)) :
    (s.appendOutcome e k o r c).links = s.links := by unfold State.appendOutcome; split <;> rfl
@[simp] theorem State.appendOutcome_arbiter (e : Entry) (k : JournalKind) (o : Option (Station × Site)) (r : Option Reason)
    (c : Option (Nat × Nat)) :
    (s.appendOutcome e k o r c).arbiter = s.arbiter := by unfold State.appendOutcome; split <;> rfl
@[simp] theorem State.appendOutcome_deferred (e : Entry) (k : JournalKind) (o : Option (Station × Site)) (r : Option Reason)
    (c : Option (Nat × Nat)) :
    (s.appendOutcome e k o r c).deferred = s.deferred := by unfold State.appendOutcome; split <;> rfl
@[simp] theorem State.appendOutcome_pending (e : Entry) (k : JournalKind) (o : Option (Station × Site)) (r : Option Reason)
    (c : Option (Nat × Nat)) :
    (s.appendOutcome e k o r c).pending = s.pending := by unfold State.appendOutcome; split <;> rfl

/-! `State.appendHit` -/

@[simp] theorem State.appendHit_lot (e : Entry) : (s.appendHit e).lot = s.lot := rfl
@[simp] theorem State.appendHit_stations (e : Entry) : (s.appendHit e).stations = s.stations := rfl
@[simp] theorem State.appendHit_pool (e : Entry) : (s.appendHit e).pool = s.pool := rfl
@[simp] theorem State.appendHit_unitP (e : Entry) : (s.appendHit e).unitP = s.unitP := rfl
@[simp] theorem State.appendHit_unitE (e : Entry) : (s.appendHit e).unitE = s.unitE := rfl
@[simp] theorem State.appendHit_rules (e : Entry) : (s.appendHit e).rules = s.rules := rfl
@[simp] theorem State.appendHit_table (e : Entry) : (s.appendHit e).table = s.table := rfl
@[simp] theorem State.appendHit_store (e : Entry) : (s.appendHit e).store = s.store := rfl
@[simp] theorem State.appendHit_sweeps (e : Entry) : (s.appendHit e).sweeps = s.sweeps := rfl
@[simp] theorem State.appendHit_check (e : Entry) : (s.appendHit e).check = s.check := rfl
@[simp] theorem State.appendHit_links (e : Entry) : (s.appendHit e).links = s.links := rfl
@[simp] theorem State.appendHit_arbiter (e : Entry) : (s.appendHit e).arbiter = s.arbiter := rfl
@[simp] theorem State.appendHit_deferred (e : Entry) : (s.appendHit e).deferred = s.deferred := rfl
@[simp] theorem State.appendHit_pending (e : Entry) : (s.appendHit e).pending = s.pending := rfl

/-! `State.endWait` -/

@[simp] theorem State.endWait_lot : s.endWait.lot = s.lot := by unfold State.endWait; split <;> rfl
@[simp] theorem State.endWait_stations :
    s.endWait.stations = s.stations := by unfold State.endWait; split <;> rfl
@[simp] theorem State.endWait_pool :
    s.endWait.pool = s.pool := by unfold State.endWait; split <;> rfl
@[simp] theorem State.endWait_unitP :
    s.endWait.unitP = s.unitP := by unfold State.endWait; split <;> rfl
@[simp] theorem State.endWait_unitE :
    s.endWait.unitE = s.unitE := by unfold State.endWait; split <;> rfl
@[simp] theorem State.endWait_rules :
    s.endWait.rules = s.rules := by unfold State.endWait; split <;> rfl
@[simp] theorem State.endWait_table :
    s.endWait.table = s.table := by unfold State.endWait; split <;> rfl
@[simp] theorem State.endWait_store :
    s.endWait.store = s.store := by unfold State.endWait; split <;> rfl
@[simp] theorem State.endWait_journal :
    s.endWait.journal = s.journal := by unfold State.endWait; split <;> rfl
@[simp] theorem State.endWait_check :
    s.endWait.check = s.check := by unfold State.endWait; split <;> rfl
@[simp] theorem State.endWait_links :
    s.endWait.links = s.links := by unfold State.endWait; split <;> rfl
@[simp] theorem State.endWait_arbiter :
    s.endWait.arbiter = s.arbiter := by unfold State.endWait; split <;> rfl
@[simp] theorem State.endWait_deferred :
    s.endWait.deferred = s.deferred := by unfold State.endWait; split <;> rfl
@[simp] theorem State.endWait_pending :
    s.endWait.pending = s.pending := by unfold State.endWait; split <;> rfl

/-! `State.freeReservation` -/

@[simp] theorem State.freeReservation_lot :
    s.freeReservation.lot = s.lot := by unfold State.freeReservation; simp
@[simp] theorem State.freeReservation_stations :
    s.freeReservation.stations = s.stations := by unfold State.freeReservation; simp
@[simp] theorem State.freeReservation_pool :
    s.freeReservation.pool = s.pool := by unfold State.freeReservation; simp
@[simp] theorem State.freeReservation_unitP :
    s.freeReservation.unitP = s.unitP := by unfold State.freeReservation; simp
@[simp] theorem State.freeReservation_unitE :
    s.freeReservation.unitE = s.unitE := by unfold State.freeReservation; simp
@[simp] theorem State.freeReservation_rules :
    s.freeReservation.rules = s.rules := by unfold State.freeReservation; simp
@[simp] theorem State.freeReservation_table :
    s.freeReservation.table = s.table := by unfold State.freeReservation; simp
@[simp] theorem State.freeReservation_store :
    s.freeReservation.store = s.store := by unfold State.freeReservation; simp
@[simp] theorem State.freeReservation_check :
    s.freeReservation.check = s.check := by unfold State.freeReservation; simp
@[simp] theorem State.freeReservation_links :
    s.freeReservation.links = s.links := by unfold State.freeReservation; simp
@[simp] theorem State.freeReservation_arbiter :
    s.freeReservation.arbiter = s.arbiter := by unfold State.freeReservation; simp
@[simp] theorem State.freeReservation_deferred :
    s.freeReservation.deferred = s.deferred := by unfold State.freeReservation; simp
@[simp] theorem State.freeReservation_pending :
    s.freeReservation.pending = s.pending := by unfold State.freeReservation; simp

/-! `State.writeEntry` -/

@[simp] theorem State.writeEntry_lot (c : Nat) (e : Entry) : (s.writeEntry c e).lot = s.lot := rfl
@[simp] theorem State.writeEntry_stations (c : Nat) (e : Entry) :
    (s.writeEntry c e).stations = s.stations := rfl
@[simp] theorem State.writeEntry_pool (c : Nat) (e : Entry) :
    (s.writeEntry c e).pool = s.pool := rfl
@[simp] theorem State.writeEntry_unitP (c : Nat) (e : Entry) :
    (s.writeEntry c e).unitP = s.unitP := rfl
@[simp] theorem State.writeEntry_unitE (c : Nat) (e : Entry) :
    (s.writeEntry c e).unitE = s.unitE := rfl
@[simp] theorem State.writeEntry_rules (c : Nat) (e : Entry) :
    (s.writeEntry c e).rules = s.rules := rfl
@[simp] theorem State.writeEntry_table (c : Nat) (e : Entry) :
    (s.writeEntry c e).table = s.table := rfl
@[simp] theorem State.writeEntry_journal (c : Nat) (e : Entry) :
    (s.writeEntry c e).journal = s.journal := rfl
@[simp] theorem State.writeEntry_sweeps (c : Nat) (e : Entry) :
    (s.writeEntry c e).sweeps = s.sweeps := rfl
@[simp] theorem State.writeEntry_check (c : Nat) (e : Entry) :
    (s.writeEntry c e).check = s.check := rfl
@[simp] theorem State.writeEntry_links (c : Nat) (e : Entry) :
    (s.writeEntry c e).links = s.links := rfl
@[simp] theorem State.writeEntry_arbiter (c : Nat) (e : Entry) :
    (s.writeEntry c e).arbiter = s.arbiter := rfl
@[simp] theorem State.writeEntry_deferred (c : Nat) (e : Entry) :
    (s.writeEntry c e).deferred = s.deferred := rfl
@[simp] theorem State.writeEntry_pending (c : Nat) (e : Entry) :
    (s.writeEntry c e).pending = s.pending := rfl

/-! `State.insertEntry` -/

@[simp] theorem State.insertEntry_lot (h n : Nat) (d : Option Nat) (e : Entry) :
    (s.insertEntry h n d e).lot = s.lot := by unfold State.insertEntry; split <;> [rfl; (dsimp only; split <;> rfl)]
@[simp] theorem State.insertEntry_stations (h n : Nat) (d : Option Nat) (e : Entry) :
    (s.insertEntry h n d e).stations = s.stations := by unfold State.insertEntry; split <;> [rfl; (dsimp only; split <;> rfl)]
@[simp] theorem State.insertEntry_pool (h n : Nat) (d : Option Nat) (e : Entry) :
    (s.insertEntry h n d e).pool = s.pool := by unfold State.insertEntry; split <;> [rfl; (dsimp only; split <;> rfl)]
@[simp] theorem State.insertEntry_unitP (h n : Nat) (d : Option Nat) (e : Entry) :
    (s.insertEntry h n d e).unitP = s.unitP := by unfold State.insertEntry; split <;> [rfl; (dsimp only; split <;> rfl)]
@[simp] theorem State.insertEntry_unitE (h n : Nat) (d : Option Nat) (e : Entry) :
    (s.insertEntry h n d e).unitE = s.unitE := by unfold State.insertEntry; split <;> [rfl; (dsimp only; split <;> rfl)]
@[simp] theorem State.insertEntry_rules (h n : Nat) (d : Option Nat) (e : Entry) :
    (s.insertEntry h n d e).rules = s.rules := by unfold State.insertEntry; split <;> [rfl; (dsimp only; split <;> rfl)]
@[simp] theorem State.insertEntry_journal (h n : Nat) (d : Option Nat) (e : Entry) :
    (s.insertEntry h n d e).journal = s.journal := by unfold State.insertEntry; split <;> [rfl; (dsimp only; split <;> rfl)]
@[simp] theorem State.insertEntry_sweeps (h n : Nat) (d : Option Nat) (e : Entry) :
    (s.insertEntry h n d e).sweeps = s.sweeps := by unfold State.insertEntry; split <;> [rfl; (dsimp only; split <;> rfl)]
@[simp] theorem State.insertEntry_check (h n : Nat) (d : Option Nat) (e : Entry) :
    (s.insertEntry h n d e).check = s.check := by unfold State.insertEntry; split <;> [rfl; (dsimp only; split <;> rfl)]
@[simp] theorem State.insertEntry_links (h n : Nat) (d : Option Nat) (e : Entry) :
    (s.insertEntry h n d e).links = s.links := by unfold State.insertEntry; split <;> [rfl; (dsimp only; split <;> rfl)]
@[simp] theorem State.insertEntry_arbiter (h n : Nat) (d : Option Nat) (e : Entry) :
    (s.insertEntry h n d e).arbiter = s.arbiter := by unfold State.insertEntry; split <;> [rfl; (dsimp only; split <;> rfl)]
@[simp] theorem State.insertEntry_deferred (h n : Nat) (d : Option Nat) (e : Entry) :
    (s.insertEntry h n d e).deferred = s.deferred := by unfold State.insertEntry; split <;> [rfl; (dsimp only; split <;> rfl)]
@[simp] theorem State.insertEntry_pending (h n : Nat) (d : Option Nat) (e : Entry) :
    (s.insertEntry h n d e).pending = s.pending := by unfold State.insertEntry; split <;> [rfl; (dsimp only; split <;> rfl)]

/-! `State.removeEntry` -/

@[simp] theorem State.removeEntry_lot (h c : Nat) (d : Option Nat) (o : Bool) :
    (s.removeEntry h c d o).lot = s.lot := by
  unfold State.removeEntry; dsimp only; split <;> split <;> rfl
@[simp] theorem State.removeEntry_stations (h c : Nat) (d : Option Nat) (o : Bool) :
    (s.removeEntry h c d o).stations = s.stations := by
  unfold State.removeEntry; dsimp only; split <;> split <;> rfl
@[simp] theorem State.removeEntry_pool (h c : Nat) (d : Option Nat) (o : Bool) :
    (s.removeEntry h c d o).pool = s.pool := by
  unfold State.removeEntry; dsimp only; split <;> split <;> rfl
@[simp] theorem State.removeEntry_unitP (h c : Nat) (d : Option Nat) (o : Bool) :
    (s.removeEntry h c d o).unitP = s.unitP := by
  unfold State.removeEntry; dsimp only; split <;> split <;> rfl
@[simp] theorem State.removeEntry_unitE (h c : Nat) (d : Option Nat) (o : Bool) :
    (s.removeEntry h c d o).unitE = s.unitE := by
  unfold State.removeEntry; dsimp only; split <;> split <;> rfl
@[simp] theorem State.removeEntry_rules (h c : Nat) (d : Option Nat) (o : Bool) :
    (s.removeEntry h c d o).rules = s.rules := by
  unfold State.removeEntry; dsimp only; split <;> split <;> rfl
@[simp] theorem State.removeEntry_journal (h c : Nat) (d : Option Nat) (o : Bool) :
    (s.removeEntry h c d o).journal = s.journal := by
  unfold State.removeEntry; dsimp only; split <;> split <;> rfl
@[simp] theorem State.removeEntry_sweeps (h c : Nat) (d : Option Nat) (o : Bool) :
    (s.removeEntry h c d o).sweeps = s.sweeps := by
  unfold State.removeEntry; dsimp only; split <;> split <;> rfl
@[simp] theorem State.removeEntry_check (h c : Nat) (d : Option Nat) (o : Bool) :
    (s.removeEntry h c d o).check = s.check := by
  unfold State.removeEntry; dsimp only; split <;> split <;> rfl
@[simp] theorem State.removeEntry_links (h c : Nat) (d : Option Nat) (o : Bool) :
    (s.removeEntry h c d o).links = s.links := by
  unfold State.removeEntry; dsimp only; split <;> split <;> rfl
@[simp] theorem State.removeEntry_arbiter (h c : Nat) (d : Option Nat) (o : Bool) :
    (s.removeEntry h c d o).arbiter = s.arbiter := by
  unfold State.removeEntry; dsimp only; split <;> split <;> rfl
@[simp] theorem State.removeEntry_deferred (h c : Nat) (d : Option Nat) (o : Bool) :
    (s.removeEntry h c d o).deferred = s.deferred := by
  unfold State.removeEntry; dsimp only; split <;> split <;> rfl
@[simp] theorem State.removeEntry_pending (h c : Nat) (d : Option Nat) (o : Bool) :
    (s.removeEntry h c d o).pending = s.pending := by
  unfold State.removeEntry; dsimp only; split <;> split <;> rfl

/-! `State.closeEntry` -/

@[simp] theorem State.closeEntry_lot (c : Nat) (e : Entry) (v : EntryState) :
    (s.closeEntry c e v).lot = s.lot := by unfold State.closeEntry; simp
@[simp] theorem State.closeEntry_stations (c : Nat) (e : Entry) (v : EntryState) :
    (s.closeEntry c e v).stations = s.stations := by unfold State.closeEntry; simp
@[simp] theorem State.closeEntry_unitP (c : Nat) (e : Entry) (v : EntryState) :
    (s.closeEntry c e v).unitP = s.unitP := by unfold State.closeEntry; simp
@[simp] theorem State.closeEntry_unitE (c : Nat) (e : Entry) (v : EntryState) :
    (s.closeEntry c e v).unitE = s.unitE := by unfold State.closeEntry; simp
@[simp] theorem State.closeEntry_rules (c : Nat) (e : Entry) (v : EntryState) :
    (s.closeEntry c e v).rules = s.rules := by unfold State.closeEntry; simp
@[simp] theorem State.closeEntry_journal (c : Nat) (e : Entry) (v : EntryState) :
    (s.closeEntry c e v).journal = s.journal := by unfold State.closeEntry; simp
@[simp] theorem State.closeEntry_sweeps (c : Nat) (e : Entry) (v : EntryState) :
    (s.closeEntry c e v).sweeps = s.sweeps := by unfold State.closeEntry; simp
@[simp] theorem State.closeEntry_check (c : Nat) (e : Entry) (v : EntryState) :
    (s.closeEntry c e v).check = s.check := by unfold State.closeEntry; simp
@[simp] theorem State.closeEntry_links (c : Nat) (e : Entry) (v : EntryState) :
    (s.closeEntry c e v).links = s.links := by unfold State.closeEntry; simp
@[simp] theorem State.closeEntry_arbiter (c : Nat) (e : Entry) (v : EntryState) :
    (s.closeEntry c e v).arbiter = s.arbiter := by unfold State.closeEntry; simp
@[simp] theorem State.closeEntry_deferred (c : Nat) (e : Entry) (v : EntryState) :
    (s.closeEntry c e v).deferred = s.deferred := by unfold State.closeEntry; simp
@[simp] theorem State.closeEntry_pending (c : Nat) (e : Entry) (v : EntryState) :
    (s.closeEntry c e v).pending = s.pending := by unfold State.closeEntry; simp

/-! `State.voidEntry` -/

@[simp] theorem State.voidEntry_lot (c : Nat) (e : Entry) (r : Reason) (o : Option (Station × Site))
    (k : Option (Nat × Nat)) :
    (s.voidEntry c e r o k).lot = s.lot := by unfold State.voidEntry; simp
@[simp] theorem State.voidEntry_stations (c : Nat) (e : Entry) (r : Reason) (o : Option (Station × Site))
    (k : Option (Nat × Nat)) :
    (s.voidEntry c e r o k).stations = s.stations := by unfold State.voidEntry; simp
@[simp] theorem State.voidEntry_unitP (c : Nat) (e : Entry) (r : Reason) (o : Option (Station × Site))
    (k : Option (Nat × Nat)) :
    (s.voidEntry c e r o k).unitP = s.unitP := by unfold State.voidEntry; simp
@[simp] theorem State.voidEntry_unitE (c : Nat) (e : Entry) (r : Reason) (o : Option (Station × Site))
    (k : Option (Nat × Nat)) :
    (s.voidEntry c e r o k).unitE = s.unitE := by unfold State.voidEntry; simp
@[simp] theorem State.voidEntry_rules (c : Nat) (e : Entry) (r : Reason) (o : Option (Station × Site))
    (k : Option (Nat × Nat)) :
    (s.voidEntry c e r o k).rules = s.rules := by unfold State.voidEntry; simp
@[simp] theorem State.voidEntry_sweeps (c : Nat) (e : Entry) (r : Reason) (o : Option (Station × Site))
    (k : Option (Nat × Nat)) :
    (s.voidEntry c e r o k).sweeps = s.sweeps := by unfold State.voidEntry; simp
@[simp] theorem State.voidEntry_check (c : Nat) (e : Entry) (r : Reason) (o : Option (Station × Site))
    (k : Option (Nat × Nat)) :
    (s.voidEntry c e r o k).check = s.check := by unfold State.voidEntry; simp
@[simp] theorem State.voidEntry_links (c : Nat) (e : Entry) (r : Reason) (o : Option (Station × Site))
    (k : Option (Nat × Nat)) :
    (s.voidEntry c e r o k).links = s.links := by unfold State.voidEntry; simp
@[simp] theorem State.voidEntry_arbiter (c : Nat) (e : Entry) (r : Reason) (o : Option (Station × Site))
    (k : Option (Nat × Nat)) :
    (s.voidEntry c e r o k).arbiter = s.arbiter := by unfold State.voidEntry; simp
@[simp] theorem State.voidEntry_deferred (c : Nat) (e : Entry) (r : Reason) (o : Option (Station × Site))
    (k : Option (Nat × Nat)) :
    (s.voidEntry c e r o k).deferred = s.deferred := by unfold State.voidEntry; simp
@[simp] theorem State.voidEntry_pending (c : Nat) (e : Entry) (r : Reason) (o : Option (Station × Site))
    (k : Option (Nat × Nat)) :
    (s.voidEntry c e r o k).pending = s.pending := by unfold State.voidEntry; simp

/-! `State.withdrawEntry` -/

@[simp] theorem State.withdrawEntry_lot (c : Nat) (d : Option Nat) (e : Entry) (r : Reason)
    (o : Option (Station × Site)) :
    (s.withdrawEntry c d e r o).lot = s.lot := by unfold State.withdrawEntry; simp
@[simp] theorem State.withdrawEntry_stations (c : Nat) (d : Option Nat) (e : Entry) (r : Reason)
    (o : Option (Station × Site)) :
    (s.withdrawEntry c d e r o).stations = s.stations := by unfold State.withdrawEntry; simp
@[simp] theorem State.withdrawEntry_unitP (c : Nat) (d : Option Nat) (e : Entry) (r : Reason)
    (o : Option (Station × Site)) :
    (s.withdrawEntry c d e r o).unitP = s.unitP := by unfold State.withdrawEntry; simp
@[simp] theorem State.withdrawEntry_unitE (c : Nat) (d : Option Nat) (e : Entry) (r : Reason)
    (o : Option (Station × Site)) :
    (s.withdrawEntry c d e r o).unitE = s.unitE := by unfold State.withdrawEntry; simp
@[simp] theorem State.withdrawEntry_rules (c : Nat) (d : Option Nat) (e : Entry) (r : Reason)
    (o : Option (Station × Site)) :
    (s.withdrawEntry c d e r o).rules = s.rules := by unfold State.withdrawEntry; simp
@[simp] theorem State.withdrawEntry_sweeps (c : Nat) (d : Option Nat) (e : Entry) (r : Reason)
    (o : Option (Station × Site)) :
    (s.withdrawEntry c d e r o).sweeps = s.sweeps := by unfold State.withdrawEntry; simp
@[simp] theorem State.withdrawEntry_check (c : Nat) (d : Option Nat) (e : Entry) (r : Reason)
    (o : Option (Station × Site)) :
    (s.withdrawEntry c d e r o).check = s.check := by unfold State.withdrawEntry; simp
@[simp] theorem State.withdrawEntry_links (c : Nat) (d : Option Nat) (e : Entry) (r : Reason)
    (o : Option (Station × Site)) :
    (s.withdrawEntry c d e r o).links = s.links := by unfold State.withdrawEntry; simp
@[simp] theorem State.withdrawEntry_arbiter (c : Nat) (d : Option Nat) (e : Entry) (r : Reason)
    (o : Option (Station × Site)) :
    (s.withdrawEntry c d e r o).arbiter = s.arbiter := by unfold State.withdrawEntry; simp
@[simp] theorem State.withdrawEntry_deferred (c : Nat) (d : Option Nat) (e : Entry) (r : Reason)
    (o : Option (Station × Site)) :
    (s.withdrawEntry c d e r o).deferred = s.deferred := by unfold State.withdrawEntry; simp
@[simp] theorem State.withdrawEntry_pending (c : Nat) (d : Option Nat) (e : Entry) (r : Reason)
    (o : Option (Station × Site)) :
    (s.withdrawEntry c d e r o).pending = s.pending := by unfold State.withdrawEntry; simp

/-! `State.makeUncertain` -/

@[simp] theorem State.makeUncertain_lot (c : Nat) (e : Entry) :
    (s.makeUncertain c e).lot = s.lot := rfl
@[simp] theorem State.makeUncertain_stations (c : Nat) (e : Entry) :
    (s.makeUncertain c e).stations = s.stations := rfl
@[simp] theorem State.makeUncertain_pool (c : Nat) (e : Entry) :
    (s.makeUncertain c e).pool = s.pool := rfl
@[simp] theorem State.makeUncertain_unitP (c : Nat) (e : Entry) :
    (s.makeUncertain c e).unitP = s.unitP := rfl
@[simp] theorem State.makeUncertain_unitE (c : Nat) (e : Entry) :
    (s.makeUncertain c e).unitE = s.unitE := rfl
@[simp] theorem State.makeUncertain_rules (c : Nat) (e : Entry) :
    (s.makeUncertain c e).rules = s.rules := rfl
@[simp] theorem State.makeUncertain_table (c : Nat) (e : Entry) :
    (s.makeUncertain c e).table = s.table := rfl
@[simp] theorem State.makeUncertain_journal (c : Nat) (e : Entry) :
    (s.makeUncertain c e).journal = s.journal := rfl
@[simp] theorem State.makeUncertain_sweeps (c : Nat) (e : Entry) :
    (s.makeUncertain c e).sweeps = s.sweeps := rfl
@[simp] theorem State.makeUncertain_check (c : Nat) (e : Entry) :
    (s.makeUncertain c e).check = s.check := rfl
@[simp] theorem State.makeUncertain_links (c : Nat) (e : Entry) :
    (s.makeUncertain c e).links = s.links := rfl
@[simp] theorem State.makeUncertain_arbiter (c : Nat) (e : Entry) :
    (s.makeUncertain c e).arbiter = s.arbiter := rfl
@[simp] theorem State.makeUncertain_deferred (c : Nat) (e : Entry) :
    (s.makeUncertain c e).deferred = s.deferred := rfl
@[simp] theorem State.makeUncertain_pending (c : Nat) (e : Entry) :
    (s.makeUncertain c e).pending = s.pending := rfl

/-! `State.revokeOwner` -/

@[simp] theorem State.revokeOwner_lot (e : Entry) :
    (s.revokeOwner e).lot = s.lot := by
  unfold State.revokeOwner; split <;> [rfl; (split <;> rfl)]
@[simp] theorem State.revokeOwner_pool (e : Entry) :
    (s.revokeOwner e).pool = s.pool := by
  unfold State.revokeOwner; split <;> [rfl; (split <;> rfl)]
@[simp] theorem State.revokeOwner_unitP (e : Entry) :
    (s.revokeOwner e).unitP = s.unitP := by
  unfold State.revokeOwner; split <;> [rfl; (split <;> rfl)]
@[simp] theorem State.revokeOwner_unitE (e : Entry) :
    (s.revokeOwner e).unitE = s.unitE := by
  unfold State.revokeOwner; split <;> [rfl; (split <;> rfl)]
@[simp] theorem State.revokeOwner_rules (e : Entry) :
    (s.revokeOwner e).rules = s.rules := by
  unfold State.revokeOwner; split <;> [rfl; (split <;> rfl)]
@[simp] theorem State.revokeOwner_table (e : Entry) :
    (s.revokeOwner e).table = s.table := by
  unfold State.revokeOwner; split <;> [rfl; (split <;> rfl)]
@[simp] theorem State.revokeOwner_store (e : Entry) :
    (s.revokeOwner e).store = s.store := by
  unfold State.revokeOwner; split <;> [rfl; (split <;> rfl)]
@[simp] theorem State.revokeOwner_journal (e : Entry) :
    (s.revokeOwner e).journal = s.journal := by
  unfold State.revokeOwner; split <;> [rfl; (split <;> rfl)]
@[simp] theorem State.revokeOwner_sweeps (e : Entry) :
    (s.revokeOwner e).sweeps = s.sweeps := by
  unfold State.revokeOwner; split <;> [rfl; (split <;> rfl)]
@[simp] theorem State.revokeOwner_check (e : Entry) :
    (s.revokeOwner e).check = s.check := by
  unfold State.revokeOwner; split <;> [rfl; (split <;> rfl)]
@[simp] theorem State.revokeOwner_links (e : Entry) :
    (s.revokeOwner e).links = s.links := by
  unfold State.revokeOwner; split <;> [rfl; (split <;> rfl)]
@[simp] theorem State.revokeOwner_arbiter (e : Entry) :
    (s.revokeOwner e).arbiter = s.arbiter := by
  unfold State.revokeOwner; split <;> [rfl; (split <;> rfl)]
@[simp] theorem State.revokeOwner_deferred (e : Entry) :
    (s.revokeOwner e).deferred = s.deferred := by
  unfold State.revokeOwner; split <;> [rfl; (split <;> rfl)]
@[simp] theorem State.revokeOwner_pending (e : Entry) :
    (s.revokeOwner e).pending = s.pending := by
  unfold State.revokeOwner; split <;> [rfl; (split <;> rfl)]

/-! `State.setLink` -/

@[simp] theorem State.setLink_lot (l : Link) (u : LinkUnit) : (s.setLink l u).lot = s.lot := rfl
@[simp] theorem State.setLink_stations (l : Link) (u : LinkUnit) :
    (s.setLink l u).stations = s.stations := rfl
@[simp] theorem State.setLink_pool (l : Link) (u : LinkUnit) : (s.setLink l u).pool = s.pool := rfl
@[simp] theorem State.setLink_unitP (l : Link) (u : LinkUnit) :
    (s.setLink l u).unitP = s.unitP := rfl
@[simp] theorem State.setLink_unitE (l : Link) (u : LinkUnit) :
    (s.setLink l u).unitE = s.unitE := rfl
@[simp] theorem State.setLink_rules (l : Link) (u : LinkUnit) :
    (s.setLink l u).rules = s.rules := rfl
@[simp] theorem State.setLink_table (l : Link) (u : LinkUnit) :
    (s.setLink l u).table = s.table := rfl
@[simp] theorem State.setLink_store (l : Link) (u : LinkUnit) :
    (s.setLink l u).store = s.store := rfl
@[simp] theorem State.setLink_journal (l : Link) (u : LinkUnit) :
    (s.setLink l u).journal = s.journal := rfl
@[simp] theorem State.setLink_sweeps (l : Link) (u : LinkUnit) :
    (s.setLink l u).sweeps = s.sweeps := rfl
@[simp] theorem State.setLink_check (l : Link) (u : LinkUnit) :
    (s.setLink l u).check = s.check := rfl
@[simp] theorem State.setLink_arbiter (l : Link) (u : LinkUnit) :
    (s.setLink l u).arbiter = s.arbiter := rfl
@[simp] theorem State.setLink_deferred (l : Link) (u : LinkUnit) :
    (s.setLink l u).deferred = s.deferred := rfl
@[simp] theorem State.setLink_pending (l : Link) (u : LinkUnit) :
    (s.setLink l u).pending = s.pending := rfl

/-! `State.setRx` -/

@[simp] theorem State.setRx_lot (l : Link) (rx : RxState) : (s.setRx l rx).lot = s.lot := rfl
@[simp] theorem State.setRx_stations (l : Link) (rx : RxState) :
    (s.setRx l rx).stations = s.stations := rfl
@[simp] theorem State.setRx_pool (l : Link) (rx : RxState) : (s.setRx l rx).pool = s.pool := rfl
@[simp] theorem State.setRx_unitP (l : Link) (rx : RxState) : (s.setRx l rx).unitP = s.unitP := rfl
@[simp] theorem State.setRx_unitE (l : Link) (rx : RxState) : (s.setRx l rx).unitE = s.unitE := rfl
@[simp] theorem State.setRx_rules (l : Link) (rx : RxState) : (s.setRx l rx).rules = s.rules := rfl
@[simp] theorem State.setRx_table (l : Link) (rx : RxState) : (s.setRx l rx).table = s.table := rfl
@[simp] theorem State.setRx_store (l : Link) (rx : RxState) : (s.setRx l rx).store = s.store := rfl
@[simp] theorem State.setRx_journal (l : Link) (rx : RxState) :
    (s.setRx l rx).journal = s.journal := rfl
@[simp] theorem State.setRx_sweeps (l : Link) (rx : RxState) :
    (s.setRx l rx).sweeps = s.sweeps := rfl
@[simp] theorem State.setRx_check (l : Link) (rx : RxState) : (s.setRx l rx).check = s.check := rfl
@[simp] theorem State.setRx_arbiter (l : Link) (rx : RxState) :
    (s.setRx l rx).arbiter = s.arbiter := rfl
@[simp] theorem State.setRx_deferred (l : Link) (rx : RxState) :
    (s.setRx l rx).deferred = s.deferred := rfl
@[simp] theorem State.setRx_pending (l : Link) (rx : RxState) :
    (s.setRx l rx).pending = s.pending := rfl

/-! `State.place` -/

@[simp] theorem State.place_lot (l : Link) (r : Request) : (s.place l r).lot = s.lot := rfl
@[simp] theorem State.place_stations (l : Link) (r : Request) :
    (s.place l r).stations = s.stations := rfl
@[simp] theorem State.place_pool (l : Link) (r : Request) : (s.place l r).pool = s.pool := rfl
@[simp] theorem State.place_unitP (l : Link) (r : Request) : (s.place l r).unitP = s.unitP := rfl
@[simp] theorem State.place_unitE (l : Link) (r : Request) : (s.place l r).unitE = s.unitE := rfl
@[simp] theorem State.place_rules (l : Link) (r : Request) : (s.place l r).rules = s.rules := rfl
@[simp] theorem State.place_table (l : Link) (r : Request) : (s.place l r).table = s.table := rfl
@[simp] theorem State.place_store (l : Link) (r : Request) : (s.place l r).store = s.store := rfl
@[simp] theorem State.place_journal (l : Link) (r : Request) :
    (s.place l r).journal = s.journal := rfl
@[simp] theorem State.place_sweeps (l : Link) (r : Request) : (s.place l r).sweeps = s.sweeps := rfl
@[simp] theorem State.place_check (l : Link) (r : Request) : (s.place l r).check = s.check := rfl
@[simp] theorem State.place_arbiter (l : Link) (r : Request) :
    (s.place l r).arbiter = s.arbiter := rfl
@[simp] theorem State.place_deferred (l : Link) (r : Request) :
    (s.place l r).deferred = s.deferred := rfl
@[simp] theorem State.place_pending (l : Link) (r : Request) :
    (s.place l r).pending = s.pending := rfl

/-! `State.linkReply` -/

@[simp] theorem State.linkReply_lot (l : Link) (k : Byte) (c : Code) :
    (s.linkReply l k c).lot = s.lot := by unfold State.linkReply; split <;> rfl
@[simp] theorem State.linkReply_stations (l : Link) (k : Byte) (c : Code) :
    (s.linkReply l k c).stations = s.stations := by unfold State.linkReply; split <;> rfl
@[simp] theorem State.linkReply_pool (l : Link) (k : Byte) (c : Code) :
    (s.linkReply l k c).pool = s.pool := by unfold State.linkReply; split <;> rfl
@[simp] theorem State.linkReply_unitP (l : Link) (k : Byte) (c : Code) :
    (s.linkReply l k c).unitP = s.unitP := by unfold State.linkReply; split <;> rfl
@[simp] theorem State.linkReply_unitE (l : Link) (k : Byte) (c : Code) :
    (s.linkReply l k c).unitE = s.unitE := by unfold State.linkReply; split <;> rfl
@[simp] theorem State.linkReply_rules (l : Link) (k : Byte) (c : Code) :
    (s.linkReply l k c).rules = s.rules := by unfold State.linkReply; split <;> rfl
@[simp] theorem State.linkReply_table (l : Link) (k : Byte) (c : Code) :
    (s.linkReply l k c).table = s.table := by unfold State.linkReply; split <;> rfl
@[simp] theorem State.linkReply_store (l : Link) (k : Byte) (c : Code) :
    (s.linkReply l k c).store = s.store := by unfold State.linkReply; split <;> rfl
@[simp] theorem State.linkReply_journal (l : Link) (k : Byte) (c : Code) :
    (s.linkReply l k c).journal = s.journal := by unfold State.linkReply; split <;> rfl
@[simp] theorem State.linkReply_sweeps (l : Link) (k : Byte) (c : Code) :
    (s.linkReply l k c).sweeps = s.sweeps := by unfold State.linkReply; split <;> rfl
@[simp] theorem State.linkReply_check (l : Link) (k : Byte) (c : Code) :
    (s.linkReply l k c).check = s.check := by unfold State.linkReply; split <;> rfl
@[simp] theorem State.linkReply_arbiter (l : Link) (k : Byte) (c : Code) :
    (s.linkReply l k c).arbiter = s.arbiter := by unfold State.linkReply; split <;> rfl
@[simp] theorem State.linkReply_deferred (l : Link) (k : Byte) (c : Code) :
    (s.linkReply l k c).deferred = s.deferred := by unfold State.linkReply; split <;> rfl
@[simp] theorem State.linkReply_pending (l : Link) (k : Byte) (c : Code) :
    (s.linkReply l k c).pending = s.pending := by unfold State.linkReply; split <;> rfl

/-! `State.reply` -/

@[simp] theorem State.reply_lot (l : Link) (k : Byte) (b : ReplyBody) :
    (s.reply l k b).lot = s.lot := rfl
@[simp] theorem State.reply_stations (l : Link) (k : Byte) (b : ReplyBody) :
    (s.reply l k b).stations = s.stations := rfl
@[simp] theorem State.reply_pool (l : Link) (k : Byte) (b : ReplyBody) :
    (s.reply l k b).pool = s.pool := rfl
@[simp] theorem State.reply_unitP (l : Link) (k : Byte) (b : ReplyBody) :
    (s.reply l k b).unitP = s.unitP := rfl
@[simp] theorem State.reply_unitE (l : Link) (k : Byte) (b : ReplyBody) :
    (s.reply l k b).unitE = s.unitE := rfl
@[simp] theorem State.reply_rules (l : Link) (k : Byte) (b : ReplyBody) :
    (s.reply l k b).rules = s.rules := rfl
@[simp] theorem State.reply_table (l : Link) (k : Byte) (b : ReplyBody) :
    (s.reply l k b).table = s.table := rfl
@[simp] theorem State.reply_store (l : Link) (k : Byte) (b : ReplyBody) :
    (s.reply l k b).store = s.store := rfl
@[simp] theorem State.reply_journal (l : Link) (k : Byte) (b : ReplyBody) :
    (s.reply l k b).journal = s.journal := rfl
@[simp] theorem State.reply_sweeps (l : Link) (k : Byte) (b : ReplyBody) :
    (s.reply l k b).sweeps = s.sweeps := rfl
@[simp] theorem State.reply_check (l : Link) (k : Byte) (b : ReplyBody) :
    (s.reply l k b).check = s.check := rfl
@[simp] theorem State.reply_arbiter (l : Link) (k : Byte) (b : ReplyBody) :
    (s.reply l k b).arbiter = s.arbiter := rfl
@[simp] theorem State.reply_deferred (l : Link) (k : Byte) (b : ReplyBody) :
    (s.reply l k b).deferred = s.deferred := rfl
@[simp] theorem State.reply_pending (l : Link) (k : Byte) (b : ReplyBody) :
    (s.reply l k b).pending = s.pending := rfl

/-! `State.latchDone` -/

@[simp] theorem State.latchDone_lot : s.latchDone.lot = s.lot := rfl
@[simp] theorem State.latchDone_stations : s.latchDone.stations = s.stations := rfl
@[simp] theorem State.latchDone_pool : s.latchDone.pool = s.pool := rfl
@[simp] theorem State.latchDone_unitP : s.latchDone.unitP = s.unitP := rfl
@[simp] theorem State.latchDone_unitE : s.latchDone.unitE = s.unitE := rfl
@[simp] theorem State.latchDone_rules : s.latchDone.rules = s.rules := rfl
@[simp] theorem State.latchDone_table : s.latchDone.table = s.table := rfl
@[simp] theorem State.latchDone_store : s.latchDone.store = s.store := rfl
@[simp] theorem State.latchDone_journal : s.latchDone.journal = s.journal := rfl
@[simp] theorem State.latchDone_check : s.latchDone.check = s.check := rfl
@[simp] theorem State.latchDone_arbiter : s.latchDone.arbiter = s.arbiter := rfl
@[simp] theorem State.latchDone_deferred : s.latchDone.deferred = s.deferred := rfl
@[simp] theorem State.latchDone_pending : s.latchDone.pending = s.pending := rfl

/-! `State.countDown` -/

@[simp] theorem State.countDown_lot :
    s.countDown.lot = s.lot := by unfold State.countDown; split <;> rfl
@[simp] theorem State.countDown_pool :
    s.countDown.pool = s.pool := by unfold State.countDown; split <;> rfl
@[simp] theorem State.countDown_unitP :
    s.countDown.unitP = s.unitP := by unfold State.countDown; split <;> rfl
@[simp] theorem State.countDown_unitE :
    s.countDown.unitE = s.unitE := by unfold State.countDown; split <;> rfl
@[simp] theorem State.countDown_rules :
    s.countDown.rules = s.rules := by unfold State.countDown; split <;> rfl
@[simp] theorem State.countDown_table :
    s.countDown.table = s.table := by unfold State.countDown; split <;> rfl
@[simp] theorem State.countDown_store :
    s.countDown.store = s.store := by unfold State.countDown; split <;> rfl
@[simp] theorem State.countDown_journal :
    s.countDown.journal = s.journal := by unfold State.countDown; split <;> rfl
@[simp] theorem State.countDown_sweeps :
    s.countDown.sweeps = s.sweeps := by unfold State.countDown; split <;> rfl
@[simp] theorem State.countDown_check :
    s.countDown.check = s.check := by unfold State.countDown; split <;> rfl
@[simp] theorem State.countDown_links :
    s.countDown.links = s.links := by unfold State.countDown; split <;> rfl
@[simp] theorem State.countDown_arbiter :
    s.countDown.arbiter = s.arbiter := by unfold State.countDown; split <;> rfl
@[simp] theorem State.countDown_deferred :
    s.countDown.deferred = s.deferred := by unfold State.countDown; split <;> rfl
@[simp] theorem State.countDown_pending :
    s.countDown.pending = s.pending := by unfold State.countDown; split <;> rfl

/-! `State.setContext` -/

@[simp] theorem State.setContext_lot (lv : SweepLevel) (c : SweepContext) :
    (s.setContext lv c).lot = s.lot := by cases lv <;> rfl
@[simp] theorem State.setContext_stations (lv : SweepLevel) (c : SweepContext) :
    (s.setContext lv c).stations = s.stations := by cases lv <;> rfl
@[simp] theorem State.setContext_pool (lv : SweepLevel) (c : SweepContext) :
    (s.setContext lv c).pool = s.pool := by cases lv <;> rfl
@[simp] theorem State.setContext_unitP (lv : SweepLevel) (c : SweepContext) :
    (s.setContext lv c).unitP = s.unitP := by cases lv <;> rfl
@[simp] theorem State.setContext_unitE (lv : SweepLevel) (c : SweepContext) :
    (s.setContext lv c).unitE = s.unitE := by cases lv <;> rfl
@[simp] theorem State.setContext_rules (lv : SweepLevel) (c : SweepContext) :
    (s.setContext lv c).rules = s.rules := by cases lv <;> rfl
@[simp] theorem State.setContext_table (lv : SweepLevel) (c : SweepContext) :
    (s.setContext lv c).table = s.table := by cases lv <;> rfl
@[simp] theorem State.setContext_store (lv : SweepLevel) (c : SweepContext) :
    (s.setContext lv c).store = s.store := by cases lv <;> rfl
@[simp] theorem State.setContext_journal (lv : SweepLevel) (c : SweepContext) :
    (s.setContext lv c).journal = s.journal := by cases lv <;> rfl
@[simp] theorem State.setContext_check (lv : SweepLevel) (c : SweepContext) :
    (s.setContext lv c).check = s.check := by cases lv <;> rfl
@[simp] theorem State.setContext_links (lv : SweepLevel) (c : SweepContext) :
    (s.setContext lv c).links = s.links := by cases lv <;> rfl
@[simp] theorem State.setContext_arbiter (lv : SweepLevel) (c : SweepContext) :
    (s.setContext lv c).arbiter = s.arbiter := by cases lv <;> rfl
@[simp] theorem State.setContext_deferred (lv : SweepLevel) (c : SweepContext) :
    (s.setContext lv c).deferred = s.deferred := by cases lv <;> rfl
@[simp] theorem State.setContext_pending (lv : SweepLevel) (c : SweepContext) :
    (s.setContext lv c).pending = s.pending := by cases lv <;> rfl

/-! `State.countSweep` -/

@[simp] theorem State.countSweep_lot (lv : SweepLevel) (f : SweepCounts → SweepCounts) :
    (s.countSweep lv f).lot = s.lot := by cases lv <;> rfl
@[simp] theorem State.countSweep_stations (lv : SweepLevel) (f : SweepCounts → SweepCounts) :
    (s.countSweep lv f).stations = s.stations := by cases lv <;> rfl
@[simp] theorem State.countSweep_pool (lv : SweepLevel) (f : SweepCounts → SweepCounts) :
    (s.countSweep lv f).pool = s.pool := by cases lv <;> rfl
@[simp] theorem State.countSweep_unitP (lv : SweepLevel) (f : SweepCounts → SweepCounts) :
    (s.countSweep lv f).unitP = s.unitP := by cases lv <;> rfl
@[simp] theorem State.countSweep_unitE (lv : SweepLevel) (f : SweepCounts → SweepCounts) :
    (s.countSweep lv f).unitE = s.unitE := by cases lv <;> rfl
@[simp] theorem State.countSweep_rules (lv : SweepLevel) (f : SweepCounts → SweepCounts) :
    (s.countSweep lv f).rules = s.rules := by cases lv <;> rfl
@[simp] theorem State.countSweep_table (lv : SweepLevel) (f : SweepCounts → SweepCounts) :
    (s.countSweep lv f).table = s.table := by cases lv <;> rfl
@[simp] theorem State.countSweep_store (lv : SweepLevel) (f : SweepCounts → SweepCounts) :
    (s.countSweep lv f).store = s.store := by cases lv <;> rfl
@[simp] theorem State.countSweep_journal (lv : SweepLevel) (f : SweepCounts → SweepCounts) :
    (s.countSweep lv f).journal = s.journal := by cases lv <;> rfl
@[simp] theorem State.countSweep_check (lv : SweepLevel) (f : SweepCounts → SweepCounts) :
    (s.countSweep lv f).check = s.check := by cases lv <;> rfl
@[simp] theorem State.countSweep_links (lv : SweepLevel) (f : SweepCounts → SweepCounts) :
    (s.countSweep lv f).links = s.links := by cases lv <;> rfl
@[simp] theorem State.countSweep_arbiter (lv : SweepLevel) (f : SweepCounts → SweepCounts) :
    (s.countSweep lv f).arbiter = s.arbiter := by cases lv <;> rfl
@[simp] theorem State.countSweep_deferred (lv : SweepLevel) (f : SweepCounts → SweepCounts) :
    (s.countSweep lv f).deferred = s.deferred := by cases lv <;> rfl
@[simp] theorem State.countSweep_pending (lv : SweepLevel) (f : SweepCounts → SweepCounts) :
    (s.countSweep lv f).pending = s.pending := by cases lv <;> rfl

/-! `State.advanceCursor` -/

@[simp] theorem State.advanceCursor_lot (lv : SweepLevel) :
    (s.advanceCursor lv).lot = s.lot := by cases lv <;> rfl
@[simp] theorem State.advanceCursor_stations (lv : SweepLevel) :
    (s.advanceCursor lv).stations = s.stations := by cases lv <;> rfl
@[simp] theorem State.advanceCursor_pool (lv : SweepLevel) :
    (s.advanceCursor lv).pool = s.pool := by cases lv <;> rfl
@[simp] theorem State.advanceCursor_unitP (lv : SweepLevel) :
    (s.advanceCursor lv).unitP = s.unitP := by cases lv <;> rfl
@[simp] theorem State.advanceCursor_unitE (lv : SweepLevel) :
    (s.advanceCursor lv).unitE = s.unitE := by cases lv <;> rfl
@[simp] theorem State.advanceCursor_rules (lv : SweepLevel) :
    (s.advanceCursor lv).rules = s.rules := by cases lv <;> rfl
@[simp] theorem State.advanceCursor_table (lv : SweepLevel) :
    (s.advanceCursor lv).table = s.table := by cases lv <;> rfl
@[simp] theorem State.advanceCursor_store (lv : SweepLevel) :
    (s.advanceCursor lv).store = s.store := by cases lv <;> rfl
@[simp] theorem State.advanceCursor_journal (lv : SweepLevel) :
    (s.advanceCursor lv).journal = s.journal := by cases lv <;> rfl
@[simp] theorem State.advanceCursor_check (lv : SweepLevel) :
    (s.advanceCursor lv).check = s.check := by cases lv <;> rfl
@[simp] theorem State.advanceCursor_links (lv : SweepLevel) :
    (s.advanceCursor lv).links = s.links := by cases lv <;> rfl
@[simp] theorem State.advanceCursor_arbiter (lv : SweepLevel) :
    (s.advanceCursor lv).arbiter = s.arbiter := by cases lv <;> rfl
@[simp] theorem State.advanceCursor_deferred (lv : SweepLevel) :
    (s.advanceCursor lv).deferred = s.deferred := by cases lv <;> rfl
@[simp] theorem State.advanceCursor_pending (lv : SweepLevel) :
    (s.advanceCursor lv).pending = s.pending := by cases lv <;> rfl

/-! `State.setUnit` -/

@[simp] theorem State.setUnit_lot (c : SerialClass) (u : SerialUnit) :
    (s.setUnit c u).lot = s.lot := by cases c <;> rfl
@[simp] theorem State.setUnit_stations (c : SerialClass) (u : SerialUnit) :
    (s.setUnit c u).stations = s.stations := by cases c <;> rfl
@[simp] theorem State.setUnit_pool (c : SerialClass) (u : SerialUnit) :
    (s.setUnit c u).pool = s.pool := by cases c <;> rfl
@[simp] theorem State.setUnit_rules (c : SerialClass) (u : SerialUnit) :
    (s.setUnit c u).rules = s.rules := by cases c <;> rfl
@[simp] theorem State.setUnit_table (c : SerialClass) (u : SerialUnit) :
    (s.setUnit c u).table = s.table := by cases c <;> rfl
@[simp] theorem State.setUnit_store (c : SerialClass) (u : SerialUnit) :
    (s.setUnit c u).store = s.store := by cases c <;> rfl
@[simp] theorem State.setUnit_journal (c : SerialClass) (u : SerialUnit) :
    (s.setUnit c u).journal = s.journal := by cases c <;> rfl
@[simp] theorem State.setUnit_sweeps (c : SerialClass) (u : SerialUnit) :
    (s.setUnit c u).sweeps = s.sweeps := by cases c <;> rfl
@[simp] theorem State.setUnit_check (c : SerialClass) (u : SerialUnit) :
    (s.setUnit c u).check = s.check := by cases c <;> rfl
@[simp] theorem State.setUnit_links (c : SerialClass) (u : SerialUnit) :
    (s.setUnit c u).links = s.links := by cases c <;> rfl
@[simp] theorem State.setUnit_arbiter (c : SerialClass) (u : SerialUnit) :
    (s.setUnit c u).arbiter = s.arbiter := by cases c <;> rfl
@[simp] theorem State.setUnit_deferred (c : SerialClass) (u : SerialUnit) :
    (s.setUnit c u).deferred = s.deferred := by cases c <;> rfl
@[simp] theorem State.setUnit_pending (c : SerialClass) (u : SerialUnit) :
    (s.setUnit c u).pending = s.pending := by cases c <;> rfl

/-! `State.lockLot` -/

@[simp] theorem State.lockLot_stations :
    s.lockLot.stations = s.stations := by unfold State.lockLot; split <;> rfl
@[simp] theorem State.lockLot_pool :
    s.lockLot.pool = s.pool := by unfold State.lockLot; split <;> rfl
@[simp] theorem State.lockLot_unitP :
    s.lockLot.unitP = s.unitP := by unfold State.lockLot; split <;> rfl
@[simp] theorem State.lockLot_unitE :
    s.lockLot.unitE = s.unitE := by unfold State.lockLot; split <;> rfl
@[simp] theorem State.lockLot_rules :
    s.lockLot.rules = s.rules := by unfold State.lockLot; split <;> rfl
@[simp] theorem State.lockLot_table :
    s.lockLot.table = s.table := by unfold State.lockLot; split <;> rfl
@[simp] theorem State.lockLot_store :
    s.lockLot.store = s.store := by unfold State.lockLot; split <;> rfl
@[simp] theorem State.lockLot_journal :
    s.lockLot.journal = s.journal := by unfold State.lockLot; split <;> rfl
@[simp] theorem State.lockLot_sweeps :
    s.lockLot.sweeps = s.sweeps := by unfold State.lockLot; split <;> rfl
@[simp] theorem State.lockLot_check :
    s.lockLot.check = s.check := by unfold State.lockLot; split <;> rfl
@[simp] theorem State.lockLot_links :
    s.lockLot.links = s.links := by unfold State.lockLot; split <;> rfl
@[simp] theorem State.lockLot_arbiter :
    s.lockLot.arbiter = s.arbiter := by unfold State.lockLot; split <;> rfl
@[simp] theorem State.lockLot_deferred :
    s.lockLot.deferred = s.deferred := by unfold State.lockLot; split <;> rfl
@[simp] theorem State.lockLot_pending :
    s.lockLot.pending = s.pending := by unfold State.lockLot; split <;> rfl

/-! `State.blockRange` -/

@[simp] theorem State.blockRange_stations (low high : Half) :
    (s.blockRange low high).stations = s.stations := rfl
@[simp] theorem State.blockRange_pool (low high : Half) :
    (s.blockRange low high).pool = s.pool := rfl
@[simp] theorem State.blockRange_unitP (low high : Half) :
    (s.blockRange low high).unitP = s.unitP := rfl
@[simp] theorem State.blockRange_unitE (low high : Half) :
    (s.blockRange low high).unitE = s.unitE := rfl
@[simp] theorem State.blockRange_rules (low high : Half) :
    (s.blockRange low high).rules = s.rules := rfl
@[simp] theorem State.blockRange_table (low high : Half) :
    (s.blockRange low high).table = s.table := rfl
@[simp] theorem State.blockRange_store (low high : Half) :
    (s.blockRange low high).store = s.store := rfl
@[simp] theorem State.blockRange_journal (low high : Half) :
    (s.blockRange low high).journal = s.journal := rfl
@[simp] theorem State.blockRange_sweeps (low high : Half) :
    (s.blockRange low high).sweeps = s.sweeps := rfl
@[simp] theorem State.blockRange_check (low high : Half) :
    (s.blockRange low high).check = s.check := rfl
@[simp] theorem State.blockRange_links (low high : Half) :
    (s.blockRange low high).links = s.links := rfl
@[simp] theorem State.blockRange_arbiter (low high : Half) :
    (s.blockRange low high).arbiter = s.arbiter := rfl
@[simp] theorem State.blockRange_deferred (low high : Half) :
    (s.blockRange low high).deferred = s.deferred := rfl
@[simp] theorem State.blockRange_pending (low high : Half) :
    (s.blockRange low high).pending = s.pending := rfl

/-! `State.detachWafer` -/

@[simp] theorem State.detachWafer_pool (st : Station) (w : Byte) :
    (s.detachWafer st w).pool = s.pool := rfl
@[simp] theorem State.detachWafer_unitP (st : Station) (w : Byte) :
    (s.detachWafer st w).unitP = s.unitP := rfl
@[simp] theorem State.detachWafer_unitE (st : Station) (w : Byte) :
    (s.detachWafer st w).unitE = s.unitE := rfl
@[simp] theorem State.detachWafer_rules (st : Station) (w : Byte) :
    (s.detachWafer st w).rules = s.rules := rfl
@[simp] theorem State.detachWafer_table (st : Station) (w : Byte) :
    (s.detachWafer st w).table = s.table := rfl
@[simp] theorem State.detachWafer_store (st : Station) (w : Byte) :
    (s.detachWafer st w).store = s.store := rfl
@[simp] theorem State.detachWafer_journal (st : Station) (w : Byte) :
    (s.detachWafer st w).journal = s.journal := rfl
@[simp] theorem State.detachWafer_sweeps (st : Station) (w : Byte) :
    (s.detachWafer st w).sweeps = s.sweeps := rfl
@[simp] theorem State.detachWafer_check (st : Station) (w : Byte) :
    (s.detachWafer st w).check = s.check := rfl
@[simp] theorem State.detachWafer_links (st : Station) (w : Byte) :
    (s.detachWafer st w).links = s.links := rfl
@[simp] theorem State.detachWafer_arbiter (st : Station) (w : Byte) :
    (s.detachWafer st w).arbiter = s.arbiter := rfl
@[simp] theorem State.detachWafer_deferred (st : Station) (w : Byte) :
    (s.detachWafer st w).deferred = s.deferred := rfl
@[simp] theorem State.detachWafer_pending (st : Station) (w : Byte) :
    (s.detachWafer st w).pending = s.pending := rfl

/-! `State.attachWafer` -/

@[simp] theorem State.attachWafer_pool (st : Station) (w : Byte) :
    (s.attachWafer st w).pool = s.pool := rfl
@[simp] theorem State.attachWafer_unitP (st : Station) (w : Byte) :
    (s.attachWafer st w).unitP = s.unitP := rfl
@[simp] theorem State.attachWafer_unitE (st : Station) (w : Byte) :
    (s.attachWafer st w).unitE = s.unitE := rfl
@[simp] theorem State.attachWafer_rules (st : Station) (w : Byte) :
    (s.attachWafer st w).rules = s.rules := rfl
@[simp] theorem State.attachWafer_table (st : Station) (w : Byte) :
    (s.attachWafer st w).table = s.table := rfl
@[simp] theorem State.attachWafer_store (st : Station) (w : Byte) :
    (s.attachWafer st w).store = s.store := rfl
@[simp] theorem State.attachWafer_journal (st : Station) (w : Byte) :
    (s.attachWafer st w).journal = s.journal := rfl
@[simp] theorem State.attachWafer_sweeps (st : Station) (w : Byte) :
    (s.attachWafer st w).sweeps = s.sweeps := rfl
@[simp] theorem State.attachWafer_check (st : Station) (w : Byte) :
    (s.attachWafer st w).check = s.check := rfl
@[simp] theorem State.attachWafer_links (st : Station) (w : Byte) :
    (s.attachWafer st w).links = s.links := rfl
@[simp] theorem State.attachWafer_arbiter (st : Station) (w : Byte) :
    (s.attachWafer st w).arbiter = s.arbiter := rfl
@[simp] theorem State.attachWafer_deferred (st : Station) (w : Byte) :
    (s.attachWafer st w).deferred = s.deferred := rfl
@[simp] theorem State.attachWafer_pending (st : Station) (w : Byte) :
    (s.attachWafer st w).pending = s.pending := rfl

end Sys2Proof.Machine
end

