-- ==== Sys2Proof/Laws/Maps.lean ====
section
/-! SUPPORT. Sparse tables: a read after a write, the canonical form, and how the number of listed pairs
that meet a test changes at a write. -/

namespace Sys2Proof.Machine

variable {α : Type} [DecidableEq α] {d : α}

omit [DecidableEq α] in
theorem mapGet_below {m : List (Nat × α)} {n : Nat} (h : m.all (fun e => decide (n < e.1)) = true) :
    mapGet d m n = d := by
  induction m with
  | nil => rfl
  | cons e m ih =>
    simp only [List.all_cons, Bool.and_eq_true, decide_eq_true_eq] at h
    have : n ≠ e.1 := by omega
    simp [mapGet, this, ih h.2]

@[simp] theorem mapWf_nil : mapWf d ([] : List (Nat × α)) = true := rfl

theorem mapWf_cons {k : Nat} {v : α} {m : List (Nat × α)} :
    mapWf d ((k, v) :: m) = true ↔
      v ≠ d ∧ m.all (fun e => decide (k < e.1)) = true ∧ mapWf d m = true := by
  simp [mapWf, and_assoc]

theorem mapSet_all {m : List (Nat × α)} {k n : Nat} {v : α} (hk : k < n)
    (h : m.all (fun e => decide (k < e.1)) = true) :
    (mapSet d m n v).all (fun e => decide (k < e.1)) = true := by
  induction m with
  | nil => simp only [mapSet]; split <;> simp [hk]
  | cons e m ih =>
    obtain ⟨a, w⟩ := e
    simp only [List.all_cons, Bool.and_eq_true, decide_eq_true_eq] at h
    simp only [mapSet]
    split
    · split <;> simp only [List.all_cons, h, hk, decide_true, Bool.and_self]
    · split
      · split <;> simp only [List.all_cons, h, decide_true, Bool.and_self]
      · simp only [List.all_cons, h.1, ih h.2, decide_true, Bool.and_self]

/-- A write keeps the canonical form. -/
theorem mapWf_mapSet {m : List (Nat × α)} {n : Nat} {v : α} (h : mapWf d m = true) :
    mapWf d (mapSet d m n v) = true := by
  induction m with
  | nil => simp only [mapSet]; split <;> simp_all [mapWf]
  | cons e m ih =>
    obtain ⟨a, w⟩ := e
    rw [mapWf_cons] at h
    simp only [mapSet]
    split
    · rename_i hn
      split
      · exact mapWf_cons.2 h
      · rename_i hv
        refine mapWf_cons.2 ⟨hv, ?_, mapWf_cons.2 h⟩
        simp only [List.all_cons, Bool.and_eq_true, decide_eq_true_eq]
        refine ⟨hn, ?_⟩
        have h2 := h.2.1
        simp only [List.all_eq_true, decide_eq_true_eq] at h2 ⊢
        intro x hx; have := h2 x hx; omega
    · split
      · split
        · exact h.2.2
        · rename_i hv; exact mapWf_cons.2 ⟨hv, h.2.1, h.2.2⟩
      · rename_i h1 h2
        exact mapWf_cons.2 ⟨h.1, mapSet_all (by omega) h.2.1, ih h.2.2⟩

/-- A read after a write in canonical form: the value written at its number, else the old value. -/
theorem mapGet_mapSet {m : List (Nat × α)} {n k : Nat} {v : α} (h : mapWf d m = true) :
    mapGet d (mapSet d m n v) k = if k = n then v else mapGet d m k := by
  induction m with
  | nil =>
    simp only [mapSet]
    split
    · rename_i hv; subst hv; simp [mapGet]
    · simp [mapGet]
  | cons e m ih =>
    obtain ⟨a, w⟩ := e
    rw [mapWf_cons] at h
    have hlow : ∀ j, j ≤ a → mapGet d m j = d := fun j hj => mapGet_below (by
      have h2 := h.2.1
      simp only [List.all_eq_true, decide_eq_true_eq] at h2 ⊢
      intro x hx; have := h2 x hx; omega)
    simp only [mapSet]
    split
    · rename_i hn
      split
      · rename_i hv
        by_cases hk : k = n
        · subst hk
          have : k ≠ a := by omega
          simp [mapGet, this, hlow k (by omega), hv]
        · simp [hk]
      · simp only [mapGet]
    · split
      · rename_i hn
        subst hn
        split
        · rename_i hv
          by_cases hk : k = n
          · subst hk; simp [hlow k (by omega), hv]
          · simp [hk, mapGet]
        · simp only [mapGet]
          split <;> simp_all
      · rename_i h1 h2
        simp only [mapGet, ih h.2.2]
        by_cases hk : k = n
        · have : k ≠ a := by omega
          subst hk; simp [this]
        · simp [hk]

/-- A write leaves every other number's value, whatever the form of the list. -/
theorem mapGet_mapSet_ne {m : List (Nat × α)} {n k : Nat} {v : α} (h : k ≠ n) :
    mapGet d (mapSet d m n v) k = mapGet d m k := by
  induction m with
  | nil => simp only [mapSet]; split <;> simp [mapGet, h]
  | cons e m ih =>
    obtain ⟨a, w⟩ := e
    simp only [mapSet]
    split
    · split <;> simp [mapGet, h]
    · split
      · rename_i hn
        subst hn
        split <;> simp [mapGet, h]
      · simp only [mapGet, ih]

/-- How many listed pairs have a value that meets a test which the unlisted value fails: a write takes
the old value out of the count and the new one in. -/
theorem countP_mapSet {m : List (Nat × α)} {n : Nat} {v : α} (p : α → Bool) (hd : p d = false)
    (h : mapWf d m = true) :
    ((mapSet d m n v).filter fun e => p e.2).length + (if p (mapGet d m n) then 1 else 0)
      = (m.filter fun e => p e.2).length + (if p v then 1 else 0) := by
  induction m with
  | nil =>
    simp only [mapSet, mapGet]
    split
    · rename_i hv; subst hv; simp [hd]
    · by_cases hp : p v = true <;> simp [hp, hd]
  | cons e m ih =>
    obtain ⟨a, w⟩ := e
    rw [mapWf_cons] at h
    simp only [mapSet, mapGet]
    by_cases hna : n = a
    · subst hna
      simp only [Nat.lt_irrefl, if_false, if_true]
      split
      · rename_i hv; subst hv
        by_cases hw : p w = true <;> simp [hw, hd]
      · by_cases hw : p w = true <;> by_cases hp : p v = true <;> simp [hw, hp]
    · simp only [hna, if_false]
      split
      · rename_i hn
        have hb : mapGet d m n = d := mapGet_below (by
          have h2 := h.2.1
          simp only [List.all_eq_true, decide_eq_true_eq] at h2 ⊢
          intro x hx; have := h2 x hx; omega)
        split
        · rename_i hv; simp [hb, hv]
        · by_cases hp : p v = true <;> simp [hb, hd, hp]
      · have := ih h.2.2
        by_cases hw : p w = true <;> simp [hw] <;> omega

/-- The number of listed pairs at a write. -/
theorem length_mapSet {m : List (Nat × α)} {n : Nat} {v : α} (h : mapWf d m = true) :
    (mapSet d m n v).length + (if mapGet d m n = d then 0 else 1)
      = m.length + (if v = d then 0 else 1) := by
  induction m with
  | nil => simp only [mapSet, mapGet]; split <;> simp_all
  | cons e m ih =>
    obtain ⟨a, w⟩ := e
    rw [mapWf_cons] at h
    simp only [mapSet, mapGet]
    by_cases hna : n = a
    · subst hna
      simp only [Nat.lt_irrefl, if_false, if_true]
      split <;> simp_all
    · simp only [hna, if_false]
      split
      · rename_i hn
        have hb : mapGet d m n = d := mapGet_below (by
          have h2 := h.2.1
          simp only [List.all_eq_true, decide_eq_true_eq] at h2 ⊢
          intro x hx; have := h2 x hx; omega)
        split <;> simp_all
      · have := ih h.2.2
        simp only [List.length_cons]; omega

end Sys2Proof.Machine
end

