-- ==== Sys2Proof/Laws/Ops.lean ====
section
/-! SUPPORT. What each shared operation can do, said once: the table after an insertion, a removal and a
fault; the journal after an append; the store and the maps in canonical form after every operation on
them; and a grant in a calm state. -/

namespace Sys2Proof.Machine

/-! ## The table -/

/-- An insertion takes the first free cell and changes, beside the heads, only the counts, the free list
and the cell map (R73). -/
theorem insertEntry_table {s : State} {c : Nat} {rest : List Nat} (h n : Nat) (d : Option Nat)
    (e : Entry) (hf : s.table.free = c :: rest) :
    ∃ heads, (s.insertEntry h n d e).table =
      { s.table with
        heads := heads
        cellMap := mapSet none s.table.cellMap c (some h)
        free := rest
        inUse := s.table.inUse + 1
        freeCount := s.table.freeCount - 1
        openCount := s.table.openCount + 1
        longest := max s.table.longest (min 255 (n + 1)) } := by
  unfold State.insertEntry
  rw [hf]
  cases d <;> exact ⟨_, rfl⟩

/-- Without a free cell nothing is inserted. -/
theorem insertEntry_full {s : State} (h n : Nat) (d : Option Nat) (e : Entry)
    (hf : s.table.free = []) : s.insertEntry h n d e = s := by
  unfold State.insertEntry; rw [hf]

/-- A removal gives its cell to the tail of the free list and changes, beside the heads, only the counts
and the cell map (R74). -/
theorem removeEntry_table (s : State) (h c : Nat) (d : Option Nat) (o : Bool) :
    ∃ heads, (s.removeEntry h c d o).table =
      { s.table with
        heads := heads
        cellMap := mapSet none s.table.cellMap c none
        free := s.table.free ++ [c]
        inUse := s.table.inUse - 1
        freeCount := s.table.freeCount + 1
        openCount := if o then s.table.openCount - 1 else s.table.openCount } := by
  unfold State.removeEntry
  cases d <;> dsimp only <;> split <;> exact ⟨_, rfl⟩

/-- A table fault changes, of the table, only the heads and the damaged bucket count (R158). -/
theorem tableFault_table (s : State) (p : FaultPlace) (g : FaultGroup) (o : FaultOrigin) :
    ∃ heads n, (s.tableFault p g o).table =
      { s.table with heads := heads, damagedBuckets := n } := by
  unfold State.tableFault
  dsimp only
  split <;> exact ⟨_, _, rfl⟩

/-- Spending a key changes, of the table, only the binding map (R37). -/
theorem spendKey_table (s : State) (n : Nat) :
    ∃ b, (s.spendKey n).table = { s.table with binding := b } := by
  unfold State.spendKey
  split <;> exact ⟨_, rfl⟩

/-- Withdrawing a key changes, of the table, only the binding map (R35). -/
theorem withdrawKey_table (s : State) (n : Nat) :
    ∃ b, (s.withdrawKey n).table = { s.table with binding := b } := by
  unfold State.withdrawKey
  split
  · exact ⟨_, rfl⟩
  · exact ⟨_, by simp only [State.unbind, State.retireKey_table]; rfl⟩

/-- Pushing a key changes, of the table, only the binding map (R34). -/
theorem pushKey_table (s : State) (n : Nat) :
    ∃ b, (s.pushKey n).table = { s.table with binding := b } := by
  unfold State.pushKey
  split <;> exact ⟨_, rfl⟩

/-- Closing an entry changes, of the table, only the open count and the binding map (R69). -/
theorem closeEntry_table (s : State) (c : Nat) (e : Entry) (v : EntryState) :
    ∃ b, (s.closeEntry c e v).table =
      { s.table with openCount := s.table.openCount - 1, binding := b } := by
  unfold State.closeEntry
  obtain ⟨b, h⟩ := spendKey_table { (s.writeEntry c { e with state := v, slot := none, owner := none })
    with table := { (s.writeEntry c { e with state := v, slot := none, owner := none }).table with
      openCount := (s.writeEntry c { e with state := v, slot := none, owner := none }).table.openCount
        - 1 } } e.keyNo
  exact ⟨b, h⟩

/-! ## The journal -/

/-- An appended outcome consumes a reservation, and joins the queue unless no place is left (R149,
R150). -/
theorem appendOutcome_journal (s : State) (e : Entry) (k : JournalKind)
    (o : Option (Station × Site)) (r : Option Reason) (c : Option (Nat × Nat)) :
    (s.journal.reservations = 0 ∧ 256 ≤ s.journal.queue.length
        ∧ (s.appendOutcome e k o r c).journal = s.journal)
      ∨ ((s.journal.reservations ≠ 0 ∨ s.journal.queue.length < 256)
        ∧ (s.appendOutcome e k o r c).journal =
          { queue := s.journal.queue ++ [journalEntryOf s.journal.nextNumber e k o r c]
            reservations := s.journal.reservations - 1
            nextNumber := s.journal.nextNumber + 1 }) := by
  by_cases h : s.journal.reservations = 0 ∧ Config.journalPlaces ≤ s.held
  · refine .inl ⟨h.1, h.2, ?_⟩
    unfold State.appendOutcome; rw [if_pos h]
  · refine .inr ⟨?_, ?_⟩
    · by_cases h0 : s.journal.reservations = 0
      · refine .inr ?_
        have : ¬ Config.journalPlaces ≤ s.held := fun hc => h ⟨h0, hc⟩
        simpa [Config.journalPlaces, State.held] using this
      · exact .inl h0
    · unfold State.appendOutcome; rw [if_neg h]

/-- A freed reservation leaves the queue alone (R149). -/
theorem freeReservation_journal (s : State) :
    s.freeReservation.journal = { s.journal with reservations := s.journal.reservations - 1 } := by
  unfold State.freeReservation; simp

/-- A level-2 wait after it may have ended: it stands only while the journal has no room (R137). -/
theorem endWait_waiting (s : State) :
    s.endWait.sweeps.quarantine.waiting = true ↔
      s.sweeps.quarantine.waiting = true ∧ 256 ≤ s.journalSum := by
  unfold State.endWait
  split
  · rename_i h
    simp only [Bool.and_eq_true, decide_eq_true_eq] at h
    have : s.journalSum < 256 := h.2
    simp only [Bool.false_eq_true, false_iff, not_and]
    intro _; omega
  · rename_i h
    simp only [Bool.and_eq_true, decide_eq_true_eq, not_and] at h
    refine ⟨fun hw => ⟨hw, ?_⟩, fun hw => hw.1⟩
    have : ¬ s.journalSum < 256 := h hw
    omega

/-- What ending a wait leaves of the contexts (R137). -/
theorem endWait_sweeps (s : State) :
    s.endWait.sweeps = { s.sweeps with quarantine := { s.sweeps.quarantine with
      waiting := s.sweeps.quarantine.waiting && decide (256 ≤ s.journalSum) } } := by
  unfold State.endWait
  split
  · rename_i h
    simp only [Bool.and_eq_true, decide_eq_true_eq] at h
    have hs : s.journalSum < 256 := h.2
    have : ¬ 256 ≤ s.journalSum := by omega
    simp [this]
  · rename_i h
    simp only [Bool.and_eq_true, decide_eq_true_eq, not_and] at h
    have : (s.sweeps.quarantine.waiting && decide (256 ≤ s.journalSum))
        = s.sweeps.quarantine.waiting := by
      cases hq : s.sweeps.quarantine.waiting
      · rfl
      · have hs : ¬ s.journalSum < 256 := h hq
        simp only [Bool.true_and, decide_eq_true_eq]
        omega
    rw [this]

/-! ## The store and the maps keep their canonical form -/

theorem mapsOk_iff (s : State) : s.MapsOk ↔ mapWf zeroCell s.store = true
    ∧ mapWf zeroHead s.table.heads = true ∧ mapWf emptySlot s.pool.slots = true
    ∧ mapWf none s.table.cellMap = true ∧ mapWf none s.table.binding = true := by
  simp [State.MapsOk, State.mapsWf, Memory.wf, and_assoc]

theorem reset_mapsOk : State.reset.MapsOk := rfl

theorem mapsOk_of_eq {s t : State} (h : s.MapsOk) (h1 : t.store = s.store)
    (h2 : t.table.heads = s.table.heads) (h3 : t.pool.slots = s.pool.slots)
    (h4 : t.table.cellMap = s.table.cellMap) (h5 : t.table.binding = s.table.binding) : t.MapsOk := by
  rw [mapsOk_iff] at *; rw [h1, h2, h3, h4, h5]; exact h

theorem writeCell_mapsOk {s : State} (n : Nat) (c : StoreCell) (h : s.MapsOk) :
    (s.writeCell n c).MapsOk := by
  rw [mapsOk_iff] at *; exact ⟨mapWf_mapSet h.1, h.2⟩

theorem writeHead_mapsOk {s : State} (n : Nat) (c : BucketHead) (h : s.MapsOk) :
    (s.writeHead n c).MapsOk := by
  rw [mapsOk_iff] at *; exact ⟨h.1, mapWf_mapSet h.2.1, h.2.2⟩

theorem moveKey_mapsOk {s : State} (n : Nat) (v : KeySlot) (f : PoolCounts → PoolCounts)
    (h : s.MapsOk) : (s.moveKey n v f).MapsOk := by
  rw [mapsOk_iff] at *; exact ⟨h.1, h.2.1, mapWf_mapSet h.2.2.1, h.2.2.2⟩

theorem unbind_mapsOk {s : State} (n : Nat) (h : s.MapsOk) : (s.unbind n).MapsOk := by
  rw [mapsOk_iff] at *; exact ⟨h.1, h.2.1, h.2.2.1, h.2.2.2.1, mapWf_mapSet h.2.2.2.2⟩

theorem tableFault_mapsOk {s : State} (p : FaultPlace) (g : FaultGroup) (o : FaultOrigin)
    (h : s.MapsOk) : (s.tableFault p g o).MapsOk := by
  unfold State.tableFault
  dsimp only
  split
  · have := writeHead_mapsOk ‹Nat› { (s.recordFault p g o).head ‹Nat› with damaged := true } h
    exact mapsOk_of_eq this rfl rfl rfl rfl rfl
  · exact h

theorem retireKey_mapsOk {s : State} (n : Nat) (h : s.MapsOk) : (s.retireKey n).MapsOk := by
  unfold State.retireKey
  split
  · exact writeCell_mapsOk _ _ h
  · exact writeCell_mapsOk _ _ (moveKey_mapsOk _ _ _ h)

theorem spendKey_mapsOk {s : State} (n : Nat) (h : s.MapsOk) : (s.spendKey n).MapsOk := by
  unfold State.spendKey
  split
  · exact h
  · exact unbind_mapsOk _ (writeCell_mapsOk _ _ (moveKey_mapsOk _ _ _ h))

theorem withdrawKey_mapsOk {s : State} (n : Nat) (h : s.MapsOk) : (s.withdrawKey n).MapsOk := by
  unfold State.withdrawKey
  split
  · exact h
  · exact unbind_mapsOk _ (retireKey_mapsOk _ h)

theorem pushKey_mapsOk {s : State} (n : Nat) (h : s.MapsOk) : (s.pushKey n).MapsOk := by
  unfold State.pushKey
  split
  · exact h
  · exact unbind_mapsOk n (moveKey_mapsOk n _ _ h)

theorem bindKey_mapsOk {s : State} (n c : Nat) (h : s.MapsOk) : (s.bindKey n c).MapsOk := by
  have h' := moveKey_mapsOk n ⟨.bound, false⟩ (fun c => { c with bound := c.bound + 1 }) h
  rw [mapsOk_iff] at h' ⊢
  exact ⟨h'.1, h'.2.1, h'.2.2.1, h'.2.2.2.1, mapWf_mapSet h'.2.2.2.2⟩

theorem markKeyFault_mapsOk {s : State} (n : Nat) (h : s.MapsOk) : (s.markKeyFault n).MapsOk := by
  unfold State.markKeyFault
  split
  · exact moveKey_mapsOk _ _ _ h
  · exact moveKey_mapsOk _ _ _ h
  · rw [mapsOk_iff] at h ⊢; exact ⟨h.1, h.2.1, mapWf_mapSet h.2.2.1, h.2.2.2⟩
  · exact h
  · exact h

theorem keyFault_mapsOk {s : State} (n : Nat) (g : FaultGroup) (o : FaultOrigin) (h : s.MapsOk) :
    (s.keyFault n g o).MapsOk := by
  have := markKeyFault_mapsOk n (s := s.recordFault (.cell n) g o) h
  unfold State.keyFault
  dsimp only
  split <;> exact this

theorem removeEntry_mapsOk {s : State} (h c : Nat) (d : Option Nat) (o : Bool) (hs : s.MapsOk) :
    (s.removeEntry h c d o).MapsOk := by
  have key : ∀ u : State, u.MapsOk → ∀ x y z w,
      ({ (u.writeCell c zeroCell) with table := { (u.writeCell c zeroCell).table with
          cellMap := mapSet none (u.writeCell c zeroCell).table.cellMap c none
          free := x, inUse := y, freeCount := z, openCount := w } } : State).MapsOk := by
    intro u hu x y z w
    have := writeCell_mapsOk c zeroCell hu
    rw [mapsOk_iff] at this ⊢
    exact ⟨this.1, this.2.1, this.2.2.1, mapWf_mapSet this.2.2.2.1, this.2.2.2.2⟩
  unfold State.removeEntry
  dsimp only
  split
  · split
    · exact key _ (writeHead_mapsOk _ _ hs) _ _ _ _
    · exact key _ (writeHead_mapsOk _ _ hs) _ _ _ _
  · split
    · exact key _ (writeCell_mapsOk _ _ hs) _ _ _ _
    · exact key _ (writeCell_mapsOk _ _ hs) _ _ _ _

theorem insertEntry_mapsOk {s : State} (h n : Nat) (d : Option Nat) (e : Entry) (hs : s.MapsOk) :
    (s.insertEntry h n d e).MapsOk := by
  unfold State.insertEntry
  split
  · exact hs
  · rename_i c rest _
    have key : ∀ u : State, u.MapsOk → ∀ x y z w l,
        ({ u with table := { u.table with
            cellMap := mapSet none u.table.cellMap c (some h)
            free := x, inUse := y, freeCount := z, openCount := w, longest := l } } : State).MapsOk := by
      intro u hu x y z w l
      rw [mapsOk_iff] at hu ⊢
      exact ⟨hu.1, hu.2.1, hu.2.2.1, mapWf_mapSet hu.2.2.2.1, hu.2.2.2.2⟩
    dsimp only
    split
    · exact key _ (writeHead_mapsOk _ _ (writeCell_mapsOk _ _ hs)) _ _ _ _ _
    · exact key _ (writeCell_mapsOk _ _ (writeCell_mapsOk _ _ hs)) _ _ _ _ _

theorem closeEntry_mapsOk {s : State} (c : Nat) (e : Entry) (v : EntryState) (hs : s.MapsOk) :
    (s.closeEntry c e v).MapsOk :=
  spendKey_mapsOk _ (s := { (s.writeEntry c _) with table := _ }) (writeCell_mapsOk _ _ hs)

/-! ## Reads after writes -/

theorem cell_writeCell {s : State} (h : s.MapsOk) (n k : Nat) (c : StoreCell) :
    (s.writeCell n c).cell k = if k = n then c.written else s.cell k :=
  mapGet_mapSet ((mapsOk_iff s).1 h).1

theorem head_writeHead {s : State} (h : s.MapsOk) (n k : Nat) (c : BucketHead) :
    (s.writeHead n c).head k = if k = n then c.written else s.head k :=
  mapGet_mapSet ((mapsOk_iff s).1 h).2.1

theorem keySlot_moveKey {s : State} (h : s.MapsOk) (n k : Nat) (v : KeySlot)
    (f : PoolCounts → PoolCounts) :
    (s.moveKey n v f).keySlot k = if k = n then v else s.keySlot k :=
  mapGet_mapSet ((mapsOk_iff s).1 h).2.2.1

theorem slot_setSlot (s : State) (st st' : Station) (site site' : Site) (v : Slot) :
    (s.setSlot st site v).slot st' site' =
      if st' = st ∧ site' = site then v else s.slot st' site' := by
  unfold State.slot State.setSlot State.setStation
  simp only [Fin.getElem_fin, Vector.getElem_set]
  by_cases h : st' = st
  · subst h
    by_cases h2 : site' = site
    · subst h2; simp
    · have : ¬ (site.val = site'.val) := fun hc => h2 (Fin.ext hc.symm)
      simp [h2, this]
  · have : ¬ (st.val = st'.val) := fun hc => h (Fin.ext hc.symm)
    simp [h, this]

theorem link_setLink (s : State) (l l' : Link) (u : LinkUnit) :
    (s.setLink l u).link l' = if l' = l then u else s.link l' := by
  unfold State.link State.setLink
  simp only [Fin.getElem_fin, Vector.getElem_set]
  by_cases h : l' = l
  · subst h; simp
  · have : ¬ ((linkNo l).val = (linkNo l').val) := by
      intro hc
      apply h
      cases l <;> cases l' <;> simp only [linkNo, Fin.val_castSucc] at hc
      · rename_i a b; exact congrArg Link.station (Fin.ext hc.symm)
      · rename_i a; have := a.isLt; simp at hc; omega
      · rename_i a; have := a.isLt; simp at hc; omega
      · rfl
    simp [h, this]

/-! ## Grants in a calm state -/

theorem foldl_skip {α β : Type} {f : α → β → α} {s : α} (l : List β) (h : ∀ b ∈ l, f s b = s) :
    l.foldl f s = s := by
  induction l with
  | nil => rfl
  | cons b l ih =>
    rw [List.foldl_cons, h b (by simp)]
    exact ih fun b hb => h b (by simp [hb])

/-- Where no expiry is due none is taken. -/
theorem settleExpiries_calm {s : State} (h : s.Calm) : s.settleExpiries = s :=
  foldl_skip _ fun p _ => by simp [h.noExpiry]

/-- Where no boundary falls during a grant, none is applied at its end. -/
theorem endWork_calm {s : State} (h : s.deferred = []) : s.endWork = s := by
  unfold State.endWork
  rw [h]
  cases s
  simp only at h
  subst h
  rfl

/-- Where no boundary falls during an item, none is applied at its end. -/
theorem endItem_calm {s : State} (h : s.deferred = []) (k : Nat) : s.endItem k = s := by
  unfold State.endItem
  rw [h]
  cases s
  simp only at h
  subst h
  rfl

/-- Where no request reply waits none is sent ahead. -/
theorem makeRoom_room {s : State} {l : Link} (h : s.Room l) : s.makeRoom l = s := by
  have hw : s.replyWaits l = false := by
    unfold State.Room at h
    simpa [State.replyWaits] using h
  unfold State.makeRoom
  cases (s.link l).replies.length <;> simp [State.sendAhead, hw]

/-- Sending ahead takes replies off the front of one link's queue and may clear SWEEP_DONE, and nothing
else; where the fuel covers the queue, room is made. -/
theorem sendAhead_cases (l : Link) (n : Nat) (s : State) :
    ∃ q d, State.sendAhead l n s = { s.setLink l { s.link l with replies := q } with
          sweeps := { s.sweeps with sweepDone := d } }
      ∧ q <:+ (s.link l).replies ∧ (d = true → s.sweeps.sweepDone = true)
      ∧ ((s.link l).replies.length ≤ n → ∀ r ∈ q, r.linkLevel = true) := by
  have stay : ∀ s : State, s = { s.setLink l { s.link l with replies := (s.link l).replies } with
      sweeps := { s.sweeps with sweepDone := s.sweeps.sweepDone } } := by
    intro s
    have h : s.links.set (linkNo l) (s.link l) = s.links := by unfold State.link; simp
    unfold State.setLink
    simp [h]
  induction n generalizing s with
  | zero =>
    refine ⟨_, _, stay s, List.suffix_rfl, id, fun h r hr => ?_⟩
    rw [List.length_eq_zero_iff.mp (Nat.le_zero.mp h)] at hr
    cases hr
  | succ n ih =>
    rw [State.sendAhead]
    split
    · rename_i hw
      unfold State.sent
      match hq : (s.link l).replies with
      | [] => simp [State.replyWaits, hq] at hw
      | r :: rest =>
        simp only
        obtain ⟨q, d, he, hs, hd, hr⟩ := ih (if r.clearsDone then
          { s.setLink l { s.link l with replies := rest } with sweeps := { s.sweeps with sweepDone := false } }
          else s.setLink l { s.link l with replies := rest })
        have hl : ∀ b : Bool, (if b then ({ s.setLink l { s.link l with replies := rest } with
            sweeps := { s.sweeps with sweepDone := false } } : State)
            else s.setLink l { s.link l with replies := rest }).link l
              = { s.link l with replies := rest } := by
          intro b
          have := link_setLink s l l { s.link l with replies := rest }
          rw [if_pos rfl] at this
          cases b
          · exact this
          · exact this
        rw [hl] at he hs hr
        refine ⟨q, d, ?_, hs.trans (List.suffix_cons r rest), ?_, fun h => hr (by simpa using h)⟩
        · refine he.trans ?_
          split <;> simp [State.setLink]
        · split at hd
          · intro h; cases hd h
          · exact hd
    · rename_i hw
      refine ⟨_, _, stay s, List.suffix_rfl, id, fun _ r hr => ?_⟩
      simp only [State.replyWaits, Bool.not_eq_true, List.any_eq_false] at hw
      simpa using hw r hr

/-- Making room takes replies off the front of one link's queue until no request reply waits, and may
clear SWEEP_DONE, and nothing else (R165, R143, log 14). -/
theorem makeRoom_cases (s : State) (l : Link) :
    ∃ q d, s.makeRoom l = { s.setLink l { s.link l with replies := q } with
          sweeps := { s.sweeps with sweepDone := d } }
      ∧ q <:+ (s.link l).replies ∧ (d = true → s.sweeps.sweepDone = true)
      ∧ ∀ r ∈ q, r.linkLevel = true := by
  obtain ⟨q, d, he, hs, hd, hr⟩ := sendAhead_cases l (s.link l).replies.length s
  exact ⟨q, d, he, hs, hd, hr le_rfl⟩

/-- After it the queue has room for the request's reply (R165). -/
theorem makeRoom_makes_room (s : State) (l : Link) : (s.makeRoom l).Room l := by
  obtain ⟨q, d, he, -, -, hr⟩ := makeRoom_cases s l
  have := link_setLink s l l { s.link l with replies := q }
  rw [if_pos rfl] at this
  unfold State.Room
  rw [he]
  intro r h
  apply hr
  change r ∈ ((s.setLink l { s.link l with replies := q }).link l).replies at h
  rwa [this] at h

/-- A granted request command: the rule's decision and the reply. -/
theorem request_granted {s : State} {l : Link} {r : Request} (h : s.Granted l r)
    (act : State → Option ReplyBody × State) :
    s.request l r act = (placeReply l (kindOf r) ((s.taken l).decideRequest r act)).endWork := by
  unfold State.request
  simp only [settleExpiries_calm h.calm, h.held, h.turn, and_self, if_true, makeRoom_room h.room]
  rfl

/-- An offered sweep step: the step itself, with the pointer moved on. -/
theorem sweepStep_offered {s : State} {k : SweepStep} (h : s.Offered k) (act : State → State) :
    s.sweepStep k act = (act s.swept).endWork := by
  unfold State.sweepStep
  simp only [settleExpiries_calm h.calm, h.offer, h.turn, and_self, if_true]
  rfl

/-- The reply to a request that has left its link is the answer of Safety. -/
theorem reply_taken (s : State) (l : Link) (k : Byte) (b : ReplyBody) :
    (s.taken l).reply l k b = s.answered l k b ((s.taken l).reportsDone b) := by
  have h1 : (s.taken l).link l = { s.link l with request := none } := by
    have := link_setLink s l l { s.link l with request := none }
    rw [if_pos rfl] at this
    exact this
  unfold State.reply
  rw [h1]
  unfold State.setLink State.answered State.taken
  simp

end Sys2Proof.Machine
end

