-- ==== Sys2Proof/Laws/Entries.lean ====
section
/-! SUPPORT. What the shared operations on entries do, said once in the terms of Safety: an entry
rewritten in place, an open entry ended, withdrawn, returned and removed; and what a reference access and
the site check answer. -/

namespace Sys2Proof.Machine

/-! ## Reads through updates -/

theorem cell_congr {s t : State} (h : t.store = s.store) (n : Nat) : t.cell n = s.cell n := by
  unfold State.cell; rw [h]

theorem head_congr {s t : State} (h : t.table.heads = s.table.heads) (n : Nat) :
    t.head n = s.head n := by
  unfold State.head; rw [h]

theorem keySlot_congr {s t : State} (h : t.pool.slots = s.pool.slots) (n : Nat) :
    t.keySlot n = s.keySlot n := by
  unfold State.keySlot; rw [h]

theorem cellBucket_congr {s t : State} (h : t.table.cellMap = s.table.cellMap) (n : Nat) :
    t.cellBucket n = s.cellBucket n := by
  unfold State.cellBucket; rw [h]

theorem keySlots_congr {s t : State} (h : t.lot = s.lot) : t.keySlots = s.keySlots := by
  unfold State.keySlots; rw [h]

/-- A cell keeps its value through the write of another. -/
theorem cell_writeCell_ne {s : State} {n k : Nat} (h : k ≠ n) (c : StoreCell) :
    (s.writeCell n c).cell k = s.cell k := by
  unfold State.writeCell State.cell; exact mapGet_mapSet_ne h

/-! ## Entries in place -/

/-- An entry written in place is read back whole, and its chain link stands (R66, R72). -/
theorem writeEntry_rewrites {s : State} (h : s.MapsOk) (c : Nat) (e : Entry) :
    s.Rewrites (s.writeEntry c e) c e := by
  have hc : (s.writeEntry c e).cell c
      = StoreCell.written { s.cell c with content := entryContent e } := by
    unfold State.writeEntry
    rw [cell_writeCell h, if_pos rfl]
  constructor
  · unfold State.entryAt; rw [hc, written_content]; exact entryOf_entryContent e
  · unfold State.entryFault; rw [hc]; exact cellFault_written _ _ (entryCheckOk_content e)
  · rw [hc, written_next]
  · rw [hc, written_last]

theorem writeEntry_cells (s : State) (c : Nat) (e : Entry) : s.onlyCells (s.writeEntry c e) [c] := by
  intro n hn
  exact cell_writeCell_ne (by simpa using hn) _

/-- What a rewriting of one cell says stays said of a state with the same store. -/
theorem Rewrites.congr {s t u : State} {c : Nat} {e : Entry} (h : s.Rewrites t c e)
    (hc : u.cell c = t.cell c) : s.Rewrites u c e := by
  obtain ⟨h1, h2, h3, h4⟩ := h
  unfold State.entryAt at h1
  unfold State.entryFault at h2
  constructor
  · unfold State.entryAt; rw [hc]; exact h1
  · unfold State.entryFault; rw [hc]; exact h2
  · rw [hc]; exact h3
  · rw [hc]; exact h4

/-- A reference access that reaches its entry hands it over and changes nothing (R72). -/
theorem access_reaches {s : State} {c : Nat} {e : Entry} (h : s.Reaches c e) (o : FaultOrigin) :
    s.access o c = (some e, s) := by
  unfold State.access
  simp only [h.bucket, h.head, h.whole, h.cell, h.entry, Bool.false_eq_true, if_false]

/-- A reference access into a bucket marked damaged reports DAMAGED and changes nothing (R72, R158). -/
theorem access_frozen {s : State} {c h : Nat} (hb : s.cellBucket c = some h)
    (hp : s.headFault h = false) (hd : (s.head h).damaged = true) (o : FaultOrigin) :
    s.access o c = (none, s) := by
  unfold State.access
  simp only [hb, hp, hd, Bool.false_eq_true, if_false, if_true]

/-- A lookup that finds an entry changes nothing (R70). -/
theorem lookup_of_found {s : State} {w x y : Byte} {c : Nat} {pred : Option Nat}
    (h : s.find w x y = .found c pred) (o : FaultOrigin) :
    s.lookup o w x y = (.found c pred, s) := by
  unfold State.lookup; rw [h]

/-- A lookup that finds no entry changes nothing (R70). -/
theorem lookup_notFound {s : State} {w x y : Byte} {n : Nat} {last : Option Nat}
    (h : s.find w x y = .notFound n last) (o : FaultOrigin) :
    s.lookup o w x y = (.notFound n last, s) := by
  unfold State.lookup; rw [h]

theorem siteOf_val {b : Byte} {site : Site} (h : b.toNat = site.val) : siteOf b = some site := by
  have hs := site.isLt
  unfold siteOf
  rw [dif_pos (by omega)]
  congr 1
  exact Fin.ext h

theorem siteOf_some {b : Byte} {site : Site} (h : siteOf b = some site) : b.toNat = site.val := by
  unfold siteOf at h
  split at h
  · simp only [Option.some.injEq] at h; rw [← h]
  · cases h

/-! ## Keys of open entries -/

/-- Spending a BOUND slot (R37). -/
theorem spendKey_bound {s : State} {n : Nat} (h : (s.keySlot n).state = .bound) :
    s.spendKey n = { s with
      store := mapSet zeroCell s.store n zeroCell
      pool := { s.pool with
        slots := mapSet emptySlot s.pool.slots n emptySlot
        counts := { s.pool.counts with
          bound := s.pool.counts.bound - 1, spent := s.pool.counts.spent + 1 } }
      table := { s.table with binding := mapSet none s.table.binding n none } } := by
  unfold State.spendKey
  rw [if_neg (by rw [h]; decide)]
  unfold State.moveKey State.writeCell State.unbind
  rw [zeroCell_written, h]
  rfl

/-- Withdrawing a BOUND slot (R35). -/
theorem withdrawKey_bound {s : State} {n : Nat} (h : (s.keySlot n).state = .bound) :
    s.withdrawKey n = { s with
      store := mapSet zeroCell s.store n zeroCell
      pool := { s.pool with
        slots := mapSet emptySlot s.pool.slots n emptySlot
        counts := { s.pool.counts with
          bound := s.pool.counts.bound - 1, retired := s.pool.counts.retired + 1 } }
      table := { s.table with binding := mapSet none s.table.binding n none } } := by
  unfold State.withdrawKey State.retireKey
  rw [if_neg (by rw [h]; decide), if_neg (by rw [h]; decide)]
  unfold State.moveKey State.writeCell State.unbind
  rw [zeroCell_written, h]
  rfl

/-- Pushing a BOUND slot on the return stack (R34 row 4). -/
theorem pushKey_bound {s : State} {n : Nat} (h : (s.keySlot n).state = .bound) :
    s.pushKey n = { s with
      pool := { s.pool with
        slots := mapSet emptySlot s.pool.slots n ⟨.returned, false⟩
        stack := n :: s.pool.stack
        counts := { s.pool.counts with
          bound := s.pool.counts.bound - 1, returned := s.pool.counts.returned + 1 } }
      table := { s.table with binding := mapSet none s.table.binding n none } } := by
  unfold State.pushKey
  rw [if_neg (by rw [h]; decide)]
  unfold State.moveKey State.unbind
  rw [h]
  rfl

/-- An outcome whose entry holds a reservation is appended on it (R149, R150). -/
theorem appendOutcome_reserved {s : State} (h : 0 < s.journal.reservations) (e : Entry)
    (k : JournalKind) (o : Option (Station × Site)) (r : Option Reason) (c : Option (Nat × Nat)) :
    s.appendOutcome e k o r c = { s with journal := s.journaled e k o r c } := by
  unfold State.appendOutcome
  rw [if_neg (by omega)]
  rfl

theorem OpenEntry.keyNo {s : State} {c : Nat} {e : Entry} {n : Fin 8192} (h : s.OpenEntry c e n) :
    e.keyNo = n.val := by
  unfold Entry.keyNo; rw [h.key]

theorem OpenEntry.apart {s : State} {c : Nat} {e : Entry} {n : Fin 8192} (h : s.OpenEntry c e n) :
    n.val ≠ c := by
  have := h.place; omega

/-- An open entry that becomes final with its outcome journaled (R37, R69, R149). -/
theorem closeEntry_ends {s : State} {c : Nat} {e : Entry} {n : Fin 8192} (h : s.OpenEntry c e n)
    (final : EntryState) (kind : JournalKind) (origin : Option (Station × Site))
    (reason : Option Reason) (counts : Option (Nat × Nat)) :
    s.Ends ((s.closeEntry c e final).appendOutcome e kind origin reason counts) c e n final kind
      origin reason counts := by
  have hne := OpenEntry.apart h
  let v : Entry := { e with state := final, slot := none, owner := none }
  let u : State := { (s.writeEntry c v) with
    table := { (s.writeEntry c v).table with
      openCount := (s.writeEntry c v).table.openCount - 1 } }
  have hu : s.closeEntry c e final = u.spendKey n := by
    unfold State.closeEntry; rw [OpenEntry.keyNo h]
  have hb : (u.keySlot n).state = .bound := h.bound
  rw [hu, spendKey_bound hb, appendOutcome_reserved (by exact h.reserved)]
  have hm : mapWf zeroCell u.store = true := mapWf_mapSet ((mapsOk_iff s).1 h.maps).1
  have hcell : ∀ k, mapGet zeroCell (mapSet zeroCell u.store n zeroCell) k
      = if k = n.val then zeroCell else (s.writeEntry c v).cell k := fun k => mapGet_mapSet hm
  constructor
  · refine Rewrites.congr (writeEntry_rewrites h.maps c v) ?_
    exact (hcell c).trans (if_neg (fun hc => hne hc.symm))
  · exact (hcell n).trans (if_pos rfl)
  · intro k hk
    simp only [List.mem_cons, List.not_mem_nil, or_false, not_or] at hk
    exact ((hcell k).trans (if_neg hk.2)).trans (writeEntry_cells s c v k (by simpa using hk.1))
  · rfl
  · rfl
  · rfl

/-- An open entry voided with a reason (R69). -/
theorem voidEntry_ends {s : State} {c : Nat} {e : Entry} {n : Fin 8192} (h : s.OpenEntry c e n)
    (reason : Reason) (origin : Option (Station × Site)) (counts : Option (Nat × Nat)) :
    s.Ends (s.voidEntry c e reason origin counts) c e n .void .voided origin (some reason) counts :=
  closeEntry_ends h .void .voided origin (some reason) counts

/-! ## Removals -/

/-- A removal, whose predecessor is another cell, is the four cases of R74. -/
theorem removeEntry_removes {s : State} (hm : s.MapsOk) (h c : Nat) (pred : Option Nat) (o : Bool)
    (hd : ∀ d, pred = some d → d ≠ c) :
    s.Removes (s.removeEntry h c pred o) h c pred o
      ∧ s.onlyCells (s.removeEntry h c pred o) (c :: pred.toList) := by
  obtain ⟨heads, ht⟩ := removeEntry_table s h c pred o
  have hmap : ∀ k, (s.removeEntry h c pred o).cellBucket k
      = if k = c then none else s.cellBucket k := by
    intro k
    unfold State.cellBucket
    rw [ht]
    exact mapGet_mapSet ((mapsOk_iff s).1 hm).2.2.2.1
  have hz : ∀ {u : State} (x y z w v), u.MapsOk → ∀ k,
      ({ (u.writeCell c zeroCell) with table := { (u.writeCell c zeroCell).table with
        cellMap := x, free := y, inUse := z, freeCount := w, openCount := v } } : State).cell k
      = if k = c then zeroCell else u.cell k := by
    intro u x y z w v hu k
    have := cell_writeCell hu c k zeroCell
    rw [zeroCell_written] at this
    exact this
  cases pred with
  | none =>
    have hcells : ∀ k, (s.removeEntry h c none o).cell k = if k = c then zeroCell else s.cell k := by
      intro k
      unfold State.removeEntry
      dsimp only
      split
      · rw [hz _ _ _ _ _ (writeHead_mapsOk _ _ hm)]; rfl
      · rw [hz _ _ _ _ _ (writeHead_mapsOk _ _ hm)]; rfl
    refine ⟨⟨?_, ?_, ?_, hmap, ?_, ?_, ?_, ?_, ?_, ?_⟩, ?_⟩
    · intro k
      have h0 : ∀ hd' : BucketHead, (s.writeHead h hd').head k
          = if k = h then hd'.written else s.head k := fun hd' => head_writeHead hm h k hd'
      unfold State.removeEntry
      dsimp only
      by_cases hl : s.isLast c = true
      · rw [if_pos hl]
        refine (h0 _).trans ?_
        simp only [hl, if_true, and_true]
      · rw [if_neg hl]
        refine (h0 _).trans ?_
        simp only [hl, if_false, and_true, Bool.false_eq_true]
    · intro d h; cases h
    · rw [hcells, if_pos rfl]
    · rw [ht]
    · rw [ht]
    · rw [ht]
    · rw [ht]
    · rw [ht]
    · rw [ht]
    · intro k hk
      rw [hcells, if_neg (by simpa using hk)]
  | some d =>
    have hdc : d ≠ c := hd d rfl
    have hcells : ∀ k, (s.removeEntry h c (some d) o).cell k = if k = c then zeroCell
        else if k = d then StoreCell.written { s.cell d with
          next := if s.isLast c then 0 else (s.cell c).next
          last := if s.isLast c then 1 else 0 }
        else s.cell k := by
      intro k
      unfold State.removeEntry
      dsimp only
      by_cases hl : s.isLast c = true
      · rw [if_pos hl, hz _ _ _ _ _ (writeCell_mapsOk _ _ hm), cell_writeCell hm]
        simp only [hl, if_true]
      · rw [if_neg hl, hz _ _ _ _ _ (writeCell_mapsOk _ _ hm), cell_writeCell hm]
        simp only [hl, if_false, Bool.false_eq_true]
    have hcd := hcells d
    rw [if_neg hdc, if_pos rfl] at hcd
    refine ⟨⟨?_, ?_, ?_, hmap, ?_, ?_, ?_, ?_, ?_, ?_⟩, ?_⟩
    · intro k
      have : (s.removeEntry h c (some d) o).head k = s.head k := by
        unfold State.removeEntry
        dsimp only
        split <;> rfl
      rw [this]
      simp
    · rintro d' h
      cases h
      rw [hcd]
      refine ⟨written_content _, written_next _, written_last _, ?_, ?_⟩
      · simp only [StoreCell.written, linkParityOf]
      · simp only [StoreCell.written]
    · rw [hcells, if_pos rfl]
    · rw [ht]
    · rw [ht]
    · rw [ht]
    · rw [ht]
    · rw [ht]
    · rw [ht]
    · intro k hk
      simp only [Option.toList_some, List.mem_cons, List.not_mem_nil, or_false, not_or] at hk
      rw [hcells, if_neg hk.1, if_neg hk.2]

/-- A cell that a walk found with its predecessor: both are in the chain's bucket, and they differ. -/
theorem walk_found_place {s : State} {h : Nat} {w x y : Byte} {c : Nat} {pred : Option Nat} :
    ∀ {fuel n : Nat} {p : Option Nat} {k : Nat},
      (∀ d, p = some d → s.inChain h d = true
        ∧ ¬ ((s.entryAt d).wafer = w ∧ (s.entryAt d).x = x ∧ (s.entryAt d).y = y)) →
      s.walk h w x y fuel n p k = .found c pred →
      s.inChain h c = true ∧ s.entryFault c = none
        ∧ ((s.entryAt c).wafer = w ∧ (s.entryAt c).x = x ∧ (s.entryAt c).y = y)
        ∧ ∀ d, pred = some d → s.inChain h d = true
          ∧ ¬ ((s.entryAt d).wafer = w ∧ (s.entryAt d).x = x ∧ (s.entryAt d).y = y) := by
  intro fuel
  induction fuel with
  | zero => intro n p k _ hw; simp [State.walk] at hw
  | succ fuel ih =>
    intro n p k hp hw
    unfold State.walk at hw
    split at hw
    · cases hw
    · rename_i hin
      simp only [Bool.not_eq_true', Bool.not_eq_false] at hin
      split at hw
      · cases hw
      · rename_i hf
        split at hw
        · rename_i hid
          cases hw
          exact ⟨hin, hf, hid, hp⟩
        · rename_i hid
          split at hw
          · cases hw
          · exact ih (fun d hd => by cases hd; exact ⟨hin, hid⟩) hw

/-- What a lookup hands over when it finds an entry (R70, R71). -/
theorem find_found_place {s : State} {w x y : Byte} {c : Nat} {pred : Option Nat}
    (h : s.find w x y = .found c pred) :
    s.inChain (bucketOf w x y) c = true ∧ s.entryFault c = none
      ∧ ((s.entryAt c).wafer = w ∧ (s.entryAt c).x = x ∧ (s.entryAt c).y = y)
      ∧ ∀ d, pred = some d → d ≠ c ∧ s.inChain (bucketOf w x y) d = true := by
  unfold State.find at h
  dsimp only at h
  split at h
  · cases h
  · split at h
    · cases h
    · split at h
      · cases h
      · have := walk_found_place (by intro d hd; cases hd) h
        refine ⟨this.1, this.2.1, this.2.2.1, fun d hd => ⟨?_, (this.2.2.2 d hd).1⟩⟩
        rintro rfl
        exact (this.2.2.2 d hd).2 this.2.2.1

/-- What a lookup hands over when it finds no entry (R70, R71): the last cell is in the chain. -/
theorem walk_notFound {s : State} {h : Nat} {w x y : Byte} {len : Nat} {last : Option Nat} :
    ∀ {fuel n : Nat} {p : Option Nat} {k : Nat},
      s.walk h w x y fuel n p k = .notFound len last →
      ∃ d, last = some d ∧ s.inChain h d = true ∧ s.isLast d = true ∧ 0 < len := by
  intro fuel
  induction fuel with
  | zero => intro n p k hw; simp [State.walk] at hw
  | succ fuel ih =>
    intro n p k hw
    unfold State.walk at hw
    split at hw
    · cases hw
    · rename_i hin
      simp only [Bool.not_eq_true', Bool.not_eq_false] at hin
      split at hw
      · cases hw
      · split at hw
        · cases hw
        · split at hw
          · rename_i hl
            cases hw
            exact ⟨k, rfl, hin, hl, by omega⟩
          · exact ih hw

/-- The chain that a lookup without success saw: empty, or with a last cell in its bucket (R70). -/
theorem find_notFound {s : State} {w x y : Byte} {len : Nat} {last : Option Nat}
    (h : s.find w x y = .notFound len last) :
    (len = 0 ∧ last = none ∧ (s.head (bucketOf w x y)).valid = false)
      ∨ ∃ d, last = some d ∧ s.inChain (bucketOf w x y) d = true ∧ s.isLast d = true ∧ 0 < len := by
  unfold State.find at h
  dsimp only at h
  split at h
  · cases h
  · split at h
    · cases h
    · split at h
      · rename_i hv
        cases h
        exact .inl ⟨rfl, rfl, by simpa using hv⟩
      · exact .inr (walk_notFound h)

theorem inChain_iff {s : State} {h c : Nat} :
    s.inChain h c = true ↔ s.keySlots ≤ c ∧ c < 8192 ∧ s.cellBucket c = some h := by
  simp only [State.inChain, Bool.and_eq_true, decide_eq_true_eq, and_assoc]
  exact Iff.rfl

/-- An open entry whose key is withdrawn, and which is removed from the place its walk found (R35, R74). -/
theorem withdrawEntry_withdraws {s : State} {c c' : Nat} {pred : Option Nat} {e : Entry}
    {n : Fin 8192} (h : s.OpenEntry c e n) (hc : s.keySlots ≤ c')
    (hd : ∀ d, pred = some d → d ≠ c' ∧ s.keySlots ≤ d) (reason : Reason)
    (origin : Option (Station × Site)) :
    s.Withdraws (s.withdrawEntry c' pred e reason origin) c' pred e n reason origin := by
  have hn := h.place.1
  let u : State := (s.withdrawKey n).appendOutcome e .keyWithdrawn origin (some reason) none
  have hu : u = { s with
      store := mapSet zeroCell s.store n zeroCell
      pool := { s.pool with
        slots := mapSet emptySlot s.pool.slots n emptySlot
        counts := { s.pool.counts with
          bound := s.pool.counts.bound - 1, retired := s.pool.counts.retired + 1 } }
      table := { s.table with binding := mapSet none s.table.binding n none }
      journal := s.journaled e .keyWithdrawn origin (some reason) none } := by
    simp only [u]
    rw [withdrawKey_bound h.bound, appendOutcome_reserved (by exact h.reserved)]
    rfl
  have hw : s.withdrawEntry c' pred e reason origin
      = u.removeEntry (bucketOf e.wafer e.x e.y) c' pred true := by
    unfold State.withdrawEntry; rw [OpenEntry.keyNo h]
  have hmu : u.MapsOk := by
    have h1 := withdrawKey_mapsOk n.val h.maps
    exact mapsOk_of_eq h1 (by simp [u]) (by simp [u]) (by simp [u]) (by simp [u]) (by simp [u])
  have hcell : ∀ k, u.cell k = if k = n.val then zeroCell else s.cell k := by
    intro k; rw [hu]; exact mapGet_mapSet ((mapsOk_iff s).1 h.maps).1
  have hne : ∀ k, s.keySlots ≤ k → k ≠ n.val := fun k hk => by omega
  have hlast : u.isLast c' = s.isLast c' := by
    unfold State.isLast; rw [hcell, if_neg (hne c' hc)]
  have hrem := removeEntry_removes hmu (bucketOf e.wafer e.x e.y) c' pred true
    (fun d hdd => (hd d hdd).1)
  have hhead : ∀ k, u.head k = s.head k := fun k => by rw [hu]; rfl
  have hbucket : ∀ k, u.cellBucket k = s.cellBucket k := fun k => by rw [hu]; rfl
  have hcc : u.cell c' = s.cell c' := by rw [hcell, if_neg (hne c' hc)]
  obtain ⟨heads, ht⟩ := removeEntry_table u (bucketOf e.wafer e.x e.y) c' pred true
  rw [hw]
  constructor
  · obtain ⟨⟨r1, r2, r3, r4, r5, r6, r7, r8, r9, r10⟩, r11⟩ := hrem
    constructor
    · intro k; rw [r1 k, hlast, hcc, hhead, hhead]
    · intro d hdd
      have := r2 d hdd
      have hcd : u.cell d = s.cell d := by rw [hcell, if_neg (hne d (hd d hdd).2)]
      rw [hcd, hlast, hcc] at this
      exact this
    · exact r3
    · intro k; rw [r4 k, hbucket]
    · rw [r5, hu]
    · rw [r6, hu]
    · rw [r7, hu]
    · rw [r8, hu]
    · rw [r9, hu]
    · rw [r10, hu]
  · rw [hrem.2 n.val (by
      simp only [List.mem_cons, not_or, Option.mem_toList]
      exact ⟨fun hk => hne c' hc hk.symm, fun hk => hne _ (hd _ hk).2 rfl⟩), hcell, if_pos rfl]
  · intro k hk
    simp only [List.mem_cons, not_or] at hk
    rw [hrem.2 k (by simp only [List.mem_cons, not_or]; exact ⟨hk.1, hk.2.2⟩), hcell, if_neg hk.2.1]
  · rw [ht, hu]
  · rw [State.removeEntry_pool, hu]
  · rw [State.removeEntry_journal, hu]

/-- An open entry whose key goes on the return stack, and which is removed from the place its walk found
(R34, R74, R149). -/
theorem returnEntry_returns {s : State} {c c' : Nat} {pred : Option Nat} {e : Entry}
    {n : Fin 8192} (h : s.OpenEntry c e n)
    (hd : ∀ d, pred = some d → d ≠ c') :
    s.Returns (((s.pushKey e.keyNo).freeReservation).removeEntry
      (bucketOf e.wafer e.x e.y) c' pred true) c' pred e n := by
  rw [OpenEntry.keyNo h]
  let u : State := (s.pushKey n).freeReservation
  have hp := pushKey_bound h.bound
  have hpool : u.pool = { s.pool with
      slots := mapSet emptySlot s.pool.slots n ⟨.returned, false⟩
      stack := n.val :: s.pool.stack
      counts := { s.pool.counts with
        bound := s.pool.counts.bound - 1, returned := s.pool.counts.returned + 1 } } := by
    simp only [u, State.freeReservation_pool, hp]
  have htable : u.table = { s.table with binding := mapSet none s.table.binding n none } := by
    simp only [u, State.freeReservation_table, hp]
  have hstore : u.store = s.store := by
    simp only [u, State.freeReservation_store, hp]
  have hj : u.journal = { s.journal with reservations := s.journal.reservations - 1 } := by
    simp only [u, freeReservation_journal, hp]
  have hsw : u.sweeps = { s.sweeps with quarantine := { s.sweeps.quarantine with
      waiting := s.sweeps.quarantine.waiting
        && decide (256 ≤ s.journal.queue.length + (s.journal.reservations - 1)) } } := by
    simp only [u, State.freeReservation, endWait_sweeps, State.journalSum, State.held, hp]
    rfl
  have hmu : u.MapsOk := by
    have h1 := pushKey_mapsOk n.val h.maps
    exact mapsOk_of_eq h1 (by simp [u]) (by simp [u]) (by simp [u]) (by simp [u]) (by simp [u])
  have hcell : ∀ k, u.cell k = s.cell k := fun k => cell_congr hstore k
  have hhead : ∀ k, u.head k = s.head k := fun k => head_congr (by rw [htable]) k
  have hbucket : ∀ k, u.cellBucket k = s.cellBucket k :=
    fun k => cellBucket_congr (by rw [htable]) k
  have hlast : u.isLast c' = s.isLast c' := by unfold State.isLast; rw [hcell]
  have hrem := removeEntry_removes hmu (bucketOf e.wafer e.x e.y) c' pred true hd
  obtain ⟨heads, ht⟩ := removeEntry_table u (bucketOf e.wafer e.x e.y) c' pred true
  show s.Returns (u.removeEntry (bucketOf e.wafer e.x e.y) c' pred true) c' pred e n
  constructor
  · obtain ⟨⟨r1, r2, r3, r4, r5, r6, r7, r8, r9, r10⟩, r11⟩ := hrem
    constructor
    · intro k; rw [r1 k, hlast, hcell, hhead, hhead]
    · intro d hdd
      have := r2 d hdd
      rw [hcell d, hlast, hcell] at this
      exact this
    · exact r3
    · intro k; rw [r4 k, hbucket]
    · rw [r5, htable]
    · rw [r6, htable]
    · rw [r7, htable]
    · rw [r8, htable]
    · rw [r9, htable]
    · rw [r10, htable]
  · intro k hk; rw [hrem.2 k hk, hcell]
  · rw [ht, htable]
  · rw [State.removeEntry_pool, hpool]
  · rw [State.removeEntry_journal, hj]
  · rw [State.removeEntry_sweeps, hsw]

/-- Why a return is a withdrawal, in the order of R34. -/
theorem returnRefusal_is {s : State} {e : Entry} {n : Fin 8192} (hk : e.slot = some n)
    {why : Option Reason} (h : s.returnIs e n why) : s.returnRefusal e = why := by
  have hno : e.keyNo = n.val := by unfold Entry.keyNo; rw [hk]
  unfold State.returnRefusal
  rw [hno]
  rcases why with _ | r
  · obtain ⟨h1, h2, h3⟩ := h
    have : ¬ Config.returnDepth ≤ s.pool.stack.length := by simpa [Config.returnDepth] using h3
    simp [h1, h2, this]
  · cases r <;> simp only [State.returnIs] at h
    · simp [h]
    · have : Config.returnDepth ≤ s.pool.stack.length := h.2.2
      simp [h.1, h.2.1, this]
    · simp [h]

end Sys2Proof.Machine
end

