-- ==== Sys2Proof/Laws/Grants.lean ====
section
/-! SUPPORT. Grants of requests in a calm state: the rule runs on the state that the grant has taken,
and its reply is the answer of Safety; a list request of one item is that item and its answer. -/

namespace Sys2Proof.Machine

/-- The lot state takes every request in OPEN and LOCKED (R2). -/
theorem lotGate_taking {s : State} (h : s.taking) (r : Request) : lotGate s.lot.state r = none := by
  rcases h with h | h <;> rw [h] <;> rfl

/-- A granted request whose lot state takes it is decided by its own rule. -/
theorem request_decided {s : State} {l : Link} {r : Request} (h : s.Granted l r)
    (hg : lotGate s.lot.state r = none) (act : State → Option ReplyBody × State) :
    s.request l r act = (placeReply l (kindOf r) (act (s.taken l))).endWork := by
  rw [request_granted h]
  unfold State.decideRequest
  rw [show (s.taken l).lot.state = s.lot.state from rfl, hg]

/-- A granted request that R2 refuses. -/
theorem request_refused {s : State} {l : Link} {r : Request} {c : Code} (h : s.Granted l r)
    (hg : lotGate s.lot.state r = some c) (act : State → Option ReplyBody × State) :
    s.request l r act = s.answeredCode l (kindOf r) c := by
  rw [request_granted h]
  unfold State.decideRequest
  rw [show (s.taken l).lot.state = s.lot.state from rfl, hg]
  have := reply_taken s l (kindOf r) (.code c)
  have hd : (s.answered l (kindOf r) (.code c) false).deferred = [] := h.calm.noBoundary
  show ((s.taken l).reply l (kindOf r) (.code c)).endWork = _
  rw [this, endWork_calm (by exact hd)]
  rfl

/-- A reply that does not report the SWEEP_DONE latch, placed on a state whose links and arbiter are
those that the grant left. -/
theorem replies_reply {s u : State} {l : Link} (k : Byte) {b : ReplyBody}
    (hl : u.links = (s.taken l).links) (ha : u.arbiter = (s.taken l).arbiter)
    (hb : u.reportsDone b = false) : s.Replies (u.reply l k b) l k b false := by
  have h0 := reply_taken s l k b
  have hlk : u.link l = (s.taken l).link l := by unfold State.link; rw [hl]
  constructor
  · show u.arbiter = _
    rw [ha]; rfl
  · have h1 : ((s.taken l).reply l k b).links
        = ((s.taken l).setLink l { (s.taken l).link l with
          replies := ((s.taken l).link l).replies ++ [⟨k, b, false, (s.taken l).reportsDone b⟩]
          outstanding := false }).links := rfl
    have h2 : (u.reply l k b).links = (s.taken l).links.set (linkNo l)
        { (s.taken l).link l with
          replies := ((s.taken l).link l).replies ++ [⟨k, b, false, false⟩], outstanding := false } := by
      show u.links.set (linkNo l) { u.link l with
        replies := (u.link l).replies ++ [⟨k, b, false, u.reportsDone b⟩], outstanding := false } = _
      rw [hl, hlk, hb]
    have hkl : (s.taken l).link l = { s.link l with request := none } := by
      have := link_setLink s l l { s.link l with request := none }
      rw [if_pos rfl] at this
      exact this
    rw [h2, hkl]
    show (s.links.set (linkNo l) { s.link l with request := none }).set (linkNo l) _ = _
    rw [Vector.set_set]
    rfl

/-- A granted list request of one item, which leaves no boundary behind: the item, then its answer. -/
theorem request_single {α : Type} {s : State} {l : Link} {r : Request} (h : s.Granted l r)
    (ht : s.taking) (f : Nat → α → State → ItemOutcome × State) (a : α)
    (hd : (f 0 a (s.taken l)).2.deferred = []) :
    s.request l r (fun u => listReply (runItems f 0 [a] u))
      = (f 0 a (s.taken l)).2.reply l (kindOf r) (.items [(f 0 a (s.taken l)).1]) := by
  rw [request_decided h (lotGate_taking ht r)]
  have h1 : runItems f 0 [a] (s.taken l) = ([(f 0 a (s.taken l)).1], (f 0 a (s.taken l)).2) := by
    simp only [runItems, endItem_calm hd]
  show (placeReply l (kindOf r) (listReply (runItems f 0 [a] (s.taken l)))).endWork = _
  rw [h1]
  show ((f 0 a (s.taken l)).2.reply l (kindOf r) _).endWork = _
  exact endWork_calm (by exact hd)

/-- What holds of a state holds of it as a grant has taken it: the grant changes no block that an entry,
a claim or a key slot is read from. -/
theorem OpenEntry.taken {s : State} {c : Nat} {e : Entry} {n : Fin 8192} (h : s.OpenEntry c e n)
    (l : Link) : (s.taken l).OpenEntry c e n :=
  ⟨⟨h.reach.bucket, h.reach.head, h.reach.whole, h.reach.cell, h.reach.entry⟩, h.key, h.bound,
    h.place, h.reserved, h.maps⟩

theorem find_taken (s : State) (l : Link) (w x y : Byte) : (s.taken l).find w x y = s.find w x y := by
  have hw : ∀ fuel h n p k, (s.taken l).walk h w x y fuel n p k = s.walk h w x y fuel n p k := by
    intro fuel
    induction fuel with
    | zero => intros; rfl
    | succ fuel ih =>
      intro h n p k
      unfold State.walk
      rw [show (s.taken l).inChain h k = s.inChain h k from rfl,
        show (s.taken l).entryFault k = s.entryFault k from rfl,
        show (s.taken l).entryAt k = s.entryAt k from rfl,
        show (s.taken l).isLast k = s.isLast k from rfl,
        show (s.taken l).nextCell k = s.nextCell k from rfl, ih]
  unfold State.find
  simp only [show ∀ h, (s.taken l).headFault h = s.headFault h from fun _ => rfl,
    show ∀ h, (s.taken l).head h = s.head h from fun _ => rfl,
    show (s.taken l).capacity = s.capacity from rfl, hw]

/-- The site check of R16 on a HELD site. -/
theorem siteCheck_held {s : State} {st : Station} {b x y : Byte} {site : Site} {c lease : Nat}
    (hb : siteOf b = some site) (h : s.slot st site = .held x y c lease) :
    s.siteCheck st b = (.held site x y c, s) := by
  unfold State.siteCheck
  simp only [hb, h]

/-- The site check of R16 on a FREE site. -/
theorem siteCheck_free {s : State} {st : Station} {b : Byte} {site : Site}
    (hb : siteOf b = some site) (h : s.slot st site = .free) :
    s.siteCheck st b = (.free site, s) := by
  unfold State.siteCheck
  simp only [hb, h]

/-- One slot replaced is the only site changed (R14). -/
theorem setSlot_onlySite (s : State) (st : Station) (site : Site) (v : Slot) :
    s.onlySite (s.setSlot st site v) st site v := by
  intro st'
  refine ⟨?_, fun site' => slot_setSlot s st st' site site' v⟩
  unfold State.setSlot State.setStation
  simp only [Fin.getElem_fin, Vector.getElem_set]
  split
  · rename_i hs
    have : st = st' := Fin.ext hs
    subst this; rfl
  · rfl

end Sys2Proof.Machine
end

