-- ==== Sys2Proof/Laws/Moves.lean ====
section
/-! SUPPORT. What a command can do, said once: every command is a run of moves, and each move is one of
the changes listed here under the condition in which the rules make it. -/

namespace Sys2Proof.Machine

open Relation

/-! ## Moves -/

/-- An entry cell that the cell map shows in use, inside the entry area (R67, R71). -/
def State.usedCell (s : State) (c : Nat) : Prop :=
  (s.cellBucket c).isSome = true ∧ s.keySlots ≤ c ∧ c < 8192

/-- The changes that an access, a walk, the end of an entry, an expiry or a sweep's action make. -/
inductive EMove : State → State → Prop
  | cell (s n c) : EMove s (s.writeCell n c)
  | tableFault (s p g o) : EMove s (s.tableFault p g o)
  | keyFault (s n g o) : EMove s (s.keyFault n g o)
  | retire (s n) : EMove s (s.retireKey n)
  | draw (s n t) : s.drawKey = some (n, t) → EMove s t
  | slot (s st site v) : EMove s (s.setSlot st site v)
  | close (s c e v k o r x) : EMove s ((s.closeEntry c e v).appendOutcome e k o r x)
  | withdraw (s c d e r o) : s.usedCell c → EMove s (s.withdrawEntry c d e r o)
  | giveBack (s c d) (e : Entry) : s.usedCell c →
      EMove s (((s.pushKey e.keyNo).freeReservation).removeEntry (bucketOf e.wafer e.x e.y) c d true)
  | remove (s h c d) : s.usedCell c → EMove s (s.removeEntry h c d false)
  | hit (s e) : s.journalSum < 256 → EMove s (s.appendHit e)
  | count (s lv f) : EMove s (s.countSweep lv f)
  | tick (s) : EMove s s.countDown
  | deferred (s l) : EMove s { s with deferred := l }

/-- The changes that a request, a sweep step or an event makes to the blocks other than the links. -/
inductive AMove : State → State → Prop
  | entry (s t) : EMove s t → AMove s t
  | commit (s st site b wafer x y cls h len last n k) : s.taking → s.table.free ≠ [] →
      s.journalSum < 256 → ((s.keySlot n).state = .fresh ∨ (s.keySlot n).state = .returned) →
      AMove s (commitClaim st site b wafer x y cls h len last n k s).2
  | attach (s st w) : (s.wafer w = some .new ∨ s.wafer w = some .detached) →
      s.stations[(st : Station)].attached = none → AMove s (s.attachWafer st w)
  | detach (s st w) : s.stations[(st : Station)].attached = some w → AMove s (s.detachWafer st w)
  | openLot (s name split p) : s.lot.state = .idle → AMove s (s.openLot name split p)
  | amend (s p) : AMove s (s.amendLot p)
  | lock (s) : s.lot.state = .opened →
      AMove s { s with lot := { s.lot with state := .locked, lock := true } }
  | closing (s) : s.taking → s.closeFailures = [] →
      AMove s { s with
        lot := { s.lot with state := .closing }
        sweeps := { s.sweeps with scrubActive := true, scrubCursor := 0 } }
  | record (s batch) (p : Nat × KeyRecord) : (s.keySlot p.1).state = .empty → AMove s (loadRecord batch s p)
  | batches (s bs) : AMove s { s with pool := { s.pool with batches := bs } }
  | take (s n) :
      AMove s { s with journal := { s.journal with queue := s.journal.queue.drop n } }.endWait
  | unhalt (s) : AMove s { s with check := { s.check with halt := false } }
  | forget (s) : AMove s { s with check :=
      { s.check with halt := false, faults := 0, first := none, storeFault := false } }
  | purgeStart (s) (w : Byte) : s.taking → s.sweeps.purge.active = false → s.wafer w = some .detached →
      AMove s ((s.setWafer w .purging).setContext .purge (.start (some w.toNat)))
  | purgeEnd (s v) : s.sweeps.purge.active = true → (v = .finished ∨ v = .detached) →
      AMove s ((s.setContext .purge { s.sweeps.purge with active := false }).setWafer
        (BitVec.ofNat 8 (s.sweeps.purge.param.getD 0)) v)
  | quarantineStart (s low high g) : s.taking → s.sweeps.quarantine.active = false →
      AMove s ((s.blockRange low high).setContext .quarantine (.start (some g)))
  | quarantineWait (s) : s.taking → s.sweeps.quarantine.active = true → 256 ≤ s.journalSum →
      AMove s (s.setContext .quarantine { s.sweeps.quarantine with waiting := true })
  | quarantineEnd (s) : AMove s (s.setContext .quarantine
      { s.sweeps.quarantine with active := false, waiting := false })
  | audit (s c) : AMove s (s.setContext .audit c)
  | cursor (s lv) : AMove s (s.advanceCursor lv)
  | sweepDone (s b) : AMove s { s with sweeps := { s.sweeps with sweepDone := b } }
  | scrubCell (s c) : s.lot.state = .closing → AMove s (scrubCell s c)
  | scrubHead (s h) : AMove s (scrubHead s h)
  | scrubCursor (s n) : AMove s { s with sweeps := { s.sweeps with scrubCursor := n } }
  | discard (s) : s.lot.state = .closing → AMove s s.discardLot

/-- The changes that a command makes: those of the blocks, those of the links with the arbiter's
pointer, and device reset with its store clear. -/
inductive Move : State → State → Prop
  | act (s t) : AMove s t → Move s t
  | links (s ls a) : Move s { s with links := ls, arbiter := a }
  | reset (s) : Move s s.deviceReset
  | clear (s) : s.check.clearing = true → Move s s.clearStore

/-- A run of entry moves. -/
abbrev EStar := ReflTransGen EMove

/-- A run of moves of the blocks. -/
abbrev AStar := ReflTransGen AMove

/-- A run of moves. -/
abbrev MStar := ReflTransGen Move

theorem EMove.star {s t : State} (h : EMove s t) : EStar s t := .single h

theorem EStar.act {s t : State} (h : EStar s t) : AStar s t := by
  induction h with
  | refl => exact .refl
  | tail _ h ih => exact ih.tail (.entry _ _ h)

theorem AStar.run {s t : State} (h : AStar s t) : MStar s t := by
  induction h with
  | refl => exact .refl
  | tail _ h ih => exact ih.tail (.act _ _ h)

/-! ## Entry moves leave the lot, the links and the sweeps' order alone -/

/-- What no entry move touches. -/
structure Aside (s t : State) : Prop where
  lot : t.lot = s.lot
  links : t.links = s.links
  arbiter : t.arbiter = s.arbiter
  pending : t.pending = s.pending
  audit : t.sweeps.audit.active = s.sweeps.audit.active
  purge : t.sweeps.purge.active = s.sweeps.purge.active
    ∧ t.sweeps.purge.param = s.sweeps.purge.param
  quarantine : t.sweeps.quarantine.active = s.sweeps.quarantine.active

theorem Aside.rfl {s : State} : Aside s s := ⟨by rfl, by rfl, by rfl, by rfl, by rfl, by simp, by rfl⟩

theorem Aside.trans {s t u : State} (h : Aside s t) (k : Aside t u) : Aside s u :=
  ⟨k.lot.trans h.lot, k.links.trans h.links, k.arbiter.trans h.arbiter, k.pending.trans h.pending,
    k.audit.trans h.audit, ⟨k.purge.1.trans h.purge.1, k.purge.2.trans h.purge.2⟩,
    k.quarantine.trans h.quarantine⟩

theorem aside_of_eq {s t : State} (h1 : t.lot = s.lot) (h2 : t.links = s.links)
    (h3 : t.arbiter = s.arbiter) (h4 : t.pending = s.pending) (h5 : t.sweeps = s.sweeps) :
    Aside s t := ⟨h1, h2, h3, h4, by rw [h5], by rw [h5]; simp, by rw [h5]⟩

theorem endWait_aside (s : State) : Aside s s.endWait := by
  unfold State.endWait; split
  · exact ⟨rfl, rfl, rfl, rfl, rfl, ⟨rfl, rfl⟩, rfl⟩
  · exact .rfl

theorem drawKey_frame {s t : State} {n : Nat} (h : s.drawKey = some (n, t)) :
    ∃ stack fresh, t = { s with pool := { s.pool with stack := stack, fresh := fresh } } := by
  unfold State.drawKey at h
  split at h
  · simp only [Option.some.injEq, Prod.mk.injEq] at h
    exact ⟨_, s.pool.fresh, h.2.symm⟩
  · split at h
    · simp only [Option.some.injEq, Prod.mk.injEq] at h
      exact ⟨s.pool.stack, _, h.2.symm⟩
    · cases h

theorem EMove.aside {s t : State} (h : EMove s t) : Aside s t := by
  cases h with
  | draw n t h =>
    obtain ⟨_, _, rfl⟩ := drawKey_frame h
    exact ⟨rfl, rfl, rfl, rfl, rfl, ⟨rfl, rfl⟩, rfl⟩
  | giveBack c d e _ =>
    refine Aside.trans (t := (s.pushKey e.keyNo).freeReservation) ?_ (aside_of_eq ?_ ?_ ?_ ?_ ?_)
    · refine Aside.trans (t := s.pushKey e.keyNo) (aside_of_eq ?_ ?_ ?_ ?_ ?_) ?_ <;> try simp
      unfold State.freeReservation
      refine Aside.trans ?_ (endWait_aside _)
      exact ⟨rfl, rfl, rfl, rfl, rfl, ⟨rfl, rfl⟩, rfl⟩
    all_goals simp
  | count lv f => cases lv <;> exact ⟨rfl, rfl, rfl, rfl, rfl, ⟨rfl, rfl⟩, rfl⟩
  | _ => exact aside_of_eq (by simp) (by simp) (by simp) (by simp) (by simp)

theorem EStar.aside {s t : State} (h : EStar s t) : Aside s t := by
  induction h with
  | refl => exact .rfl
  | tail _ h ih => exact ih.trans h.aside

theorem EStar.taking {s t : State} (h : EStar s t) : t.taking ↔ s.taking := by
  unfold State.taking; rw [h.aside.lot]

/-! ## Accesses and walks -/

theorem walk_found {s : State} {h : Nat} {w x y : Byte} {fuel n c c' : Nat} {pred d : Option Nat}
    (hw : s.walk h w x y fuel n pred c = .found c' d) : s.inChain h c' = true := by
  induction fuel generalizing n c pred with
  | zero => simp [State.walk] at hw
  | succ fuel ih =>
    simp only [State.walk] at hw
    split at hw
    · cases hw
    · rename_i hc
      split at hw
      · cases hw
      · split at hw
        · simp only [Lookup.found.injEq] at hw; obtain ⟨rfl, rfl⟩ := hw; simpa using hc
        · split at hw
          · cases hw
          · exact ih hw

theorem inChain_used {s : State} {h c : Nat} (hc : s.inChain h c = true) : s.usedCell c := by
  simp only [State.inChain, Bool.and_eq_true, decide_eq_true_eq] at hc
  refine ⟨by simp [hc.2], hc.1.1, hc.1.2⟩

theorem find_found {s : State} {w x y : Byte} {c : Nat} {d : Option Nat}
    (h : s.find w x y = .found c d) : s.usedCell c := by
  unfold State.find at h
  dsimp only at h
  split at h
  · cases h
  · split at h
    · cases h
    · split at h
      · cases h
      · exact inChain_used (walk_found h)

/-- A lookup either handles the fault it found and reports DAMAGED, or changes nothing; what it finds
is a cell in use. -/
theorem lookup_cases (s : State) (o : FaultOrigin) (w x y : Byte) :
    (∃ p g, s.lookup o w x y = (.damaged, s.tableFault p g o))
      ∨ (s.lookup o w x y = (s.find w x y, s) ∧ ∀ p g, s.find w x y ≠ .fault p g) := by
  unfold State.lookup
  split
  · exact .inl ⟨_, _, rfl⟩
  · rename_i h; exact .inr ⟨rfl, h⟩

theorem lookup_star (s : State) (o : FaultOrigin) (w x y : Byte) : EStar s (s.lookup o w x y).2 := by
  rcases lookup_cases s o w x y with ⟨p, g, h⟩ | ⟨h, -⟩ <;> rw [h]
  exact (EMove.tableFault ..).star

theorem lookup_found {s t : State} {o : FaultOrigin} {w x y : Byte} {c : Nat} {d : Option Nat}
    (h : s.lookup o w x y = (.found c d, t)) : t = s ∧ s.usedCell c := by
  rcases lookup_cases s o w x y with ⟨p, g, h'⟩ | ⟨h', -⟩ <;> rw [h'] at h
  · cases h
  · simp only [Prod.mk.injEq] at h; exact ⟨h.2.symm, find_found h.1⟩

/-- A reference access: the entry with nothing changed, or DAMAGED with its fault handled. -/
theorem access_cases (s : State) (o : FaultOrigin) (c : Nat) :
    s.access o c = (some (s.entryAt c), s) ∨ s.access o c = (none, s)
      ∨ ∃ p g, s.access o c = (none, s.tableFault p g o) := by
  unfold State.access
  split
  · exact .inr (.inl rfl)
  · split
    · exact .inr (.inr ⟨_, _, rfl⟩)
    · split
      · exact .inr (.inl rfl)
      · split
        · exact .inr (.inr ⟨_, _, rfl⟩)
        · exact .inl rfl

theorem access_star (s : State) (o : FaultOrigin) (c : Nat) : EStar s (s.access o c).2 := by
  rcases access_cases s o c with h | h | ⟨p, g, h⟩ <;> rw [h]
  exact (EMove.tableFault ..).star

theorem checkKey_star (s : State) (n : Nat) (o : FaultOrigin) : EStar s (s.checkKey n o) := by
  unfold State.checkKey
  split
  · exact (EMove.keyFault ..).star
  · exact .refl

/-! ## Ending an entry -/

theorem returnEntry_star {s : State} {c : Nat} (d : Option Nat) (e : Entry)
    (o : Option (Station × Site)) (h : s.usedCell c) : EStar s (s.returnEntry c d e o).2 := by
  unfold State.returnEntry
  split
  · exact (EMove.withdraw _ _ _ _ _ _ h).star
  · exact (EMove.giveBack _ _ _ _ h).star

theorem revokeOwner_star (s : State) (e : Entry) : EStar s (s.revokeOwner e) := by
  unfold State.revokeOwner
  split
  · exact .refl
  · split
    · exact (EMove.slot ..).star
    · exact .refl

theorem revokeClaim_star (s : State) (st : Station) (site : Site) (c : Nat) (e : Entry)
    (a b : Reason) : EStar s (s.revokeClaim st site c e a b).2 := by
  unfold State.revokeClaim
  split
  · split
    · rename_i c' pred s1 h
      obtain ⟨rfl, hu⟩ := lookup_found h
      exact (EMove.withdraw _ _ _ _ _ _ hu).star
    · rename_i r s1 _ h
      have := lookup_star s .access e.wafer e.x e.y
      rw [h] at this; exact this
  · exact (EMove.close ..).star

theorem endClaim_star (s : State) (st : Station) (site : Site) (c : Nat) :
    EStar s (s.endClaim st site c).2 := by
  have ha := access_star s .access c
  unfold State.endClaim
  split
  · rename_i s1 h; rw [h] at ha; exact ha
  · rename_i e s1 h
    rw [h] at ha
    refine ReflTransGen.trans ha ?_
    split
    · exact (EMove.cell ..).star
    · split
      · have hl := lookup_star s1 .access e.wafer e.x e.y
        split
        · rename_i c' pred s2 h2
          obtain ⟨rfl, hu⟩ := lookup_found h2
          exact returnEntry_star _ _ _ hu
        · rename_i s2 _ h2; rw [h2] at hl; exact hl
      · exact (EMove.cell ..).star
    · exact .refl

theorem expire_star (s : State) (st : Station) (site : Site) : EStar s (s.expire st site) := by
  unfold State.expire
  split
  · exact (endClaim_star ..).tail (EMove.slot ..)
  · exact .refl

theorem foldl_star {α β : Type} {R : α → α → Prop} {f : α → β → α}
    (h : ∀ s b, ReflTransGen R s (f s b)) (l : List β) (s : α) : ReflTransGen R s (l.foldl f s) := by
  induction l generalizing s with
  | nil => exact .refl
  | cons b l ih => exact (h s b).trans (ih _)

theorem expiryFold_star (l : List (Station × Site)) (s : State) :
    EStar s (l.foldl (fun s p => if s.expiryDue p.1 p.2 then s.expire p.1 p.2 else s) s) := by
  refine foldl_star (fun s p => ?_) l s
  split
  · exact expire_star ..
  · exact .refl

theorem settleExpiries_star (s : State) : EStar s s.settleExpiries := expiryFold_star ..

theorem boundaries_star (n : Nat) (s : State) : EStar s (State.boundaries n s) := by
  induction n generalizing s with
  | zero => exact .refl
  | succ n ih =>
    refine ReflTransGen.trans ?_ (ih _)
    exact (EMove.tick s).star.trans (settleExpiries_star _)

theorem endItem_star (s : State) (k : Nat) : EStar s (s.endItem k) :=
  (EMove.deferred ..).star.trans (boundaries_star ..)

theorem endWork_star (s : State) : EStar s s.endWork :=
  (EMove.deferred ..).star.trans (boundaries_star ..)

/-! ## List requests -/

theorem siteCheck_star (s : State) (st : Station) (b : Byte) : EStar s (s.siteCheck st b).2 := by
  unfold State.siteCheck
  split
  · exact .refl
  · split
    · exact (EMove.slot ..).star
    · exact (EMove.slot ..).star
    · exact .refl
    · exact .refl

theorem runItems_star {α : Type} {R : State → State → Prop} (he : ∀ {s t}, EStar s t → R s t)
    (ht : ∀ {s t u}, R s t → R t u → R s u) {f : Nat → α → State → ItemOutcome × State}
    (h : ∀ k a s, R s (f k a s).2) (l : List α) (k : Nat) (s : State) :
    R s (runItems f k l s).2 := by
  induction l generalizing k s with
  | nil => exact he .refl
  | cons a l ih => exact ht (h k a s) (ht (he (endItem_star ..)) (ih ..))

theorem allocateKey_star (fuel : Nat) (s : State) : EStar s (s.allocateKey fuel).2 := by
  induction fuel generalizing s with
  | zero => exact .refl
  | succ fuel ih =>
    unfold State.allocateKey
    split
    · exact .refl
    · rename_i n s1 hd
      refine ReflTransGen.trans (EMove.draw _ _ _ hd).star ?_
      split
      · exact ih _
      · exact ih _
      · exact (EMove.retire ..).star.trans (ih _)
      all_goals
        split
        · exact ((EMove.keyFault ..).star.tail (EMove.retire ..)).trans (ih _)
        · split
          · exact (EMove.retire ..).star.trans (ih _)
          · exact .refl

/-- What allocation draws is a usable key slot, FRESH or RETURNED (R32). -/
theorem allocateKey_usable {fuel n : Nat} {k : KeyCell} {s t : State}
    (h : s.allocateKey fuel = (some (n, k), t)) :
    (t.keySlot n).state = .fresh ∨ (t.keySlot n).state = .returned := by
  induction fuel generalizing s with
  | zero => simp [State.allocateKey] at h
  | succ fuel ih =>
    unfold State.allocateKey at h
    split at h
    · cases h
    · split at h
      · exact ih h
      · exact ih h
      · exact ih h
      all_goals
        rename_i hs
        split at h
        · exact ih h
        · split at h
          · exact ih h
          · simp only [Prod.mk.injEq, Option.some.injEq] at h
            obtain ⟨⟨rfl, -⟩, rfl⟩ := h
            simp [hs]

/-- What allocation leaves alone: the table, the journal, the units, the stations, the rules and the
sweeps. -/
structure Drawn (s t : State) : Prop where
  table : t.table = s.table
  journal : t.journal = s.journal
  units : t.unitP = s.unitP ∧ t.unitE = s.unitE
  stations : t.stations = s.stations
  rules : t.rules = s.rules
  sweeps : t.sweeps = s.sweeps

theorem drawn_refl (s : State) : Drawn s s := ⟨rfl, rfl, ⟨rfl, rfl⟩, rfl, rfl, rfl⟩

theorem Drawn.trans {s t u : State} (h : Drawn s t) (k : Drawn t u) : Drawn s u :=
  ⟨k.table.trans h.table, k.journal.trans h.journal,
    ⟨k.units.1.trans h.units.1, k.units.2.trans h.units.2⟩, k.stations.trans h.stations,
    k.rules.trans h.rules, k.sweeps.trans h.sweeps⟩

theorem allocateKey_drawn (fuel : Nat) (s : State) : Drawn s (s.allocateKey fuel).2 := by
  induction fuel generalizing s with
  | zero => exact drawn_refl s
  | succ fuel ih =>
    unfold State.allocateKey
    split
    · exact drawn_refl s
    · rename_i n s1 hd
      obtain ⟨_, _, hs⟩ := drawKey_frame hd
      have h1 : Drawn s s1 := by rw [hs]; exact ⟨rfl, rfl, ⟨rfl, rfl⟩, rfl, rfl, rfl⟩
      refine h1.trans ?_
      have hr : ∀ u : State, Drawn u (u.retireKey n) := fun u =>
        ⟨by simp, by simp, by simp, by simp, by simp, by simp⟩
      have hf : ∀ (u : State) g, Drawn u (u.keyFault n g .access) := fun u g =>
        ⟨by simp, by simp, by simp, by simp, by simp, by simp⟩
      split
      · exact ih _
      · exact ih _
      · exact (hr _).trans (ih _)
      all_goals
        split
        · exact ((hf _ _).trans (hr _)).trans (ih _)
        · split
          · exact (hr _).trans (ih _)
          · exact drawn_refl _

end Sys2Proof.Machine
end

