-- ==== Sys2Proof/Laws/Requests.lean ====
section
/-! SUPPORT. The requests as runs of moves (see Laws/Moves.lean). -/

namespace Sys2Proof.Machine

open Relation

/-- While the lot takes requests, a run of moves of the blocks after which it still takes them. -/
structure TStar (s t : State) : Prop where
  run : s.taking → AStar s t ∧ t.taking

theorem EStar.held {s t : State} (h : EStar s t) : TStar s t := ⟨fun ht => ⟨h.act, h.taking.2 ht⟩⟩

theorem TStar.trans {s t u : State} (h : TStar s t) (k : TStar t u) : TStar s u := ⟨fun ht =>
  ⟨(h.run ht).1.trans (k.run (h.run ht).2).1, (k.run (h.run ht).2).2⟩⟩

theorem freeSite_star (s : State) (st : Station) (site : Site) (out : ItemOutcome) :
    EStar s (s.freeSite st site out).2 := (EMove.slot ..).star

/-- Closes the branches of an item in which the state comes from a site check, an access or a key check
that has a run of its own. -/
theorem star_of_eq {α : Type} {s t : State} {p : α × State} {a : α} (h : EStar s p.2)
    (he : p = (a, t)) : EStar s t := by rw [he] at h; exact h

/-! ## CLAIM -/

theorem repeatOnDamaged_star (st : Station) (site : Site) (b : Byte) (c : Nat) (e : Entry)
    (s : State) : EStar s (repeatOnDamaged st site b c e s).2 :=
  (revokeClaim_star ..).trans (freeSite_star ..)

theorem claimRepeat_star (st : Station) (site : Site) (b x y : Byte) (c : Nat) (s : State) :
    EStar s (claimRepeat st site b x y c s).2 := by
  have ha := access_star s .access c
  unfold claimRepeat
  split
  · rename_i h; exact (star_of_eq ha h).trans (freeSite_star ..)
  · rename_i e s1 h
    refine (star_of_eq ha h).trans ?_
    split
    · refine (checkKey_star s1 e.keyNo .access).trans ?_
      dsimp only
      split
      · exact repeatOnDamaged_star ..
      · exact (EMove.slot ..).star
    · exact .refl

theorem takeover_star (st : Station) (site : Site) (b x y : Byte) (c : Nat) (e : Entry) (s : State) :
    EStar s (takeover st site b x y c e s).2 := by
  unfold takeover
  split
  · exact (EMove.close ..).star
  · refine (checkKey_star s e.keyNo .access).trans ?_
    dsimp only
    split
    · exact (EMove.close ..).star
    · split
      · exact (EMove.close ..).star
      · exact (EMove.cell ..).star.tail (EMove.slot ..)

theorem claimExisting_star (st : Station) (site : Site) (b x y : Byte) (c : Nat) (s : State) :
    EStar s (claimExisting st site b x y c s).2 := by
  unfold claimExisting
  dsimp only
  split
  · exact .refl
  · exact .refl
  · exact takeover_star ..
  · exact .refl
  · exact .refl

theorem commitClaim_taking {st : Station} {site : Site} {b wafer x y : Byte} {cls : SerialClass}
    {h len n : Nat} {last : Option Nat} {k : KeyCell} {s : State} (ht : s.taking) :
    (commitClaim st site b wafer x y cls h len last n k s).2.taking := by
  unfold commitClaim State.lockLot
  dsimp only
  split
  · exact .inr rfl
  · simpa [State.taking] using ht

theorem claimNew_star (st : Station) (site : Site) (b wafer x y : Byte) (cls : SerialClass)
    (length : Nat) (last : Option Nat) (s : State) :
    TStar s (claimNew st site b wafer x y cls length last s).2 := by
  unfold claimNew
  split
  · exact EStar.held .refl
  · rename_i hr
    have hst := allocateKey_star s.candidates s
    have hdr := allocateKey_drawn s.candidates s
    split
    · rename_i s1 ha; rw [ha] at hst; exact EStar.held hst
    · rename_i n k s1 ha
      rw [ha] at hst hdr
      refine ⟨fun ht => ?_⟩
      have ht1 : s1.taking := hst.taking.2 ht
      refine ⟨hst.act.tail (AMove.commit _ _ _ _ _ _ _ _ _ _ _ _ _ ht1 ?_ ?_
        (allocateKey_usable ha)), commitClaim_taking ht1⟩
      · rw [hdr.table]
        unfold resourceRefusal at hr
        intro h0
        simp [h0] at hr
      · have : s1.journalSum = s.journalSum := by
          unfold State.journalSum State.held; rw [hdr.journal]
        rw [this]
        unfold resourceRefusal at hr
        split at hr
        · cases hr
        · split at hr
          · cases hr
          · split at hr
            · cases hr
            · rename_i h256
              simpa [Config.journalPlaces] using h256

theorem claimBucket_star (st : Station) (site : Site) (b wafer x y : Byte) (cls : SerialClass)
    (s : State) : TStar s (claimBucket st site b wafer x y cls s).2 := by
  have hl := lookup_star s .access wafer x y
  unfold claimBucket
  dsimp only
  split
  · have : EStar s (s.tableFault (.head (bucketOf wafer x y)) .link .access) :=
      (EMove.tableFault ..).star
    exact EStar.held this
  · split
    · exact EStar.held .refl
    · split
      · rename_i h; exact (EStar.held (star_of_eq hl h)).trans (claimNew_star ..)
      · rename_i h; exact EStar.held ((star_of_eq hl h).trans (claimExisting_star ..))
      · rename_i h; exact EStar.held (star_of_eq hl h)

theorem claimFree_star (st : Station) (site : Site) (i : ClaimItem) (earlier : List ClaimItem)
    (s : State) : TStar s (claimFree st site i earlier s).2 := by
  unfold claimFree
  split
  · exact EStar.held .refl
  · split
    · exact EStar.held .refl
    · split
      · exact EStar.held .refl
      · split
        · exact EStar.held .refl
        · exact claimBucket_star ..

theorem claimItem_star (st : Station) (items : List ClaimItem) (k : Nat) (i : ClaimItem)
    (s : State) : TStar s (claimItem st items k i s).2 := by
  have hc := siteCheck_star s st i.site
  unfold claimItem
  split
  · rename_i h; exact EStar.held (star_of_eq hc h)
  · rename_i h
    have := EStar.held (star_of_eq hc h)
    split
    · exact this.trans (EStar.held (claimRepeat_star ..))
    · exact this
  · rename_i h; exact (EStar.held (star_of_eq hc h)).trans (claimFree_star ..)

theorem claimRule_star (st : Station) (items : List ClaimItem) (s : State) :
    TStar s (claimRule st items s).2 :=
  runItems_star EStar.held TStar.trans (claimItem_star st items) ..

/-! ## RELEASE, ABANDON, BURN BEGIN, BURN RESULT -/

theorem releaseUnburned_star (st : Station) (site : Site) (b : Byte) (e : Entry) (s : State) :
    EStar s (releaseUnburned st site b e s).2 := by
  have hl := lookup_star s .access e.wafer e.x e.y
  unfold releaseUnburned
  split
  · rename_i h
    obtain ⟨rfl, hu⟩ := lookup_found h
    exact (returnEntry_star _ _ _ hu).trans (freeSite_star ..)
  · rename_i h; exact (star_of_eq hl h).trans (freeSite_star ..)

theorem releaseItem_star (st : Station) (k : Nat) (b : Byte) (s : State) :
    EStar s (releaseItem st k b s).2 := by
  have hc := siteCheck_star s st b
  unfold releaseItem
  split
  · rename_i h; exact star_of_eq hc h
  · rename_i h; exact star_of_eq hc h
  · rename_i site x y c s1 h
    refine (star_of_eq hc h).trans ?_
    have ha := access_star s1 .access c
    split
    · rename_i h; exact (star_of_eq ha h).trans (freeSite_star ..)
    · rename_i h
      refine (star_of_eq ha h).trans ?_
      split
      · split
        · exact releaseUnburned_star ..
        · exact (EMove.cell ..).star.trans (freeSite_star ..)
      · exact .refl

theorem abandonItem_star (st : Station) (k : Nat) (b : Byte) (s : State) :
    EStar s (abandonItem st k b s).2 := by
  have hc := siteCheck_star s st b
  unfold abandonItem
  split
  · rename_i h; exact star_of_eq hc h
  · rename_i h; exact star_of_eq hc h
  · rename_i site x y c s1 h
    refine (star_of_eq hc h).trans ?_
    have ha := access_star s1 .access c
    split
    · rename_i h; exact (star_of_eq ha h).trans (freeSite_star ..)
    · rename_i h
      refine (star_of_eq ha h).trans ?_
      split
      · exact (EMove.close ..).star.trans (freeSite_star ..)
      · exact (EMove.close ..).star.trans (freeSite_star ..)
      · exact .refl

theorem burnIssued_star (st : Station) (site : Site) (b x y : Byte) (c : Nat) (e : Entry)
    (s : State) : EStar s (burnIssued st site b x y c e s).2 := by
  unfold burnIssued
  split
  · exact (revokeClaim_star ..).trans (freeSite_star ..)
  · refine (checkKey_star s e.keyNo .access).trans ?_
    dsimp only
    split
    · exact (revokeClaim_star ..).trans (freeSite_star ..)
    · exact (EMove.cell ..).star.tail (EMove.slot ..)

theorem burnBeginItem_star (st : Station) (k : Nat) (b : Byte) (s : State) :
    EStar s (burnBeginItem st k b s).2 := by
  have hc := siteCheck_star s st b
  unfold burnBeginItem
  split
  · rename_i h; exact star_of_eq hc h
  · rename_i h; exact star_of_eq hc h
  · rename_i site x y c s1 h
    refine (star_of_eq hc h).trans ?_
    have ha := access_star s1 .access c
    split
    · rename_i h; exact (star_of_eq ha h).trans (freeSite_star ..)
    · rename_i h
      refine (star_of_eq ha h).trans ?_
      split
      · exact burnIssued_star ..
      · exact .refl

theorem judgeBurn_star (st : Station) (site : Site) (b x y : Byte) (image : Key) (c : Nat)
    (e : Entry) (s : State) : EStar s (judgeBurn st site b x y image c e s).2 := by
  unfold judgeBurn
  dsimp only
  refine (checkKey_star s e.keyNo .access).trans ?_
  split
  · exact (EMove.close ..).star.trans (freeSite_star ..)
  · split
    · exact (EMove.close ..).star.trans (freeSite_star ..)
    · split
      · exact (EMove.close ..).star.trans (freeSite_star ..)
      · split
        · exact (EMove.close ..).star.trans (freeSite_star ..)
        · split
          · exact (EMove.close ..).star.trans (freeSite_star ..)
          · exact (EMove.cell ..).star.tail (EMove.slot ..)

theorem burnResultItem_star (st : Station) (k : Nat) (i : ResultItem) (s : State) :
    EStar s (burnResultItem st k i s).2 := by
  have hc := siteCheck_star s st i.site
  unfold burnResultItem
  split
  · rename_i h; exact star_of_eq hc h
  · rename_i h; exact star_of_eq hc h
  · rename_i site x y c s1 h
    refine (star_of_eq hc h).trans ?_
    have ha := access_star s1 .access c
    split
    · rename_i h; exact (star_of_eq ha h).trans (freeSite_star ..)
    · rename_i h
      refine (star_of_eq ha h).trans ?_
      split
      · exact judgeBurn_star ..
      · exact .refl

theorem releaseRule_star (st : Station) (l : List Byte) (s : State) :
    EStar s (releaseRule st l s).2 :=
  runItems_star id ReflTransGen.trans (releaseItem_star st) ..

theorem abandonRule_star (st : Station) (l : List Byte) (s : State) :
    EStar s (abandonRule st l s).2 :=
  runItems_star id ReflTransGen.trans (abandonItem_star st) ..

theorem burnBeginRule_star (st : Station) (l : List Byte) (s : State) :
    EStar s (burnBeginRule st l s).2 :=
  runItems_star id ReflTransGen.trans (burnBeginItem_star st) ..

theorem burnResultRule_star (st : Station) (l : List ResultItem) (s : State) :
    EStar s (burnResultRule st l s).2 :=
  runItems_star id ReflTransGen.trans (burnResultItem_star st) ..

/-! ## ATTACH, DETACH, STATION RESET -/

theorem detachWafer_none (s : State) (st : Station) (w : Byte) :
    (s.detachWafer st w).stations[st].attached = none := by
  simp [State.detachWafer, State.setStation]

theorem wafer_setWafer {s : State} {w v : Byte} {x : WaferState} (hw : s.wafer w ≠ none) :
    (s.setWafer w x).wafer v = if v = w then some x else s.wafer v := by
  unfold State.wafer at *
  unfold State.setWafer
  split at hw
  · exact absurd rfl hw
  · rename_i hwr
    split
    · rename_i hv
      have : v ≠ w := by rintro rfl; exact hwr hv
      simp [this]
    · rename_i hv
      have hlen : w.toNat - 1 < s.lot.wafers.length := by
        by_contra hc
        exact hw (List.getElem?_eq_none (by omega))
      simp only [List.getElem?_set]
      by_cases hvw : v = w
      · subst hvw; simp [hlen]
      · have h1 : v.toNat ≠ w.toNat := fun h => hvw (BitVec.eq_of_toNat_eq h)
        have h2 : v.toNat ≠ 0 := fun h => hv (.inl (BitVec.eq_of_toNat_eq h))
        have h3 : w.toNat ≠ 0 := fun h => hwr (.inl (BitVec.eq_of_toNat_eq h))
        have : w.toNat - 1 ≠ v.toNat - 1 := by omega
        simp [this, hvw]

@[simp] theorem State.wafer_setStation (s : State) (st : Station) (t : StationTable) (w : Byte) :
    (s.setStation st t).wafer w = s.wafer w := rfl

theorem moveStation_star {s : State} {st : Station} {w : Byte}
    (hw : s.wafer w = some .new ∨ s.wafer w = some .detached) :
    AStar s (s.moveStation st w).2 := by
  unfold State.moveStation
  split
  · rename_i h; exact .single (AMove.attach _ _ _ hw h)
  · rename_i old h
    refine (ReflTransGen.single (AMove.detach _ _ _ h)).tail (AMove.attach _ _ _ ?_
      (detachWafer_none ..))
    unfold State.detachWafer
    simp only [State.wafer_setStation]
    by_cases ho : s.wafer old = none
    · have : (s.setWafer old .detached).wafer w = s.wafer w
          ∨ (s.setWafer old .detached).wafer w = some .detached := by
        unfold State.wafer State.setWafer at *
        split
        · rename_i h0; rw [if_pos h0] at hw; simp at hw
        · rename_i h0
          simp only [List.getElem?_set]
          split
          · rename_i h1
            split
            · exact .inr rfl
            · rename_i h2
              simp only [h0, if_false] at hw ⊢
              rw [List.getElem?_eq_none (by omega)] at hw
              simp at hw
          · simp
      rcases this with h1 | h1 <;> rw [h1]
      · exact hw
      · exact .inr rfl
    · rw [wafer_setWafer ho]
      split
      · exact .inr rfl
      · exact hw

theorem attachRule_star (st : Station) (w : Byte) (s : State) : AStar s (attachRule st w s).2 := by
  unfold attachRule answer
  split
  · exact .refl
  · split <;> exact .refl
  · exact .refl
  · exact .refl
  all_goals
    rename_i h
    split
    · exact .refl
    · exact moveStation_star (by simp [h])

theorem detachRule_star (st : Station) (s : State) : AStar s (detachRule st s).2 := by
  unfold detachRule answer
  split
  · exact .refl
  · rename_i w h
    split
    · exact .refl
    · exact .single (AMove.detach _ _ _ h)

theorem resetSite_star (st : Station) (acc : ResetTally × State) (site : Site) :
    EStar acc.2 (resetSite st acc site).2 := by
  unfold resetSite
  dsimp only
  split
  · exact .refl
  · exact (EMove.slot ..).star
  · exact (EMove.slot ..).star
  · split <;> exact (endClaim_star ..).tail (EMove.slot ..)

theorem resetFold_star (st : Station) (l : List Site) (acc : ResetTally × State) :
    EStar acc.2 (l.foldl (resetSite st) acc).2 := by
  induction l generalizing acc with
  | nil => exact .refl
  | cons a l ih => exact (resetSite_star st acc a).trans (ih _)

theorem stationResetRule_star (st : Station) (s : State) : EStar s (stationResetRule st s).2 := by
  unfold stationResetRule
  generalize List.finRange 16 = l
  exact resetFold_star st l (⟨0, 0, 0⟩, s)

/-! ## The lot link's requests -/

theorem lotOpenRule_star (b : OpenBody) (s : State) : AStar s (lotOpenRule b s).2 := by
  unfold lotOpenRule answer refuseParameter
  split
  · exact .refl
  · rename_i h
    split
    · exact .refl
    · exact .single (AMove.openLot _ _ _ _ (by simpa using h))

theorem lotAmendRule_star (b : AmendBody) (s : State) : AStar s (lotAmendRule b s).2 := by
  unfold lotAmendRule answer refuseParameter
  split
  · exact .refl
  · split
    · exact .refl
    · exact .single (AMove.amend ..)

theorem lotLockRule_star (s : State) : AStar s (lotLockRule s).2 := by
  unfold lotLockRule answer
  split
  · exact .refl
  · rename_i h; exact .single (AMove.lock _ (by simpa using h))

theorem lotCloseRule_star {s : State} (ht : s.taking) : AStar s (lotCloseRule s).2 := by
  unfold lotCloseRule
  split
  · rename_i h; exact .single (AMove.closing _ ht h)
  · exact .refl

theorem loadRecord_slot (batch : Half) (s : State) (p : Nat × KeyRecord) (n : Nat) (h : n ≠ p.1) :
    (loadRecord batch s p).keySlot n = s.keySlot n := by
  unfold loadRecord State.keySlot State.moveKey
  simp only [State.writeCell_pool]
  exact mapGet_mapSet_ne h

/-- The numbers that a load takes are EMPTY slots, in ascending order from n on (R29). -/
theorem emptySlots_spec (s : State) (fuel n count : Nat) :
    (s.emptySlots fuel n count).Pairwise (· < ·)
      ∧ ∀ k ∈ s.emptySlots fuel n count, n ≤ k ∧ (s.keySlot k).state = .empty := by
  induction fuel generalizing n count with
  | zero => simp [State.emptySlots]
  | succ fuel ih =>
    cases count with
    | zero => simp [State.emptySlots]
    | succ count =>
      simp only [State.emptySlots]
      split
      · rename_i he
        refine ⟨List.pairwise_cons.2 ⟨fun k hk => ?_, (ih _ _).1⟩, ?_⟩
        · have := ((ih (n + 1) count).2 k hk).1; omega
        · intro k hk
          rcases List.mem_cons.1 hk with rfl | hk
          · exact ⟨Nat.le_refl _, he⟩
          · have := (ih (n + 1) count).2 k hk
            exact ⟨by omega, this.2⟩
      · refine ⟨(ih _ _).1, fun k hk => ?_⟩
        have := (ih (n + 1) (count + 1)).2 k hk
        exact ⟨by omega, this.2⟩

theorem zip_fst_sublist {α β : Type} (xs : List α) (ys : List β) :
    ((xs.zip ys).map (·.1)).Sublist xs := by
  induction xs generalizing ys with
  | nil => simp
  | cons x xs ih =>
    cases ys with
    | nil => simp
    | cons y ys => simpa using ih ys

theorem loadRecords_star (batch : Half) (ps : List (Nat × KeyRecord)) (s : State)
    (hp : (ps.map (·.1)).Nodup) (he : ∀ p ∈ ps, (s.keySlot p.1).state = .empty) :
    AStar s (ps.foldl (loadRecord batch) s) := by
  induction ps generalizing s with
  | nil => exact .refl
  | cons p ps ih =>
    simp only [List.map_cons, List.nodup_cons] at hp
    refine (ReflTransGen.single (AMove.record _ _ _ (he p (by simp)))).trans (ih _ hp.2 ?_)
    intro q hq
    rw [loadRecord_slot]
    · exact he q (by simp [hq])
    · rintro h; exact hp.1 (h ▸ List.mem_map_of_mem hq)

theorem keyLoadRule_star (batch : Half) (records : List KeyRecord) (s : State) :
    AStar s (keyLoadRule batch records s).2 := by
  unfold keyLoadRule
  split
  · exact .refl
  · dsimp only
    unfold State.loadKeys
    dsimp only
    have hs := emptySlots_spec s s.keySlots 0 records.length
    refine ReflTransGen.tail (loadRecords_star batch _ s ?_ ?_) (AMove.batches ..)
    · refine List.Nodup.sublist ?_ (hs.1.imp (fun h => Nat.ne_of_lt h))
      exact zip_fst_sublist ..
    · intro p hp
      exact (hs.2 p.1 (List.of_mem_zip hp).1).2

theorem journalReadRule_star (n : Byte) (s : State) : AStar s (journalReadRule n s).2 := by
  unfold journalReadRule answer
  split <;> exact .refl

theorem journalTakeRule_star (n : Half) (s : State) : AStar s (journalTakeRule n s).2 := by
  unfold journalTakeRule answer
  split
  · exact .refl
  · split
    · exact .refl
    · exact .single (AMove.take ..)

theorem resumeRule_star (c : Byte) (s : State) : AStar s (resumeRule c s).2 := by
  unfold resumeRule answer
  dsimp only
  split
  · exact .single (AMove.unhalt ..)
  · split
    · exact .single (AMove.forget ..)
    · exact .refl

theorem purgeWaferRule_star {w : Byte} {s : State} (ht : s.taking) :
    AStar s (purgeWaferRule w s).2 := by
  unfold purgeWaferRule answer
  split
  · exact .refl
  · rename_i v hv
    split
    · exact .refl
    · rename_i ha
      split
      · exact .refl
      · rename_i hd
        exact .single (AMove.purgeStart _ _ ht (by simpa using ha) (by rw [hv]; simp_all))

theorem quarantineRule_star {low high : Half} {s : State} (ht : s.taking) :
    AStar s (quarantineRule low high s).2 := by
  unfold quarantineRule answer
  split
  · exact .refl
  · split
    · exact .refl
    · rename_i ha
      split
      · exact .refl
      · exact .single (AMove.quarantineStart _ _ _ _ ht (by simpa using ha))

theorem auditStartRule_star (s : State) : AStar s (auditStartRule s).2 := by
  unfold auditStartRule answer
  split
  · exact .refl
  · exact .single (AMove.audit ..)

theorem auditStopRule_star (s : State) : AStar s (auditStopRule s).2 := by
  unfold auditStopRule answer
  dsimp only
  split
  · exact .single (AMove.audit ..)
  · exact .refl

/-! ## Grants -/

theorem links_star {s t : State} (h : t = { s with links := t.links, arbiter := t.arbiter }) :
    MStar s t := by rw [h]; exact .single (Move.links ..)

@[simp] theorem linkReply_arbiter (s : State) (l : Link) (k : Byte) (c : Code) :
    (s.linkReply l k c).arbiter = s.arbiter := by unfold State.linkReply; split <;> rfl

theorem setLink_star (s : State) (l : Link) (u : LinkUnit) : MStar s (s.setLink l u) :=
  .single (Move.links s _ s.arbiter)

theorem linkReply_star (s : State) (l : Link) (k : Byte) (c : Code) : MStar s (s.linkReply l k c) := by
  unfold State.linkReply
  split
  · exact .refl
  · exact setLink_star ..

theorem sent_star (s : State) (l : Link) : MStar s (s.sent l) := by
  unfold State.sent
  split
  · exact .refl
  · dsimp only
    split
    · exact (setLink_star ..).tail (Move.act _ _ (AMove.sweepDone _ false))
    · exact setLink_star ..

theorem sendAhead_star (l : Link) (fuel : Nat) (s : State) : MStar s (State.sendAhead l fuel s) := by
  induction fuel generalizing s with
  | zero => exact .refl
  | succ fuel ih =>
    unfold State.sendAhead
    split
    · exact (sent_star s l).trans (ih _)
    · exact .refl

theorem submit_star (s : State) (l : Link) (r : Request) : MStar s (s.submit l r) := by
  unfold State.submit State.place
  split
  · exact linkReply_star ..
  · split
    · exact linkReply_star ..
    · exact setLink_star ..

/-- The rule of a request that the lot state takes: a run of moves from any state in which R2 lets the
request through. -/
def RuleStar (r : Request) (act : State → Option ReplyBody × State) : Prop :=
  ∀ s : State, lotGate s.lot.state r = none → AStar s (act s).2

theorem taken_star (s : State) (l : Link) : MStar s (s.taken l) := .single (Move.links s _ _)

theorem decideRequest_star (s : State) {r : Request} {act : State → Option ReplyBody × State}
    (h : RuleStar r act) : AStar s (s.decideRequest r act).2 := by
  unfold State.decideRequest
  split
  · exact .refl
  · rename_i hg; exact h s hg

theorem placeReply_star (l : Link) (k : Byte) (out : Option ReplyBody × State) :
    MStar out.2 (placeReply l k out) := by
  unfold placeReply
  split
  · exact setLink_star ..
  · exact .refl

theorem grant_star (s : State) (l : Link) {r : Request} {act : State → Option ReplyBody × State}
    (h : RuleStar r act) : MStar s (s.grant l r act) :=
  ((taken_star s l).trans (decideRequest_star _ h).run).trans
    ((placeReply_star ..).trans (endWork_star _).act.run)

theorem request_star (s : State) (l : Link) {r : Request} {act : State → Option ReplyBody × State}
    (h : RuleStar r act) : MStar s (s.request l r act) := by
  unfold State.request
  dsimp only
  refine (settleExpiries_star s).act.run.trans ?_
  split
  · split
    · exact (sendAhead_star ..).trans (grant_star _ _ h)
    · exact .refl
  · split
    · exact (submit_star ..).trans ((sendAhead_star ..).trans (grant_star _ _ h))
    · exact submit_star ..

theorem gate_taking {st : LotState} {r : Request} (h : lotGate st r = none)
    (hr : ∀ b, r ≠ .lotOpen b) (h1 : r ≠ .lotStatus) (h2 : r ≠ .stationStatus)
    (h3 : ∀ n, r ≠ .journalRead n) : st = .opened ∨ st = .locked := by
  unfold lotGate at h
  split at h
  · cases h
  · split at h <;> simp_all
  · exact .inl rfl
  · exact .inr rfl
  · split at h <;> simp_all

theorem ruleStar_taking {r : Request} {act : State → Option ReplyBody × State}
    (h : ∀ s : State, s.taking → AStar s (act s).2)
    (hr : ∀ b, r ≠ .lotOpen b) (h1 : r ≠ .lotStatus) (h2 : r ≠ .stationStatus)
    (h3 : ∀ n, r ≠ .journalRead n) : RuleStar r act :=
  fun s hg => h s (gate_taking hg hr h1 h2 h3)

end Sys2Proof.Machine
end

