-- ==== Sys2Proof/Laws/SweepMoves.lean ====
section
/-! SUPPORT. The sweep steps, the link events and every command as runs of moves (see Laws/Moves.lean). -/

namespace Sys2Proof.Machine

open Relation

@[simp] theorem State.cellBucket_countSweep (s : State) (lv : SweepLevel)
    (f : SweepCounts → SweepCounts) (c : Nat) : (s.countSweep lv f).cellBucket c = s.cellBucket c := by
  cases lv <;> rfl

theorem usedCell_of_eq {s t : State} {c : Nat} (h : s.usedCell c) (hm : t.table.cellMap = s.table.cellMap)
    (hl : t.lot = s.lot) : t.usedCell c := by
  unfold State.usedCell State.cellBucket State.keySlots at *
  rw [hm, hl]; exact h

/-! ## The walk of a sweep step -/

/-- An action is a run of entry moves on any cell in use; where it finds no room, the journal is full. -/
structure ActionOk (act : SweepAction) : Prop where
  star : ∀ c d e s, s.usedCell c → EStar s (act c d e s).2
  full : ∀ c d e s, (act c d e s).1 = .noRoom → 256 ≤ (act c d e s).2.journalSum

theorem sweepWalk_ok {act : SweepAction} (ha : ActionOk act) (lv : SweepLevel) (h fuel : Nat)
    (pred : Option Nat) (c : Nat) (s : State) :
    EStar s (sweepWalk lv act h fuel pred c s).2
      ∧ ((sweepWalk lv act h fuel pred c s).1 = .waits →
          256 ≤ (sweepWalk lv act h fuel pred c s).2.journalSum) := by
  induction fuel generalizing pred c s with
  | zero => exact ⟨(EMove.tableFault ..).star, by simp [sweepWalk]⟩
  | succ fuel ih =>
    unfold sweepWalk
    split
    · exact ⟨(EMove.tableFault ..).star, by simp⟩
    · rename_i hc
      split
      · exact ⟨(EMove.tableFault ..).star, by simp⟩
      · have hu : (s.countSweep lv .visit).usedCell c :=
          usedCell_of_eq (inChain_used (by simpa using hc)) (by simp) (by simp)
        have hs : EStar s (act c pred (s.entryAt c) (s.countSweep lv .visit)).2 :=
          (EMove.count ..).star.trans (ha.star _ _ _ _ hu)
        have hf := ha.full c pred (s.entryAt c) (s.countSweep lv .visit)
        generalize act c pred (s.entryAt c) (s.countSweep lv .visit) = done at hs hf
        dsimp only
        split
        · rename_i hd; exact ⟨hs, fun _ => hf hd⟩
        all_goals
          split
          · exact ⟨hs, by simp⟩
          · exact ⟨hs.trans (ih ..).1, (ih ..).2⟩

theorem visitBucket_ok {act : SweepAction} (ha : ActionOk act) (lv : SweepLevel) (s : State) :
    EStar s (visitBucket lv act s).2
      ∧ ((visitBucket lv act s).1 = .waits → 256 ≤ (visitBucket lv act s).2.journalSum) := by
  unfold visitBucket
  dsimp only
  split
  · have h : EStar s (s.tableFault (.head (s.context lv).cursor) .link lv.origin) :=
      EMove.star (EMove.tableFault ..)
    exact ⟨h, by simp⟩
  · split
    · exact ⟨.refl, by simp⟩
    · split
      · exact ⟨.refl, by simp⟩
      · exact sweepWalk_ok ha ..

/-! ## The actions -/

@[simp] theorem spendKey_cellMap (s : State) (n : Nat) :
    (s.spendKey n).table.cellMap = s.table.cellMap := by
  unfold State.spendKey; split <;> rfl

theorem purgeAction_ok (w : Byte) (h : Nat) : ActionOk (purgeAction w h) where
  star c d e s hu := by
    unfold purgeAction
    split
    · exact .refl
    · split
      · exact (EMove.count ..).star.tail (EMove.remove _ _ _ _ (usedCell_of_eq hu (by simp) (by simp)))
      · exact (EMove.count ..).star.tail (EMove.remove _ _ _ _ (usedCell_of_eq hu (by simp) (by simp)))
      · refine ((EMove.count ..).star.tail (EMove.close ..)).tail (EMove.remove _ _ _ _
          (usedCell_of_eq hu ?_ (by simp)))
        simp [State.closeEntry]
      · exact .refl
      · exact .refl
  full c d e s := by
    unfold purgeAction
    split
    · simp
    · split <;> simp

theorem quarantineAction_ok (g : Nat) : ActionOk (quarantineAction g) where
  star c d e s hu := by
    unfold quarantineAction
    split
    · exact .refl
    · split
      · exact .refl
      · split
        · exact .refl
        · unfold noteHit
          split
          · rename_i hj
            refine ((EMove.count ..).star.tail (EMove.hit _ _ ?_)).tail (EMove.cell ..)
            simpa [State.journalSum, State.held, Config.journalPlaces] using hj
          · exact .refl
      · split
        · exact ((EMove.count ..).star.tail (EMove.withdraw _ _ _ _ _ _
            (usedCell_of_eq hu (by simp) (by simp)))).trans (revokeOwner_star ..)
        · exact ((EMove.count ..).star.tail (EMove.close ..)).trans (revokeOwner_star ..)
      · exact ((EMove.count ..).star.tail (EMove.close ..)).trans (revokeOwner_star ..)
      · exact ((EMove.count ..).star.tail (EMove.close ..)).trans (revokeOwner_star ..)
  full c d e s := by
    unfold quarantineAction
    split
    · simp
    · split
      · simp
      · split
        · simp
        · unfold noteHit
          split
          · simp
          · rename_i hj
            intro _
            simpa [Config.journalPlaces] using hj
      · split <;> simp
      · simp
      · simp

theorem auditAction_ok : ActionOk auditAction where
  star _ _ _ _ _ := .refl
  full _ _ _ _ := by simp [auditAction]

/-! ## Steps on a bucket -/

theorem EStar.purgeActive {s t : State} (h : EStar s t) :
    t.sweeps.purge.active = s.sweeps.purge.active := h.aside.purge.1

/-- A step on a bucket of a level other than the quarantine's: a run of moves that leaves the lot and
the contexts' active flags alone. -/
theorem stepBucket_star {act : SweepAction} (ha : ActionOk act) (lv : SweepLevel) {s : State}
    (hw : (visitBucket lv act s).1 = .waits →
      lv = .quarantine ∧ s.taking ∧ s.sweeps.quarantine.active = true) :
    AStar s (stepBucket lv act s)
      ∧ (stepBucket lv act s).sweeps.purge.active = s.sweeps.purge.active := by
  obtain ⟨h1, h2⟩ := visitBucket_ok ha lv s
  unfold stepBucket
  split
  · rename_i s1 h
    rw [h] at h1
    refine ⟨h1.act.tail (AMove.cursor ..), ?_⟩
    have := h1.purgeActive
    cases lv <;> exact this
  · rename_i s1 h
    rw [h] at h1
    refine ⟨(EStar.act (h1.tail (EMove.count ..))).tail (AMove.cursor ..), ?_⟩
    have := h1.purgeActive
    cases lv <;> exact this
  · rename_i s1 h
    rw [h] at h1 h2 hw
    obtain ⟨rfl, ht, hq⟩ := hw rfl
    refine ⟨h1.act.tail (AMove.quarantineWait _ (h1.taking.2 ht) ?_ (h2 rfl)), ?_⟩
    · rw [h1.aside.quarantine]; exact hq
    · exact h1.purgeActive

/-- A sweep whose action always has room never waits. -/
theorem never_waits {act : SweepAction} (ha : ∀ c d e s, (act c d e s).1 ≠ .noRoom) (lv : SweepLevel)
    (s : State) : (visitBucket lv act s).1 ≠ .waits := by
  have key : ∀ fuel h pred c s, (sweepWalk lv act h fuel pred c s).1 ≠ .waits := by
    intro fuel
    induction fuel with
    | zero => intro h pred c s; simp [sweepWalk]
    | succ fuel ih =>
      intro h pred c s
      unfold sweepWalk
      split
      · simp
      · split
        · simp
        · dsimp only
          split
          · rename_i hd; exact absurd hd (ha _ _ _ _)
          all_goals
            split
            · simp
            · exact ih _ _ _ _
  unfold visitBucket
  dsimp only
  split
  · simp
  · split
    · simp
    · split
      · simp
      · exact key _ _ _ _ _

theorem purgeAction_room (w : Byte) (h : Nat) (c : Nat) (d : Option Nat) (e : Entry) (s : State) :
    (purgeAction w h c d e s).1 ≠ .noRoom := by
  unfold purgeAction
  split
  · simp
  · split <;> simp

theorem AStar.step {s t u : State} (h : AStar s t) (m : AMove t u) : MStar s u := AStar.run (h.tail m)

theorem latchDone_star (s : State) : MStar s s.latchDone :=
  (ReflTransGen.single (Move.act _ _ (AMove.sweepDone s true))).tail (Move.links _ _ _)

theorem endPurge_eq (s : State) : s.endPurge
    = ((s.setContext .purge { s.sweeps.purge with active := false }).setWafer
        (BitVec.ofNat 8 (s.sweeps.purge.param.getD 0))
        (if s.sweeps.purge.counts.faults = 0 then .finished else .detached)).latchDone := rfl

theorem purgeStep_star {s : State} (hp : s.sweeps.purge.active = true) : MStar s (purgeStep s) := by
  have h := stepBucket_star (purgeAction_ok (BitVec.ofNat 8 (s.sweeps.purge.param.getD 0))
    s.sweeps.purge.cursor) .purge (s := s)
    (fun h => absurd h (never_waits (purgeAction_room _ _) _ _))
  unfold purgeStep
  dsimp only
  split
  · rw [endPurge_eq]
    refine (AStar.step h.1 (AMove.purgeEnd _ _ (h.2.trans hp) ?_)).trans (latchDone_star _)
    split <;> simp
  · exact h.1.run

theorem quarantineStep_star {s : State} (ht : s.taking) (hq : s.sweeps.quarantine.active = true) :
    MStar s (quarantineStep s) := by
  have h := stepBucket_star (quarantineAction_ok (s.sweeps.quarantine.param.getD 0)) .quarantine
    (s := s) (fun _ => ⟨rfl, ht, hq⟩)
  unfold quarantineStep
  dsimp only
  split
  · exact (AStar.step h.1 (AMove.quarantineEnd _)).trans (latchDone_star _)
  · exact h.1.run

theorem auditTableStep_star (s : State) : MStar s (auditTableStep s) := by
  have h := stepBucket_star auditAction_ok .audit (s := s)
    (fun h => absurd h (never_waits (by simp [auditAction]) _ _))
  unfold auditTableStep
  dsimp only
  split
  · exact AStar.step h.1 (AMove.audit ..)
  · exact h.1.run

theorem settleOwner_star (e : Entry) (s : State) : EStar s (settleOwner e s) :=
  (EMove.count ..).star.trans (revokeOwner_star ..)

theorem settleRead_star (c : Nat) (e : Entry) (s : State) : EStar s (settleRead c e s) := by
  unfold settleRead
  split
  · split
    · have hv := (EMove.count s .audit (.visits (s.findReads e.wafer e.x e.y))).star
      dsimp only
      split
      · rename_i h
        have hu : (s.countSweep .audit (.visits (s.findReads e.wafer e.x e.y))).usedCell _ :=
          usedCell_of_eq (find_found h) rfl rfl
        exact hv.trans ((EMove.withdraw _ _ _ _ _ _ hu).star.trans (settleOwner_star ..))
      · exact (hv.tail (EMove.tableFault ..)).tail (EMove.count ..)
      · exact hv
      · exact hv
    · exact (EMove.close ..).star.trans (settleOwner_star ..)
  · exact (EMove.close ..).star.trans (settleOwner_star ..)
  · exact (EMove.close ..).star.trans (settleOwner_star ..)
  · exact .refl
  · exact .refl

theorem settleDamaged_star (n : Nat) (s : State) : EStar s (settleDamaged n s) := by
  unfold settleDamaged
  split
  · exact .refl
  · rename_i c _
    have ha := access_star s .audit c
    split
    · rename_i s1 h
      have h1 : EStar s s1 := star_of_eq ha h
      split
      · exact h1.tail (EMove.count ..)
      · exact h1
    · rename_i e s1 h
      exact (star_of_eq ha h).trans (settleRead_star ..)

theorem auditRead_star (n : Nat) (s : State) : EStar s (auditRead n s) := by
  unfold auditRead
  dsimp only
  split
  · exact ((EMove.count ..).star.tail (EMove.keyFault ..)).tail (EMove.count ..)
  · exact (EMove.count ..).star

theorem auditSlot_star (s : State) (n : Nat) : EStar s (auditSlot s n) := by
  unfold auditSlot
  split
  · exact .refl
  · exact .refl
  · exact auditRead_star ..
  · exact auditRead_star ..
  · exact settleDamaged_star ..
  · dsimp only
    split
    · exact (auditRead_star ..).trans (settleDamaged_star ..)
    · exact auditRead_star ..

theorem auditPoolStep_star (s : State) : MStar s (auditPoolStep s) := by
  unfold auditPoolStep
  dsimp only
  have h : AStar s (((List.range' (32 * s.sweeps.audit.cursor) 32).foldl auditSlot s).advanceCursor
      .audit) := (EStar.act (foldl_star auditSlot_star _ s)).tail (AMove.cursor ..)
  split
  · exact (AStar.step h (AMove.audit ..)).trans (latchDone_star _)
  · exact h.run

theorem foldl_closing_star {f : State → Nat → State} (h : ∀ s n, s.lot.state = .closing →
    AStar s (f s n) ∧ (f s n).lot = s.lot) (l : List Nat) {s : State} (hc : s.lot.state = .closing) :
    AStar s (l.foldl f s) ∧ (l.foldl f s).lot = s.lot := by
  induction l generalizing s with
  | nil => exact ⟨.refl, rfl⟩
  | cons n l ih =>
    obtain ⟨h1, h2⟩ := h s n hc
    obtain ⟨h3, h4⟩ := ih (s := f s n) (by rw [h2]; exact hc)
    exact ⟨h1.trans h3, h4.trans h2⟩

theorem scrubCell_lot (s : State) (c : Nat) : (scrubCell s c).lot = s.lot := by
  unfold scrubCell; split <;> simp

theorem scrubGroup_star {s : State} (n : Nat) (hc : s.lot.state = .closing) :
    AStar s (s.scrubGroup n) ∧ (s.scrubGroup n).lot = s.lot := by
  unfold State.scrubGroup
  have h1 := foldl_closing_star (f := scrubCell) (fun s c hs =>
    ⟨.single (AMove.scrubCell s c hs), scrubCell_lot s c⟩) (List.range' (32 * n) 32) hc
  have h2 := foldl_closing_star (f := scrubHead) (fun s h _ =>
    ⟨.single (AMove.scrubHead s h), by simp [scrubHead]⟩) (List.range' (8 * n) 8)
    (s := (List.range' (32 * n) 32).foldl scrubCell s) (by rw [h1.2]; exact hc)
  exact ⟨h1.1.trans h2.1, h2.2.trans h1.2⟩

theorem closeScrubStep_star {s : State} (hc : s.lot.state = .closing) :
    MStar s (closeScrubStep s) := by
  unfold closeScrubStep
  dsimp only
  have hg := scrubGroup_star s.sweeps.scrubCursor hc
  have h : AStar s _ := hg.1.tail (AMove.scrubCursor _ (s.sweeps.scrubCursor + 1))
  split
  · exact (AStar.step h (AMove.discard _ (by rw [← hc, ← hg.2]))).trans (setLink_star ..)
  · exact AStar.run h

theorem sweepStep_star {k : SweepStep} {act : State → State} (s : State)
    (h : ∀ t : State, t.offer = some k → MStar t (act t)) : MStar s (s.sweepStep k act) := by
  unfold State.sweepStep
  dsimp only
  refine (settleExpiries_star s).act.run.trans ?_
  generalize s.settleExpiries = u
  split
  · rename_i ho
    refine ReflTransGen.trans ?_ (endWork_star _).act.run
    have : MStar u { u with arbiter := Requester.sweep.after } := .single (Move.links u u.links _)
    exact this.trans (h _ ho.1)
  · exact .refl

/-- What the state shows when a step is offered (R129). -/
theorem offer_cases {s : State} {k : SweepStep} (h : s.offer = some k) :
    (k = .scrub ∧ s.lot.state = .closing ∧ s.sweeps.scrubActive = true)
      ∨ (s.taking ∧ k = .quarantine ∧ s.sweeps.quarantine.active = true
          ∧ s.sweeps.quarantine.waiting = false)
      ∨ (s.taking ∧ k = .purge ∧ s.sweeps.purge.active = true
          ∧ s.sweeps.quarantine.active = false)
      ∨ (s.taking ∧ s.sweeps.audit.active = true ∧ s.sweeps.quarantine.active = false
          ∧ s.sweeps.purge.active = false
          ∧ ((k = .auditTable ∧ s.sweeps.audit.phase = .table)
            ∨ (k = .auditPool ∧ s.sweeps.audit.phase = .pool))) := by
  unfold State.offer at h
  unfold State.taking
  split at h
  · split at h <;> simp_all
  all_goals first
    | (exfalso; simp at h)
    | (split at h
       · split at h <;> simp_all
       · split at h
         · simp_all
         · split at h
           · split at h <;> simp_all
           · simp_all)

/-! ## Link events -/

theorem frameArrived_star (s : State) (l : Link) (bytes : List Byte) (bad : Bool) :
    MStar s (s.frameArrived l bytes bad) := by
  unfold State.frameArrived State.place
  dsimp only
  split
  · exact linkReply_star ..
  · split
    · exact linkReply_star ..
    · split
      · exact linkReply_star ..
      · split
        · exact linkReply_star ..
        · split
          · exact setLink_star ..
          · exact linkReply_star ..

theorem rxByte_star (s : State) (l : Link) (bad : Bool) (b : Byte) :
    MStar s (s.rxByte l bad b) := by
  unfold State.rxByte State.setRx
  split
  · exact .refl
  · exact setLink_star ..
  · dsimp only
    split
    · exact (setLink_star ..).trans (linkReply_star ..)
    · split
      · exact (setLink_star ..).trans (frameArrived_star ..)
      · exact setLink_star ..

theorem rxBytes_star (s : State) (l : Link) (bytes : List Byte) : MStar s (s.rxBytes l bytes) :=
  foldl_star (fun s b => rxByte_star s l false b) bytes s

theorem gap_star (s : State) (l : Link) : MStar s (s.gap l) := by
  unfold State.gap State.setRx
  split
  · exact setLink_star ..
  · exact .refl
  · exact (setLink_star ..).trans (linkReply_star ..)

/-! ## Every command -/

/-- Every command is a run of moves. -/
theorem exec_star {i : Instr} {s t : State} (h : exec i s = .next t) : MStar s t := by
  cases i <;> simp only [exec, execDeviceReset, execFrameArrival, execIdleGap, execLengthTooGreat,
    execAttach, execDetach, execClaim, execBurnBegin, execBurnResult, execRelease, execAbandon,
    execStationReset, execStationStatus, execLotOpen, execLotAmend, execLotLock, execKeyLoad,
    execQuarantine, execPurgeWafer, execAuditStart, execAuditStop, execJournalRead, execJournalTake,
    execLotStatus, execResume, execLotClose, execPurgeStep, execQuarantineStep, execAuditTableStep,
    execAuditPoolStep, execCloseScrubStep, execReplyFrameSent, execFrameStart,
    execByteFramingError, Host.Outcome.next.injEq] at h
  case deviceReset => subst h; exact .single (Move.reset s)
  case storeClearComplete =>
    unfold execStoreClearComplete at h
    split at h
    · rename_i hc
      simp only [Host.Outcome.next.injEq] at h
      subst h; exact .single (Move.clear s hc)
    · simp only [Host.Outcome.next.injEq] at h
      subst h; exact .refl
  case frameArrival => subst h; exact rxBytes_star ..
  case idleGap => subst h; exact gap_star ..
  case lengthTooGreat => subst h; exact rxBytes_star ..
  case attach => subst h; exact request_star _ _ (fun s _ => attachRule_star _ _ s)
  case detach => subst h; exact request_star _ _ (fun s _ => detachRule_star _ s)
  case claim =>
    subst h
    exact request_star _ _ (ruleStar_taking (fun s ht => ((claimRule_star _ _ s).run ht).1)
      (by simp) (by simp) (by simp) (by simp))
  case burnBegin => subst h; exact request_star _ _ (fun s _ => (burnBeginRule_star _ _ s).act)
  case burnResult => subst h; exact request_star _ _ (fun s _ => (burnResultRule_star _ _ s).act)
  case release => subst h; exact request_star _ _ (fun s _ => (releaseRule_star _ _ s).act)
  case abandon => subst h; exact request_star _ _ (fun s _ => (abandonRule_star _ _ s).act)
  case stationReset => subst h; exact request_star _ _ (fun s _ => (stationResetRule_star _ s).act)
  case stationStatus => subst h; exact request_star _ _ (fun s _ => .refl)
  case lotOpen => subst h; exact request_star _ _ (fun s _ => lotOpenRule_star _ s)
  case lotAmend => subst h; exact request_star _ _ (fun s _ => lotAmendRule_star _ s)
  case lotLock => subst h; exact request_star _ _ (fun s _ => lotLockRule_star s)
  case keyLoad => subst h; exact request_star _ _ (fun s _ => keyLoadRule_star _ _ s)
  case quarantine =>
    subst h
    exact request_star _ _ (ruleStar_taking (fun s ht => quarantineRule_star ht)
      (by simp) (by simp) (by simp) (by simp))
  case purgeWafer =>
    subst h
    exact request_star _ _ (ruleStar_taking (fun s ht => purgeWaferRule_star ht)
      (by simp) (by simp) (by simp) (by simp))
  case auditStart => subst h; exact request_star _ _ (fun s _ => auditStartRule_star s)
  case auditStop => subst h; exact request_star _ _ (fun s _ => auditStopRule_star s)
  case journalRead => subst h; exact request_star _ _ (fun s _ => journalReadRule_star _ s)
  case journalTake => subst h; exact request_star _ _ (fun s _ => journalTakeRule_star _ s)
  case lotStatus => subst h; exact request_star _ _ (fun s _ => .refl)
  case resume => subst h; exact request_star _ _ (fun s _ => resumeRule_star _ s)
  case lotClose =>
    subst h
    exact request_star _ _ (ruleStar_taking (fun s ht => lotCloseRule_star ht)
      (by simp) (by simp) (by simp) (by simp))
  case purgeStep =>
    subst h
    refine sweepStep_star s fun t ho => ?_
    rcases offer_cases ho with h | h | h | h
    · simp at h
    · simp at h
    · exact purgeStep_star h.2.2.1
    · simp at h
  case quarantineStep =>
    subst h
    refine sweepStep_star s fun t ho => ?_
    rcases offer_cases ho with h | h | h | h
    · simp at h
    · exact quarantineStep_star h.1 h.2.2.1
    · simp at h
    · simp at h
  case auditTableStep => subst h; exact sweepStep_star s fun t _ => auditTableStep_star t
  case auditPoolStep => subst h; exact sweepStep_star s fun t _ => auditPoolStep_star t
  case closeScrubStep =>
    subst h
    refine sweepStep_star s fun t ho => ?_
    rcases offer_cases ho with h | h | h | h
    · exact closeScrubStep_star h.2.1
    · simp at h
    · simp at h
    · simp at h
  case leaseTimerTick d =>
    unfold execLeaseTimerTick at h
    cases d <;> simp only [Host.Outcome.next.injEq] at h
    · subst h; exact AStar.run (EStar.act ((settleExpiries_star s).tail (EMove.tick _)))
    · subst h; exact (EMove.deferred s _).star.act.run
  case leaseExpiry =>
    unfold execLeaseExpiry at h
    split at h <;> simp only [Host.Outcome.next.injEq] at h
    · subst h; exact AStar.run (EStar.act ((expiryFold_star ..).trans (expire_star ..)))
    · subst h; exact .refl
  case replyFrameSent => subst h; exact sent_star ..
  case frameStart => subst h; exact rxByte_star ..
  case byteFramingError => subst h; exact rxByte_star ..

/-- A property that the queue of commands does not touch and every move keeps is kept by every step. -/
theorem step_keeps {P : State → Prop} (hq : ∀ (s : State) q, P s → P { s with pending := q })
    (hm : ∀ s t, Move s t → P s → P t) {s t : State} (h : step s = .next t) (hp : P s) : P t := by
  unfold step at h
  split at h
  · cases h; exact hp
  · rename_i rest _
    have hs := exec_star h
    have h0 := hq s rest hp
    clear h
    generalize ({ s with pending := rest } : State) = u at hs h0
    induction hs with
    | refl => exact h0
    | tail _ hstep ih => exact hm _ _ hstep ih

end Sys2Proof.Machine
end

