-- ==== Sys2Proof/Tests/Slice0.lean ====
section
/-! SUPPORT. The model's own tests: the checks of well-formedness, the worked cases of the manual, and
a witness for the hypotheses of every statement. Expected values come from the manual's worked cases
and tables. -/

namespace Sys2Proof.Tests

open Sys2Proof.Machine

-- Each test is one evaluation by the kernel: one after another keeps the memory small.
set_option Elab.async false

/-! ## Well-formedness -/

theorem test_wf_no_item : (Instr.claim 0 []).wf = false := by decide

theorem test_wf_seventeen_items : (Instr.release 3 (List.replicate 17 0)).wf = false := by decide

theorem test_wf_sixtyfive_records :
    (Instr.keyLoad 1 (List.replicate 65 ⟨0, 0, 0⟩)).wf = false := by decide

/-- An otherwise settled LOT AMEND body with a given number of die rules. -/
def bodyOfRules (n : Nat) : AmendBody :=
  { windowP := ⟨packSerial 417300, packSerial 419999⟩, presenceE := 0, windowE := ⟨0, 0⟩
    claimLease := 0, burnLease := 9000, attemptLimit := 3, poolLow := 2000, tableLow := 256
    journalHigh := 0, strict := 1
    rules := List.replicate n ⟨1, 1, 0, 0, 1, 0, 0, 1, 0, 0, 1, 1⟩ }

theorem test_wf_rules : (Instr.lotAmend (bodyOfRules 99)).wf = false
    ∧ (Instr.lotOpen ⟨0, 0, bodyOfRules 99⟩).wf = false
    ∧ (Instr.lotAmend (bodyOfRules 98)).wf = true := by decide

theorem test_wf_empty_arrival : (Instr.frameArrival .lot []).wf = false := by decide

theorem test_wf_length : (Instr.lengthTooGreat .lot 0x04 0xC3).wf = false
    ∧ (Instr.lengthTooGreat .lot 0x04 0xC4).wf = true := by decide

theorem test_wf_tick : (Instr.leaseTimerTick (some 16)).wf = false
    ∧ (Instr.leaseTimerTick (some 15)).wf = true := by decide

/-! ## Worked cases of the layouts and checks -/

/-- The worked case of R30 and R164. -/
theorem test_two_sum : twoSum [1, 2, 3] = 0x0A06 ∧ requestFrame .stationStatus = [9, 0, 0, 0x1B, 9]
    ∧ requestFrame .detach = [2, 0, 0, 6, 2] := by decide

/-- The worked case of R45 and section 3.11. -/
theorem test_check_values : [417300, 417302, 417303, 417304, 9999999997, 9999999998,
    9999999999].map checkValue = [4, 8, 10, 1, 9, 0, 2] := by decide

/-- The worked case of R63 and section 8.9. -/
theorem test_buckets : bucketOf 7 (-3) 12 = 528 ∧ bucketOf 8 5 3 = 528
    ∧ bucketOf 7 (-35) 44 = 528 ∧ bucketOf 7 (-2) 12 = 565 ∧ bucketOf 4 2 (-1) = 1657
    ∧ bucketOf 4 (-32) 32 = 1684 := by decide

/-- The rule list of section 4.6. -/
def rules46 : List DieRule :=
  [⟨true, none, some (-128, -41), none, 6, .exclude⟩, ⟨true, none, some (41, 127), none, 6, .exclude⟩,
    ⟨true, some (1, 3), none, none, 3, .cls .e⟩,
    ⟨true, none, some (-4, 4), some (-4, 4), 5, .cls .e⟩,
    ⟨false, none, none, none, 7, .exclude⟩,
    ⟨true, some (2, 2), some (-10, 10), some (0, 0), 3, .cls .p⟩]

/-- The decisions of section 4.6. -/
theorem test_decisions : decideDie rules46 7 (-3) 12 = .cls .p ∧ decideDie rules46 7 2 (-1) = .cls .e
    ∧ decideDie rules46 2 45 0 = .exclude ∧ decideDie rules46 2 5 0 = .cls .e
    ∧ decideDie rules46 12 (-41) 40 = .exclude ∧ decideDie rules46 9 (-40) 0 = .cls .p := by decide

/-- The refused list of section 4.7: die rule 1 fails at its priority. -/
theorem test_refused_rule : malformedRule [⟨1, 1, 0, 0, 1, 0, 0, 1, 0, 0, 1, 1⟩,
    ⟨1, 0, 4, 9, 1, 0, 0, 1, 0, 0, 9, 2⟩, ⟨1, 0, 7, 5, 1, 0, 0, 1, 0, 0, 2, 0⟩] = some 1 := by decide

/-- The clamps of section 1.9. -/
theorem test_clamps : limitsOf (bodyOfRules 2) = ⟨1, 6000, 3, 1024, 256, 1, true⟩ := by decide

/-- Section 3.10: the window ends on a passed-over value, or one later. -/
theorem test_passed_over :
    (SerialUnit.mk (some ⟨417300, 417303⟩) (some 417303) 3 0 false).exhausted = true
    ∧ (SerialUnit.mk (some ⟨417300, 417304⟩) (some 417303) 3 0 false).allocate
      = (417304, ⟨some ⟨417300, 417304⟩, some 417305, 4, 1, false⟩) := by decide

/-- Section 3.11: the top of the range. -/
theorem test_overflow :
    (SerialUnit.mk (some ⟨9999999997, 9999999999⟩) (some 9999999999) 2 0 false).allocate
      = (9999999999, ⟨some ⟨9999999997, 9999999999⟩, some 0, 3, 0, true⟩) := by decide

/-! ## Small states -/

/-- The state after a command. -/
def after (i : Instr) (s : State) : State :=
  match exec i s with
  | .next t => t
  | .fault _ => s
  | .refused _ => s

/-- The newest reply of a link. -/
def answerOf (l : Link) (s : State) : Option ReplyBody := ((s.link l).replies.getLast?).map (·.body)

/-- The outcomes of a list reply. -/
def codesOf : Option ReplyBody → List Code
  | some (.items outcomes) => outcomes.map (·.code)
  | _ => []

/-- IDLE, with the store cleared. -/
def idle : State := State.reset.clearStore

/-- A LOCKED lot of split code 2: station 0 has wafer 7, station 1 wafer 8, wafer 4 is DETACHED and
wafer 5 FINISHED. -/
def base : State :=
  { idle with
    lot := ⟨.locked, true, some ⟨0x4B3751322D303135, 2, ⟨3000, 600, 3, 2, 16, 192, false⟩⟩,
      [.new, .new, .new, .detached, .finished, .new, .attached 0, .attached 1]
        ++ List.replicate 17 .new, []⟩
    stations := #v[⟨some 7, Vector.replicate 16 .free⟩, ⟨some 8, Vector.replicate 16 .free⟩, .clear,
      .clear]
    unitP := .start (some ⟨417300, 419999⟩)
    rules := some [⟨true, none, some (41, 127), none, 6, .exclude⟩]
    table := .start 6144 }

/-- A link holds a request, and the arbiter considers it first. -/
def asks (s : State) (l : Link) (r : Request) : State :=
  { s with links := s.links.set (linkNo l) ⟨.hunting, [], true, some r⟩, arbiter := .link l }

/-- The key of the worked cases of chapter 7. -/
def keyValue : Key := 0x5A00F013000000000000000000000000

/-- A record of batch 305 whose check word agrees. -/
def record (index : Byte) : KeyRecord := ⟨index, keyValue, twoSum (keyFields 305 index keyValue)⟩

/-- Two FRESH keys, 305/7 in slot 0 and 305/8 in slot 1. -/
def loaded : State := base.loadKeys 305 [record 7, record 8]

/-- The entry of die (7, −3, 12) with key 305/7. -/
def entry (state : EntryState) (owner : Option (Station × Site)) (attempts : Byte) : Entry :=
  ⟨7, -3, 12, state, 305, 7, some 0, packSerial 417306, 5, .p, owner, attempts, 0⟩

/-- The entry in cell 6144, its key BOUND and its reservation held. -/
def opened (e : Entry) : State :=
  let s := ((({ loaded with pool := { loaded.pool with fresh := [1] } }).insertEntry 528 0 none
    e).bindKey 0 6144)
  { s with journal := { s.journal with reservations := 1 } }

/-- The entry stands alone with no key, in a final state. -/
def closed (state : EntryState) : State :=
  let s := base.insertEntry 528 0 none { entry state none 1 with slot := none }
  { s with table := { s.table with openCount := 0 } }

/-- Site 2 of station 0 holds the claim. -/
def held (state : EntryState) (attempts : Byte) (lease : Nat) : State :=
  (opened (entry state (some (0, 2)) attempts)).setSlot 0 2 (.held (-3) 12 6144 lease)

/-- A batch is blocked by range 1. -/
def blocking (s : State) : State := { s with lot := { s.lot with blocked := [⟨305, 305⟩] } }

/-- A key slot carries the damaged mark. -/
def damaging (s : State) : State :=
  { s with pool := { s.pool with slots := mapSet emptySlot s.pool.slots 0 ⟨.bound, true⟩ } }

/-- A bucket is marked damaged. -/
def freezing (s : State) (h : Nat) : State := s.markDamaged h

/-- The head of a bucket does not read cleanly. -/
def breakingHead (s : State) (h : Nat) : State :=
  { s with table := { s.table with
      heads := mapSet zeroHead s.table.heads h { s.head h with parity := !(s.head h).parity } } }

/-- The content group of a cell does not read cleanly. -/
def breakingCell (s : State) (c : Nat) : State :=
  let bad := { s.cell c with contentParity := !(s.cell c).contentParity }
  { s with store := mapSet zeroCell s.store c bad }

/-- The head of bucket 528 reads cleanly, and its pointer leads out of the chain. -/
def misleading (s : State) : State := s.writeHead 528 { s.head 528 with first := 0 }

/-- Two entries in final states, of the dies (7, −3, 12) and (w, −35, 44), in the chain of bucket 528. -/
def pair (first second : EntryState) (w : Byte) : State :=
  let e : Entry := { entry first none 1 with slot := none }
  let s := (base.insertEntry 528 0 none e).insertEntry 528 1 (some 6144)
    { e with wafer := w, x := -35, y := 44, state := second }
  { s with table := { s.table with openCount := 0 } }

/-- The first of the two entries points out of the chain. -/
def straying (s : State) : State := s.writeCell 6144 { s.cell 6144 with next := 9 }

/-! ## Checks of the hypotheses -/

/-- Whether cells follow one another in a chain. -/
def leadsB (s : State) (h : Nat) : Nat → List Nat → Nat → Bool
  | from_, [], last => decide (from_ = last)
  | from_, c :: cs, last => decide (from_ = c) && s.inChain h c && decide (s.entryFault c = none)
      && decide ((s.cell c).last = 0) && leadsB s h (s.cell c).next.toNat cs last

theorem place_of {s : State} {h c : Nat} (b : s.inChain h c = true) : s.InPlace h c := by
  simp only [State.inChain, Bool.and_eq_true, decide_eq_true_eq] at b
  exact ⟨b.1.1, b.1.2, b.2⟩

theorem leads_of {s : State} {h : Nat} : ∀ {cs : List Nat} {from_ last : Nat},
    leadsB s h from_ cs last = true → s.Leads h from_ cs last
  | [], _, _, b => by simpa [leadsB, State.Leads] using b
  | c :: cs, _, _, b => by
    simp only [leadsB, Bool.and_eq_true, decide_eq_true_eq] at b
    exact ⟨b.1.1.1.1, place_of b.1.1.1.2, b.1.1.2, b.1.2, leads_of b.2⟩

/-- Whether a walk reads the cells before c and comes to c. -/
def walksB (s : State) (h : Nat) (before : List Nat) (c : Nat) : Bool :=
  !s.headFault h && !(s.head h).damaged && (s.head h).valid
    && leadsB s h (s.head h).first.toNat before c && decide (before.length ≤ s.capacity)

theorem walks_of {s : State} {h c : Nat} {before : List Nat} (b : walksB s h before c = true) :
    s.WalksTo h before c := by
  simp only [walksB, Bool.and_eq_true, Bool.not_eq_true', decide_eq_true_eq] at b
  exact ⟨b.1.1.1.1, b.1.1.1.2, b.1.1.2, leads_of b.1.2, b.2⟩

/-- Whether the chain of a bucket is the cells before c and c. -/
def chainB (s : State) (h : Nat) (before : List Nat) (c : Nat) : Bool :=
  walksB s h before c && decide (before.length < s.capacity) && s.inChain h c
    && decide (s.entryFault c = none) && decide ((s.cell c).last ≠ 0)

theorem chain_of {s : State} {h c : Nat} {before : List Nat} (b : chainB s h before c = true) :
    s.Chain h before c := by
  simp only [chainB, Bool.and_eq_true, decide_eq_true_eq] at b
  exact ⟨⟨walks_of b.1.1.1.1, b.1.1.1.2, place_of b.1.1.2, b.1.2⟩, b.2⟩

/-- A chain whose next read finds a fault in the cell. -/
theorem breaks_cell {s : State} {h c : Nat} {before : List Nat} {g : FaultGroup}
    (b : (walksB s h before c && decide (before.length < s.capacity) && s.inChain h c
      && decide (s.entryFault c = some g)) = true) : s.Breaks h before (.cell c) g := by
  simp only [Bool.and_eq_true, decide_eq_true_eq] at b
  exact ⟨c, walks_of b.1.1.1, .inr (.inr ⟨b.1.1.2, place_of b.1.2, b.2, rfl⟩)⟩

/-- A chain whose next pointer leads out of it. -/
theorem breaks_pointer {s : State} {h c : Nat} {before : List Nat}
    (b : (walksB s h before c && !s.inChain h c) = true) : s.Breaks h before
      (match before.getLast? with | none => .head h | some d => .cell d) .link := by
  simp only [Bool.and_eq_true, Bool.not_eq_true'] at b
  refine ⟨c, walks_of b.1, .inl ⟨fun hp => ?_, rfl, rfl⟩⟩
  have : s.inChain h c = true := by
    simp only [State.inChain, Bool.and_eq_true, decide_eq_true_eq]
    exact ⟨⟨hp.1, hp.2.1⟩, hp.2.2⟩
  simp [this] at b

/-- Whether a link's request is granted now. -/
def grantedB (s : State) (l : Link) (r : Request) : Bool :=
  decide (∀ st site, s.expiryDue st site = false) && decide (s.deferred = [])
    && decide ((s.link l).request = some r) && decide (s.nextGrant = some (.link l))
    && decide (∀ r ∈ (s.link l).replies, r.linkLevel = true)

theorem granted_of {s : State} {l : Link} {r : Request} (h : grantedB s l r = true) :
    s.Granted l r := by
  simp only [grantedB, Bool.and_eq_true, decide_eq_true_eq] at h
  exact ⟨⟨h.1.1.1.1, h.1.1.1.2⟩, h.1.1.2, h.1.2, h.2⟩

/-- Whether a sweep step is granted now. -/
def offeredB (s : State) (k : SweepStep) : Bool :=
  decide (∀ st site, s.expiryDue st site = false) && decide (s.deferred = [])
    && decide (s.offer = some k) && decide (s.nextGrant = some .sweep)

theorem offered_of {s : State} {k : SweepStep} (h : offeredB s k = true) : s.Offered k := by
  simp only [offeredB, Bool.and_eq_true, decide_eq_true_eq] at h
  exact ⟨⟨h.1.1.1, h.1.1.2⟩, h.1.2, h.2⟩

/-- Whether an entry is open in a cell. -/
def openB (s : State) (c : Nat) (e : Entry) (n : Fin 8192) : Bool :=
  let h := bucketOf e.wafer e.x e.y
  decide (s.cellBucket c = some h) && !s.headFault h && !(s.head h).damaged
    && decide (s.entryFault c = none) && decide (s.entryAt c = e) && decide (e.slot = some n)
    && decide ((s.keySlot n).state = .bound) && decide (n.val < s.keySlots ∧ s.keySlots ≤ c)
    && decide (0 < s.journal.reservations) && s.mapsWf

theorem open_of {s : State} {c : Nat} {e : Entry} {n : Fin 8192} (h : openB s c e n = true) :
    s.OpenEntry c e n := by
  simp only [openB, Bool.and_eq_true, decide_eq_true_eq, Bool.not_eq_true'] at h
  obtain ⟨⟨⟨⟨⟨⟨⟨⟨⟨h0, h1⟩, h2⟩, h3⟩, h4⟩, h5⟩, h6⟩, h7⟩, h8⟩, h9⟩ := h
  exact ⟨⟨h0, h1, h2, h3, h4⟩, h5, h6, h7, h8, h9⟩

/-- Whether a station's claim is granted a request on the entry that it holds. -/
def claimB (s : State) (r : Request) (e : Entry) : Bool :=
  grantedB s (.station 0) r && openB s 6144 e 0
    && match s.slot 0 2 with
      | .held x y c _ => decide (x = e.x ∧ y = e.y ∧ c = 6144)
      | _ => false

theorem claim_of {s : State} {r : Request} {e : Entry} (ht : s.taking) (h : claimB s r e = true) :
    s.Granted (.station 0) r ∧ s.taking ∧ s.Claimed 0 2 2 e.x e.y 6144 e 0 := by
  simp only [claimB, Bool.and_eq_true] at h
  refine ⟨granted_of h.1.1, ht, rfl, ?_, open_of h.1.2⟩
  have h2 := h.2
  split at h2
  · rename_i x y c lease hs
    simp only [decide_eq_true_eq] at h2
    obtain ⟨rfl, rfl, rfl⟩ := h2
    exact ⟨lease, hs⟩
  · simp at h2

/-- Whether a claim item of site 3 for die (7, −3, 12) reaches the table. -/
def tableB (s : State) : Bool :=
  grantedB s (.station 0) (.claim [⟨3, -3, 12⟩]) && decide (s.slot 0 3 = .free)
    && decide (s.stations[(0 : Station)].attached = some 7) && !s.check.halt
    && decide (s.decision 7 (-3) 12 = .cls .p)
    && !s.headFault (bucketOf 7 (-3) 12) && !(s.head (bucketOf 7 (-3) 12)).damaged

theorem table_of {s : State} (ht : s.taking) (h : tableB s = true) :
    s.Granted (.station 0) (.claim [⟨3, -3, 12⟩]) ∧ s.taking ∧ s.AtTable 0 3 3 7 (-3) 12 .p := by
  simp only [tableB, Bool.and_eq_true, decide_eq_true_eq, Bool.not_eq_true'] at h
  obtain ⟨⟨⟨⟨⟨⟨h0, h1⟩, h2⟩, h3⟩, h4⟩, h5⟩, h6⟩ := h
  exact ⟨granted_of h0, ht, rfl, h1, h2, h3, h4, h5, h6⟩

/-- Whether a bucket holds one entry alone. -/
def loneB (s : State) (h c : Nat) (e : Entry) : Bool :=
  !s.headFault h && (s.head h).valid && !(s.head h).damaged && decide ((s.head h).first.toNat = c)
    && decide (s.keySlots ≤ c ∧ c < 8192) && decide (s.cellBucket c = some h)
    && decide (s.entryFault c = none) && decide (s.entryAt c = e) && decide ((s.cell c).last ≠ 0)
    && decide (0 < s.capacity)

theorem lone_of {s : State} {h c : Nat} {e : Entry} (b : loneB s h c e = true) :
    s.LoneEntry h c e := by
  simp only [loneB, Bool.and_eq_true, decide_eq_true_eq, Bool.not_eq_true'] at b
  obtain ⟨⟨⟨⟨⟨⟨⟨⟨⟨h0, h1⟩, h2⟩, h3⟩, h4⟩, h5⟩, h6⟩, h7⟩, h8⟩, h9⟩ := b
  exact ⟨h0, h1, h2, h3, h4, h5, h6, h7, h8, h9⟩

/-! ## One step of each command -/

theorem test_deviceReset : (after .deviceReset loaded).lot.state = .init
    ∧ (after .deviceReset loaded).pool.fresh = [] := by decide +kernel

theorem test_storeClearComplete : (after .storeClearComplete State.reset).lot.state = .idle := by
  decide +kernel

/-- A link with a receive framer. -/
def onLink (s : State) (l : Link) (rx : RxState) : State := s.setLink l { s.link l with rx := rx }

/-- The STATION STATUS frame of R164's worked case becomes a request. -/
theorem test_frameArrival :
    (after (.frameArrival (.station 0) [9, 0, 0, 0x1B, 9]) (onLink idle (.station 0) .ready)).link
      (.station 0) = ⟨.hunting, [], true, some .stationStatus⟩ := by decide +kernel

/-- A frame truncated by an idle gap is answered FRAME_CHECK with its kind (R163, R164). -/
theorem test_idleGap : (after (.idleGap .lot) (onLink idle .lot (.inFrame [0x2A, 0] false))).link .lot
    = ⟨.ready, [⟨0x2A, .code .frameCheck, true, false⟩], false, none⟩ := by decide +kernel

/-- A body length of 1220 is answered FORMAT (R163). -/
theorem test_lengthTooGreat :
    (after (.lengthTooGreat .lot 0x04 0xC4) (onLink idle .lot (.inFrame [0x20] false))).link .lot
      = ⟨.hunting, [⟨0x20, .code .format, true, false⟩], false, none⟩ := by decide +kernel

/-- Section 1.10: an attach moves the station, detaches its old wafer and frees its notices. -/
theorem test_attach :
    let t := after (.attach 0 1) (asks (base.setSlot 0 3 (.expired 3 (-5))) (.station 0) (.attach 1))
    answerOf (.station 0) t = some (.attached 1 (some 7) 1) ∧ t.wafer 7 = some .detached
      ∧ t.wafer 1 = some (.attached 0) ∧ t.slot 0 3 = .free := by decide +kernel

/-- A station without a wafer (R13). -/
theorem test_detach : answerOf (.station 2) (after (.detach 2) (asks base (.station 2) .detach))
    = some (.code .noWafer) := by decide +kernel

/-- Section 6.10, request 1: the five items' outcomes and the lock. -/
theorem test_claim :
    let items := [⟨0, -3, 12⟩, ⟨1, -2, 12⟩, ⟨2, 45, 0⟩, ⟨3, -2, 12⟩, ⟨16, 0, 0⟩]
    let t := after (.claim 0 items) (asks { loaded with lot := { loaded.lot with
      state := .opened, lock := false } } (.station 0) (.claim items))
    codesOf (answerOf (.station 0) t) = [.issued, .issued, .excluded, .duplicateInSet, .outOfRange]
      ∧ t.lot.state = .locked ∧ t.unitP.next = some 417302 ∧ t.journal.reservations = 2
      ∧ t.slot 0 1 = .held (-2) 12 6145 3000 := by decide +kernel

/-- Section 5.12, step 3: the third entry of a chain, and its head and tail. -/
theorem test_claim_chain :
    let t := after (.claim 0 [⟨1, -35, 44⟩]) (asks (held .issued 0 5) (.station 0) (.claim [⟨1, -35, 44⟩]))
    codesOf (answerOf (.station 0) t) = [.issued] ∧ (t.head 528).first = 6144
      ∧ t.nextCell 6144 = 6145 ∧ t.isLast 6144 = false ∧ t.isLast 6145 = true
      ∧ t.table.longest = 2 := by decide +kernel

/-- Section 7.8, step 1. -/
theorem test_burnBegin :
    let t := after (.burnBegin 0 [2]) (asks (held .issued 0 5) (.station 0) (.burnBegin [2]))
    answerOf (.station 0) t = some (.items [⟨2, .ok, .attempts 1⟩])
      ∧ (t.entryAt 6144).state = .burning ∧ t.slot 0 2 = .held (-3) 12 6144 600 := by decide +kernel

/-- Section 7.8, step 2: the partial burn of R109's worked case, one bit missing. -/
theorem test_burnResult :
    let items := [⟨2, 0x5800F013000000000000000000000000⟩]
    let t := after (.burnResult 0 items) (asks (held .burning 1 5) (.station 0) (.burnResult items))
    answerOf (.station 0) t = some (.items [⟨2, .partialBurn, .missing 1 1⟩])
      ∧ (t.entryAt 6144).state = .issued ∧ t.slot 0 2 = .held (-3) 12 6144 3000 := by decide +kernel

/-- R109's worked case: one extra bit spoils the die. -/
theorem test_burnResult_spoiled :
    let items := [⟨2, 0x5A01F013000000000000000000000000⟩]
    let t := after (.burnResult 0 items) (asks (held .burning 1 5) (.station 0) (.burnResult items))
    answerOf (.station 0) t = some (.items [⟨2, .voided, .voided .spoiled 0 1⟩])
      ∧ (t.entryAt 6144).state = .void ∧ t.pool.counts.spent = 1 ∧ t.held = 1 := by decide +kernel

/-- R34 row 4 and R101: the key goes on the return stack and the entry goes. -/
theorem test_release :
    let t := after (.release 0 [2]) (asks (held .issued 0 5) (.station 0) (.release [2]))
    answerOf (.station 0) t = some (.items [⟨2, .released, .disposition none⟩])
      ∧ t.pool.stack = [0] ∧ (t.head 528).valid = false ∧ t.journal.reservations = 0
      ∧ t.slot 0 2 = .free := by decide +kernel

/-- R102: VOID with reason ABANDONED. -/
theorem test_abandon :
    let t := after (.abandon 0 [2]) (asks (held .burning 1 5) (.station 0) (.abandon [2]))
    codesOf (answerOf (.station 0) t) = [.voided] ∧ (t.entryAt 6144).state = .void
      ∧ t.journal.queue.map (·.reason) = [some .abandoned] := by decide +kernel

/-- R123: a burning claim becomes UNCERTAIN. -/
theorem test_stationReset :
    let t := after (.stationReset 0) (asks (held .burning 1 5) (.station 0) .stationReset)
    answerOf (.station 0) t = some (.stationReset 0 1 0) ∧ (t.entryAt 6144).state = .uncertain
      ∧ (t.entryAt 6144).owner = none := by decide +kernel

theorem test_stationStatus :
    answerOf (.station 0) (after (.stationStatus 0) (asks (held .issued 0 5) (.station 0) .stationStatus))
      = some (.stationStatus .locked false (held .issued 0 5).stations[(0 : Station)]) := by
  decide +kernel

/-- The LOT OPEN of section 1.9, without its rules. -/
def open19 : OpenBody := ⟨0x4B3751322D303135, 1, bodyOfRules 0⟩

theorem test_lotOpen :
    let t := after (.lotOpen open19) (asks idle .lot (.lotOpen open19))
    answerOf .lot t = some (.lotOpened 0x4B3751322D303135 1
      ⟨⟨417300, 419999⟩, none, ⟨1, 6000, 3, 1024, 256, 1, true⟩, []⟩ 4096 4096)
      ∧ t.lot.state = .opened ∧ t.table.free.head? = some 4096 := by decide +kernel

/-- Section 1.9: an amend whose window P has its ends exchanged. -/
def amend19 : AmendBody :=
  { bodyOfRules 0 with windowP := ⟨packSerial 419999, packSerial 417300⟩ }

theorem test_lotAmend :
    let s := { base with lot := { base.lot with state := .opened, lock := false } }
    answerOf .lot (after (.lotAmend amend19) (asks s .lot (.lotAmend amend19)))
      = some (.badParameter 3 none) := by decide +kernel

/-- Section 1.4's note: a LOT LOCK of a locked lot. -/
theorem test_lotLock : answerOf .lot (after .lotLock (asks base .lot .lotLock))
    = some (.code .lotLocked) := by decide +kernel

/-- Section 2.12, step 1: keys go into the lowest slots in record order, whatever their indices. -/
theorem test_keyLoad :
    let r := [record 9, record 5]
    let t := after (.keyLoad 305 r) (asks base .lot (.keyLoad 305 r))
    answerOf .lot t = some (.keyLoaded 305 2 2 2) ∧ t.pool.fresh = [0, 1]
      ∧ ((t.keyAt 0).index, (t.keyAt 1).index) = (9, 5) ∧ t.pool.counts.loaded = 2 := by decide +kernel

/-- Section 8.9, step 1: the second range. -/
theorem test_quarantine :
    let t := after (.quarantine 305 305) (asks { base with lot := { base.lot with
      blocked := [⟨300, 300⟩] } } .lot (.quarantine 305 305))
    answerOf .lot t = some (.quarantined 2)
      ∧ t.sweeps.quarantine = ⟨true, false, some 2, .table, 0, ⟨0, 0, 0, 0⟩⟩ := by decide +kernel

theorem test_purgeWafer :
    let t := after (.purgeWafer 4) (asks base .lot (.purgeWafer 4))
    answerOf .lot t = some (.purging 4) ∧ t.wafer 4 = some .purging := by decide +kernel

theorem test_auditStart :
    (after .auditStart (asks base .lot .auditStart)).sweeps.audit.active = true := by decide +kernel

theorem test_auditStop : answerOf .lot (after .auditStop (asks base .lot .auditStop))
    = some (.code .wrongState) := by decide +kernel

/-- Two journal entries, 39 and 40, as in section 9.8. -/
def journal98 : List JournalEntry :=
  [journalEntryOf 39 (entry .provisioned none 1) .provisioned (some (3, 9)) none (some (0, 0)),
    journalEntryOf 40 (entry .issued none 0) .keyWithdrawn (some (0, 6)) (some .returnFull) none]

/-- Section 9.8 with its journal. -/
def journaling : State := { base with journal := ⟨journal98, 4, 41⟩ }

theorem test_journalRead : answerOf .lot (after (.journalRead 8) (asks journaling .lot (.journalRead 8)))
    = some (.journalRead 2 4 journal98) := by decide +kernel

theorem test_journalTake :
    let t := after (.journalTake 1) (asks journaling .lot (.journalTake 1))
    answerOf .lot t = some (.journalTaken 39 39 1 4) ∧ t.held = 1 := by decide +kernel

/-- Section 9.8, last paragraph: a take above the entries held. -/
theorem test_journalTake_short :
    answerOf .lot (after (.journalTake 3) (asks journaling .lot (.journalTake 3)))
      = some (.badTake 2) := by decide +kernel

/-- The IDLE report: state, lock, halt, the empty fault record and no cause (R10, 11.6). -/
theorem test_lotStatus : answerOf .lot (after .lotStatus (asks idle .lot .lotStatus))
    = some (.lotStatus [1, 0, 0, 0, 0, 0, 0, 0, 0, 0]) := by decide +kernel

/-- Section 10.7, step 3: RESUME with clear 0. -/
theorem test_resume :
    let s := { base with check := ⟨true, 2, some ⟨.cell 40, .content, .audit⟩, true, false⟩ }
    let t := after (.resume 0) (asks s .lot (.resume 0))
    answerOf .lot t = some (.resumed true 2 (some ⟨.cell 40, .content, .audit⟩))
      ∧ t.check = ⟨false, 2, some ⟨.cell 40, .content, .audit⟩, true, false⟩ := by decide +kernel

/-- R9: wafers attached, an open entry and a reservation. -/
theorem test_lotClose : answerOf .lot (after .lotClose (asks (held .issued 0 5) .lot .lotClose))
    = some (.notClosable [1, 2, 3]) := by decide +kernel

/-- A sweep runs on a level with a parameter and a cursor. -/
def sweeping (s : State) (lv : SweepLevel) (param : Option Nat) (phase : SweepPhase) (cursor : Nat) :
    State :=
  (s.setContext lv ⟨true, false, param, phase, cursor, ⟨0, 0, 0, 0⟩⟩)

/-- A purge of wafer 7 stands at a bucket. -/
def purging (s : State) (cursor : Nat) : State :=
  sweeping ((s.setStation 0 .clear).setWafer 7 .purging) .purge (some 7) .table cursor

/-- R133: an UNCERTAIN entry of the wafer is voided as UNRESOLVED and removed. -/
theorem test_purgeStep :
    let t := after .purgeStep (purging (opened (entry .uncertain none 1)) 528)
    t.journal.queue.map (·.reason) = [some .unresolved] ∧ (t.head 528).valid = false
      ∧ t.table.inUse = 0 ∧ t.sweeps.purge = ⟨true, false, some 7, .table, 529, ⟨1, 1, 1, 0⟩⟩ := by
  decide +kernel

/-- Section 8.9, step 2: the withdrawal of an unburned claim. -/
theorem test_quarantineStep :
    let t := after .quarantineStep
      (sweeping (blocking (held .issued 0 5)) .quarantine (some 1) .table 528)
    t.journal.queue.map (·.kind) = [.keyWithdrawn] ∧ t.slot 0 2 = .revoked (-3) 12
      ∧ t.pool.counts.retired = 1 ∧ t.sweeps.quarantine.cursor = 529 := by decide +kernel

/-- Section 8.9, step 4: no room for a QUARANTINE_HIT. -/
theorem test_quarantineStep_waits :
    let s := blocking (closed .provisioned)
    let t := after .quarantineStep (sweeping { s with journal := { s.journal with reservations := 256 } }
      .quarantine (some 1) .table 528)
    t.sweeps.quarantine.waiting = true ∧ t.sweeps.quarantine.cursor = 528
      ∧ t.held = 0 := by decide +kernel

/-- R140: the last bucket takes the audit into its POOL phase. -/
theorem test_auditTableStep :
    (after .auditTableStep (sweeping base .audit none .table 2047)).sweeps.audit
      = ⟨true, false, none, .pool, 0, ⟨0, 0, 0, 0⟩⟩ := by decide +kernel

/-- Section 10.7, step 1: a FRESH slot whose check word is wrong. -/
theorem test_auditPoolStep :
    let s := loaded.writeCell 1 ⟨keyContent ⟨305, 8, keyValue, 0⟩, 0, 0, false, false⟩
    let t := after .auditPoolStep (sweeping s .audit none .pool 0)
    t.check = ⟨false, 1, some ⟨.cell 1, .content, .audit⟩, true, false⟩
      ∧ (t.keySlot 1).state = .faulted ∧ t.pool.fresh = [0, 1] := by decide +kernel

/-- A lot in CLOSING with its scrub at a step. -/
def scrubbing (s : State) (n : Nat) : State :=
  { s with
    lot := { s.lot with state := .closing }
    sweeps := { s.sweeps with scrubActive := true, scrubCursor := n }
    links := s.links.set 4 ⟨.hunting, [], true, none⟩ }

/-- R145: the last step closes the lot and answers. -/
theorem test_closeScrubStep :
    let t := after .closeScrubStep (scrubbing loaded 255)
    answerOf .lot t = some (.lotClosed 0x4B3751322D303135 true 2 0 0) ∧ t.lot = .noLot .idle
      ∧ t.pool = .absent := by decide +kernel

/-- Section 1.10, step 1: a lease of 40 falls to 39. -/
theorem test_leaseTimerTick :
    (after (.leaseTimerTick none) (held .issued 0 40)).slot 0 2 = .held (-3) 12 6144 39 := by
  decide +kernel

/-- Section 7.8, step 4: the lease of a burning claim runs out. -/
theorem test_leaseExpiry :
    let t := after (.leaseExpiry 0 2) (held .burning 2 0)
    t.slot 0 2 = .expired (-3) 12 ∧ (t.entryAt 6144).state = .uncertain
      ∧ (t.keySlot 0).state = .bound ∧ t.journal.reservations = 1 := by decide +kernel

/-- R10 and R143: the sending of the report clears the latch. -/
theorem test_replyFrameSent :
    let s := { idle with sweeps := { idle.sweeps with sweepDone := true } }
    let t := after .lotStatus (asks s .lot .lotStatus)
    t.sweeps.sweepDone = true ∧ (after (.replyFrameSent .lot) t).sweeps.sweepDone = false := by
  decide +kernel

/-- R165: a queue holds one request reply, so the one before is sent as the next request is granted. -/
theorem test_one_request_reply :
    let s := after (.detach 0) (asks base (.station 0) .detach)
    let t := after (.stationReset 0)
      (s.setLink (.station 0) { s.link (.station 0) with outstanding := true, request := some .stationReset })
    ((s.link (.station 0)).replies.map (·.kind), (t.link (.station 0)).replies.map (·.kind))
      = ([2], [8]) := by decide +kernel

/-- R163: a READY framer starts a frame; a hunting one discards the byte. -/
theorem test_frameStart :
    ((after (.frameStart .lot 0x2A) (onLink idle .lot .ready)).link .lot).rx = .inFrame [0x2A] false
      ∧ ((after (.frameStart .lot 0x2A) idle).link .lot).rx = .hunting := by decide +kernel

/-- R163 and R164: a frame with a bad stop bit is collected to its end and answered FRAME_CHECK. -/
theorem test_byteFramingError :
    (after (.byteFramingError .lot 9) (onLink idle .lot (.inFrame [9, 0, 0, 0x1B] false))).link .lot
      = ⟨.hunting, [⟨9, .code .frameCheck, true, false⟩], false, none⟩ := by decide +kernel

/-- Grants 1, 2 and 6 of the sequence after R167. -/
theorem test_six_grants :
    let hold : List Requester → Requester → Bool := fun ps q => decide (q ∈ ps)
    (orderFrom (.link (.station 2))).find? (hold [.link (.station 0), .link (.station 3), .link .lot,
        .sweep]) = some (.link (.station 3))
      ∧ (orderFrom (.link .lot)).find? (hold [.link (.station 0), .link .lot, .sweep,
        .link (.station 3)]) = some (.link .lot)
      ∧ (orderFrom (.link .lot)).find? (hold [.sweep]) = some .sweep
      ∧ (Requester.link (.station 3)).after = .link .lot ∧ Requester.sweep.after = .link (.station 0) := by
  decide +kernel

/-! ## Witnesses: the machine, the links and the arbiter

Each theorem meets together the hypotheses of the statement it names, clause by clause. -/

theorem test_witness_StepRunsFrontCommand :
    ({ base with pending := [.auditStart, .detach 0] } : State).pending = .auditStart :: [.detach 0]
      ∧ base.pending = [] := ⟨rfl, rfl⟩

theorem test_witness_DeviceResetAndStoreClear :
    State.reset.check.clearing = true ∧ base.check.clearing = false := ⟨rfl, rfl⟩

theorem test_witness_RequestBodyRoundTrip :
    (Request.claim [⟨0, 0, 0⟩]).wf = true ∧ (Request.claim (List.replicate 16 ⟨15, 127, -128⟩)).wf = true
      ∧ (Request.keyLoad 0 []).wf = true ∧ (Request.keyLoad 1 (List.replicate 64 (record 0))).wf = true
      ∧ (Request.lotOpen ⟨0, 0, bodyOfRules 98⟩).wf = true ∧ (Request.lotAmend (bodyOfRules 0)).wf = true
      ∧ (Request.journalTake 0).wf = true := by decide

theorem test_witness_RequestFrameIsPlaced :
    ∀ p ∈ [((Link.station 3), Request.detach), (.lot, .lotStatus)],
      p.2.wf = true ∧ (isLotRequest p.2 = true ↔ p.1 = .lot)
        ∧ ((onLink idle p.1 .ready).link p.1).rx = .ready
        ∧ ((onLink idle p.1 .ready).link p.1).outstanding = false := by decide +kernel

/-- A station link collects the STATION STATUS frame and lacks its last byte. -/
def collecting (bad : Bool) (outstanding : Bool) : State :=
  idle.setLink (.station 0) ⟨.inFrame [9, 0, 0, 0x1B] bad, [], outstanding, none⟩

/-- As `collecting`, with a frame of an unknown kind, and of a lot request. -/
def collectingOther (kind : Byte) : State :=
  idle.setLink (.station 0) ⟨.inFrame [kind, 0, 0, 3 * kind] false, [], false, none⟩

theorem test_witness_FrameChecksInOrder :
    (∀ bad outstanding, ((collecting bad outstanding).link (.station 0)).rx
        = .inFrame [9, 0, 0, 0x1B] bad)
      ∧ ([9, 0, 0, 0x1B] ++ [(9 : Byte)]).length = 5 + fieldOf ([9, 0, 0, 0x1B] ++ [9]) 1 2
      ∧ twoSum [9, 0, 0] = halfAt [9, 0, 0, 0x1B, 9] 3 ∧ twoSum [9, 0, 0] ≠ halfAt [9, 0, 0, 0x1B, 8] 3
      ∧ ((collecting false true).link (.station 0)).outstanding = true
      ∧ ((collecting false false).link (.station 0)).outstanding = false
      ∧ readRequest 9 [] = some .stationStatus
      ∧ (isLotRequest .stationStatus = true ↔ Link.station 0 = .lot)
      ∧ twoSum [0x0A, 0, 0] = halfAt [0x0A, 0, 0, 0x1E, 0x0A] 3 ∧ readRequest 0x0A [] = none
      ∧ ((collectingOther 0x0A).link (.station 0)).rx = .inFrame [0x0A, 0, 0, 0x1E] false
      ∧ twoSum [0x22, 0, 0] = halfAt [0x22, 0, 0, 0x66, 0x22] 3 ∧ readRequest 0x22 [] = some .lotLock
      ∧ ((collectingOther 0x22).link (.station 0)).rx = .inFrame [0x22, 0, 0, 0x66] false
      ∧ ¬ (isLotRequest .lotLock = true ↔ Link.station 0 = .lot) := by decide +kernel

theorem test_witness_ReceiveFramer :
    (idle.link .lot).rx = .hunting ∧ ((onLink idle .lot .ready).link .lot).rx = .ready
      ∧ ((onLink idle .lot (.inFrame [9] true)).link .lot).rx = .inFrame [9] true
      ∧ [(9 : Byte)].length < 2
      ∧ (fieldOf ([9, 4] ++ [0xC3]) 1 2 ≤ 1219 ∧ [(9 : Byte), 4].length + 1
          < 5 + fieldOf ([9, 4] ++ [0xC3]) 1 2)
      ∧ (fieldOf ([9, 0, 0] ++ [7]) 1 2 ≤ 1219
        ∧ [(9 : Byte), 0, 0].length + 1 < 5 + fieldOf ([9, 0, 0] ++ [7]) 1 2) := by decide +kernel

/-- A reply waits on the lot link. -/
def answered : State :=
  idle.setLink .lot ⟨.ready, [⟨0x2A, .lotStatus [], false, true⟩], false, none⟩

theorem test_witness_ReplyFrameSent : (idle.link .lot).replies = []
    ∧ (answered.link .lot).replies = ⟨0x2A, .lotStatus [], false, true⟩ :: [] := by decide +kernel

/-- A LOT LOCK has its turn while a request reply waits on the lot link. -/
def crowded : State :=
  (asks base .lot .lotLock).setLink .lot
    ⟨.ready, [⟨0x2A, .lotStatus [], false, true⟩], true, some .lotLock⟩

theorem test_witness_ReplyFrameSent_turn :
    (Instr.lotLock).request = some (.lot, .lotLock) ∧ crowded.Calm ∧ crowded.Turn .lot .lotLock
      ∧ ¬ crowded.Room .lot
      ∧ exec (.replyFrameSent .lot) crowded = .next (after (.replyFrameSent .lot) crowded) :=
  ⟨rfl, ⟨by decide +kernel, rfl⟩, ⟨by decide +kernel, by decide +kernel⟩,
    fun h => absurd (h ⟨0x2A, .lotStatus [], false, true⟩ (by decide +kernel)) (by decide), rfl⟩

theorem test_witness_ArbiterGrantsInTurn :
    let s := asks (asks base .lot .lotStatus) (.station 3) .detach
    s.nextGrant = some (.link (.station 3)) ∧ s.holds (.link .lot) = true
      ∧ Requester.link .lot ≠ .link (.station 3) := by decide +kernel

/-- The lot stands in a state, without a lot's data where it has none. -/
def inState (st : LotState) : State :=
  match st with
  | .opened | .locked | .closing => { base with lot := { base.lot with state := st } }
  | _ => { idle with lot := .noLot st }

theorem test_witness_LotStateTest :
    (∀ st ∈ [LotState.init, .idle, .closing], (Instr.detach 1).request = some (.station 1, .detach)
        ∧ grantedB (asks (inState st) (.station 1) .detach) (.station 1) .detach = true
        ∧ (asks (inState st) (.station 1) .detach).lot.state = st)
      ∧ (∀ b, Request.detach ≠ .lotOpen b) ∧ Request.detach ≠ .lotStatus
      ∧ Request.detach ≠ .stationStatus ∧ ∀ n, Request.detach ≠ .journalRead n := by
  refine ⟨by decide +kernel, ?_, by decide, by decide, ?_⟩ <;> intro <;> simp

theorem test_witness_LotStateTest_granted {st : LotState} (h : st ∈ [LotState.init, .idle, .closing]) :
    (asks (inState st) (.station 1) .detach).Granted (.station 1) .detach :=
  granted_of ((test_witness_LotStateTest.1 st h).2.1)

theorem test_witness_RequestWaitsItsTurn :
    (Instr.auditStart).request = some (.lot, .auditStart) ∧ Request.auditStart.wf = true
      ∧ base.Calm ∧ (base.link .lot).request ≠ some .auditStart ∧ (base.link .lot).outstanding = false
      ∧ (asks (asks base .lot .auditStart) (.station 3) .detach).Calm
      ∧ ((asks (asks base .lot .auditStart) (.station 3) .detach).link .lot).request = some .auditStart
      ∧ (asks (asks base .lot .auditStart) (.station 3) .detach).nextGrant ≠ some (.link .lot)
      ∧ (asks base .lot .lotLock).Calm
      ∧ ((asks base .lot .lotLock).link .lot).request ≠ some .auditStart
      ∧ ((asks base .lot .lotLock).link .lot).outstanding = true :=
  ⟨rfl, rfl, ⟨by decide +kernel, rfl⟩, by decide +kernel, by decide +kernel, ⟨by decide +kernel, rfl⟩,
    by decide +kernel, by decide +kernel, ⟨by decide +kernel, rfl⟩, by decide +kernel,
    by decide +kernel⟩

theorem test_witness_DueExpiriesAreTaken :
    (Instr.detach 1).request = some (.station 1, .detach)
      ∧ (held .issued 0 0).expiryDue 0 2 = true
      ∧ (∀ (st' : Station) (site' : Site), st' < 0 ∨ (st' = 0 ∧ site' < 2) →
        (held .issued 0 0).expiryDue st' site' = false)
      ∧ ∀ st site, (held .issued 0 1).expiryDue st site = false := by decide +kernel

theorem test_witness_LeaseTimerTick : (held .issued 0 1).Calm ∧ (inState .idle).Calm :=
  ⟨⟨by decide +kernel, rfl⟩, ⟨by decide +kernel, rfl⟩⟩

/-! ## Witnesses: stations -/

theorem return_none {s : State} {e : Entry} {n : Nat} (h : ((s.keySlot n).damaged
    || s.blocked e.batch || decide (64 ≤ s.pool.stack.length)) = false) : s.returnIs e n none := by
  simp only [Bool.or_eq_false_iff, decide_eq_false_iff_not, Nat.not_le] at h
  exact ⟨h.1.1, h.1.2, h.2⟩

theorem return_blocked {s : State} {e : Entry} {n : Nat} (h : (!(s.keySlot n).damaged
    && s.blocked e.batch) = true) : s.returnIs e n (some .blocked) := by
  simp only [Bool.and_eq_true, Bool.not_eq_true'] at h
  exact h

theorem base_taking : base.taking := .inr rfl

theorem asks_taking {s : State} (h : s.taking) (l : Link) (r : Request) : (asks s l r).taking := h

/-- Whether the wafer table agrees with the stations. -/
def wafersB (s : State) : Bool :=
  decide (∀ (st : Station) (w : Byte), s.stations[st].attached = some w ↔ s.wafer w = some (.attached st))
    && !s.sweeps.purge.active && !s.check.clearing

theorem wafers_of {s : State} (h : wafersB s = true) : s.WafersOk := by
  simp only [wafersB, Bool.and_eq_true, decide_eq_true_eq, Bool.not_eq_true'] at h
  exact ⟨h.1.1, by simp [h.1.2], by simp [h.2]⟩

/-- The wafer table with a purge of wafer 4 asked for. -/
def purged : State := base.setWafer 4 .purging

theorem test_witness_AttachDecides :
    (∀ w ∈ [(0 : Byte), 7, 5, 8, 4, 1, 25, 26, 255],
        let s := asks base (.station 0) (.attach w)
        s.Granted (.station 0) (.attach w) ∧ s.taking ∧ s.WafersOk)
      ∧ base.wafer 7 = some (.attached 0) ∧ base.wafer 5 = some .finished
      ∧ base.wafer 8 = some (.attached 1) ∧ base.wafer 1 = some .new ∧ base.wafer 4 = some .detached
      ∧ (¬ ∃ site, (base.slot 0 site).isHeld = true)
      ∧ base.stations[(0 : Station)].attached = some 7 := by
  refine ⟨fun w hw => ⟨granted_of ?_, base_taking, wafers_of ?_⟩, by decide +kernel, by decide +kernel,
    by decide +kernel, by decide +kernel, by decide +kernel, by decide +kernel, by decide +kernel⟩
  · have : ∀ w ∈ [(0 : Byte), 7, 5, 8, 4, 1, 25, 26, 255],
      grantedB (asks base (.station 0) (.attach w)) (.station 0) (.attach w) = true := by decide +kernel
    exact this w hw
  · have : ∀ w ∈ [(0 : Byte), 7, 5, 8, 4, 1, 25, 26, 255],
      wafersB (asks base (.station 0) (.attach w)) = true := by decide +kernel
    exact this w hw

/-- The clauses of ATTACH that `base` does not meet: a purge, a station that holds claims, a station
without a wafer. -/
theorem test_witness_AttachDecides_others :
    ((asks purged (.station 0) (.attach 4)).Granted (.station 0) (.attach 4)
        ∧ (asks purged (.station 0) (.attach 4)).WafersOk ∧ purged.wafer 4 = some .purging)
      ∧ ((asks (held .issued 0 5) (.station 0) (.attach 1)).Granted (.station 0) (.attach 1)
        ∧ (asks (held .issued 0 5) (.station 0) (.attach 1)).WafersOk
        ∧ ((held .issued 0 5).slot 0 2).isHeld = true)
      ∧ (asks base (.station 2) (.attach 1)).Granted (.station 2) (.attach 1)
      ∧ base.stations[(2 : Station)].attached = none :=
  ⟨⟨granted_of (by decide +kernel), wafers_of (by decide +kernel), by decide +kernel⟩,
    ⟨granted_of (by decide +kernel), wafers_of (by decide +kernel), by decide +kernel⟩,
    granted_of (by decide +kernel), by decide +kernel⟩

theorem test_witness_DetachDecides :
    ((asks base (.station 0) .detach).Granted (.station 0) .detach
        ∧ (asks base (.station 0) .detach).taking ∧ (asks base (.station 0) .detach).WafersOk
        ∧ base.stations[(0 : Station)].attached = some 7
        ∧ ¬ ∃ site, (base.slot 0 site).isHeld = true)
      ∧ ((asks base (.station 2) .detach).Granted (.station 2) .detach
        ∧ (asks base (.station 2) .detach).WafersOk ∧ base.stations[(2 : Station)].attached = none)
      ∧ (asks (held .issued 0 5) (.station 0) .detach).Granted (.station 0) .detach
      ∧ (asks (held .issued 0 5) (.station 0) .detach).WafersOk
      ∧ ∃ site, ((held .issued 0 5).slot 0 site).isHeld = true :=
  ⟨⟨granted_of (by decide +kernel), base_taking, wafers_of (by decide +kernel), by decide +kernel,
      by decide +kernel⟩,
    ⟨granted_of (by decide +kernel), wafers_of (by decide +kernel), by decide +kernel⟩,
    granted_of (by decide +kernel), wafers_of (by decide +kernel), 2, by decide +kernel⟩

theorem test_witness_StationStatusReports : ∀ st ∈ [LotState.idle, .opened, .locked, .closing],
    grantedB (asks (inState st) (.station 0) .stationStatus) (.station 0) .stationStatus = true
      ∧ (asks (inState st) (.station 0) .stationStatus).lot.state ≠ .init := by decide +kernel

theorem test_witness_StationResetFreesEverySite :
    (asks (held .issued 0 5) (.station 0) .stationReset).Granted (.station 0) .stationReset
      ∧ (asks (held .issued 0 5) (.station 0) .stationReset).taking :=
  ⟨granted_of (by decide +kernel), .inr rfl⟩

/-- A STATION RESET over a claim. -/
def resetting (state : EntryState) (attempts : Byte) : State :=
  asks (held state attempts 5) (.station 0) .stationReset

/-- The entry behind the claim of site 2 of station 0. -/
def claimed (state : EntryState) (attempts : Byte) : Entry := entry state (some (0, 2)) attempts

theorem test_witness_StationResetEndsAClaim :
    (∀ p ∈ [(EntryState.issued, (0 : Byte)), (.issued, 1), (.burning, 1)],
        (resetting p.1 p.2).Granted (.station 0) .stationReset ∧ (resetting p.1 p.2).taking
          ∧ (resetting p.1 p.2).Claimed 0 2 2 (-3) 12 6144 (claimed p.1 p.2) 0)
      ∧ (∀ site', site' ≠ 2 → (resetting .issued 0).slot 0 site' = .free)
      ∧ (resetting .issued 0).returnIs (claimed .issued 0) 0 none
      ∧ (resetting .issued 0).find 7 (-3) 12 = .found 6144 none
      ∧ (blocking (resetting .issued 0)).Claimed 0 2 2 (-3) 12 6144 (claimed .issued 0) 0
      ∧ (blocking (resetting .issued 0)).returnIs (claimed .issued 0) 0 (some .blocked) := by
  refine ⟨fun p hp => ?_, by decide +kernel, return_none (by decide +kernel), by decide +kernel,
    (claim_of (r := .stationReset) (e := claimed .issued 0) (.inr rfl) (by decide +kernel)).2.2,
    return_blocked (by decide +kernel)⟩
  have : ∀ p ∈ [(EntryState.issued, (0 : Byte)), (.issued, 1), (.burning, 1)],
      claimB (resetting p.1 p.2) .stationReset (claimed p.1 p.2) = true := by decide +kernel
  exact claim_of (.inr rfl) (this p hp)

/-- The five list requests on one site. -/
def fiveOn (b : Byte) : List (Instr × Request) :=
  [(.claim 0 [⟨b, -3, 12⟩], .claim [⟨b, -3, 12⟩]), (.burnBegin 0 [b], .burnBegin [b]),
    (.burnResult 0 [⟨b, 0⟩], .burnResult [⟨b, 0⟩]), (.release 0 [b], .release [b]),
    (.abandon 0 [b], .abandon [b])]

theorem test_witness_SiteNoticesAnswerFirst :
    (∀ p ∈ fiveOn 16 ++ fiveOn 15, p.1.request = some (.station 0, p.2)
        ∧ grantedB (asks (base.setSlot 0 15 (.revoked 1 1)) (.station 0) p.2) (.station 0) p.2 = true
        ∧ grantedB (asks (base.setSlot 0 15 (.expired 1 1)) (.station 0) p.2) (.station 0) p.2 = true)
      ∧ base.taking ∧ 15 < (16 : Byte).toNat ∧ (15 : Byte).toNat = (15 : Site).val
      ∧ (base.setSlot 0 15 (.revoked 1 1)).slot 0 15 = .revoked 1 1
      ∧ (base.setSlot 0 15 (.expired 1 1)).slot 0 15 = .expired 1 1 :=
  ⟨by decide +kernel, base_taking, by decide, by decide, by decide +kernel, by decide +kernel⟩

theorem test_witness_IdleAndFrozenSites :
    (∀ p ∈ (fiveOn 2).tail, p.1.request = some (.station 0, p.2)
        ∧ grantedB (asks base (.station 0) p.2) (.station 0) p.2 = true
        ∧ grantedB (asks (freezing (held .issued 0 5) 528) (.station 0) p.2) (.station 0) p.2 = true)
      ∧ base.slot 0 2 = .free ∧ (freezing (held .issued 0 5) 528).taking
      ∧ (freezing (held .issued 0 5) 528).slot 0 2 = .held (-3) 12 6144 5
      ∧ (freezing (held .issued 0 5) 528).cellBucket 6144 = some 528
      ∧ (freezing (held .issued 0 5) 528).headFault 528 = false
      ∧ ((freezing (held .issued 0 5) 528).head 528).damaged = true :=
  ⟨by decide +kernel, by decide +kernel, .inr rfl, by decide +kernel, by decide +kernel,
    by decide +kernel, by decide +kernel⟩

/-- The faults that an item's own read of the claim in cell 6144 finds. -/
theorem test_witness_IdleAndFrozenSites_faults :
    (∀ p ∈ (fiveOn 2).tail, ∀ s ∈ [breakingHead (held .issued 0 5) 528, breakingCell (held .issued 0 5) 6144],
        grantedB (asks s (.station 0) p.2) (.station 0) p.2 = true)
      ∧ (∀ s ∈ [breakingHead (held .issued 0 5) 528, breakingCell (held .issued 0 5) 6144],
        s.slot 0 2 = .held (-3) 12 6144 5 ∧ s.cellBucket 6144 = some 528 ∧ s.lot.state = .locked)
      ∧ (breakingHead (held .issued 0 5) 528).headFault 528 = true
      ∧ (breakingCell (held .issued 0 5) 6144).headFault 528 = false
      ∧ ((breakingCell (held .issued 0 5) 6144).head 528).damaged = false
      ∧ (breakingCell (held .issued 0 5) 6144).entryFault 6144 = some .content := by decide +kernel

/-- A timer boundary is held back for an item. -/
def across (s : State) (k : Nat) : State := { s with deferred := [k] }

theorem across_of {s : State} {l : Link} {r : Request} {k : Nat}
    (h : (decide (∀ st site, s.expiryDue st site = false) && decide (s.deferred = [k])
      && decide ((s.link l).request = some r) && decide (s.nextGrant = some (.link l))
      && decide (∀ r ∈ (s.link l).replies, r.linkLevel = true)) = true) : s.GrantedAcross l r k := by
  simp only [Bool.and_eq_true, decide_eq_true_eq] at h
  exact ⟨h.1.1.1.1, h.1.1.1.2, h.1.1.2, h.1.2, h.2⟩

/-- A boundary falls during item 0 or 1, or after the request; in the last clause the claim of site 2 has
one unit of lease left. -/
theorem test_witness_ListItemsAreTakenInOrder_across :
    (∀ k ∈ [0, 1], ∀ p ∈ fiveOn 2,
        (asks (across base k) (.station 0) p.2).GrantedAcross (.station 0) p.2 k)
      ∧ (asks (across (held .issued 0 1) 0) (.station 0) (.release [16, 2])).GrantedAcross (.station 0)
        (.release [16, 2]) 0
      ∧ (asks (across (held .issued 0 1) 0) (.station 0) (.release [16, 2])).taking
      ∧ 15 < (16 : Byte).toNat ∧ (2 : Byte).toNat = (2 : Site).val
      ∧ (asks (across (held .issued 0 1) 0) (.station 0) (.release [16, 2])).slot 0 2
        = .held (-3) 12 6144 1 := by
  refine ⟨fun k hk p hp => across_of ?_, across_of (by decide +kernel), .inr rfl, by decide, by decide,
    by decide +kernel⟩
  have h : ∀ k ∈ [0, 1], ∀ p ∈ fiveOn 2, (let s := asks (across base k) (.station 0) p.2
      decide (∀ st site, s.expiryDue st site = false) && decide (s.deferred = [k])
      && decide ((s.link (.station 0)).request = some p.2)
      && decide (s.nextGrant = some (.link (.station 0)))
      && decide (∀ r ∈ (s.link (.station 0)).replies, r.linkLevel = true)) = true := by decide +kernel
  exact h k hk p hp

/-- Section 7.4: the lease of the second site runs out while the first one's item is taken. -/
theorem test_release_across :
    answerOf (.station 0) (after (.release 0 [16, 2])
      (asks (across (held .issued 0 1) 0) (.station 0) (.release [16, 2])))
      = some (.items [⟨16, .outOfRange, .none⟩, ⟨2, .expired, .none⟩]) := by decide +kernel

theorem test_witness_ListItemsAreTakenInOrder : base.taking
    ∧ ∀ p ∈ fiveOn 2, grantedB (asks base (.station 0) p.2) (.station 0) p.2 = true :=
  ⟨base_taking, by decide +kernel⟩

/-- The three kinds of claim that a lease expiry or a station reset ends. -/
def claims : List (EntryState × Byte) := [(.issued, 0), (.issued, 1), (.burning, 1)]

theorem test_witness_LeaseExpiryDecides :
    (∀ p ∈ claims, (held p.1 p.2 0).slot 0 2 = .held (-3) 12 6144 0
        ∧ (∀ st' site', (st', site') ≠ (0, 2) → (held p.1 p.2 0).expiryDue st' site' = false)
        ∧ (held p.1 p.2 0).OpenEntry 6144 (claimed p.1 p.2) 0)
      ∧ (held .issued 0 0).returnIs (claimed .issued 0) 0 none
      ∧ (damaging (held .issued 0 0)).OpenEntry 6144 (claimed .issued 0) 0
      ∧ (damaging (held .issued 0 0)).returnIs (claimed .issued 0) 0 (some .keyDamaged)
      ∧ (held .issued 0 0).find 7 (-3) 12 = .found 6144 none
      ∧ (freezing (held .issued 0 0) 528).slot 0 2 = .held (-3) 12 6144 0
      ∧ (freezing (held .issued 0 0) 528).cellBucket 6144 = some 528
      ∧ (freezing (held .issued 0 0) 528).headFault 528 = false
      ∧ ((freezing (held .issued 0 0) 528).head 528).damaged = true := by
  refine ⟨fun p hp => ?_, return_none (by decide +kernel), open_of (by decide +kernel),
    show _ = true by decide +kernel, by decide +kernel, by decide +kernel, by decide +kernel,
    by decide +kernel, by decide +kernel⟩
  have h : ∀ p ∈ claims, (held p.1 p.2 0).slot 0 2 = .held (-3) 12 6144 0
        ∧ (∀ st' site', (st', site') ≠ (0, 2) → (held p.1 p.2 0).expiryDue st' site' = false)
        ∧ openB (held p.1 p.2 0) 6144 (claimed p.1 p.2) 0 = true := by decide +kernel
  exact ⟨(h p hp).1, (h p hp).2.1, open_of (h p hp).2.2⟩

/-- The faults that a lease expiry's own reads find: of the head, of the cell and of the walk. -/
theorem test_witness_LeaseExpiryDecides_faults :
    (∀ s ∈ [breakingHead (held .issued 0 0) 528, breakingCell (held .issued 0 0) 6144,
        misleading (held .issued 0 0)], s.slot 0 2 = .held (-3) 12 6144 0
        ∧ (∀ st' site', (st', site') ≠ (0, 2) → s.expiryDue st' site' = false)
        ∧ s.cellBucket 6144 = some 528)
      ∧ (breakingHead (held .issued 0 0) 528).headFault 528 = true
      ∧ ((breakingCell (held .issued 0 0) 6144).headFault 528 = false
        ∧ ((breakingCell (held .issued 0 0) 6144).head 528).damaged = false
        ∧ (breakingCell (held .issued 0 0) 6144).entryFault 6144 = some .content)
      ∧ (misleading (held .issued 0 0)).OpenEntry 6144 (claimed .issued 0) 0
      ∧ (misleading (held .issued 0 0)).find 7 (-3) 12 = .fault (.head 528) .link :=
  ⟨by decide +kernel, by decide +kernel, by decide +kernel, open_of (by decide +kernel),
    by decide +kernel⟩

/-! ## Witnesses: claiming and burning -/

/-- A claim item of site 3 for a die. -/
def claimAsks (s : State) (x y : Byte) : State := asks s (.station 0) (.claim [⟨3, x, y⟩])

/-- ISSUE HALT is set. -/
def halting (s : State) : State := { s with check := { s.check with halt := true } }

theorem test_witness_ClaimRefusedAtTheTable :
    ((asks base (.station 2) (.claim [⟨3, -3, 12⟩])).Granted (.station 2) (.claim [⟨3, -3, 12⟩])
        ∧ base.slot 2 3 = .free ∧ base.stations[(2 : Station)].attached = none)
      ∧ (∀ p ∈ [(base, (-3 : Byte)), (halting base, -3), (base, 45), (freezing base 528, -3)],
        grantedB (claimAsks p.1 p.2 12) (.station 0) (.claim [⟨3, p.2, 12⟩]) = true
          ∧ p.1.slot 0 3 = .free ∧ p.1.stations[(0 : Station)].attached = some 7)
      ∧ (halting base).check.halt = true ∧ base.check.halt = false
      ∧ base.decision 7 45 12 = .exclude ∧ base.decision 7 41 0 = .exclude
      ∧ base.decision 7 (-3) 12 = .cls .p
      ∧ (freezing base 528).headFault (bucketOf 7 (-3) 12) = false
      ∧ ((freezing base 528).head (bucketOf 7 (-3) 12)).damaged = true := by
  refine ⟨⟨granted_of ?_, ?_⟩, ?_⟩ <;> decide +kernel

theorem test_witness_ClaimRefusedAtTheTable_found :
    ∀ p ∈ [(held .issued 0 5, EntryState.issued), (held .burning 1 5, .burning),
        (closed .provisioned, .provisioned), (closed .void, .void)],
      ((claimAsks p.1 (-3) 12).Granted (.station 0) (.claim [⟨3, -3, 12⟩]) ∧ (claimAsks p.1 (-3) 12).taking
        ∧ (claimAsks p.1 (-3) 12).AtTable 0 3 3 7 (-3) 12 .p)
      ∧ (claimAsks p.1 (-3) 12).find 7 (-3) 12 = .found 6144 none
      ∧ ((claimAsks p.1 (-3) 12).entryAt 6144).state = p.2 := by
  intro p hp
  have h : ∀ p ∈ [(held .issued 0 5, EntryState.issued), (held .burning 1 5, .burning),
        (closed .provisioned, .provisioned), (closed .void, .void)],
      tableB (claimAsks p.1 (-3) 12) = true ∧ (claimAsks p.1 (-3) 12).lot.state = .locked
      ∧ (claimAsks p.1 (-3) 12).find 7 (-3) 12 = .found 6144 none
      ∧ ((claimAsks p.1 (-3) 12).entryAt 6144).state = p.2 := by decide +kernel
  exact ⟨table_of (.inr (h p hp).2.1) (h p hp).1, (h p hp).2.2⟩

theorem test_witness_ClaimRefusedAtTheTable_duplicate :
    let items : List ClaimItem := [⟨2, -3, 12⟩, ⟨3, -3, 12⟩]
    ∃ j, j < 1 ∧ ∃ h : j < items.length, items[j].x = (⟨3, -3, 12⟩ : ClaimItem).x
      ∧ items[j].y = (⟨3, -3, 12⟩ : ClaimItem).y := ⟨0, by decide⟩

/-- A die named twice on a FREE site, and a walk that finds a fault, in an item's own grant. -/
theorem test_witness_ClaimRefusedAtTheTable_others :
    (let s := asks base (.station 0) (.claim [⟨16, -3, 12⟩, ⟨3, -3, 12⟩]);
      s.Granted (.station 0) (.claim [⟨16, -3, 12⟩, ⟨3, -3, 12⟩]) ∧ s.taking ∧ s.slot 0 3 = .free
        ∧ s.stations[(0 : Station)].attached = some 7)
      ∧ let s := claimAsks (misleading (held .issued 0 5)) (-3) 12
        s.Granted (.station 0) (.claim [⟨3, -3, 12⟩]) ∧ s.taking ∧ s.slot 0 3 = .free
          ∧ s.stations[(0 : Station)].attached = some 7 ∧ s.check.halt = false
          ∧ s.decision 7 (-3) 12 = .cls .p ∧ s.find 7 (-3) 12 = .fault (.head 528) .link :=
  ⟨⟨granted_of (by decide +kernel), .inr rfl, by decide +kernel, by decide +kernel⟩,
    granted_of (by decide +kernel), .inr rfl, by decide +kernel, by decide +kernel, by decide +kernel,
    by decide +kernel, by decide +kernel⟩

/-- The four states of the resource tests: no free cell, no serial, a full journal, no key. -/
def lacking : List State :=
  [{ base with table := { base.table with free := [] } }, { base with unitP := .absent },
    { base with journal := { base.journal with reservations := 256 } }, base]

theorem test_witness_ClaimResourceOrder :
    (∀ s ∈ lacking, (claimAsks s (-3) 12).Granted (.station 0) (.claim [⟨3, -3, 12⟩])
        ∧ (claimAsks s (-3) 12).taking ∧ (claimAsks s (-3) 12).AtTable 0 3 3 7 (-3) 12 .p
        ∧ (claimAsks s (-3) 12).find 7 (-3) 12 = .notFound 0 none)
      ∧ base.table.free ≠ [] ∧ base.unitP.exhausted = false ∧ SerialUnit.absent.exhausted = true
      ∧ base.journal.queue.length + base.journal.reservations < 256
      ∧ base.pool.stack = [] ∧ base.pool.fresh = [] := by
  refine ⟨fun s hs => ?_, by decide +kernel, by decide +kernel, by decide, by decide, rfl, rfl⟩
  have h : ∀ s ∈ lacking, tableB (claimAsks s (-3) 12) = true ∧ (claimAsks s (-3) 12).lot.state = .locked
      ∧ (claimAsks s (-3) 12).find 7 (-3) 12 = .notFound 0 none := by decide +kernel
  have := table_of (.inr (h s hs).2.1) (h s hs).1
  exact ⟨this.1, this.2.1, this.2.2, (h s hs).2.2⟩

theorem test_witness_AllocationFindsAUsableKey :
    base.allocateKey base.candidates = (none, base)
      ∧ ∃ t, loaded.allocateKey loaded.candidates = (some (0, loaded.keyAt 0), t) := by
  refine ⟨by decide +kernel, (loaded.allocateKey loaded.candidates).2, ?_⟩
  have : (loaded.allocateKey loaded.candidates).1 = some (0, loaded.keyAt 0) := by decide +kernel
  rw [← this]

/-- Candidates of each kind: a FAULTED slot on the return stack, a slot that does not read cleanly, one
of a blocked batch, and (where `usable` says so) a key that can be used. -/
def drawing (usable : Bool) : State :=
  let s := base.loadKeys 305 [record 7, record 8, record 9, record 10]
  let s := s.writeCell 3 ⟨keyContent ⟨306, 10, keyValue, twoSum (keyFields 306 10 keyValue)⟩, 0, 0, false,
    false⟩
  let s := (s.moveKey 0 ⟨.faulted, false⟩ fun c => { c with faulted := c.faulted + 1 })
  breakingCell ({ s with
    lot := { s.lot with blocked := [if usable then ⟨305, 305⟩ else ⟨300, 310⟩] }
    pool := { s.pool with stack := [0], fresh := [1, 2, 3] } }) 1

theorem test_witness_AllocationFindsAUsableKey_passed : ∀ usable ∈ [true, false],
    let s := claimAsks (drawing usable) (-3) 12
    (s.Granted (.station 0) (.claim [⟨3, -3, 12⟩]) ∧ s.taking ∧ s.AtTable 0 3 3 7 (-3) 12 .p)
      ∧ s.MapsOk ∧ (s.pool.stack ++ s.pool.fresh).Nodup
      ∧ (∀ m ∈ s.pool.stack ++ s.pool.fresh, (s.keySlot m).state = .fresh
        ∨ (s.keySlot m).state = .returned ∨ (s.keySlot m).state = .faulted)
      ∧ (s.allocateKey s.candidates).1.map (·.1) = (if usable then some 3 else none)
      ∧ s.find 7 (-3) 12 = .notFound 0 none ∧ s.table.free.head? = some 6144
      ∧ s.journal.queue.length + s.journal.reservations < 256 ∧ s.pool.stack ++ s.pool.fresh ≠ []
      ∧ s.unitP.exhausted = false := by
  have h : ∀ usable ∈ [true, false], let s := claimAsks (drawing usable) (-3) 12
      tableB s = true ∧ s.lot.state = .locked ∧ s.mapsWf = true
      ∧ (s.pool.stack ++ s.pool.fresh).Nodup
      ∧ (∀ m ∈ s.pool.stack ++ s.pool.fresh, (s.keySlot m).state = .fresh
        ∨ (s.keySlot m).state = .returned ∨ (s.keySlot m).state = .faulted)
      ∧ (s.allocateKey s.candidates).1.map (·.1) = (if usable then some 3 else none)
      ∧ s.find 7 (-3) 12 = .notFound 0 none ∧ s.table.free.head? = some 6144
      ∧ s.journal.queue.length + s.journal.reservations < 256 ∧ s.pool.stack ++ s.pool.fresh ≠ []
      ∧ s.unitP.exhausted = false := by decide +kernel
  intro usable hu
  have h := h usable hu
  exact ⟨table_of (.inr h.2.1) h.1, h.2.2.1, h.2.2.2⟩

/-- The law of the entry cells, where the cells in use are the first k of the area. -/
theorem cells_of {s : State} (k : Nat) (h : (decide (k ≤ 2048) && decide (s.keySlots = 6144)
    && decide (s.capacity = 2048) && mapWf none s.table.cellMap
    && decide (s.table.inUse = s.table.cellMap.length) && decide (s.table.inUse = k)
    && decide (s.table.free = List.range' (6144 + k) (2048 - k))
    && decide (s.table.freeCount = 2048 - k)
    && decide (∀ p ∈ s.table.cellMap, 6144 ≤ p.1 ∧ p.1 < 6144 + k)) = true) : s.CellsOk := by
  simp only [Bool.and_eq_true, decide_eq_true_eq] at h
  obtain ⟨⟨⟨⟨⟨⟨⟨⟨hk, h1⟩, h2⟩, h3⟩, h4⟩, h5⟩, h6⟩, h7⟩, h8⟩ := h
  have hget : ∀ (m : List (Nat × Option Nat)), (∀ p ∈ m, 6144 ≤ p.1 ∧ p.1 < 6144 + k) →
      ∀ c, mapGet none m c ≠ none → 6144 ≤ c ∧ c < 6144 + k := by
    intro m
    induction m with
    | nil => intro _ c hc; simp [mapGet] at hc
    | cons p m ih =>
      intro hm c hc
      simp only [mapGet] at hc
      split at hc
      · rename_i hcp; rw [hcp]; exact hm p List.mem_cons_self
      · exact ih (fun q hq => hm q (List.mem_cons_of_mem _ hq)) c hc
  refine ⟨h3, fun _ => ⟨h4, ?_, ?_, ?_, ?_, ?_⟩⟩
  · rw [h6, h7, List.length_range']
  · rw [h5, h7, h2]; omega
  · rw [h6]; exact List.nodup_range'
  · intro c hc
    rw [h6, List.mem_range'_1] at hc
    refine ⟨by omega, by omega, ?_⟩
    by_contra hne
    have := hget _ h8 c hne
    omega
  · intro c hc
    have := hget _ h8 c hc
    omega

/-- Unit P stands at a value. -/
def serialAt (s : State) (n : Nat) : State :=
  { s with unitP := ⟨some ⟨417300, 9999999999⟩, some n, 0, 0, false⟩ }

/-- The key slot 0 stands on the return stack. -/
def stacked (s : State) : State := { s with pool := { s.pool with stack := [0], fresh := [1] } }

/-- The states of a commit: an empty bucket with the key from the fresh queue or the return stack, a
passed-over serial and the highest one, and a chain of one entry. -/
def commits : List (State × Byte × Byte × Nat × Option Nat × Nat × Fin 8192) :=
  [(serialAt loaded 417300, -3, 12, 0, none, 0, 0), (serialAt (stacked loaded) 417303, -3, 12, 0, none, 0, 0),
    (serialAt loaded 9999999999, -3, 12, 0, none, 0, 0),
    (serialAt (held .issued 0 5) 417300, -35, 44, 1, some 6144, 1, 1)]

/-- Whether a state commits a claim item of site 3. -/
def commitB (p : State × Byte × Byte × Nat × Option Nat × Nat × Fin 8192) : Bool :=
  let s := claimAsks p.1 p.2.1 p.2.2.1
  let n := p.2.2.2.2.2.2
  grantedB s (.station 0) (.claim [⟨3, p.2.1, p.2.2.1⟩]) && decide (s.lot.state = .locked)
    && decide (s.slot 0 3 = .free) && decide (s.stations[(0 : Station)].attached = some 7)
    && !s.check.halt && decide (s.decision 7 p.2.1 p.2.2.1 = .cls .p)
    && !s.headFault (bucketOf 7 p.2.1 p.2.2.1) && !(s.head (bucketOf 7 p.2.1 p.2.2.1)).damaged
    && decide (s.find 7 p.2.1 p.2.2.1 = .notFound p.2.2.2.1 p.2.2.2.2.1) && s.mapsWf
    && decide (s.journal.queue.length + s.journal.reservations < 256) && !s.unitP.exhausted
    && decide (s.pool.stack.head? = some n.val ∨ (s.pool.stack = [] ∧ s.pool.fresh.head? = some n.val))
    && decide ((s.keySlot n).state = .fresh ∨ (s.keySlot n).state = .returned)
    && decide (n.val < s.keySlots) && decide (s.keyReadFault n = none)
    && !s.blocked (s.keyAt n).batch

theorem test_witness_ClaimCommits :
    (∀ p ∈ commits, commitB p = true)
      ∧ ∀ p ∈ commits, (claimAsks p.1 p.2.1 p.2.2.1).CellsOk
        ∧ (claimAsks p.1 p.2.1 p.2.2.1).table.free
          = (6144 + p.2.2.2.2.2.1) :: List.range' (6145 + p.2.2.2.2.2.1) (2047 - p.2.2.2.2.2.1)
        ∧ (claimAsks p.1 p.2.1 p.2.2.1).unitP.window = some ⟨417300, 9999999999⟩
        ∧ ∃ nx, (claimAsks p.1 p.2.1 p.2.2.1).unitP.next = some nx ∧ nx ≤ 9999999999 := by
  refine ⟨by decide +kernel, fun p hp => ?_⟩
  have hf : ∀ p ∈ commits, (claimAsks p.1 p.2.1 p.2.2.1).table.free
          = (6144 + p.2.2.2.2.2.1) :: List.range' (6145 + p.2.2.2.2.2.1) (2047 - p.2.2.2.2.2.1)
        ∧ (claimAsks p.1 p.2.1 p.2.2.1).unitP.window = some ⟨417300, 9999999999⟩
        ∧ (claimAsks p.1 p.2.1 p.2.2.1).unitP.next ≠ none
        ∧ (claimAsks p.1 p.2.1 p.2.2.1).unitP.next.getD 0 ≤ 9999999999 := by decide +kernel
  refine ⟨?_, (hf p hp).1, (hf p hp).2.1, ?_⟩
  · refine cells_of p.2.2.2.2.2.1 ?_
    revert p
    decide +kernel
  · obtain ⟨nx, h⟩ := Option.ne_none_iff_exists'.1 (hf p hp).2.2.1
    exact ⟨nx, h, by have := (hf p hp).2.2.2; rwa [h] at this⟩

/-- The claim of the commit's first witness stands at the table, as the statement has it. -/
theorem test_witness_ClaimCommits_table :
    (claimAsks (serialAt loaded 417300) (-3) 12).Granted (.station 0) (.claim [⟨3, -3, 12⟩])
      ∧ (claimAsks (serialAt loaded 417300) (-3) 12).taking
      ∧ (claimAsks (serialAt loaded 417300) (-3) 12).AtTable 0 3 3 7 (-3) 12 .p
      ∧ (claimAsks (serialAt loaded 417300) (-3) 12).MapsOk :=
  let h := table_of (s := claimAsks (serialAt loaded 417300) (-3) 12) (.inr rfl) (by decide +kernel)
  ⟨h.1, h.2.1, h.2.2, show _ = true by decide +kernel⟩

/-- A station asks for its own site 2 again. -/
def repeats (s : State) (x y : Byte) : State := asks s (.station 0) (.claim [⟨2, x, y⟩])

theorem test_witness_ClaimRepeat :
    (∀ p ∈ claims, (repeats (held p.1 p.2 5) (-3) 12).Granted (.station 0) (.claim [⟨2, -3, 12⟩])
        ∧ (repeats (held p.1 p.2 5) (-3) 12).taking
        ∧ (repeats (held p.1 p.2 5) (-3) 12).Claimed 0 2 2 (-3) 12 6144 (claimed p.1 p.2) 0)
      ∧ ((held .issued 0 5).keyReadFault 0 = none ∧ ((held .issued 0 5).keySlot 0).damaged = false)
      ∧ (∀ n ∈ [(0 : Byte), 1],
        (repeats (damaging (held .issued n 5)) (-3) 12).Claimed 0 2 2 (-3) 12 6144 (claimed .issued n) 0
          ∧ (((repeats (damaging (held .issued n 5)) (-3) 12).checkKey 0 .access).keySlot 0).damaged
            = true)
      ∧ (repeats (damaging (held .issued 0 5)) (-3) 12).find 7 (-3) 12 = .found 6144 none
      ∧ (repeats (held .issued 0 5) (-3) 13).Granted (.station 0) (.claim [⟨2, -3, 13⟩])
      ∧ (repeats (held .issued 0 5) (-3) 13).slot 0 2 = .held (-3) 12 6144 5
      ∧ (repeats (freezing (held .issued 0 5) 528) (-3) 12).Granted (.station 0) (.claim [⟨2, -3, 12⟩])
      ∧ (freezing (held .issued 0 5) 528).slot 0 2 = .held (-3) 12 6144 5 := by
  have h1 : ∀ p ∈ claims,
      claimB (repeats (held p.1 p.2 5) (-3) 12) (.claim [⟨2, -3, 12⟩]) (claimed p.1 p.2) = true := by
    decide +kernel
  have h2 : ∀ n ∈ [(0 : Byte), 1], claimB (repeats (damaging (held .issued n 5)) (-3) 12)
        (.claim [⟨2, -3, 12⟩]) (claimed .issued n) = true
      ∧ (((repeats (damaging (held .issued n 5)) (-3) 12).checkKey 0 .access).keySlot 0).damaged
        = true := by decide +kernel
  exact ⟨fun p hp => claim_of (.inr rfl) (h1 p hp), by decide +kernel,
    fun n hn => ⟨(claim_of (.inr rfl) (h2 n hn).1).2.2, (h2 n hn).2⟩, by decide +kernel,
    granted_of (by decide +kernel), by decide +kernel, granted_of (by decide +kernel),
    by decide +kernel⟩

/-- A repeat whose own reads find a fault: of the head, of the cell, and of a removal's walk. -/
theorem test_witness_ClaimRepeat_faults :
    (∀ s ∈ [breakingHead (held .issued 0 5) 528, breakingCell (held .issued 0 5) 6144],
        (repeats s (-3) 12).Granted (.station 0) (.claim [⟨2, -3, 12⟩]) ∧ (repeats s (-3) 12).taking
          ∧ s.slot 0 2 = .held (-3) 12 6144 5 ∧ s.cellBucket 6144 = some 528)
      ∧ let s := repeats (damaging (misleading (held .issued 0 5))) (-3) 12
        s.Granted (.station 0) (.claim [⟨2, -3, 12⟩]) ∧ s.taking
          ∧ s.Claimed 0 2 2 (-3) 12 6144 (claimed .issued 0) 0
          ∧ ((s.checkKey 0 .access).keySlot 0).damaged = true
          ∧ s.find 7 (-3) 12 = .fault (.head 528) .link := by
  have h : ∀ s ∈ [breakingHead (held .issued 0 5) 528, breakingCell (held .issued 0 5) 6144],
      grantedB (repeats s (-3) 12) (.station 0) (.claim [⟨2, -3, 12⟩]) = true
        ∧ (repeats s (-3) 12).lot.state = .locked ∧ s.slot 0 2 = .held (-3) 12 6144 5
        ∧ s.cellBucket 6144 = some 528 := by decide +kernel
  have hc := claim_of (s := repeats (damaging (misleading (held .issued 0 5))) (-3) 12)
    (r := .claim [⟨2, -3, 12⟩]) (e := claimed .issued 0) (.inr rfl) (by decide +kernel)
  exact ⟨fun s hs => ⟨granted_of (h s hs).1, .inr (h s hs).2.1, (h s hs).2.2⟩, hc.1, hc.2.1, hc.2.2,
    by decide +kernel, by decide +kernel⟩

/-- Another claim finds the UNCERTAIN entry. -/
def retaken (f : State → State) (attempts : Byte) : State :=
  claimAsks (f (opened (entry .uncertain none attempts))) (-3) 12

/-- The four cases of a takeover. -/
def takeovers : List ((State → State) × Byte) := [(blocking, 1), (damaging, 1), (id, 3), (id, 2)]

theorem test_witness_ClaimTakesOver :
    (∀ p ∈ takeovers,
        ((retaken p.1 p.2).Granted (.station 0) (.claim [⟨3, -3, 12⟩]) ∧ (retaken p.1 p.2).taking
          ∧ (retaken p.1 p.2).AtTable 0 3 3 7 (-3) 12 .p)
        ∧ (retaken p.1 p.2).OpenEntry 6144 (entry .uncertain none p.2) 0
        ∧ (retaken p.1 p.2).find 7 (-3) 12 = .found 6144 none)
      ∧ (retaken blocking 1).blocked 305 = true ∧ (retaken id 3).blocked 305 = false
      ∧ (((retaken damaging 1).checkKey 0 .access).keySlot 0).damaged = true
      ∧ ((retaken id 3).keyReadFault 0 = none ∧ ((retaken id 3).keySlot 0).damaged = false)
      ∧ (3 : Byte).toNat = (retaken id 3).limits.attemptLimit
      ∧ (2 : Byte).toNat ≠ (retaken id 2).limits.attemptLimit := by
  have h : ∀ p ∈ takeovers, tableB (retaken p.1 p.2) = true ∧ (retaken p.1 p.2).lot.state = .locked
      ∧ openB (retaken p.1 p.2) 6144 (entry .uncertain none p.2) 0 = true
      ∧ (retaken p.1 p.2).find 7 (-3) 12 = .found 6144 none := by decide +kernel
  exact ⟨fun p hp => ⟨table_of (.inr (h p hp).2.1) (h p hp).1, open_of (h p hp).2.2.1, (h p hp).2.2.2⟩,
    by decide +kernel, by decide +kernel, by decide +kernel, by decide +kernel, by decide +kernel,
    by decide +kernel⟩

/-- The return stack holds as many numbers as given. -/
def filling (n : Nat) (s : State) : State :=
  { s with pool := { s.pool with stack := List.replicate n 1 } }

theorem test_witness_ReleaseDecides :
    (∀ p ∈ claims, (asks (held p.1 p.2 5) (.station 0) (.release [2])).Granted (.station 0) (.release [2])
        ∧ (asks (held p.1 p.2 5) (.station 0) (.release [2])).taking
        ∧ (asks (held p.1 p.2 5) (.station 0) (.release [2])).Claimed 0 2 2 (-3) 12 6144
          (claimed p.1 p.2) 0)
      ∧ (filling 63 (held .issued 0 5)).returnIs (claimed .issued 0) 0 none
      ∧ (filling 64 (held .issued 0 5)).returnIs (claimed .issued 0) 0 (some .returnFull)
      ∧ (asks (filling 64 (held .issued 0 5)) (.station 0) (.release [2])).Claimed 0 2 2 (-3) 12 6144
          (claimed .issued 0) 0
      ∧ (blocking (held .issued 0 5)).returnIs (claimed .issued 0) 0 (some .blocked)
      ∧ (damaging (held .issued 0 5)).returnIs (claimed .issued 0) 0 (some .keyDamaged)
      ∧ (held .issued 0 5).find 7 (-3) 12 = .found 6144 none := by
  have h : ∀ p ∈ claims,
      claimB (asks (held p.1 p.2 5) (.station 0) (.release [2])) (.release [2]) (claimed p.1 p.2) = true := by
    decide +kernel
  refine ⟨fun p hp => claim_of (.inr rfl) (h p hp), return_none (by decide +kernel), ?_,
    (claim_of (r := .release [2]) (e := claimed .issued 0) (.inr rfl) (by decide +kernel)).2.2,
    return_blocked (by decide +kernel), show _ = true by decide +kernel, by decide +kernel⟩
  have : ((filling 64 (held .issued 0 5)).keySlot 0).damaged = false
      ∧ (filling 64 (held .issued 0 5)).blocked 305 = false
      ∧ 64 ≤ (filling 64 (held .issued 0 5)).pool.stack.length := by decide +kernel
  exact this

/-- A removal's walk finds a fault, in a RELEASE and in a BURN BEGIN over a blocked batch and over a
damaged key. -/
theorem test_witness_walk_faults :
    (∀ p ∈ [(misleading, Request.release [2]), (fun s => blocking (misleading s), .burnBegin [2]),
        (fun s => damaging (misleading s), .burnBegin [2])],
      let s := asks (p.1 (held .issued 0 5)) (.station 0) p.2
      s.Granted (.station 0) p.2 ∧ s.taking ∧ s.Claimed 0 2 2 (-3) 12 6144 (claimed .issued 0) 0
        ∧ s.find 7 (-3) 12 = .fault (.head 528) .link)
      ∧ (blocking (misleading (held .issued 0 5))).blocked 305 = true
      ∧ (damaging (misleading (held .issued 0 5))).blocked 305 = false
      ∧ (((damaging (misleading (held .issued 0 5))).checkKey 0 .access).keySlot 0).damaged = true := by
  have h : ∀ p ∈ [(misleading, Request.release [2]), (fun s => blocking (misleading s), .burnBegin [2]),
        (fun s => damaging (misleading s), .burnBegin [2])],
      let s := asks (p.1 (held .issued 0 5)) (.station 0) p.2
      claimB s p.2 (claimed .issued 0) = true ∧ s.lot.state = .locked
        ∧ s.find 7 (-3) 12 = .fault (.head 528) .link := by decide +kernel
  refine ⟨fun p hp => ?_, by decide +kernel⟩
  have hc := claim_of (.inr (h p hp).2.1) (h p hp).1
  exact ⟨hc.1, hc.2.1, hc.2.2, (h p hp).2.2⟩

theorem test_witness_AbandonVoids : ∀ p ∈ claims,
    (asks (held p.1 p.2 5) (.station 0) (.abandon [2])).Granted (.station 0) (.abandon [2])
      ∧ (asks (held p.1 p.2 5) (.station 0) (.abandon [2])).taking
      ∧ (asks (held p.1 p.2 5) (.station 0) (.abandon [2])).Claimed 0 2 2 (-3) 12 6144
        (claimed p.1 p.2) 0 := by
  have h : ∀ p ∈ claims,
      claimB (asks (held p.1 p.2 5) (.station 0) (.abandon [2])) (.abandon [2]) (claimed p.1 p.2) = true := by
    decide +kernel
  exact fun p hp => claim_of (.inr rfl) (h p hp)

/-- The cases of a BURN BEGIN item: a burn open, a blocked batch and a damaged key at attempts 0 and
above, and a clean key. -/
def burns : List ((State → State) × EntryState × Byte) :=
  [(id, .burning, 1), (blocking, .issued, 0), (blocking, .issued, 1), (damaging, .issued, 0),
    (damaging, .issued, 1), (id, .issued, 0)]

/-- A station begins a burn. -/
def begins (p : (State → State) × EntryState × Byte) : State :=
  asks (p.1 (held p.2.1 p.2.2 5)) (.station 0) (.burnBegin [2])

theorem test_witness_BurnBeginDecides :
    (∀ p ∈ burns, (begins p).Granted (.station 0) (.burnBegin [2]) ∧ (begins p).taking
        ∧ (begins p).Claimed 0 2 2 (-3) 12 6144 (claimed p.2.1 p.2.2) 0)
      ∧ (begins (blocking, .issued, 0)).blocked 305 = true
      ∧ (begins (damaging, .issued, 0)).blocked 305 = false
      ∧ (begins (blocking, .issued, 0)).find 7 (-3) 12 = .found 6144 none
      ∧ (((begins (damaging, .issued, 0)).checkKey 0 .access).keySlot 0).damaged = true
      ∧ (begins (damaging, .issued, 0)).find 7 (-3) 12 = .found 6144 none
      ∧ (begins (id, .issued, 0)).keyReadFault 0 = none
      ∧ ((begins (id, .issued, 0)).keySlot 0).damaged = false := by
  have h : ∀ p ∈ burns, claimB (begins p) (.burnBegin [2]) (claimed p.2.1 p.2.2) = true
      ∧ (begins p).lot.state = .locked := by decide +kernel
  exact ⟨fun p hp => claim_of (.inr (h p hp).2) (h p hp).1, by decide +kernel, by decide +kernel,
    by decide +kernel, by decide +kernel, by decide +kernel, by decide +kernel, by decide +kernel⟩

/-- The cases of a BURN RESULT item: no burn open, a blocked batch, a damaged key, an extra bit, an
equal image, and a missing bit at and below the attempt limit of 3. -/
def results : List ((State → State) × EntryState × Byte × Key) :=
  [(id, .issued, 1, 0), (blocking, .burning, 1, 0), (damaging, .burning, 1, 0),
    (id, .burning, 1, 0x5A01F013000000000000000000000000), (id, .burning, 1, keyValue),
    (id, .burning, 3, 0x5800F013000000000000000000000000),
    (id, .burning, 2, 0x5800F013000000000000000000000000)]

/-- A station reports a burn. -/
def reports (p : (State → State) × EntryState × Byte × Key) : State :=
  asks (p.1 (held p.2.1 p.2.2.1 5)) (.station 0) (.burnResult [⟨2, p.2.2.2⟩])

/-- The missing-bit and extra-bit counts, as the statement has them. -/
def counts (image : Key) : Nat × Nat :=
  ((List.finRange 128).countP fun k => keyValue.getLsbD k && !image.getLsbD k,
    (List.finRange 128).countP fun k => image.getLsbD k && !keyValue.getLsbD k)

theorem test_witness_BurnResultDecides :
    (∀ p ∈ results, (reports p).Granted (.station 0) (.burnResult [⟨2, p.2.2.2⟩]) ∧ (reports p).taking
        ∧ (reports p).Claimed 0 2 2 (-3) 12 6144 (claimed p.2.1 p.2.2.1) 0)
      ∧ (∀ p ∈ results, ((reports p).keyAt 0).key = keyValue)
      ∧ (reports (blocking, .burning, 1, 0)).blocked 305 = true
      ∧ (reports (damaging, .burning, 1, 0)).blocked 305 = false
      ∧ (((reports (damaging, .burning, 1, 0)).checkKey 0 .access).keySlot 0).damaged = true
      ∧ (reports (id, .burning, 3, 0)).keyReadFault 0 = none
      ∧ ((reports (id, .burning, 3, 0)).keySlot 0).damaged = false
      ∧ counts 0x5A01F013000000000000000000000000 = (0, 1) ∧ counts keyValue = (0, 0)
      ∧ counts 0x5800F013000000000000000000000000 = (1, 0)
      ∧ (3 : Byte).toNat = (reports (id, .burning, 3, 0)).limits.attemptLimit
      ∧ (2 : Byte).toNat ≠ (reports (id, .burning, 2, 0)).limits.attemptLimit := by
  have h : ∀ p ∈ results, claimB (reports p) (.burnResult [⟨2, p.2.2.2⟩]) (claimed p.2.1 p.2.2.1) = true
      ∧ (reports p).lot.state = .locked := by decide +kernel
  refine ⟨fun p hp => claim_of (.inr (h p hp).2) (h p hp).1, ?_⟩
  decide +kernel

/-! ## Witnesses: lots, keys, journal and halt -/

/-- A LOT OPEN whose split code is 3. -/
def openBad : OpenBody := { open19 with split := 3 }

theorem test_witness_LotOpenDecides :
    ((asks base .lot (.lotOpen open19)).Granted .lot (.lotOpen open19)
        ∧ (asks base .lot (.lotOpen open19)).taking)
      ∧ ((asks idle .lot (.lotOpen openBad)).Granted .lot (.lotOpen openBad) ∧ idle.lot.state = .idle
        ∧ settleOpen openBad = .error (2, none))
      ∧ (asks idle .lot (.lotOpen open19)).Granted .lot (.lotOpen open19)
      ∧ ∃ p, settleOpen open19 = .ok p :=
  ⟨⟨granted_of (by decide +kernel), base_taking⟩, ⟨granted_of (by decide +kernel), rfl, by rfl⟩,
    granted_of (by decide +kernel), _, rfl⟩

theorem test_witness_ParametersSettleInRange :
    (∃ p, settleOpen ⟨0x4B3751322D303135, 2, bodyOfRules 16⟩ = .ok p)
      ∧ settleOpen ⟨0x4B3751322D303135, 2, bodyOfRules 17⟩ = .error (12, some 16)
      ∧ settleOpen ⟨0, 0, bodyOfRules 0⟩ = .error (1, none) := ⟨⟨_, rfl⟩, by rfl, by rfl⟩

/-- A digit above 9, exchanged ends, a window below next, a bad presence mark, a bad window E, a bad strict
flag and a die rule that fails. -/
theorem test_witness_ParametersSettleInRange_refused :
    [settle { bodyOfRules 0 with windowP := ⟨0xA, packSerial 419999⟩ } none none,
      settle amend19 none none, settle (bodyOfRules 0) (some 417301) none,
      settle { bodyOfRules 0 with presenceE := 2 } none none,
      settle { bodyOfRules 0 with presenceE := 1, windowE := ⟨1, 0⟩ } none none,
      settle { bodyOfRules 0 with presenceE := 1 } (some 417300) (some 1),
      settle { bodyOfRules 0 with strict := 2 } none none,
      settle { bodyOfRules 2 with rules := [⟨1, 1, 0, 0, 1, 0, 0, 1, 0, 0, 1, 1⟩,
        ⟨1, 0, 25, 26, 1, 0, 0, 1, 0, 0, 1, 1⟩] } none none].map (fun r => match r with
          | .error p => p
          | .ok _ => (0, none))
      = [(3, none), (3, none), (3, none), (4, none), (4, none), (4, none), (11, none), (12, some 1)]
      ∧ (2 < openBad.split.toNat) := by decide +kernel

/-- The lot is OPEN and not locked. -/
def unlocked : State := { base with lot := { base.lot with state := .opened, lock := false } }

theorem test_witness_LotAmendAndLock :
    (asks base .lot (.lotAmend amend19)).Granted .lot (.lotAmend amend19) ∧ base.lot.state = .locked
      ∧ (asks unlocked .lot (.lotAmend amend19)).Granted .lot (.lotAmend amend19)
      ∧ unlocked.lot.state = .opened
      ∧ settle amend19 unlocked.unitP.next unlocked.unitE.next = .error (3, none)
      ∧ (asks unlocked .lot (.lotAmend (bodyOfRules 0))).Granted .lot (.lotAmend (bodyOfRules 0))
      ∧ (∃ p, settle (bodyOfRules 0) unlocked.unitP.next unlocked.unitE.next = .ok p)
      ∧ (∃ q, unlocked.lot.params = some q)
      ∧ (asks base .lot .lotLock).Granted .lot .lotLock
      ∧ (asks unlocked .lot .lotLock).Granted .lot .lotLock :=
  ⟨granted_of (by decide +kernel), rfl, granted_of (by decide +kernel), rfl, by rfl,
    granted_of (by decide +kernel), ⟨_, rfl⟩, ⟨_, rfl⟩, granted_of (by decide +kernel),
    granted_of (by decide +kernel)⟩

/-- A lot whose conditions for a close are met: no wafer in use. -/
def closable : State :=
  { base with lot := { base.lot with wafers := List.replicate 25 .new } }

theorem test_witness_LotCloseTestsItsConditions :
    (asks base .lot .lotClose).Granted .lot .lotClose ∧ (asks base .lot .lotClose).taking
      ∧ (WaferState.attached 0 ∈ base.lot.wafers)
      ∧ (asks closable .lot .lotClose).Granted .lot .lotClose ∧ (asks closable .lot .lotClose).taking
      ∧ (∀ v ∈ closable.lot.wafers, ¬ v = .purging ∧ ∀ st, ¬ v = .attached st)
      ∧ closable.table.openCount = 0 ∧ closable.journal.queue = [] ∧ closable.journal.reservations = 0
      ∧ closable.sweeps.audit.active = false ∧ closable.sweeps.purge.active = false
      ∧ closable.sweeps.quarantine.active = false :=
  ⟨granted_of (by decide +kernel), base_taking, by decide +kernel, granted_of (by decide +kernel),
    .inr rfl, by decide +kernel, rfl, rfl, rfl, rfl, rfl, rfl⟩

theorem test_witness_LotStatusAndAttention :
    (asks idle .lot .lotStatus).Granted .lot .lotStatus ∧ idle.lot.state = .idle
      ∧ idle.lot.params = none ∧ idle.lot.lock = false
      ∧ (asks base .lot .lotStatus).Granted .lot .lotStatus ∧ base.taking
      ∧ (∃ p, base.lot.params = some p) ∧ State.reset.lot.state = .init
      ∧ (scrubbing base 0).lot.state = .closing
      ∧ base.unitP.window = some ⟨417300, 419999⟩ ∧ ∃ rs, base.rules = some rs :=
  ⟨granted_of (by decide +kernel), rfl, rfl, rfl, granted_of (by decide +kernel), base_taking,
    ⟨_, rfl⟩, rfl, rfl, rfl, _, rfl⟩

/-- A KEY LOAD is asked for. -/
def loads (s : State) (batch : Half) (r : List KeyRecord) : State := asks s .lot (.keyLoad batch r)

/-- The batch list holds as many numbers as given, none of them 305. -/
def listing (n : Nat) (s : State) : State :=
  { s with pool := { s.pool with batches := List.replicate n 1 } }

/-- All slots but as many as given are taken, by the counts. -/
def emptying (n : Nat) (s : State) : State :=
  { s with pool := { s.pool with counts := { s.pool.counts with faulted := 6144 - n } } }

/-- The KEY LOADs of the checks: batch 0, no record, an index above 63, an index twice, a batch listed,
a blocked batch, a full list, too few slots, and a check word that fails. -/
def refusedLoads : List (State × Half × List KeyRecord) :=
  [(base, 0, [record 7]), (base, 305, []), (base, 305, [record 7, record 64]),
    (base, 305, [record 7, record 8, record 7]), (loaded, 305, [record 9]), (blocking base, 305, [record 7]),
    (listing 512 base, 305, [record 7]), (emptying 1 base, 305, [record 7, record 63]),
    (base, 305, [record 7, ⟨8, keyValue, 0⟩])]

theorem test_witness_KeyLoadChecksInOrder :
    (∀ p ∈ refusedLoads, (loads p.1 p.2.1 p.2.2).Granted .lot (.keyLoad p.2.1 p.2.2)
        ∧ (loads p.1 p.2.1 p.2.2).taking)
      ∧ 63 < (record 64).index.toNat ∧ (record 7).index = (record 7).index
      ∧ (305 : Half) ∈ loaded.pool.batches ∧ (305 : Half) ∉ (listing 512 base).pool.batches
      ∧ (blocking base).lot.blocked[0]? = some ⟨305, 305⟩
      ∧ ¬ (listing 512 base).pool.batches.length < 512 ∧ (listing 511 base).pool.batches.length < 512
      ∧ (emptying 1 base).emptyCount = 1 ∧ base.emptyCount = 6144
      ∧ twoSum (halfBytes 305 ++ 8 :: bytesOf 16 keyValue.toNat) ≠ 0 := by
  have h : ∀ p ∈ refusedLoads, grantedB (loads p.1 p.2.1 p.2.2) .lot (.keyLoad p.2.1 p.2.2) = true
      ∧ (loads p.1 p.2.1 p.2.2).lot.state = .locked := by decide +kernel
  refine ⟨fun p hp => ⟨granted_of (h p hp).1, .inr (h p hp).2⟩, ?_⟩
  decide +kernel

/-- The counts agree with the slots, by their small numbers. -/
def poolB (s : State) : Bool :=
  mapWf emptySlot s.pool.slots && decide (s.pool.counts.fresh = s.pool.inState .fresh)
    && decide (s.pool.counts.returned = s.pool.inState .returned)
    && decide (s.pool.counts.bound = s.pool.inState .bound)
    && decide (s.pool.counts.faulted = s.pool.inState .faulted)
    && decide (s.pool.counts.loaded = s.pool.counts.fresh + s.pool.counts.returned
        + s.pool.counts.faulted + s.pool.counts.bound + s.pool.counts.spent + s.pool.counts.retired)

theorem pool_of {s : State} (h : poolB s = true) : s.PoolOk := by
  simp only [poolB, Bool.and_eq_true, decide_eq_true_eq] at h
  obtain ⟨⟨⟨⟨⟨h0, h1⟩, h2⟩, h3⟩, h4⟩, h5⟩ := h
  exact ⟨h0, h1, h2, h3, h4, h5⟩

/-- Sixty-four records with the indices 0 to 63. -/
def records64 : List KeyRecord := (List.range 64).map fun k => record (BitVec.ofNat 8 k)

theorem test_witness_KeyLoadFillsLowestSlots :
    (loads base 305 records64).Granted .lot (.keyLoad 305 records64)
      ∧ (loads base 305 records64).taking ∧ (loads base 305 records64).MapsOk
      ∧ (loads base 305 records64).PoolOk ∧ records64.length = 64
      ∧ (∀ r ∈ records64, r.index.toNat ≤ 63) ∧ (records64.map (·.index)).Nodup
      ∧ (305 : Half) ∉ base.pool.batches ∧ base.blocked 305 = false ∧ base.pool.batches.length < 512
      ∧ records64.length ≤ base.emptyCount
      ∧ ∀ r ∈ records64, twoSum (halfBytes 305 ++ r.index :: bytesOf 16 r.key.toNat) = r.check :=
  ⟨granted_of (by decide +kernel), .inr rfl, show _ = true by decide +kernel,
    pool_of (by decide +kernel), by decide +kernel, by decide +kernel, by decide +kernel,
    by decide +kernel, by decide +kernel, by decide +kernel, by decide +kernel, by decide +kernel⟩

/-- The five lot states. -/
def lotStates : List LotState := [.init, .idle, .opened, .locked, .closing]

theorem test_witness_JournalReadCopies :
    (lotStates.all fun st => [(0 : Byte), 1, 8, 9].all fun n =>
        grantedB (asks (inState st) .lot (.journalRead n)) .lot (.journalRead n)
          && decide ((inState st).lot.state = st)) = true := by decide +kernel

theorem test_witness_JournalTakeRemoves :
    (lotStates.all fun st => [(0 : Half), 1, 256, 257].all fun n =>
        grantedB (asks (inState st) .lot (.journalTake n)) .lot (.journalTake n)
          && decide ((inState st).lot.state = st)) = true
      ∧ ([(1 : Half), 2, 3].all fun n =>
        grantedB (asks journaling .lot (.journalTake n)) .lot (.journalTake n)) = true
      ∧ journaling.taking ∧ journaling.journal.queue.length = 2 :=
  ⟨by decide +kernel, by decide +kernel, .inr rfl, rfl⟩

theorem test_witness_ResumeClearsTheHalt :
    ∀ st ∈ [LotState.init, .idle, .opened, .locked, .closing], ∀ c ∈ [(0 : Byte), 1, 2],
      grantedB (asks (inState st) .lot (.resume c)) .lot (.resume c) = true
        ∧ (asks (inState st) .lot (.resume c)).lot.state = st := by decide +kernel

/-! ## Witnesses: sweeps -/

/-- As many ranges are listed as given. -/
def ranged (n : Nat) : State :=
  { base with lot := { base.lot with blocked := List.replicate n ⟨1, 2⟩ } }

theorem test_witness_SweepRequestsDecide :
    base.taking ∧ ([((0 : Half), (1 : Half)), (1, 0), (2, 1), (1, 1)].all fun p =>
        grantedB (asks base .lot (.quarantine p.1 p.2)) .lot (.quarantine p.1 p.2)) = true
      ∧ (∀ s ∈ [ranged 7, ranged 8, sweeping base .quarantine (some 1) .table 0],
        grantedB (asks s .lot (.quarantine 1 1)) .lot (.quarantine 1 1) = true)
      ∧ (ranged 8).lot.blocked.length = 8 ∧ (ranged 7).lot.blocked.length < 8
      ∧ ([(0 : Byte), 26, 25, 4].all fun w =>
        grantedB (asks base .lot (.purgeWafer w)) .lot (.purgeWafer w)
          && grantedB (asks (sweeping base .purge (some 3) .table 0) .lot (.purgeWafer w)) .lot
            (.purgeWafer w)) = true
      ∧ base.wafer 25 = some .new ∧ base.wafer 4 = some .detached
      ∧ (∀ r ∈ [Request.auditStart, .auditStop], grantedB (asks base .lot r) .lot r = true
        ∧ grantedB (asks (sweeping base .audit none .table 9) .lot r) .lot r = true) :=
  ⟨base_taking, by decide +kernel, by decide +kernel, by decide, by decide, by decide +kernel,
    by decide +kernel, by decide +kernel, by decide +kernel⟩

theorem test_witness_SweepOffersHighestLevel :
    let q := sweeping base .quarantine (some 1) .table 0
    (q.taking ∧ q.sweeps.quarantine.active = true ∧ q.sweeps.quarantine.waiting = false)
      ∧ ({ q.sweeps.quarantine with waiting := true } : SweepContext).waiting = true
      ∧ (sweeping base .purge (some 4) .table 0).sweeps.purge.active = true
      ∧ (sweeping base .audit none .pool 0).sweeps.audit.active = true
      ∧ base.sweeps.audit.active = false
      ∧ ((scrubbing base 0).lot.state = .closing ∧ (scrubbing base 0).sweeps.scrubActive = true)
      ∧ idle.lot.state = .idle ∧ State.reset.lot.state = .init :=
  ⟨⟨.inr rfl, rfl, rfl⟩, rfl, rfl, rfl, rfl, ⟨rfl, rfl⟩, rfl, rfl⟩

/-- A head whose parity bit is wrong. -/
def faulting (s : State) (h : Nat) : State :=
  { s with table := { s.table with heads := mapSet zeroHead s.table.heads h ⟨false, 0, false, true⟩ } }

/-- The three steps on buckets, each with its sweep at a bucket. -/
def onBucket (s : State) (h : Nat) : List (State × SweepStep) :=
  [(sweeping s .purge (some 4) .table h, .purge), (sweeping s .quarantine (some 1) .table h, .quarantine),
    (sweeping s .audit none .table h, .auditTable)]

theorem test_witness_SweepPassesABucket : ∀ h ∈ [0, 2046],
    (∀ p ∈ onBucket base h ++ onBucket (freezing base h) h ++ onBucket (faulting base h) h,
        offeredB p.1 p.2 = true)
      ∧ (base.headFault h = false ∧ (base.head h).damaged = false ∧ (base.head h).valid = false)
      ∧ ((freezing base h).headFault h = false ∧ ((freezing base h).head h).damaged = true)
      ∧ (faulting base h).headFault h = true := by decide +kernel

/-- Range 1 is 1 to 2, which holds no batch of the entries. -/
def outside (s : State) : State := { s with lot := { s.lot with blocked := [⟨1, 2⟩] } }

/-- Each sweep on a chain of two of which it has nothing to change, whole, with a bad pointer and with a
faulty second cell. -/
theorem test_witness_SweepPassesABucket_chains :
    (∀ p ∈ onBucket (outside (pair .provisioned .void 7)) 528, p.1.Offered p.2 ∧ p.1.Chain 528 [6144] 6145
        ∧ p.1.Chain 528 ([] ++ [6144]) 6145)
      ∧ (∀ p ∈ onBucket (outside (straying (pair .provisioned .void 7))) 528, p.1.Offered p.2
        ∧ p.1.Breaks 528 [6144] (.cell 6144) .link)
      ∧ (∀ p ∈ onBucket (outside (breakingCell (pair .provisioned .void 7) 6145)) 528, p.1.Offered p.2
        ∧ p.1.Breaks 528 [6144] (.cell 6145) .content)
      ∧ (∀ p ∈ onBucket (outside (breakingCell (pair .provisioned .void 7) 6144)) 528, p.1.Offered p.2
        ∧ p.1.Breaks 528 [] (.cell 6144) .content)
      ∧ ((pair .provisioned .void 7).entryAt 6144).wafer ≠ 4
      ∧ ((pair .provisioned .void 7).entryAt 6145).wafer ≠ 4
      ∧ ((pair .provisioned .void 7).entryAt 6144).batch = 305
      ∧ (outside base).lot.blocked[1 - 1]? = some ⟨1, 2⟩ := by
  have h1 : ∀ p ∈ onBucket (outside (pair .provisioned .void 7)) 528,
      offeredB p.1 p.2 = true ∧ chainB p.1 528 [6144] 6145 = true := by decide +kernel
  have h2 : ∀ p ∈ onBucket (outside (straying (pair .provisioned .void 7))) 528, offeredB p.1 p.2 = true
      ∧ (walksB p.1 528 [6144] 9 && !p.1.inChain 528 9) = true := by decide +kernel
  have h3 : ∀ p ∈ onBucket (outside (breakingCell (pair .provisioned .void 7) 6145)) 528,
      offeredB p.1 p.2 = true ∧ (walksB p.1 528 [6144] 6145 && decide ([6144].length < p.1.capacity)
        && p.1.inChain 528 6145 && decide (p.1.entryFault 6145 = some .content)) = true := by
    decide +kernel
  have h4 : ∀ p ∈ onBucket (outside (breakingCell (pair .provisioned .void 7) 6144)) 528,
      offeredB p.1 p.2 = true ∧ (walksB p.1 528 [] 6144 && decide (([] : List Nat).length < p.1.capacity)
        && p.1.inChain 528 6144 && decide (p.1.entryFault 6144 = some .content)) = true := by
    decide +kernel
  exact ⟨fun p hp => ⟨offered_of (h1 p hp).1, chain_of (h1 p hp).2, chain_of (h1 p hp).2⟩,
    fun p hp => ⟨offered_of (h2 p hp).1, breaks_pointer (h2 p hp).2⟩,
    fun p hp => ⟨offered_of (h3 p hp).1, breaks_cell (h3 p hp).2⟩,
    fun p hp => ⟨offered_of (h4 p hp).1, breaks_cell (h4 p hp).2⟩, by decide +kernel⟩

theorem test_witness_LastBucketCompletes :
    (∀ p ∈ onBucket purged 2047, offeredB p.1 p.2 = true) ∧ purged.headFault 2047 = false
      ∧ (purged.head 2047).damaged = false ∧ (purged.head 2047).valid = false
      ∧ (sweeping purged .purge (some 4) .table 2047).sweeps.purge.param = some (4 : Byte).toNat
      ∧ purged.wafer 4 = some .purging := by decide +kernel

/-- The purge steps: an entry of another wafer, a PROVISIONED, a VOID and an UNCERTAIN one. -/
def purges : List (State × Byte × Entry) :=
  [(sweeping (closed .void) .purge (some 4) .table 528, 4, { entry .void none 1 with slot := none }),
    (purging (closed .provisioned) 528, 7, { entry .provisioned none 1 with slot := none }),
    (purging (closed .void) 528, 7, { entry .void none 1 with slot := none }),
    (purging (opened (entry .uncertain none 1)) 528, 7, entry .uncertain none 1)]

theorem test_witness_PurgeStepActs :
    (∀ p ∈ purges, p.1.Offered .purge ∧ p.1.sweeps.purge.cursor = 528
        ∧ p.1.sweeps.purge.param = some p.2.1.toNat ∧ p.1.LoneEntry 528 6144 p.2.2 ∧ p.1.MapsOk
        ∧ p.1.sweeps.purge.counts.changed ≤ 4294967295 ∧ p.1.sweeps.purge.counts.appended ≤ 4294967295)
      ∧ (purging (opened (entry .uncertain none 1)) 528).OpenEntry 6144 (entry .uncertain none 1) 0 := by
  have h : ∀ p ∈ purges, offeredB p.1 .purge = true ∧ p.1.sweeps.purge.cursor = 528
        ∧ p.1.sweeps.purge.param = some p.2.1.toNat ∧ loneB p.1 528 6144 p.2.2 = true
        ∧ p.1.mapsWf = true ∧ p.1.sweeps.purge.counts.changed ≤ 4294967295
        ∧ p.1.sweeps.purge.counts.appended ≤ 4294967295 := by decide +kernel
  exact ⟨fun p hp => ⟨offered_of (h p hp).1, (h p hp).2.1, (h p hp).2.2.1, lone_of (h p hp).2.2.2.1,
    (h p hp).2.2.2.2.1, (h p hp).2.2.2.2.2⟩, open_of (by decide +kernel)⟩

/-- A purge of wafer 7 on chains of two: both of it, the first or the second alone, and the second read
with a fault or never reached. -/
theorem test_witness_PurgeStepActs_two :
    (∀ s ∈ [purging (pair .provisioned .void 7) 528, purging (pair .void .provisioned 8) 528,
        sweeping (pair .void .provisioned 8) .purge (some 8) .table 528],
      s.Offered .purge ∧ s.Chain 528 [6144] 6145 ∧ s.MapsOk)
      ∧ (∀ s ∈ [purging (straying (pair .provisioned .void 7)) 528,
        purging (breakingCell (pair .provisioned .void 7) 6145) 528], s.Offered .purge ∧ s.MapsOk)
      ∧ (purging (straying (pair .provisioned .void 7)) 528).WalksTo 528 [6144] 9
      ∧ ¬ (purging (straying (pair .provisioned .void 7)) 528).InPlace 528 9
      ∧ (purging (breakingCell (pair .provisioned .void 7) 6145) 528).WalksTo 528 [6144] 6145
      ∧ (purging (breakingCell (pair .provisioned .void 7) 6145) 528).InPlace 528 6145
      ∧ (purging (breakingCell (pair .provisioned .void 7) 6145) 528).entryFault 6145 = some .content
      ∧ ((pair .provisioned .void 7).entryAt 6144).wafer = 7
      ∧ ((pair .provisioned .void 7).entryAt 6145).wafer = 7
      ∧ ((pair .void .provisioned 8).entryAt 6145).wafer = 8
      ∧ ((pair .provisioned .void 7).entryAt 6144).state = .provisioned
      ∧ ((pair .provisioned .void 7).entryAt 6145).state = .void := by
  have h : ∀ s ∈ [purging (pair .provisioned .void 7) 528, purging (pair .void .provisioned 8) 528,
        sweeping (pair .void .provisioned 8) .purge (some 8) .table 528],
      offeredB s .purge = true ∧ chainB s 528 [6144] 6145 = true ∧ s.mapsWf = true := by decide +kernel
  have g : ∀ s ∈ [purging (straying (pair .provisioned .void 7)) 528,
        purging (breakingCell (pair .provisioned .void 7) 6145) 528],
      offeredB s .purge = true ∧ s.mapsWf = true := by decide +kernel
  exact ⟨fun s hs => ⟨offered_of (h s hs).1, chain_of (h s hs).2.1, (h s hs).2.2⟩,
    fun s hs => ⟨offered_of (g s hs).1, (g s hs).2⟩, walks_of (by decide +kernel),
    fun hp => absurd hp.1 (by decide +kernel), walks_of (by decide +kernel), place_of (by decide +kernel),
    by decide +kernel⟩

/-- A quarantine of range 1 stands at bucket 528. -/
def quarantining (s : State) : State := sweeping s .quarantine (some 1) .table 528

/-- The journal has no place left. -/
def filled (s : State) : State := { s with journal := { s.journal with reservations := 256 } }

/-- The quarantine steps: outside the range, VOID, noted already, unburned, burned, and PROVISIONED with
and without room. -/
def quarantines : List (State × Entry) :=
  [(quarantining (ranged 1) |> fun s => { s with
      store := (closed .provisioned).store, table := (closed .provisioned).table },
      { entry .provisioned none 1 with slot := none }),
    (quarantining (blocking (closed .void)), { entry .void none 1 with slot := none }),
    (quarantining (blocking ((closed .provisioned).writeEntry 6144
      { entry .provisioned none 1 with slot := none, noted := 1 })),
      { entry .provisioned none 1 with slot := none, noted := 1 }),
    (quarantining (blocking (held .issued 0 5)), claimed .issued 0),
    (quarantining (blocking (held .issued 1 5)), claimed .issued 1),
    (quarantining (blocking (held .burning 1 5)), claimed .burning 1),
    (quarantining (blocking (opened (entry .uncertain none 1))), entry .uncertain none 1),
    (quarantining (blocking (closed .provisioned)), { entry .provisioned none 1 with slot := none }),
    (quarantining (filled (blocking (closed .provisioned))),
      { entry .provisioned none 1 with slot := none })]

theorem test_witness_QuarantineStepActs :
    (∀ p ∈ quarantines, p.1.Offered .quarantine ∧ p.1.sweeps.quarantine.cursor = 528
        ∧ p.1.sweeps.quarantine.param = some 1 ∧ p.1.lot.blocked[1 - 1]? ≠ none
        ∧ p.1.LoneEntry 528 6144 p.2 ∧ p.1.MapsOk ∧ p.1.sweeps.quarantine.waiting = false)
      ∧ (quarantining (blocking (held .issued 0 5))).OpenEntry 6144 (claimed .issued 0) 0
      ∧ (quarantining (blocking (held .burning 1 5))).OpenEntry 6144 (claimed .burning 1) 0
      ∧ ((blocking base).lot.blocked[0]? = some ⟨305, 305⟩
        ∧ (305 : Half).toNat ≤ (claimed .issued 0).batch.toNat)
      ∧ (ranged 1).lot.blocked[0]? = some ⟨1, 2⟩ := by
  have h : ∀ p ∈ quarantines, offeredB p.1 .quarantine = true ∧ p.1.sweeps.quarantine.cursor = 528
        ∧ p.1.sweeps.quarantine.param = some 1 ∧ p.1.lot.blocked[1 - 1]? ≠ none
        ∧ loneB p.1 528 6144 p.2 = true ∧ p.1.mapsWf = true
        ∧ p.1.sweeps.quarantine.waiting = false := by decide +kernel
  exact ⟨fun p hp => ⟨offered_of (h p hp).1, (h p hp).2.1, (h p hp).2.2.1, (h p hp).2.2.2.1,
    lone_of (h p hp).2.2.2.2.1, (h p hp).2.2.2.2.2.1, (h p hp).2.2.2.2.2.2⟩,
    open_of (by decide +kernel), open_of (by decide +kernel), by decide +kernel, by decide +kernel⟩

/-- The journal has as many places left as given. -/
def leaving (n : Nat) (s : State) : State :=
  { s with journal := { s.journal with reservations := 256 - n } }

/-- A quarantine on chains of two PROVISIONED entries, with room for two and for one, and with a second
read that fails. -/
theorem test_witness_QuarantineStepActs_two :
    (∀ n ∈ [2, 1], let s := quarantining (leaving n (blocking (pair .provisioned .provisioned 7)))
        s.Offered .quarantine ∧ s.Chain 528 [6144] 6145 ∧ s.MapsOk
          ∧ s.journal.queue.length + s.journal.reservations = 256 - n)
      ∧ (let s := quarantining (blocking (straying (pair .provisioned .provisioned 7)))
        s.Offered .quarantine ∧ s.Breaks 528 [6144] (.cell 6144) .link ∧ s.MapsOk)
      ∧ (let s := quarantining (blocking (breakingCell (pair .provisioned .provisioned 7) 6145))
        s.Offered .quarantine ∧ s.Breaks 528 [6144] (.cell 6145) .content ∧ s.MapsOk)
      ∧ ∀ c ∈ [6144, 6145], ((pair .provisioned .provisioned 7).entryAt c).state = .provisioned
        ∧ ((pair .provisioned .provisioned 7).entryAt c).batch = 305
        ∧ ((pair .provisioned .provisioned 7).entryAt c).noted.toNat ≠ 1 := by
  have h : ∀ n ∈ [2, 1], let s := quarantining (leaving n (blocking (pair .provisioned .provisioned 7)))
      offeredB s .quarantine = true ∧ chainB s 528 [6144] 6145 = true ∧ s.mapsWf = true
        ∧ s.journal.queue.length + s.journal.reservations = 256 - n := by decide +kernel
  exact ⟨fun n hn => ⟨offered_of (h n hn).1, chain_of (h n hn).2.1, (h n hn).2.2.1, (h n hn).2.2.2⟩,
    ⟨offered_of (by decide +kernel), breaks_pointer (c := 9) (before := [6144]) (by decide +kernel),
      show _ = true by decide +kernel⟩,
    ⟨offered_of (by decide +kernel), breaks_cell (by decide +kernel), show _ = true by decide +kernel⟩,
    by decide +kernel⟩

/-- An audit stands at a group of the pool. -/
def auditing (s : State) (m : Nat) : State := sweeping s .audit none .pool m

/-- Slot 1 does not read cleanly. -/
def spoiling (s : State) : State :=
  s.writeCell 1 ⟨keyContent ⟨305, 8, keyValue, 0⟩, 0, 0, false, false⟩

theorem test_witness_AuditPoolStepActs :
    (∀ s ∈ [auditing loaded 0, auditing loaded 1, auditing loaded 191], offeredB s .auditPool = true)
      ∧ (∀ k ∈ List.range' (32 * 0) 32, ((auditing loaded 0).keySlot k).state = .empty
        ∨ ((auditing loaded 0).keySlot k).state = .faulted
        ∨ (loaded.keyReadFault k = none ∧ (loaded.keySlot k).damaged = false))
      ∧ (0 + 1 < loaded.keySlots / 32 ∧ 191 + 1 = loaded.keySlots / 32)
      ∧ (let s := auditing (spoiling ({ loaded with pool := { loaded.pool with
            slots := mapSet emptySlot loaded.pool.slots 0 emptySlot } })) 0
        s.Offered .auditPool ∧ s.keyReadFault 1 = some .content ∧ (s.keySlot 1).state = .fresh
          ∧ ∀ k, 32 * 0 ≤ k → k < 32 * 0 + 32 → k ≠ 1 → (s.keySlot k).state = .empty)
      ∧ ∀ n ∈ [(0 : Byte), 1],
        let s := auditing (damaging ({ held .issued n 5 with pool := { (held .issued n 5).pool with
          slots := [(0, ⟨.bound, false⟩)] } })) 0
        s.Offered .auditPool ∧ (s.keySlot 0).damaged = true ∧ s.boundCell 0 = some 6144
          ∧ s.OpenEntry 6144 (claimed .issued n) 0 ∧ s.find 7 (-3) 12 = .found 6144 none
          ∧ s.findReads 7 (-3) 12 ≤ 32
          ∧ ∀ k, 32 * 0 ≤ k → k < 32 * 0 + 32 → k ≠ 0 → (s.keySlot k).state = .empty := by
  refine ⟨by decide +kernel, by decide +kernel, by decide +kernel,
    ⟨offered_of (by decide +kernel), by decide +kernel, by decide +kernel, ?_⟩, fun n hn => ?_⟩
  · intro k _ hk hne
    have : ∀ k < 32, k ≠ 1 → ((auditing (spoiling ({ loaded with pool := { loaded.pool with
      slots := mapSet emptySlot loaded.pool.slots 0 emptySlot } })) 0).keySlot k).state = .empty := by
      decide +kernel
    exact this k (by omega) hne
  · have h : ∀ n ∈ [(0 : Byte), 1],
      let s := auditing (damaging ({ held .issued n 5 with pool := { (held .issued n 5).pool with
          slots := [(0, ⟨.bound, false⟩)] } })) 0
      offeredB s .auditPool = true ∧ (s.keySlot 0).damaged = true ∧ s.boundCell 0 = some 6144
          ∧ openB s 6144 (claimed .issued n) 0 = true ∧ s.find 7 (-3) 12 = .found 6144 none
          ∧ s.findReads 7 (-3) 12 ≤ 32
          ∧ ∀ k < 32, k ≠ 0 → (s.keySlot k).state = .empty := by decide +kernel
    have h := h n hn
    exact ⟨offered_of h.1, h.2.1, h.2.2.1, open_of h.2.2.2.1, h.2.2.2.2.1, h.2.2.2.2.2.1,
      fun k _ hk hne => h.2.2.2.2.2.2 k (by omega) hne⟩

theorem test_witness_CloseScrubStepClears : ∀ n ∈ [0, 254, 255],
    (scrubbing loaded n).Offered .scrub ∧ (scrubbing loaded n).MapsOk
      ∧ (scrubbing loaded n).lot.params ≠ none := by
  have h : ∀ n ∈ [0, 254, 255], offeredB (scrubbing loaded n) .scrub = true
      ∧ (scrubbing loaded n).mapsWf = true ∧ (scrubbing loaded n).lot.params ≠ none := by decide +kernel
  exact fun n hn => ⟨offered_of (h n hn).1, (h n hn).2.1, (h n hn).2.2⟩

/-! ## Witnesses: serials, die rules, store faults and the laws -/

theorem test_witness_AllocationYieldsASerial : ∀ n ∈ [9999999997, 9999999999],
    let u : SerialUnit := ⟨some ⟨9999999997, 9999999999⟩, some n, 0, 0, false⟩
    u.window = some ⟨9999999997, 9999999999⟩ ∧ u.next = some n ∧ 9999999997 ≤ n
      ∧ 9999999999 ≤ 9999999999 ∧ u.exhausted = false := by decide

theorem test_witness_DieRulesDecide :
    base.rules = some [⟨true, none, some (41, 127), none, 6, .exclude⟩]
      ∧ (∀ r ∈ rules46, r.covers 7 (-3) 12 = false)
      ∧ (rules46.map fun r => r.covers 2 5 0) = [false, false, true, false, false, true] := by decide

theorem test_witness_StoreFaultIsHandled :
    (held .issued 0 5).MapsOk ∧ (held .issued 0 5).cellBucket 6144 = some 528
      ∧ ((held .issued 0 5).keySlot 0).state = .bound ∧ (loaded.keySlot 0).state = .fresh
      ∧ (base.keySlot 0).state = .empty :=
  ⟨show _ = true by decide +kernel, by decide +kernel, by decide +kernel, by decide +kernel,
    by decide +kernel⟩

/-- The walk for the first and the second die of a chain of two, for a die that is not there, and walks
that a bad head, a bad pointer and a bad cell break off. -/
theorem test_witness_StoreFaultIsHandled_walk :
    (let s := pair .provisioned .void 7;
      s.Chain 528 [6144] 6145 ∧ s.Reads 528 [6144] 6145
        ∧ ((s.entryAt 6144).wafer, (s.entryAt 6144).x, (s.entryAt 6144).y) = (7, -3, 12)
        ∧ ((s.entryAt 6145).wafer, (s.entryAt 6145).x, (s.entryAt 6145).y) = (7, -35, 44))
      ∧ (bucketOf 7 (-3) 12 = 528 ∧ bucketOf 7 (-35) 44 = 528 ∧ bucketOf 8 5 3 = 528)
      ∧ (breakingHead base 528).headFault 528 = true
      ∧ ((freezing base 528).headFault 528 = false ∧ ((freezing base 528).head 528).damaged = true)
      ∧ (base.headFault 528 = false ∧ (base.head 528).damaged = false ∧ (base.head 528).valid = false)
      ∧ (straying (pair .provisioned .void 7)).Breaks 528 [6144] (.cell 6144) .link
      ∧ (misleading (pair .provisioned .void 7)).Breaks 528 [] (.head 528) .link
      ∧ (breakingCell (pair .provisioned .void 7) 6145).Breaks 528 [6144] (.cell 6145) .content :=
  have h : (pair .provisioned .void 7).Chain 528 [6144] 6145 := chain_of (by decide +kernel)
  ⟨⟨h, h.reads, by decide +kernel, by decide +kernel⟩, by decide, by decide +kernel, by decide +kernel,
    by decide +kernel, breaks_pointer (c := 9) (before := [6144]) (by decide +kernel),
    breaks_pointer (c := 0) (before := []) (by decide +kernel), breaks_cell (by decide +kernel)⟩

theorem test_witness_LotStateTransitions :
    exec .lotLock (asks unlocked .lot .lotLock) = .next (after .lotLock (asks unlocked .lot .lotLock))
      ∧ (after .lotLock (asks unlocked .lot .lotLock)).lot.state = .locked
      ∧ (asks unlocked .lot .lotLock).check.clearing = false := ⟨rfl, by decide +kernel, rfl⟩

/-- A state whose step releases a claim. -/
def releasing : State := { asks (held .issued 0 5) (.station 0) (.release [2]) with
  pending := [.release 0 [2]] }

/-- The laws hold of a state in the midst of a lot, and its step goes on. -/
theorem test_witness_Steps :
    (∃ t, step releasing = .next t) ∧ releasing.MapsOk ∧ releasing.CellsOk ∧ releasing.JournalOk
      ∧ releasing.PoolOk ∧ releasing.FaultsOk ∧ releasing.LinksOk ∧ releasing.WaitOk
      ∧ releasing.WafersOk := by
  refine ⟨⟨_, rfl⟩, show _ = true by decide +kernel, cells_of 1 (by decide +kernel), ?_,
    pool_of (by decide +kernel), ?_, ?_, ?_, wafers_of (by decide +kernel)⟩
  · unfold State.JournalOk; decide +kernel
  · unfold State.FaultsOk; decide +kernel
  · refine ⟨?_, ?_, fun h => absurd h (by decide +kernel)⟩
    · rintro (st | _)
      · revert st; decide +kernel
      · decide +kernel
    · rintro (st | _) r hr
      · have hs : ∀ st : Station, releasing.link (.station st)
            = if st = 0 then ⟨.hunting, [], true, some (.release [2])⟩ else .initial := by decide +kernel
        rw [hs st] at hr ⊢
        split at hr
        · rename_i h0
          subst h0
          simp only [Option.some.injEq] at hr
          subst hr
          exact ⟨rfl, rfl⟩
        · simp [LinkUnit.initial] at hr
      · have hs : releasing.link .lot = .initial := by decide +kernel
        rw [hs] at hr; simp [LinkUnit.initial] at hr
  · exact ⟨fun h => absurd h (by decide +kernel), fun h => absurd h (by decide +kernel)⟩

end Sys2Proof.Tests
end

/-! PROOF. DETACH (R13): what a station's table counts and frees, what a detach does to each part of
the state, and the three answers of its rule. -/

namespace Sys2Proof.Machine

/-! ## The slots of a station -/

/-- The list of a station's slots is read off site by site. -/
theorem StationTable.slots_toList (t : StationTable) :
    t.slots.toList = (List.finRange 16).map fun site : Site => t.slots[site] := by
  rw [← List.ofFn_eq_map]
  exact List.ext_getElem (by simp) fun i _ _ => by
    simp only [List.getElem_ofFn, Vector.getElem_toList, Fin.getElem_fin]

theorem StationTable.holds_iff (t : StationTable) :
    t.holds = true ↔ ∃ site : Site, t.slots[site].isHeld = true := by
  simp [StationTable.holds, t.slots_toList]

theorem StationTable.notices_eq_countP (t : StationTable) :
    t.notices = (List.finRange 16).countP fun site : Site => t.slots[site].isNotice := by
  rw [StationTable.notices, t.slots_toList, ← List.countP_eq_length_filter, List.countP_map]
  rfl

theorem StationTable.freeNotices_slot (t : StationTable) (site : Site) :
    t.freeNotices.slots[site] = if t.slots[site].isNotice then .free else t.slots[site] := by
  simp [StationTable.freeNotices]

/-! ## What a detach changes -/

theorem stations_setStation_same (s : State) (st : Station) (t : StationTable) :
    (s.setStation st t).stations[st] = t := by
  simp [State.setStation]

theorem stations_setStation_ne (s : State) {st st' : Station} (t : StationTable) (h : st' ≠ st) :
    (s.setStation st t).stations[st'] = s.stations[st'] := by
  have hval : st.val ≠ st'.val := fun e => h (Fin.ext e.symm)
  simp [State.setStation, Vector.getElem_set_ne, hval]

theorem detachWafer_slot (s : State) (st : Station) (w : Byte) (site : Site) :
    (s.detachWafer st w).slot st site
      = if (s.slot st site).isNotice then .free else s.slot st site := by
  unfold State.slot State.detachWafer
  rw [stations_setStation_same]
  exact s.stations[st].freeNotices_slot site

theorem detachWafer_stations_ne (s : State) {st st' : Station} (w : Byte) (h : st' ≠ st) :
    (s.detachWafer st w).stations[st'] = s.stations[st'] :=
  stations_setStation_ne _ _ h

theorem wafer_detachWafer {s : State} {w : Byte} (hw : s.wafer w ≠ none) (st : Station) (v : Byte) :
    (s.detachWafer st w).wafer v = if v = w then some .detached else s.wafer v :=
  wafer_setWafer hw

/-- A detach and its reply touch the lot, the stations, the links and the arbiter alone. -/
theorem detach_sameBeside (s : State) (st : Station) (w : Byte) (l : Link) (k : Byte)
    (body : ReplyBody) :
    s.sameBeside (((s.taken l).detachWafer st w).reply l k body)
      [.lot, .stations, .links, .arbiter] := by
  intro b hb
  cases b with
  | lot | stations | links | arbiter => simp at hb
  | _ => rfl

/-! ## The three answers of the rule -/

theorem detachRule_noWafer {s : State} {st : Station} (h : s.stations[st].attached = none) :
    detachRule st s = answer s .noWafer := by
  simp only [detachRule, h]

theorem detachRule_claimsActive {s : State} {st : Station} {w : Byte}
    (h : s.stations[st].attached = some w) (hc : ∃ site, (s.slot st site).isHeld = true) :
    detachRule st s = answer s .claimsActive := by
  have hholds : s.stations[st].holds = true := s.stations[st].holds_iff.mpr hc
  simp only [detachRule, h, hholds, if_true]

theorem detachRule_detached {s : State} {st : Station} {w : Byte}
    (h : s.stations[st].attached = some w) (hc : ¬ ∃ site, (s.slot st site).isHeld = true) :
    detachRule st s = (some (.detached w s.stations[st].notices), s.detachWafer st w) := by
  have hholds : ¬ s.stations[st].holds = true := fun hh => hc (s.stations[st].holds_iff.mp hh)
  simp only [detachRule, h, if_neg hholds]

/-! ## A granted request whose rule is known on the state that the grant has taken -/

/-- The rule answers with a body: its state with the reply placed. -/
theorem request_replies {s : State} {l : Link} {r : Request} (h : s.Granted l r) (ht : s.taking)
    {act : State → Option ReplyBody × State} {body : ReplyBody} {u : State}
    (ha : act (s.taken l) = (some body, u)) (hd : u.deferred = []) :
    s.request l r act = u.reply l (kindOf r) body := by
  rw [request_decided h (lotGate_taking ht r), ha]
  exact endWork_calm hd

/-- The rule answers with a code alone: the answer of Safety. -/
theorem request_code {s : State} {l : Link} {r : Request} (h : s.Granted l r) (ht : s.taking)
    {act : State → Option ReplyBody × State} {c : Code}
    (ha : act (s.taken l) = answer (s.taken l) c) :
    s.request l r act = s.answeredCode l (kindOf r) c := by
  rw [request_replies h ht ha h.calm.noBoundary]
  exact reply_taken s l (kindOf r) (.code c)

/-! ## The command -/

theorem exec_detach (st : Station) (s : State) :
    exec (.detach st) s = .next (s.request (.station st) .detach (detachRule st)) := rfl

theorem kindOf_detach : kindOf .detach = 0x02 := rfl

/-- A DETACH that goes through: the detach on the state that the grant has taken, then its reply. -/
theorem exec_detach_detached {s : State} {st : Station} {w : Byte}
    (hg : s.Granted (.station st) .detach) (ht : s.taking) (hw : s.stations[st].attached = some w)
    (hc : ¬ ∃ site, (s.slot st site).isHeld = true) :
    exec (.detach st) s = .next (((s.taken (.station st)).detachWafer st w).reply (.station st)
      (kindOf .detach) (.detached w s.stations[st].notices)) := by
  rw [exec_detach, request_replies hg ht (detachRule_detached hw hc) hg.calm.noBoundary]
  rfl

/-- Settles O15: the rule's three answers, each on the state that the grant has taken. A wafer that a
station holds has a record (R11), so the record set DETACHED exists. -/
theorem detachDecides : Obligations.DetachDecides := by
  unfold Obligations.DetachDecides
  intro s st hg ht hok
  simp only [← kindOf_detach]
  refine ⟨fun hnone => ?noWafer, fun w hw hclaims => ?claims, fun w hw hclaims => ?detached⟩
  case noWafer => rw [exec_detach, request_code hg ht (detachRule_noWafer hnone)]
  case claims => rw [exec_detach, request_code hg ht (detachRule_claimsActive hw hclaims)]
  case detached =>
    have hrec : s.wafer w ≠ none := by
      obtain ⟨hattached, -, -⟩ := hok
      simp [(hattached st w).mp hw]
    exact ⟨_, s.stations[st].notices, exec_detach_detached hg ht hw hclaims,
      replies_reply _ rfl rfl rfl, s.stations[st].notices_eq_countP, detachWafer_none _ st w,
      detachWafer_slot _ st w, fun _ hne => detachWafer_stations_ne _ w hne,
      wafer_detachWafer hrec st, rfl, detach_sameBeside s st w _ _ _⟩

end Sys2Proof.Machine

/-! PROOF. The decision for a die (R55 to R58): what a range covers, when a die rule matches, and which
of the matching die rules wins. -/

namespace Sys2Proof.Machine

/-! ## What a die rule matches -/

/-- A range that is ANY, or that holds the value between its ends as `value` reads them (R55). -/
def RangeHolds (range : Option (Byte × Byte)) (value : Byte → Int) (v : Byte) : Prop :=
  range = none ∨ ∃ lo hi, range = some (lo, hi) ∧ value lo ≤ value v ∧ value v ≤ value hi

/-- A comparison of bytes that orders them as `value` does covers what `value` places in the range. -/
theorem inRange_iff {le : Byte → Byte → Bool} {value : Byte → Int}
    (hle : ∀ a b, le a b = true ↔ value a ≤ value b) (range : Option (Byte × Byte)) (v : Byte) :
    inRange range le v = true ↔ RangeHolds range value v := by
  cases range with
  | none => simp [inRange, RangeHolds]
  | some ends => simp [inRange, RangeHolds, hle, Prod.ext_iff]

theorem decide_le_iff_toNat (a b : Byte) :
    decide (a ≤ b) = true ↔ (a.toNat : Int) ≤ (b.toNat : Int) := by
  rw [decide_eq_true_iff, BitVec.le_def, Int.ofNat_le]

/-- The wafer is compared as a number from 0, x and y as signed numbers (R57). -/
theorem DieRule.covers_iff (r : DieRule) (w x y : Byte) :
    r.covers w x y = true ↔ r.enabled = true ∧ RangeHolds r.wafer (fun b => b.toNat) w
      ∧ RangeHolds r.xRange BitVec.toInt x ∧ RangeHolds r.yRange BitVec.toInt y := by
  have hsigned (a b : Byte) : a.sle b = true ↔ a.toInt ≤ b.toInt := BitVec.sle_iff_toInt_le
  simp only [DieRule.covers, Bool.and_eq_true, inRange_iff decide_le_iff_toNat,
    inRange_iff hsigned, and_assoc]

/-! ## Which die rule wins -/

section
variable {w x y : Byte}

/-- The rule before the others wins where it matches and no later winner is of higher priority. -/
theorem winningRule_cons_head {r : DieRule} {rs : List DieRule} (hr : r.covers w x y = true)
    (hle : ∀ q, winningRule w x y rs = some q → q.priority ≤ r.priority) :
    winningRule w x y (r :: rs) = some r := by
  rw [winningRule]
  cases hrest : winningRule w x y rs with
  | none => simp [hr]
  | some q => simp [hr, hle q hrest]

/-- The winner of the others stays the winner where the rule before them does not match or is of
lower priority. -/
theorem winningRule_cons_tail {r q : DieRule} {rs : List DieRule}
    (hrest : winningRule w x y rs = some q)
    (hlt : r.covers w x y = true → r.priority < q.priority) :
    winningRule w x y (r :: rs) = some q := by
  rw [winningRule, hrest]
  have hnot : ¬ (r.covers w x y = true ∧ q.priority ≤ r.priority) :=
    fun ⟨hr, hle⟩ => absurd (hlt hr) (by omega)
  simp [hnot]

/-- A winner is one of the die rules, and it matches. -/
theorem winningRule_some {rules : List DieRule} {q : DieRule}
    (h : winningRule w x y rules = some q) : q ∈ rules ∧ q.covers w x y = true := by
  induction rules with
  | nil => simp [winningRule] at h
  | cons r rs ih =>
    cases hrest : winningRule w x y rs with
    | none =>
      simp only [winningRule, hrest, Option.ite_none_right_eq_some, Option.some.injEq] at h
      obtain ⟨hr, rfl⟩ := h
      exact ⟨List.mem_cons_self, hr⟩
    | some p =>
      simp only [winningRule, hrest] at h
      split at h
      case isTrue hwins =>
        cases h
        exact ⟨List.mem_cons_self, (Bool.and_eq_true_iff.mp hwins).1⟩
      case isFalse =>
        obtain ⟨hmem, hq⟩ := ih (hrest.trans h)
        exact ⟨List.mem_cons_of_mem r hmem, hq⟩

theorem winningRule_none {rules : List DieRule} (h : ∀ r ∈ rules, ¬ r.covers w x y = true) :
    winningRule w x y rules = none := by
  cases hwin : winningRule w x y rules with
  | none => rfl
  | some q =>
    obtain ⟨hmem, hq⟩ := winningRule_some hwin
    exact absurd hq (h q hmem)

/-- The matching die rule of the highest priority, of the lowest number among those, wins (R58). -/
theorem winningRule_best {rules : List DieRule} {i : Nat} (hi : i < rules.length)
    (hmatch : rules[i].covers w x y = true)
    (hbest : ∀ (j : Nat) (hj : j < rules.length), rules[j].covers w x y = true →
      rules[j].priority < rules[i].priority ∨ (rules[j].priority = rules[i].priority ∧ i ≤ j)) :
    winningRule w x y rules = some rules[i] := by
  induction rules generalizing i with
  | nil => exact absurd hi (Nat.not_lt_zero i)
  | cons r rs ih =>
    cases i with
    | zero =>
      refine winningRule_cons_head hmatch fun q hq => ?_
      obtain ⟨hmem, hcovers⟩ := winningRule_some hq
      obtain ⟨j, hj, rfl⟩ := List.getElem_of_mem hmem
      have hj' := hbest (j + 1) (Nat.succ_lt_succ hj) hcovers
      simp only [List.getElem_cons_succ, List.getElem_cons_zero] at hj'
      omega
    | succ k =>
      have hk : k < rs.length := Nat.lt_of_succ_lt_succ hi
      have hrest : winningRule w x y rs = some rs[k] := ih hk hmatch fun j hj hcovers =>
        (hbest (j + 1) (Nat.succ_lt_succ hj) hcovers).imp_right fun ⟨heq, hle⟩ =>
          ⟨heq, Nat.le_of_succ_le_succ hle⟩
      exact winningRule_cons_tail hrest fun hr =>
        (hbest 0 (Nat.succ_pos _) hr).resolve_right fun ⟨_, hle⟩ => Nat.not_succ_le_zero k hle

/-! ## The decision -/

theorem decideDie_noMatch {rules : List DieRule} (h : winningRule w x y rules = none) :
    decideDie rules w x y = .cls .p := by
  rw [decideDie, h]

theorem decideDie_winner {rules : List DieRule} {r : DieRule}
    (h : winningRule w x y rules = some r) : decideDie rules w x y = r.action := by
  rw [decideDie, h]

theorem State.decision_of_rules {s : State} {rules : List DieRule} (h : s.rules = some rules) :
    s.decision w x y = decideDie rules w x y := by
  rw [State.decision, h, Option.getD_some]

end

/-- Settles O52: matching is what the table's comparison decides, and the winner among the matching
die rules is the best of them. -/
theorem dieRulesDecide : Obligations.DieRulesDecide := by
  unfold Obligations.DieRulesDecide
  intro rules w x y covers matching
  have hmatching (r : DieRule) : matching r ↔ r.covers w x y = true := (r.covers_iff w x y).symm
  simp only [hmatching]
  exact ⟨fun hno => decideDie_noMatch (winningRule_none hno),
    fun _ hi hmatch hbest => decideDie_winner (winningRule_best hi hmatch hbest),
    fun _ hrules => State.decision_of_rules hrules⟩

end Sys2Proof.Machine

/-! PROOF. JOURNAL READ (R151): the lot states that take it, the counts that it takes, and the two
answers of its rule, neither of which changes the state. -/

namespace Sys2Proof.Machine

/-- A granted request whose rule changes nothing: the answer of Safety, on the state as it was. -/
theorem request_unchanged {s : State} {l : Link} {r : Request} (h : s.Granted l r)
    (hg : lotGate s.lot.state r = none) {act : State → Option ReplyBody × State} {body : ReplyBody}
    (ha : act (s.taken l) = (some body, s.taken l)) :
    s.request l r act = s.answered l (kindOf r) body ((s.taken l).reportsDone body) := by
  have hcalm : ((s.taken l).reply l (kindOf r) body).deferred = [] := h.calm.noBoundary
  rw [request_decided h hg, ha]
  exact (endWork_calm hcalm).trans (reply_taken s l (kindOf r) body)

/-- JOURNAL READ is taken in IDLE as it is in OPEN and LOCKED (R2). -/
theorem lotGate_journalRead {s : State} (h : s.lot.state = .idle ∨ s.taking) (n : Byte) :
    lotGate s.lot.state (.journalRead n) = none := by
  rcases h with hidle | ht
  · rw [hidle]; rfl
  · exact lotGate_taking ht _

/-- The rule's comparisons of bytes are those of the numbers of entries. -/
theorem journalRead_count_bad_iff (n : Byte) :
    (n = 0 ∨ 8 < n) ↔ (n.toNat = 0 ∨ 8 < n.toNat) := by
  rw [← BitVec.toNat_inj, BitVec.lt_def]
  rfl

theorem journalReadRule_badParam {n : Byte} (h : n.toNat = 0 ∨ 8 < n.toNat) (s : State) :
    journalReadRule n s = answer s .badParam := by
  rw [journalReadRule, if_pos ((journalRead_count_bad_iff n).mpr h)]

theorem journalReadRule_copies {n : Byte} (h1 : 1 ≤ n.toNat) (h8 : n.toNat ≤ 8) (s : State) :
    journalReadRule n s = (some (.journalRead s.journal.queue.length s.journal.reservations
      (s.journal.queue.take n.toNat)), s) := by
  have hcount : ¬ (n = 0 ∨ 8 < n) := fun h => by
    have := (journalRead_count_bad_iff n).mp h
    omega
  rw [journalReadRule, if_neg hcount, State.held]

theorem exec_journalRead (n : Byte) (s : State) :
    exec (.journalRead n) s = .next (s.request .lot (.journalRead n) (journalReadRule n)) := rfl

theorem kindOf_journalRead (n : Byte) : kindOf (.journalRead n) = 0x28 := rfl

/-- Settles O40: R2 refuses in INIT and CLOSING; in the other lot states each of the rule's two answers
leaves the state that the grant has taken as it was. -/
theorem journalReadCopies : Obligations.JournalReadCopies := by
  unfold Obligations.JournalReadCopies
  intro s n hg
  rw [exec_journalRead, ← kindOf_journalRead n]
  refine ⟨fun hinit => ?init, fun hclosing => ?closing, fun hst hn => ?badParam,
    fun hst h1 h8 => ?copies⟩
  case init => rw [request_refused hg (by rw [hinit]; rfl)]
  case closing => rw [request_refused hg (by rw [hclosing]; rfl)]
  case badParam =>
    rw [request_unchanged hg (lotGate_journalRead hst n) (journalReadRule_badParam hn _)]
    rfl
  case copies =>
    rw [request_unchanged hg (lotGate_journalRead hst n) (journalReadRule_copies h1 h8 _)]
    rfl

end Sys2Proof.Machine

/-! PROOF. RESUME (R161): the three answers of its rule, each on a state whose fault registers alone
differ from those of the state that the grant has taken. -/

namespace Sys2Proof.Machine

/-- A granted request whose rule leaves some state as its own grant would have taken it: the answer of
Safety, on that state. -/
theorem request_answered {s t : State} {l : Link} {r : Request} (h : s.Granted l r) (ht : s.taking)
    {act : State → Option ReplyBody × State} {body : ReplyBody}
    (ha : act (s.taken l) = (some body, t.taken l)) (hd : t.deferred = []) :
    s.request l r act = t.answered l (kindOf r) body ((t.taken l).reportsDone body) := by
  rw [request_replies h ht ha hd]
  exact reply_taken t l (kindOf r) body

/-! ## What the rule clears -/

/-- The fault registers with the halt cleared. -/
def StoreCheck.resumed (k : StoreCheck) : StoreCheck := { k with halt := false }

/-- The fault registers with the halt, the fault record and the STORE_FAULT latch cleared. -/
def StoreCheck.cleared (k : StoreCheck) : StoreCheck :=
  { k with halt := false, faults := 0, first := none, storeFault := false }

/-- The reply gives the halt and the fault record as they stood. -/
def State.resumeReply (s : State) : ReplyBody :=
  .resumed s.check.halt s.check.faults s.check.first

theorem resumeRule_halt (s : State) :
    resumeRule 0 s = (some s.resumeReply, { s with check := s.check.resumed }) := by
  rw [resumeRule, if_pos rfl]
  rfl

theorem resumeRule_record (s : State) :
    resumeRule 1 s = (some s.resumeReply, { s with check := s.check.cleared }) := by
  rw [resumeRule, if_neg (by decide), if_pos rfl]
  rfl

theorem resumeRule_badParam {clear : Byte} (h0 : clear ≠ 0) (h1 : clear ≠ 1) (s : State) :
    resumeRule clear s = answer s .badParam := by
  rw [resumeRule, if_neg h0, if_neg h1]

/-! ## The command -/

theorem exec_resume (clear : Byte) (s : State) :
    exec (.resume clear) s = .next (s.request .lot (.resume clear) (resumeRule clear)) := rfl

theorem kindOf_resume (clear : Byte) : kindOf (.resume clear) = 0x2B := rfl

/-- Settles O42: R2 refuses in INIT, IDLE and CLOSING; where the lot takes RESUME, each flag is answered
as its rule has it, on the state with the fault registers that the rule leaves. -/
theorem resumeClearsTheHalt : Obligations.ResumeClearsTheHalt := by
  unfold Obligations.ResumeClearsTheHalt
  intro s clear hg
  rw [exec_resume, ← kindOf_resume clear]
  refine ⟨fun hinit => ?init, fun hidle => ?idle, fun hclosing => ?closing,
    fun ht h0 h1 => ?badParam, fun ht hclear => ?halt, fun ht hclear => ?record⟩
  case init => rw [request_refused hg (by rw [hinit]; rfl)]
  case idle => rw [request_refused hg (by rw [hidle]; rfl)]
  case closing => rw [request_refused hg (by rw [hclosing]; rfl)]
  case badParam => rw [request_code hg ht (resumeRule_badParam h0 h1 _)]
  case halt =>
    subst hclear
    rw [request_answered (t := { s with check := s.check.resumed }) hg ht (resumeRule_halt _)
      hg.calm.noBoundary]
    rfl
  case record =>
    subst hclear
    rw [request_answered (t := { s with check := s.check.cleared }) hg ht (resumeRule_record _)
      hg.calm.noBoundary]
    rfl

end Sys2Proof.Machine

/-! PROOF. The laws of the table and of the journal (R68, R154): what a commit does to each part of the
state, and that every move keeps the canonical form of the maps, the entry cells' law and the journal
law. -/

namespace Sys2Proof.Machine

/-! ## What a commit changes -/

theorem lockLot_lot (s : State) :
    s.lockLot.lot = if s.lot.state = .opened then { s.lot with state := .locked, lock := true }
      else s.lot := by
  unfold State.lockLot
  split <;> rfl

theorem lockLot_params (s : State) : s.lockLot.lot.params = s.lot.params := by
  rw [lockLot_lot]
  split <;> rfl

theorem lockLot_wafers (s : State) : s.lockLot.lot.wafers = s.lot.wafers := by
  rw [lockLot_lot]
  split <;> rfl

section commit
variable (st : Station) (site : Site) (b wafer x y : Byte) (cls : SerialClass) (h len : Nat)
  (last : Option Nat) (n : Nat) (k : KeyCell) (s : State)

/-- The state of a commit before its last two steps: the serial, the entry and the reservation (R98). -/
def committed : State :=
  let s1 := (s.setUnit cls (s.unit cls).allocate.2).insertEntry h len last
    (newEntry st site wafer x y cls n k (s.unit cls).allocate.1)
  { s1 with journal := { s1.journal with reservations := s1.journal.reservations + 1 } }

/-- A commit binds the key, takes the site and locks the lot (R98). -/
theorem commitClaim_eq :
    (commitClaim st site b wafer x y cls h len last n k s).2
      = ((((committed st site wafer x y cls h len last n k s).bindKey n (s.table.free.headD 0)).setSlot
          st site (.held x y (s.table.free.headD 0)
            ((committed st site wafer x y cls h len last n k s).bindKey n
              (s.table.free.headD 0)).limits.claimLease)).lockLot) := rfl

theorem committed_lot : (committed st site wafer x y cls h len last n k s).lot = s.lot := by
  simp [committed]
theorem committed_pool : (committed st site wafer x y cls h len last n k s).pool = s.pool := by
  simp [committed]
theorem committed_journal : (committed st site wafer x y cls h len last n k s).journal
    = { s.journal with reservations := s.journal.reservations + 1 } := by
  simp [committed]

theorem committed_table {c : Nat} {rest : List Nat} (hf : s.table.free = c :: rest) :
    ∃ heads, (committed st site wafer x y cls h len last n k s).table =
      { s.table with
        heads := heads
        cellMap := mapSet none s.table.cellMap c (some h)
        free := rest
        inUse := s.table.inUse + 1
        freeCount := s.table.freeCount - 1
        openCount := s.table.openCount + 1
        longest := max s.table.longest (min 255 (len + 1)) } := by
  have hf' : (s.setUnit cls (s.unit cls).allocate.2).table.free = c :: rest := by simpa using hf
  obtain ⟨heads, ht⟩ := insertEntry_table h len last
    (newEntry st site wafer x y cls n k (s.unit cls).allocate.1) hf'
  exact ⟨heads, by simp [committed, ht]⟩

theorem committed_mapsOk (hs : s.MapsOk) :
    (committed st site wafer x y cls h len last n k s).MapsOk := by
  have hu : (s.setUnit cls (s.unit cls).allocate.2).MapsOk :=
    mapsOk_of_eq hs (by simp) (by simp) (by simp) (by simp) (by simp)
  exact mapsOk_of_eq (insertEntry_mapsOk h len last _ hu) rfl rfl rfl rfl rfl

theorem commitClaim_mapsOk (hs : s.MapsOk) :
    (commitClaim st site b wafer x y cls h len last n k s).2.MapsOk := by
  rw [commitClaim_eq]
  exact mapsOk_of_eq (bindKey_mapsOk n (s.table.free.headD 0) (committed_mapsOk st site wafer x y cls h len last n k s hs))
    (by simp) (by simp) (by simp) (by simp) (by simp)

theorem commitClaim_params :
    (commitClaim st site b wafer x y cls h len last n k s).2.lot.params = s.lot.params := by
  rw [commitClaim_eq, lockLot_params]
  simp [committed_lot]

theorem commitClaim_wafers :
    (commitClaim st site b wafer x y cls h len last n k s).2.lot.wafers = s.lot.wafers := by
  rw [commitClaim_eq, lockLot_wafers]
  simp [committed_lot]

theorem commitClaim_sweeps :
    (commitClaim st site b wafer x y cls h len last n k s).2.sweeps = s.sweeps := by
  rw [commitClaim_eq]
  simp [committed]

theorem commitClaim_check :
    (commitClaim st site b wafer x y cls h len last n k s).2.check = s.check := by
  rw [commitClaim_eq]
  simp [committed]

theorem commitClaim_journal :
    (commitClaim st site b wafer x y cls h len last n k s).2.journal
      = { s.journal with reservations := s.journal.reservations + 1 } := by
  rw [commitClaim_eq]
  simp [committed_journal]

theorem commitClaim_pool :
    (commitClaim st site b wafer x y cls h len last n k s).2.pool
      = (s.moveKey n ⟨.bound, false⟩ fun c => { c with bound := c.bound + 1 }).pool := by
  rw [commitClaim_eq]
  simp [State.bindKey, State.moveKey, State.keySlot, committed_pool]

theorem commitClaim_table {c : Nat} {rest : List Nat} (hf : s.table.free = c :: rest) :
    ∃ heads binding, (commitClaim st site b wafer x y cls h len last n k s).2.table =
      { s.table with
        heads := heads
        binding := binding
        cellMap := mapSet none s.table.cellMap c (some h)
        free := rest
        inUse := s.table.inUse + 1
        freeCount := s.table.freeCount - 1
        openCount := s.table.openCount + 1
        longest := max s.table.longest (min 255 (len + 1)) } := by
  obtain ⟨heads, ht⟩ := committed_table st site wafer x y cls h len last n k s hf
  refine ⟨heads, mapSet none s.table.binding n (some c), ?_⟩
  rw [commitClaim_eq]
  simp [State.bindKey, State.moveKey, ht, hf]

end commit

/-! ## The canonical form of the maps -/

theorem mapsOk_of_blocks {s t : State} (h : s.MapsOk) (hstore : t.store = s.store)
    (htable : t.table = s.table) (hpool : t.pool.slots = s.pool.slots) : t.MapsOk :=
  mapsOk_of_eq h hstore (by rw [htable]) hpool (by rw [htable]) (by rw [htable])

theorem EMove.keeps_mapsOk {s t : State} (h : EMove s t) (hs : s.MapsOk) : t.MapsOk := by
  cases h with
  | cell n c => exact writeCell_mapsOk n c hs
  | tableFault p g o => exact tableFault_mapsOk p g o hs
  | keyFault n g o => exact keyFault_mapsOk n g o hs
  | retire n => exact retireKey_mapsOk n hs
  | draw n t hd =>
    obtain ⟨_, _, rfl⟩ := drawKey_frame hd
    exact mapsOk_of_eq hs rfl rfl rfl rfl rfl
  | close c e v k o r x =>
    exact mapsOk_of_eq (closeEntry_mapsOk c e v hs) (by simp) (by simp) (by simp) (by simp) (by simp)
  | withdraw c d e r o _ =>
    exact removeEntry_mapsOk _ _ _ _ (mapsOk_of_eq (withdrawKey_mapsOk e.keyNo hs)
      (by simp) (by simp) (by simp) (by simp) (by simp))
  | giveBack c d e _ =>
    exact removeEntry_mapsOk _ _ _ _ (mapsOk_of_eq (pushKey_mapsOk e.keyNo hs)
      (by simp) (by simp) (by simp) (by simp) (by simp))
  | remove h c d _ => exact removeEntry_mapsOk _ _ _ _ hs
  | slot | hit | count | tick | deferred =>
    exact mapsOk_of_blocks hs (by simp) (by simp) (by simp)

theorem scrubCell_mapsOk {s : State} (c : Nat) (hs : s.MapsOk) : (scrubCell s c).MapsOk := by
  unfold scrubCell
  split
  · exact retireKey_mapsOk c hs
  · have hw := writeCell_mapsOk c zeroCell hs
    rw [mapsOk_iff] at hw ⊢
    obtain ⟨hstore, hheads, hslots, hmap, hbinding⟩ := hw
    exact ⟨hstore, hheads, hslots, mapWf_mapSet hmap, hbinding⟩

theorem loadRecord_mapsOk {s : State} (batch : Half) (p : Nat × KeyRecord) (hs : s.MapsOk) :
    (loadRecord batch s p).MapsOk :=
  mapsOk_of_eq (moveKey_mapsOk p.1 ⟨.fresh, false⟩
      (fun c => { c with fresh := c.fresh + 1, loaded := c.loaded + 1 }) (writeCell_mapsOk p.1
        ⟨keyContent ⟨batch, p.2.index, p.2.key, p.2.check⟩, 0, 0, false, false⟩ hs))
    rfl rfl rfl rfl rfl

theorem AMove.keeps_mapsOk {s t : State} (h : AMove s t) (hs : s.MapsOk) : t.MapsOk := by
  cases h with
  | entry t he => exact he.keeps_mapsOk hs
  | commit => exact commitClaim_mapsOk _ _ _ _ _ _ _ _ _ _ _ _ s hs
  | openLot | discard =>
    rw [mapsOk_iff] at hs ⊢
    obtain ⟨hstore, hheads, -⟩ := hs
    exact ⟨hstore, by simp [State.openLot, State.discardLot, IssueTable.start, IssueTable.absent,
      hheads], rfl, rfl, rfl⟩
  | record batch p _ => exact loadRecord_mapsOk batch p hs
  | scrubCell c _ => exact scrubCell_mapsOk c hs
  | scrubHead h => exact writeHead_mapsOk h zeroHead hs
  | amend => exact mapsOk_of_blocks hs rfl rfl rfl
  | _ => exact mapsOk_of_blocks hs (by simp) (by simp) (by simp)

theorem Move.keeps_mapsOk {s t : State} (h : Move s t) (hs : s.MapsOk) : t.MapsOk := by
  cases h with
  | act t ha => exact ha.keeps_mapsOk hs
  | links ls a => exact mapsOk_of_eq hs rfl rfl rfl rfl rfl
  | reset =>
    rw [mapsOk_iff] at hs ⊢
    obtain ⟨hstore, hheads, -⟩ := hs
    exact ⟨hstore, hheads, rfl, rfl, rfl⟩
  | clear _ =>
    rw [mapsOk_iff] at hs ⊢
    obtain ⟨-, -, hrest⟩ := hs
    exact ⟨rfl, rfl, hrest⟩

/-! ## The law of the entry cells -/

theorem keySlots_of_params {s t : State} (h : t.lot.params = s.lot.params) :
    t.keySlots = s.keySlots := by
  unfold State.keySlots; rw [h]

theorem capacity_of_params {s t : State} (h : t.lot.params = s.lot.params) :
    t.capacity = s.capacity := by
  unfold State.capacity; rw [h]

/-- What the law of the entry cells reads of the state is as it was. -/
theorem cellsOk_of_same {s t : State} (hs : s.CellsOk) (htake : t.taking → s.taking)
    (hparams : t.lot.params = s.lot.params)
    (hmap : t.table.cellMap = s.table.cellMap) (hfree : t.table.free = s.table.free)
    (huse : t.table.inUse = s.table.inUse) (hcount : t.table.freeCount = s.table.freeCount) :
    t.CellsOk := by
  obtain ⟨hwf, hlaw⟩ := hs
  refine ⟨hmap ▸ hwf, fun ht => ?_⟩
  simp only [hfree, huse, hcount, hmap, keySlots_of_params hparams, capacity_of_params hparams,
    cellBucket_congr hmap]
  exact hlaw (htake ht)

/-- The law asks only for the canonical form where the lot takes no request. -/
theorem cellsOk_of_idle {t : State} (hwf : mapWf none t.table.cellMap = true) (hn : ¬ t.taking) :
    t.CellsOk := ⟨hwf, fun ht => absurd ht hn⟩

/-- A cell in use becomes free (R74). -/
theorem cellsOk_removed {s t : State} {c : Nat} (hs : s.CellsOk) (hused : s.usedCell c)
    (htake : t.taking → s.taking) (hparams : t.lot.params = s.lot.params)
    (hmap : t.table.cellMap = mapSet none s.table.cellMap c none)
    (hfree : t.table.free = s.table.free ++ [c])
    (huse : t.table.inUse = s.table.inUse - 1)
    (hcount : t.table.freeCount = s.table.freeCount + 1) : t.CellsOk := by
  obtain ⟨hwf, hlaw⟩ := hs
  obtain ⟨hsome, hlow, hhigh⟩ := hused
  have hne : s.cellBucket c ≠ none := Option.isSome_iff_ne_none.mp hsome
  have hbucket (k : Nat) : t.cellBucket k = if k = c then none else s.cellBucket k := by
    unfold State.cellBucket; rw [hmap]; exact mapGet_mapSet hwf
  refine ⟨hmap ▸ mapWf_mapSet hwf, fun ht => ?_⟩
  obtain ⟨hlen, hfreeLen, hsum, hnodup, harea, hinside⟩ := hlaw (htake ht)
  have hlength : (mapSet none s.table.cellMap c none).length + 1 = s.table.cellMap.length := by
    have := length_mapSet (n := c) (v := none) hwf
    rwa [if_neg (show mapGet none s.table.cellMap c ≠ none from hne), if_pos rfl,
      Nat.add_zero] at this
  have hnotFree : c ∉ s.table.free := fun hc => hne (harea c hc).2.2
  rw [hmap, hfree, huse, hcount, keySlots_of_params hparams, capacity_of_params hparams]
  refine ⟨by omega, by simp [hfreeLen], by omega, ?_, fun k hk => ?_, fun k hk => ?_⟩
  · exact List.concat_eq_append ▸ hnodup.concat hnotFree
  · rw [hbucket]
    rcases List.mem_append.mp hk with hold | hnew
    · obtain ⟨h1, h2, h3⟩ := harea k hold
      exact ⟨h1, h2, by simp [h3]⟩
    · obtain rfl : k = c := by simpa using hnew
      exact ⟨hlow, hhigh, if_pos rfl⟩
  · rw [hbucket] at hk
    exact hinside k fun hkn => hk (by simp [hkn])

/-- The first free cell comes into use (R73). -/
theorem cellsOk_inserted {s t : State} {c h : Nat} {rest : List Nat} (hs : s.CellsOk)
    (htake : s.taking) (hf : s.table.free = c :: rest) (hparams : t.lot.params = s.lot.params)
    (hmap : t.table.cellMap = mapSet none s.table.cellMap c (some h))
    (hfree : t.table.free = rest) (huse : t.table.inUse = s.table.inUse + 1)
    (hcount : t.table.freeCount = s.table.freeCount - 1) : t.CellsOk := by
  obtain ⟨hwf, hlaw⟩ := hs
  obtain ⟨hlen, hfreeLen, hsum, hnodup, harea, hinside⟩ := hlaw htake
  rw [hf] at hfreeLen hnodup harea
  obtain ⟨hlow, hhigh, hnone⟩ := harea c List.mem_cons_self
  obtain ⟨hnotin, hnodup'⟩ := List.nodup_cons.mp hnodup
  have hbucket (k : Nat) : t.cellBucket k = if k = c then some h else s.cellBucket k := by
    unfold State.cellBucket; rw [hmap]; exact mapGet_mapSet hwf
  have hlength : (mapSet none s.table.cellMap c (some h)).length = s.table.cellMap.length + 1 := by
    have := length_mapSet (n := c) (v := some h) hwf
    rwa [if_pos (show mapGet none s.table.cellMap c = none from hnone),
      if_neg (Option.some_ne_none h), Nat.add_zero] at this
  refine ⟨hmap ▸ mapWf_mapSet hwf, fun _ => ?_⟩
  rw [hmap, hfree, huse, hcount, keySlots_of_params hparams, capacity_of_params hparams]
  rw [List.length_cons] at hfreeLen
  refine ⟨by omega, by omega, by omega, hnodup', fun k hk => ?_, fun k hk => ?_⟩
  · obtain ⟨h1, h2, h3⟩ := harea k (List.mem_cons_of_mem c hk)
    have hkc : k ≠ c := fun heq => hnotin (heq ▸ hk)
    exact ⟨h1, h2, by rw [hbucket, if_neg hkc, h3]⟩
  · rw [hbucket] at hk
    by_cases hkc : k = c
    · exact hkc ▸ ⟨hlow, hhigh⟩
    · exact hinside k (by simpa [hkc] using hk)

theorem EMove.keeps_cellsOk {s t : State} (h : EMove s t) (hs : s.CellsOk) : t.CellsOk := by
  have hlot := h.aside.lot
  have htake : t.taking → s.taking := by unfold State.taking; rw [hlot]; exact id
  have hparams : t.lot.params = s.lot.params := by rw [hlot]
  cases h with
  | tableFault p g o =>
    obtain ⟨heads, n, ht⟩ := tableFault_table s p g o
    exact cellsOk_of_same hs htake hparams (by rw [ht]) (by rw [ht]) (by rw [ht]) (by rw [ht])
  | draw n t hd =>
    obtain ⟨_, _, rfl⟩ := drawKey_frame hd
    exact cellsOk_of_same hs htake hparams rfl rfl rfl rfl
  | close c e v k o r x =>
    obtain ⟨binding, ht⟩ := closeEntry_table s c e v
    exact cellsOk_of_same hs htake hparams (by simp [ht]) (by simp [ht]) (by simp [ht])
      (by simp [ht])
  | withdraw c d e r o hused =>
    obtain ⟨binding, ht⟩ := withdrawKey_table s e.keyNo
    obtain ⟨heads, hr⟩ := removeEntry_table
      ((s.withdrawKey e.keyNo).appendOutcome e .keyWithdrawn o (some r) none)
      (bucketOf e.wafer e.x e.y) c d true
    exact cellsOk_removed hs hused htake hparams (by simp [State.withdrawEntry, hr, ht])
      (by simp [State.withdrawEntry, hr, ht]) (by simp [State.withdrawEntry, hr, ht])
      (by simp [State.withdrawEntry, hr, ht])
  | giveBack c d e hused =>
    obtain ⟨binding, ht⟩ := pushKey_table s e.keyNo
    obtain ⟨heads, hr⟩ := removeEntry_table (s.pushKey e.keyNo).freeReservation
      (bucketOf e.wafer e.x e.y) c d true
    exact cellsOk_removed hs hused htake hparams (by simp [hr, ht]) (by simp [hr, ht])
      (by simp [hr, ht]) (by simp [hr, ht])
  | remove h c d hused =>
    obtain ⟨heads, hr⟩ := removeEntry_table s h c d false
    exact cellsOk_removed hs hused htake hparams (by rw [hr]) (by rw [hr]) (by rw [hr]) (by rw [hr])
  | cell | keyFault | retire | slot | hit | count | tick | deferred =>
    exact cellsOk_of_same hs htake hparams (by simp) (by simp) (by simp) (by simp)

theorem scrubCell_cellMap_wf {s : State} (c : Nat) (h : mapWf none s.table.cellMap = true) :
    mapWf none (scrubCell s c).table.cellMap = true := by
  unfold scrubCell
  split
  · simpa using h
  · exact mapWf_mapSet h

/-- At lot start every entry cell is free, and none is in use (R68). -/
theorem openLot_cellsOk (s : State) (name : BitVec 64) (split : Nat) (p : Settled) :
    (s.openLot name split p).CellsOk := by
  refine ⟨rfl, fun _ => ?_⟩
  have hcap : (s.openLot name split p).capacity = 8192 - keySlotsOf split := rfl
  have hkeys : (s.openLot name split p).keySlots = keySlotsOf split := rfl
  have hfree : (s.openLot name split p).table.free
      = List.range' (keySlotsOf split) (8192 - keySlotsOf split) := rfl
  have hnone (k : Nat) : (s.openLot name split p).cellBucket k = none := rfl
  refine ⟨rfl, ?_, ?_, ?_, ?_, ?_⟩
  · rw [hfree, List.length_range']; rfl
  · rw [hcap]; exact Nat.zero_add _
  · rw [hfree]; exact List.nodup_range'
  · intro c hc
    rw [hfree, List.mem_range'_1] at hc
    rw [hkeys]
    exact ⟨hc.1, by omega, hnone c⟩
  · exact fun c hc => absurd (hnone c) hc

theorem AMove.keeps_cellsOk {s t : State} (h : AMove s t) (hs : s.CellsOk) : t.CellsOk := by
  cases h with
  | entry t he => exact he.keeps_cellsOk hs
  | commit st site b wafer x y cls h len last n k htake hfree =>
    obtain ⟨c, rest, hf⟩ := List.exists_cons_of_ne_nil hfree
    obtain ⟨heads, binding, ht⟩ := commitClaim_table st site b wafer x y cls h len last n k s hf
    exact cellsOk_inserted (h := h) hs htake hf (commitClaim_params ..) (by rw [ht]) (by rw [ht])
      (by rw [ht]) (by rw [ht])
  | openLot name split p _ => exact openLot_cellsOk s name split p
  | amend p =>
    obtain ⟨hwf, hlaw⟩ := hs
    have hkeys : (s.amendLot p).keySlots = s.keySlots := by
      unfold State.keySlots State.amendLot; cases s.lot.params <;> rfl
    have hcap : (s.amendLot p).capacity = s.capacity := by
      unfold State.capacity State.amendLot; cases s.lot.params <;> rfl
    refine ⟨hwf, fun ht => ?_⟩
    rw [hkeys, hcap]
    exact hlaw ht
  | lock hopened => exact cellsOk_of_same hs (fun _ => .inl hopened) rfl rfl rfl rfl rfl
  | closing => exact cellsOk_of_idle hs.1 (by simp [State.taking])
  | discard => exact cellsOk_of_idle rfl (by simp [State.taking, State.discardLot, LotControl.noLot])
  | scrubCell c hclosing =>
    exact cellsOk_of_idle (scrubCell_cellMap_wf c hs.1) (by simp [State.taking, scrubCell_lot, hclosing])
  | record | scrubHead => exact cellsOk_of_same hs id rfl rfl rfl rfl rfl
  | purgeStart | purgeEnd | quarantineStart | attach | detach =>
    refine cellsOk_of_same hs ?_ ?_ (by simp) (by simp) (by simp) (by simp)
    all_goals simp [State.taking, State.setWafer, State.blockRange, State.attachWafer, State.detachWafer]
  | _ =>
    exact cellsOk_of_same hs (by simp [State.taking]) (by simp) (by simp) (by simp) (by simp) (by simp)

theorem Move.keeps_cellsOk {s t : State} (h : Move s t) (hs : s.CellsOk) : t.CellsOk := by
  cases h with
  | act t ha => exact ha.keeps_cellsOk hs
  | links ls a => exact hs
  | reset =>
    exact cellsOk_of_idle rfl (by simp [State.taking, State.deviceReset, State.reset, LotControl.noLot])
  | clear _ => exact cellsOk_of_idle hs.1 (by simp [State.taking, State.clearStore])

/-- Settles O55: every move keeps each of the two laws. -/
theorem stepKeepsTheTable : Obligations.StepKeepsTheTable := by
  unfold Obligations.StepKeepsTheTable
  intro s t h
  exact ⟨step_keeps (fun _ _ hs => hs) (fun _ _ hm hs => hm.keeps_mapsOk hs) h,
    step_keeps (fun _ _ hs => hs) (fun _ _ hm hs => hm.keeps_cellsOk hs) h⟩

/-! ## The journal law -/

/-- What the journal law reads of the state is as it was. -/
theorem journalOk_of_same {s t : State} (hs : s.JournalOk) (hj : t.journal = s.journal)
    (hopen : t.table.openCount = s.table.openCount)
    (hclosing : t.lot.state = .closing → s.lot.state = .closing) : t.JournalOk := by
  obtain ⟨hsum, hres, hnone⟩ := hs
  exact ⟨by rw [hj]; exact hsum, by rw [hj, hopen]; exact hres,
    fun h => by rw [hj]; exact hnone (hclosing h)⟩

/-- An open entry gives its reservation up, and at most one journal entry takes its place (R149, R150). -/
theorem journalOk_closed {s t : State} (hs : s.JournalOk)
    (hqueue : t.journal.queue.length ≤ s.journal.queue.length + 1)
    (hfull : s.journal.reservations = 0 → t.journal.queue.length ≤ max 256 s.journal.queue.length)
    (hres : t.journal.reservations = s.journal.reservations - 1)
    (hopen : t.table.openCount = s.table.openCount - 1) (hlot : t.lot = s.lot) : t.JournalOk := by
  obtain ⟨hsum, heq, hnone⟩ := hs
  refine ⟨?_, by omega, fun h => ?_⟩
  · by_cases h0 : s.journal.reservations = 0
    · have := hfull h0; omega
    · omega
  · rw [hlot] at h
    have := hnone h
    omega

/-- An outcome appended as its entry closes. -/
theorem journalOk_outcome {s u t : State} (hs : s.JournalOk) (e : Entry) (k : JournalKind)
    (o : Option (Station × Site)) (r : Option Reason) (x : Option (Nat × Nat))
    (hu : u.journal = s.journal) (hj : t.journal = (u.appendOutcome e k o r x).journal)
    (hopen : t.table.openCount = s.table.openCount - 1) (hlot : t.lot = s.lot) : t.JournalOk := by
  rcases appendOutcome_journal u e k o r x with ⟨h0, _, hsame⟩ | ⟨hroom, happ⟩
  · rw [hu] at h0 hsame
    rw [hsame] at hj
    exact journalOk_closed hs (by rw [hj]; omega) (fun _ => by rw [hj]; omega)
      (by rw [hj]; omega) hopen hlot
  · rw [hu] at hroom happ
    rw [happ] at hj
    exact journalOk_closed hs (by simp [hj]) (fun h0 => by simp [hj]; omega) (by rw [hj]) hopen hlot

theorem EMove.keeps_journalOk {s t : State} (h : EMove s t) (hs : s.JournalOk) : t.JournalOk := by
  have hlot := h.aside.lot
  have hclosing : t.lot.state = .closing → s.lot.state = .closing := by rw [hlot]; exact id
  cases h with
  | tableFault p g o =>
    obtain ⟨heads, n, ht⟩ := tableFault_table s p g o
    exact journalOk_of_same hs (by simp) (by rw [ht]) hclosing
  | draw n t hd =>
    obtain ⟨_, _, rfl⟩ := drawKey_frame hd
    exact journalOk_of_same hs rfl rfl hclosing
  | close c e v k o r x =>
    obtain ⟨binding, ht⟩ := closeEntry_table s c e v
    exact journalOk_outcome hs e k o r x (by simp) rfl (by simp [ht]) hlot
  | withdraw c d e r o _ =>
    obtain ⟨binding, ht⟩ := withdrawKey_table s e.keyNo
    obtain ⟨heads, hr⟩ := removeEntry_table
      ((s.withdrawKey e.keyNo).appendOutcome e .keyWithdrawn o (some r) none)
      (bucketOf e.wafer e.x e.y) c d true
    exact journalOk_outcome hs e .keyWithdrawn o (some r) none (u := s.withdrawKey e.keyNo) (by simp)
      (by simp [State.withdrawEntry]) (by simp [State.withdrawEntry, hr, ht]) hlot
  | giveBack c d e _ =>
    obtain ⟨binding, ht⟩ := pushKey_table s e.keyNo
    obtain ⟨heads, hr⟩ := removeEntry_table (s.pushKey e.keyNo).freeReservation
      (bucketOf e.wafer e.x e.y) c d true
    exact journalOk_closed hs (by simp [freeReservation_journal])
      (fun _ => by simp [freeReservation_journal]) (by simp [freeReservation_journal])
      (by simp [hr, ht]) hlot
  | remove h c d _ =>
    obtain ⟨heads, hr⟩ := removeEntry_table s h c d false
    exact journalOk_of_same hs (by simp) (by simp [hr]) hclosing
  | hit e hroom =>
    obtain ⟨hsum, hres, hnone⟩ := hs
    have hroom' : s.journal.queue.length + s.journal.reservations < 256 := hroom
    exact ⟨by simp [State.appendHit]; omega, hres, hnone⟩
  | cell | keyFault | retire | slot | count | tick | deferred =>
    exact journalOk_of_same hs (by simp) (by simp) hclosing

theorem scrubCell_journal (s : State) (c : Nat) : (scrubCell s c).journal = s.journal := by
  unfold scrubCell; split <;> simp

theorem scrubCell_openCount (s : State) (c : Nat) :
    (scrubCell s c).table.openCount = s.table.openCount := by
  unfold scrubCell; split <;> simp

theorem AMove.keeps_journalOk {s t : State} (h : AMove s t) (hs : s.JournalOk) : t.JournalOk := by
  cases h with
  | entry t he => exact he.keeps_journalOk hs
  | commit st site b wafer x y cls h len last n k htake hfree hroom =>
    obtain ⟨c, rest, hf⟩ := List.exists_cons_of_ne_nil hfree
    obtain ⟨heads, binding, ht⟩ := commitClaim_table st site b wafer x y cls h len last n k s hf
    have hj := commitClaim_journal st site b wafer x y cls h len last n k s
    have htaking := commitClaim_taking (st := st) (site := site) (b := b) (wafer := wafer) (x := x)
      (y := y) (cls := cls) (h := h) (len := len) (n := n) (last := last) (k := k) htake
    obtain ⟨hsum, hres, -⟩ := hs
    have hroom' : s.journal.queue.length + s.journal.reservations < 256 := hroom
    refine ⟨by rw [hj]; simp only; omega, by rw [hj, ht]; simp only; omega, fun hc => ?_⟩
    rcases htaking with h1 | h1 <;> rw [h1] at hc <;> cases hc
  | closing htake hfail =>
    obtain ⟨hsum, hres, -⟩ := hs
    refine ⟨hsum, hres, fun _ => ?_⟩
    have hthird : ¬ (s.held ≠ 0 ∨ s.journal.reservations ≠ 0) := fun h => by
      simp [State.closeFailures, h] at hfail
    simp only [not_or, not_not] at hthird
    exact hthird.2
  | take n =>
    obtain ⟨hsum, hres, hnone⟩ := hs
    refine ⟨?_, by simpa using hres, by simpa using hnone⟩
    simp only [State.endWait_journal, List.length_drop]
    omega
  | openLot => exact ⟨Nat.zero_le _, rfl, fun _ => rfl⟩
  | discard hclosing =>
    obtain ⟨hsum, hres, hnone⟩ := hs
    exact ⟨hsum, hnone hclosing, fun _ => hnone hclosing⟩
  | scrubCell c _ =>
    exact journalOk_of_same hs (scrubCell_journal s c) (scrubCell_openCount s c) (by rw [scrubCell_lot]; exact id)
  | amend | scrubHead | record => exact journalOk_of_same hs rfl rfl id
  | _ =>
    exact journalOk_of_same hs (by simp) (by simp) (by
      simp [State.setWafer, State.blockRange, State.attachWafer, State.detachWafer])

theorem Move.keeps_journalOk {s t : State} (h : Move s t) (hs : s.JournalOk) : t.JournalOk := by
  cases h with
  | act t ha => exact ha.keeps_journalOk hs
  | links ls a => exact hs
  | reset => exact ⟨Nat.zero_le _, rfl, fun _ => rfl⟩
  | clear _ => exact journalOk_of_same hs rfl rfl (by simp [State.clearStore])

/-- Settles O56: every move keeps the journal law. -/
theorem stepKeepsTheJournalLaw : Obligations.StepKeepsTheJournalLaw := by
  unfold Obligations.StepKeepsTheJournalLaw
  intro s t hs h
  exact step_keeps (fun _ _ hs => hs) (fun _ _ hm hs => hm.keeps_journalOk hs) h hs

end Sys2Proof.Machine

/-! PROOF. The conservation of keys (R27, R41): what the move of one key slot does to the slot state
map's numbers, and that every move keeps the law. -/

namespace Sys2Proof.Machine

/-! ## Slots in a state -/

/-- The number of slots in a state after a write of one slot: the old state out, the new one in. -/
theorem inState_mapSet {p q : KeyPool} {n : Nat} {v : KeySlot} {k : KeyState} (hk : k ≠ .empty)
    (hwf : mapWf emptySlot p.slots = true) (hq : q.slots = mapSet emptySlot p.slots n v) :
    q.inState k + (if (mapGet emptySlot p.slots n).state = k then 1 else 0)
      = p.inState k + if v.state = k then 1 else 0 := by
  have hd : decide (emptySlot.state = k) = false := decide_eq_false (fun h => hk h.symm)
  have := countP_mapSet (n := n) (v := v) (fun w : KeySlot => decide (w.state = k)) hd hwf
  simpa only [KeyPool.inState, hq, decide_eq_true_eq] using this

theorem inState_pos {p : KeyPool} {n : Nat} {k : KeyState} (hk : k ≠ .empty)
    (hwf : mapWf emptySlot p.slots = true) (h : (mapGet emptySlot p.slots n).state = k) :
    0 < p.inState k := by
  have := inState_mapSet (q := { p with slots := mapSet emptySlot p.slots n emptySlot }) hk hwf rfl
  rw [if_pos h, if_neg (fun he : emptySlot.state = k => hk he.symm)] at this
  omega

theorem poolOk_of_same {s t : State} (hs : s.PoolOk) (hslots : t.pool.slots = s.pool.slots)
    (hcounts : t.pool.counts = s.pool.counts) : t.PoolOk := by
  unfold State.PoolOk KeyPool.inState at *
  rw [hslots, hcounts]
  exact hs

/-! ## The move of one key slot -/

/-- A change of the counts takes in a slot of state `new`, one of state `old` having left: the count
of its state rises, and the loaded total keeps pace with the spent and retired ones (R22, R27). -/
def Enters (old new : KeyState) (f : PoolCounts → PoolCounts) : Prop :=
  ∀ c, (f c).fresh = c.fresh + (if new = .fresh then 1 else 0)
    ∧ (f c).returned = c.returned + (if new = .returned then 1 else 0)
    ∧ (f c).bound = c.bound + (if new = .bound then 1 else 0)
    ∧ (f c).faulted = c.faulted + (if new = .faulted then 1 else 0)
    ∧ (f c).loaded + (if old = .empty then 0 else 1) + (c.spent + c.retired)
      = c.loaded + (if new = .empty then 0 else 1) + ((f c).spent + (f c).retired)

theorem enters_retired {old : KeyState} (h : old ≠ .empty) :
    Enters old .empty fun c => { c with retired := c.retired + 1 } := by
  intro c; simp [h]; omega

theorem enters_spent {old : KeyState} (h : old ≠ .empty) :
    Enters old .empty fun c => { c with spent := c.spent + 1 } := by
  intro c; simp [h]; omega

theorem enters_returned {old : KeyState} (h : old ≠ .empty) :
    Enters old .returned fun c => { c with returned := c.returned + 1 } := by
  intro c; simp [h]

theorem enters_bound {old : KeyState} (h : old ≠ .empty) :
    Enters old .bound fun c => { c with bound := c.bound + 1 } := by
  intro c; simp [h]

theorem enters_faulted {old : KeyState} (h : old ≠ .empty) :
    Enters old .faulted fun c => { c with faulted := c.faulted + 1 } := by
  intro c; simp [h]

theorem enters_loaded :
    Enters .empty .fresh fun c => { c with fresh := c.fresh + 1, loaded := c.loaded + 1 } := by
  intro c; simp

/-- The counts after a slot has left its state, which counted it (R22). -/
theorem leave_counts (c : PoolCounts) (k : KeyState) (hfresh : k = .fresh → 0 < c.fresh)
    (hreturned : k = .returned → 0 < c.returned) (hbound : k = .bound → 0 < c.bound)
    (hfaulted : k = .faulted → 0 < c.faulted) :
    (c.leave k).fresh + (if k = .fresh then 1 else 0) = c.fresh
      ∧ (c.leave k).returned + (if k = .returned then 1 else 0) = c.returned
      ∧ (c.leave k).bound + (if k = .bound then 1 else 0) = c.bound
      ∧ (c.leave k).faulted + (if k = .faulted then 1 else 0) = c.faulted
      ∧ (c.leave k).loaded = c.loaded ∧ (c.leave k).spent = c.spent
      ∧ (c.leave k).retired = c.retired := by
  cases k with
  | empty => simp [PoolCounts.leave]
  | fresh => have := hfresh rfl; simp [PoolCounts.leave]; omega
  | returned => have := hreturned rfl; simp [PoolCounts.leave]; omega
  | bound => have := hbound rfl; simp [PoolCounts.leave]; omega
  | faulted => have := hfaulted rfl; simp [PoolCounts.leave]; omega

theorem moveKey_poolOk {s : State} {n : Nat} {v : KeySlot} {f : PoolCounts → PoolCounts}
    (hs : s.PoolOk) (hf : Enters (s.keySlot n).state v.state f) : (s.moveKey n v f).PoolOk := by
  obtain ⟨hwf, hfresh, hreturned, hbound, hfaulted, hloaded⟩ := hs
  have hset (k : KeyState) (hk : k ≠ .empty) :
      (s.moveKey n v f).pool.inState k + (if (s.keySlot n).state = k then 1 else 0)
        = s.pool.inState k + if v.state = k then 1 else 0 := inState_mapSet hk hwf rfl
  have hpos (k : KeyState) (hk : k ≠ .empty) (h : (s.keySlot n).state = k) :
      0 < s.pool.inState k := inState_pos hk hwf h
  obtain ⟨h1, h2, h3, h4, h5, h6, h7⟩ := leave_counts s.pool.counts (s.keySlot n).state
    (fun h => hfresh ▸ hpos _ (by decide) h) (fun h => hreturned ▸ hpos _ (by decide) h)
    (fun h => hbound ▸ hpos _ (by decide) h) (fun h => hfaulted ▸ hpos _ (by decide) h)
  obtain ⟨g1, g2, g3, g4, g5⟩ := hf (s.pool.counts.leave (s.keySlot n).state)
  have hc : (s.moveKey n v f).pool.counts = f (s.pool.counts.leave (s.keySlot n).state) := rfl
  have s1 := hset .fresh (by decide)
  have s2 := hset .returned (by decide)
  have s3 := hset .bound (by decide)
  have s4 := hset .faulted (by decide)
  have hold : (if (s.keySlot n).state = .empty then 0 else 1)
      = (if (s.keySlot n).state = .fresh then 1 else 0)
        + (if (s.keySlot n).state = .returned then 1 else 0)
        + (if (s.keySlot n).state = .bound then 1 else 0)
        + (if (s.keySlot n).state = .faulted then 1 else 0) := by
    cases (s.keySlot n).state <;> rfl
  have hnew : (if v.state = .empty then 0 else 1)
      = (if v.state = .fresh then 1 else 0) + (if v.state = .returned then 1 else 0)
        + (if v.state = .bound then 1 else 0) + (if v.state = .faulted then 1 else 0) := by
    cases v.state <;> rfl
  refine ⟨mapWf_mapSet hwf, ?_, ?_, ?_, ?_, ?_⟩ <;> rw [hc] <;> omega

theorem retireKey_poolOk {s : State} (n : Nat) (hs : s.PoolOk) : (s.retireKey n).PoolOk := by
  unfold State.retireKey
  split
  · exact poolOk_of_same hs rfl rfl
  case isFalse h => exact poolOk_of_same (moveKey_poolOk hs (enters_retired h)) rfl rfl

theorem spendKey_poolOk {s : State} (n : Nat) (hs : s.PoolOk) : (s.spendKey n).PoolOk := by
  unfold State.spendKey
  split
  · exact hs
  case isFalse h => exact poolOk_of_same (moveKey_poolOk hs (enters_spent h)) rfl rfl

theorem withdrawKey_poolOk {s : State} (n : Nat) (hs : s.PoolOk) : (s.withdrawKey n).PoolOk := by
  unfold State.withdrawKey
  split
  · exact hs
  · exact poolOk_of_same (retireKey_poolOk n hs) rfl rfl

theorem pushKey_poolOk {s : State} (n : Nat) (hs : s.PoolOk) : (s.pushKey n).PoolOk := by
  unfold State.pushKey
  split
  · exact hs
  case isFalse h =>
    exact poolOk_of_same (moveKey_poolOk (v := ⟨.returned, false⟩) hs (enters_returned h)) rfl rfl

/-- A second write of the state that a slot has leaves the law: the damaged mark is not counted. -/
theorem markBound_poolOk {s : State} {n : Nat} (d : Bool) (hs : s.PoolOk)
    (h : (s.keySlot n).state = .bound) :
    ({ s with pool := { s.pool with
      slots := mapSet emptySlot s.pool.slots n ⟨.bound, d⟩ } } : State).PoolOk := by
  obtain ⟨hwf, hrest⟩ := hs
  have hsame (k : KeyState) (hk : k ≠ .empty) :
      ({ s.pool with slots := mapSet emptySlot s.pool.slots n ⟨.bound, d⟩ } : KeyPool).inState k
        = s.pool.inState k := by
    have := inState_mapSet (q := { s.pool with slots := mapSet emptySlot s.pool.slots n ⟨.bound, d⟩ })
      hk hwf rfl
    rw [show (mapGet emptySlot s.pool.slots n).state = .bound from h] at this
    exact Nat.add_right_cancel this
  refine ⟨mapWf_mapSet hwf, ?_⟩
  simp only [hsame _ (show KeyState.fresh ≠ .empty by decide),
    hsame _ (show KeyState.returned ≠ .empty by decide),
    hsame _ (show KeyState.bound ≠ .empty by decide),
    hsame _ (show KeyState.faulted ≠ .empty by decide)]
  exact hrest

theorem markKeyFault_poolOk {s : State} (n : Nat) (hs : s.PoolOk) : (s.markKeyFault n).PoolOk := by
  unfold State.markKeyFault
  split
  case h_1 h => exact moveKey_poolOk (v := ⟨.faulted, false⟩) hs (enters_faulted (by rw [h]; decide))
  case h_2 h => exact moveKey_poolOk (v := ⟨.faulted, false⟩) hs (enters_faulted (by rw [h]; decide))
  case h_3 h => exact markBound_poolOk true hs h
  case h_4 => exact hs
  case h_5 => exact hs

theorem keyFault_poolOk {s : State} (n : Nat) (g : FaultGroup) (o : FaultOrigin) (hs : s.PoolOk) :
    (s.keyFault n g o).PoolOk := by
  have hmark := markKeyFault_poolOk n (s := s.recordFault (.cell n) g o) (poolOk_of_same hs rfl rfl)
  unfold State.keyFault
  dsimp only
  split
  · exact poolOk_of_same hmark rfl rfl
  · exact hmark

/-! ## Every move -/

theorem closeEntry_poolOk {s : State} (c : Nat) (e : Entry) (v : EntryState) (hs : s.PoolOk) :
    (s.closeEntry c e v).PoolOk := by
  unfold State.closeEntry
  exact spendKey_poolOk e.keyNo (poolOk_of_same hs rfl rfl)

theorem EMove.keeps_poolOk {s t : State} (h : EMove s t) (hs : s.PoolOk) : t.PoolOk := by
  cases h with
  | keyFault n g o => exact keyFault_poolOk n g o hs
  | retire n => exact retireKey_poolOk n hs
  | draw n t hd =>
    obtain ⟨_, _, rfl⟩ := drawKey_frame hd
    exact poolOk_of_same hs rfl rfl
  | close c e v k o r x =>
    exact poolOk_of_same (closeEntry_poolOk c e v hs) (by simp) (by simp)
  | withdraw c d e r o _ =>
    exact poolOk_of_same (withdrawKey_poolOk e.keyNo hs) (by simp [State.withdrawEntry])
      (by simp [State.withdrawEntry])
  | giveBack c d e _ => exact poolOk_of_same (pushKey_poolOk e.keyNo hs) (by simp) (by simp)
  | cell | tableFault | slot | remove | hit | count | tick | deferred =>
    exact poolOk_of_same hs (by simp) (by simp)

theorem scrubCell_poolOk {s : State} (c : Nat) (hs : s.PoolOk) : (scrubCell s c).PoolOk := by
  unfold scrubCell
  split
  · exact retireKey_poolOk c hs
  · exact poolOk_of_same hs rfl rfl

theorem loadRecord_poolOk {s : State} (batch : Half) (p : Nat × KeyRecord) (hs : s.PoolOk)
    (hempty : (s.keySlot p.1).state = .empty) : (loadRecord batch s p).PoolOk := by
  let k : KeyCell := ⟨batch, p.2.index, p.2.key, p.2.check⟩
  have hw : (s.writeCell p.1 ⟨keyContent k, 0, 0, false, false⟩).PoolOk := poolOk_of_same hs rfl rfl
  have hslot : ((s.writeCell p.1 ⟨keyContent k, 0, 0, false, false⟩).keySlot p.1).state = .empty :=
    hempty
  exact poolOk_of_same (moveKey_poolOk (v := ⟨.fresh, false⟩) hw (by rw [hslot]; exact enters_loaded))
    rfl rfl

theorem absent_poolOk {t : State} (h : t.pool = .absent) : t.PoolOk := by
  unfold State.PoolOk
  rw [h]
  decide

theorem AMove.keeps_poolOk {s t : State} (h : AMove s t) (hs : s.PoolOk) : t.PoolOk := by
  cases h with
  | entry t he => exact he.keeps_poolOk hs
  | commit st site b wafer x y cls h len last n k _ _ _ hslot =>
    have hne : (s.keySlot n).state ≠ .empty := by rcases hslot with h | h <;> rw [h] <;> decide
    have hpool := commitClaim_pool st site b wafer x y cls h len last n k s
    exact poolOk_of_same (moveKey_poolOk (v := ⟨.bound, false⟩) hs (enters_bound hne))
      (by rw [hpool]) (by rw [hpool])
  | openLot | discard => exact absent_poolOk rfl
  | record batch p hempty => exact loadRecord_poolOk batch p hs hempty
  | scrubCell c _ => exact scrubCell_poolOk c hs
  | amend | scrubHead => exact poolOk_of_same hs rfl rfl
  | _ => exact poolOk_of_same hs (by simp) (by simp)

theorem Move.keeps_poolOk {s t : State} (h : Move s t) (hs : s.PoolOk) : t.PoolOk := by
  cases h with
  | act t ha => exact ha.keeps_poolOk hs
  | links ls a => exact hs
  | reset => exact absent_poolOk rfl
  | clear _ => exact poolOk_of_same hs rfl rfl

/-- Settles O57: every move keeps the conservation of keys. -/
theorem stepConservesKeys : Obligations.StepConservesKeys := by
  unfold Obligations.StepConservesKeys
  intro s t hs h
  exact step_keeps (fun _ _ hs => hs) (fun _ _ hm hs => hm.keeps_poolOk hs) h hs

end Sys2Proof.Machine

/-! PROOF. The lot state (R1): which rule changes it, and that every command changes it only as R1's
table has it. -/

namespace Sys2Proof.Machine

open Relation

/-! ## What leaves the lot state alone -/

theorem EStar.lotState {s t : State} (h : EStar s t) : t.lot.state = s.lot.state := by
  rw [h.aside.lot]

theorem AMove.links {s t : State} (h : AMove s t) : t.links = s.links := by
  cases h with
  | entry t he => exact he.aside.links
  | commit => rw [commitClaim_eq]; simp [committed]
  | scrubCell c _ => unfold Machine.scrubCell; split <;> simp
  | openLot | amend | discard | record | scrubHead => rfl
  | _ => simp

theorem AStar.links {s t : State} (h : AStar s t) : t.links = s.links := by
  induction h with
  | refl => rfl
  | tail _ hstep ih => exact hstep.links.trans ih

/-! ## The rules of the requests -/

/-- A run in which the lot may become LOCKED, by a claim item answered ISSUED (R7). -/
def LockStep (s t : State) : Prop :=
  t.lot.state = s.lot.state ∨ (s.lot.state = .opened ∧ t.lot.state = .locked)

theorem EStar.lockStep {s t : State} (h : EStar s t) : LockStep s t := .inl h.lotState

theorem LockStep.trans {s t u : State} (h : LockStep s t) (k : LockStep t u) : LockStep s u := by
  unfold LockStep at *
  rcases h with h | ⟨h, h'⟩
  · rwa [h] at k
  · rw [h'] at k
    rcases k with k | ⟨k, -⟩
    · exact .inr ⟨h, k⟩
    · cases k

theorem commitClaim_lockStep (st : Station) (site : Site) (b wafer x y : Byte) (cls : SerialClass)
    (h len : Nat) (last : Option Nat) (n : Nat) (k : KeyCell) (s : State) :
    LockStep s (commitClaim st site b wafer x y cls h len last n k s).2 := by
  rw [commitClaim_eq]
  unfold LockStep
  rw [lockLot_lot]
  split
  case isTrue hopened => exact .inr ⟨by simpa [committed_lot] using hopened, rfl⟩
  case isFalse => exact .inl (by simp [committed_lot])

theorem claimNew_lockStep (st : Station) (site : Site) (b wafer x y : Byte) (cls : SerialClass)
    (length : Nat) (last : Option Nat) (s : State) :
    LockStep s (claimNew st site b wafer x y cls length last s).2 := by
  have halloc := allocateKey_star s.candidates s
  unfold claimNew
  split
  · exact .inl rfl
  · split
    case h_1 ha => rw [ha] at halloc; exact halloc.lockStep
    case h_2 ha => rw [ha] at halloc; exact halloc.lockStep.trans (commitClaim_lockStep ..)

theorem claimBucket_lockStep (st : Station) (site : Site) (b wafer x y : Byte) (cls : SerialClass)
    (s : State) : LockStep s (claimBucket st site b wafer x y cls s).2 := by
  have hl := lookup_star s .access wafer x y
  unfold claimBucket
  dsimp only
  split
  · exact .inl (by simp)
  · split
    · exact .inl rfl
    · split
      case h_1 h => exact (star_of_eq hl h).lockStep.trans (claimNew_lockStep ..)
      case h_2 h => exact EStar.lockStep ((star_of_eq hl h).trans (claimExisting_star ..))
      case h_3 h => exact (star_of_eq hl h).lockStep

theorem claimFree_lockStep (st : Station) (site : Site) (i : ClaimItem) (earlier : List ClaimItem)
    (s : State) : LockStep s (claimFree st site i earlier s).2 := by
  unfold claimFree
  split
  · exact .inl rfl
  · split
    · exact .inl rfl
    · split
      · exact .inl rfl
      · split
        · exact .inl rfl
        · exact claimBucket_lockStep ..

theorem claimItem_lockStep (st : Station) (items : List ClaimItem) (k : Nat) (i : ClaimItem)
    (s : State) : LockStep s (claimItem st items k i s).2 := by
  have hc := siteCheck_star s st i.site
  unfold claimItem
  split
  case h_1 h => exact (star_of_eq hc h).lockStep
  case h_2 h =>
    split
    · exact EStar.lockStep ((star_of_eq hc h).trans (claimRepeat_star ..))
    · exact (star_of_eq hc h).lockStep
  case h_3 h => exact (star_of_eq hc h).lockStep.trans (claimFree_lockStep ..)

theorem claimRule_lockStep (st : Station) (items : List ClaimItem) (s : State) :
    LockStep s (claimRule st items s).2 :=
  runItems_star EStar.lockStep LockStep.trans (claimItem_lockStep st items) ..

/-- What the rule of a request does to the lot state: nothing, or its line of R1's table. The accepted
LOT CLOSE alone gives no reply (R166). -/
def LotStep (r : Request) (s : State) (out : Option ReplyBody × State) : Prop :=
  out.2.lot.state = s.lot.state
    ∨ (s.lot.state = .idle ∧ out.2.lot.state = .opened ∧ ∃ b, r = .lotOpen b)
    ∨ (s.lot.state = .opened ∧ out.2.lot.state = .locked
      ∧ (r = .lotLock ∨ ∃ items, r = .claim items))
    ∨ (s.taking ∧ out.2.lot.state = .closing ∧ r = .lotClose ∧ out.1 = none)

/-- What the rule of a request that the lot state takes does to the lot state and the links. -/
def RuleOk (r : Request) (act : State → Option ReplyBody × State) : Prop :=
  ∀ s : State, lotGate s.lot.state r = none → LotStep r s (act s) ∧ (act s).2.links = s.links

theorem ruleOk_of_star {r : Request} {act : State → Option ReplyBody × State}
    (h : ∀ s, EStar s (act s).2) : RuleOk r act :=
  fun s _ => ⟨.inl (h s).lotState, (h s).aside.links⟩

theorem ruleOk_of_same {r : Request} {act : State → Option ReplyBody × State}
    (h : ∀ s, (act s).2.lot.state = s.lot.state) (hl : ∀ s, AStar s (act s).2) : RuleOk r act :=
  fun s _ => ⟨.inl (h s), (hl s).links⟩

theorem claimRule_ok (st : Station) (items : List ClaimItem) :
    RuleOk (.claim items) (claimRule st items) := by
  intro s hg
  have ht : s.taking := gate_taking hg (by simp) (by simp) (by simp) (by simp)
  refine ⟨?_, ((claimRule_star st items s).run ht).1.links⟩
  rcases claimRule_lockStep st items s with h | ⟨h, h'⟩
  · exact .inl h
  · exact .inr (.inr (.inl ⟨h, h', .inr ⟨items, rfl⟩⟩))

theorem attachRule_ok (st : Station) (w : Byte) : RuleOk (.attach w) (attachRule st w) := by
  refine ruleOk_of_same (fun s => ?_) (attachRule_star st w)
  have hmove : (s.moveStation st w).2.lot.state = s.lot.state := by
    unfold State.moveStation; split <;> rfl
  unfold attachRule
  split
  · rfl
  · split <;> rfl
  · rfl
  · rfl
  all_goals
    split
    · rfl
    · exact hmove

theorem detachRule_ok (st : Station) : RuleOk .detach (detachRule st) := by
  refine ruleOk_of_same (fun s => ?_) (detachRule_star st)
  unfold detachRule
  split
  · rfl
  · split <;> rfl

theorem lotOpenRule_ok (b : OpenBody) : RuleOk (.lotOpen b) (lotOpenRule b) := by
  intro s _
  refine ⟨?_, (lotOpenRule_star b s).links⟩
  unfold LotStep lotOpenRule
  split
  · exact .inl rfl
  case isFalse hidle =>
    split
    · exact .inl rfl
    · exact .inr (.inl ⟨not_not.mp hidle, rfl, b, rfl⟩)

theorem lotAmendRule_ok (b : AmendBody) : RuleOk (.lotAmend b) (lotAmendRule b) := by
  refine ruleOk_of_same (fun s => ?_) (lotAmendRule_star b)
  unfold lotAmendRule
  split
  · rfl
  · split <;> rfl

theorem lotLockRule_ok : RuleOk .lotLock lotLockRule := by
  intro s _
  refine ⟨?_, (lotLockRule_star s).links⟩
  unfold LotStep lotLockRule
  split
  · exact .inl rfl
  case isFalse hopened => exact .inr (.inr (.inl ⟨not_not.mp hopened, rfl, .inl rfl⟩))

theorem loadRecord_lot (batch : Half) (s : State) (p : Nat × KeyRecord) :
    (loadRecord batch s p).lot = s.lot := rfl

theorem loadKeys_lot (s : State) (batch : Half) (records : List KeyRecord) :
    (s.loadKeys batch records).lot = s.lot := by
  have hfold (ps : List (Nat × KeyRecord)) (u : State) :
      (ps.foldl (loadRecord batch) u).lot = u.lot := by
    induction ps generalizing u with
    | nil => rfl
    | cons p ps ih => exact (ih _).trans (loadRecord_lot batch u p)
  exact hfold _ s

theorem keyLoadRule_ok (batch : Half) (records : List KeyRecord) :
    RuleOk (.keyLoad batch records) (keyLoadRule batch records) := by
  refine ruleOk_of_same (fun s => ?_) (keyLoadRule_star batch records)
  unfold keyLoadRule
  split
  · rfl
  · exact congrArg LotControl.state (loadKeys_lot s batch records)

theorem journalTakeRule_ok (n : Half) : RuleOk (.journalTake n) (journalTakeRule n) := by
  refine ruleOk_of_same (fun s => ?_) (journalTakeRule_star n)
  unfold journalTakeRule
  split
  · rfl
  · split
    · rfl
    · simp

theorem journalReadRule_ok (n : Byte) : RuleOk (.journalRead n) (journalReadRule n) := by
  refine ruleOk_of_same (fun s => ?_) (journalReadRule_star n)
  unfold journalReadRule
  split <;> rfl

theorem resumeRule_ok (c : Byte) : RuleOk (.resume c) (resumeRule c) := by
  refine ruleOk_of_same (fun s => ?_) (resumeRule_star c)
  unfold resumeRule
  split
  · rfl
  · split <;> rfl

theorem purgeWaferRule_ok (w : Byte) : RuleOk (.purgeWafer w) (purgeWaferRule w) := by
  intro s hg
  have ht : s.taking := gate_taking hg (by simp) (by simp) (by simp) (by simp)
  refine ⟨.inl ?_, (purgeWaferRule_star ht).links⟩
  unfold purgeWaferRule
  split
  · rfl
  · split
    · rfl
    · split <;> rfl

theorem quarantineRule_ok (low high : Half) :
    RuleOk (.quarantine low high) (quarantineRule low high) := by
  intro s hg
  have ht : s.taking := gate_taking hg (by simp) (by simp) (by simp) (by simp)
  refine ⟨.inl ?_, (quarantineRule_star ht).links⟩
  unfold quarantineRule
  split
  · rfl
  · split
    · rfl
    · split <;> rfl

theorem auditStartRule_ok : RuleOk .auditStart auditStartRule := by
  refine ruleOk_of_same (fun s => ?_) auditStartRule_star
  unfold auditStartRule
  split <;> rfl

theorem auditStopRule_ok : RuleOk .auditStop auditStopRule := by
  refine ruleOk_of_same (fun s => ?_) auditStopRule_star
  unfold auditStopRule
  dsimp only
  split <;> rfl

theorem lotCloseRule_ok : RuleOk .lotClose lotCloseRule := by
  intro s hg
  have ht : s.taking := gate_taking hg (by simp) (by simp) (by simp) (by simp)
  refine ⟨?_, (lotCloseRule_star ht).links⟩
  unfold LotStep lotCloseRule
  split
  · exact .inr (.inr (.inr ⟨ht, rfl, rfl, rfl⟩))
  · exact .inl rfl

/-- Each request command is a request of its link, by a rule that keeps R1's table, and belongs on that
link (R164 check 5). -/
theorem exec_request {i : Instr} {l : Link} {r : Request} (hi : i.request = some (l, r)) :
    permitted l r = true ∧ ∃ act, (∀ s, exec i s = .next (s.request l r act)) ∧ RuleOk r act := by
  cases i <;> simp only [Instr.request, Option.some.injEq, Prod.mk.injEq, reduceCtorEq] at hi <;>
    obtain ⟨rfl, rfl⟩ := hi
  case attach => exact ⟨rfl, _, fun _ => rfl, attachRule_ok _ _⟩
  case detach => exact ⟨rfl, _, fun _ => rfl, detachRule_ok _⟩
  case claim => exact ⟨rfl, _, fun _ => rfl, claimRule_ok _ _⟩
  case burnBegin => exact ⟨rfl, _, fun _ => rfl, ruleOk_of_star (burnBeginRule_star _ _)⟩
  case burnResult => exact ⟨rfl, _, fun _ => rfl, ruleOk_of_star (burnResultRule_star _ _)⟩
  case release => exact ⟨rfl, _, fun _ => rfl, ruleOk_of_star (releaseRule_star _ _)⟩
  case abandon => exact ⟨rfl, _, fun _ => rfl, ruleOk_of_star (abandonRule_star _ _)⟩
  case stationReset => exact ⟨rfl, _, fun _ => rfl, ruleOk_of_star (stationResetRule_star _)⟩
  case stationStatus => exact ⟨rfl, _, fun _ => rfl, ruleOk_of_star fun _ => .refl⟩
  case lotOpen => exact ⟨rfl, _, fun _ => rfl, lotOpenRule_ok _⟩
  case lotAmend => exact ⟨rfl, _, fun _ => rfl, lotAmendRule_ok _⟩
  case lotLock => exact ⟨rfl, _, fun _ => rfl, lotLockRule_ok⟩
  case keyLoad => exact ⟨rfl, _, fun _ => rfl, keyLoadRule_ok _ _⟩
  case quarantine => exact ⟨rfl, _, fun _ => rfl, quarantineRule_ok _ _⟩
  case purgeWafer => exact ⟨rfl, _, fun _ => rfl, purgeWaferRule_ok _⟩
  case auditStart => exact ⟨rfl, _, fun _ => rfl, auditStartRule_ok⟩
  case auditStop => exact ⟨rfl, _, fun _ => rfl, auditStopRule_ok⟩
  case journalRead => exact ⟨rfl, _, fun _ => rfl, journalReadRule_ok _⟩
  case journalTake => exact ⟨rfl, _, fun _ => rfl, journalTakeRule_ok _⟩
  case lotStatus => exact ⟨rfl, _, fun _ => rfl, ruleOk_of_star fun _ => .refl⟩
  case resume => exact ⟨rfl, _, fun _ => rfl, resumeRule_ok _⟩
  case lotClose => exact ⟨rfl, _, fun _ => rfl, lotCloseRule_ok⟩

/-! ## Link events, expiries and grants -/

theorem linkReply_lot (s : State) (l : Link) (k : Byte) (c : Code) :
    (s.linkReply l k c).lot = s.lot := by
  unfold State.linkReply; split <;> rfl

theorem submit_lot (s : State) (l : Link) (r : Request) : (s.submit l r).lot = s.lot := by
  unfold State.submit
  split
  · exact linkReply_lot ..
  · split
    · exact linkReply_lot ..
    · rfl

theorem makeRoom_lot (s : State) (l : Link) : (s.makeRoom l).lot = s.lot := by
  obtain ⟨q, d, h, -⟩ := makeRoom_cases s l
  rw [h]; rfl

theorem sent_lot (s : State) (l : Link) : (s.sent l).lot = s.lot := by
  unfold State.sent
  split
  · rfl
  · dsimp only; split <;> rfl

theorem frameArrived_lot (s : State) (l : Link) (bytes : List Byte) (bad : Bool) :
    (s.frameArrived l bytes bad).lot = s.lot := by
  unfold State.frameArrived
  dsimp only
  split
  · exact linkReply_lot ..
  · split
    · exact linkReply_lot ..
    · split
      · exact linkReply_lot ..
      · split
        · exact linkReply_lot ..
        · split
          · rfl
          · exact linkReply_lot ..

theorem rxByte_lot (s : State) (l : Link) (bad : Bool) (b : Byte) : (s.rxByte l bad b).lot = s.lot := by
  unfold State.rxByte
  split
  · rfl
  · rfl
  · dsimp only
    split
    · exact linkReply_lot ..
    · split
      · exact frameArrived_lot ..
      · rfl

theorem rxBytes_lot (s : State) (l : Link) (bytes : List Byte) : (s.rxBytes l bytes).lot = s.lot := by
  unfold State.rxBytes
  induction bytes generalizing s with
  | nil => rfl
  | cons b bs ih => exact (ih _).trans (rxByte_lot s l false b)

theorem gap_lot (s : State) (l : Link) : (s.gap l).lot = s.lot := by
  unfold State.gap
  split
  · rfl
  · rfl
  · exact linkReply_lot ..

theorem placeReply_lot (l : Link) (k : Byte) (out : Option ReplyBody × State) :
    (placeReply l k out).lot = out.2.lot := by
  unfold placeReply; split <;> rfl

/-- A grant changes the lot state as the request's rule does (R167). -/
theorem grant_lotState {l : Link} {r : Request} {act : State → Option ReplyBody × State}
    (hact : RuleOk r act) (s : State) :
    (s.grant l r act).lot.state = s.lot.state
      ∨ ∃ u, u.lot.state = s.lot.state ∧ LotStep r u (act u)
        ∧ (s.grant l r act).lot.state = (act u).2.lot.state := by
  unfold State.grant
  rw [(endWork_star _).lotState, placeReply_lot]
  unfold State.decideRequest
  split
  · exact .inl rfl
  case h_2 hgate => exact .inr ⟨s.taken l, rfl, (hact _ hgate).1, rfl⟩

/-- A request command, once the due expiries are taken, grants its request or leaves it waiting. -/
theorem request_cases (s : State) (l : Link) (r : Request)
    (act : State → Option ReplyBody × State) :
    ∃ v u, EStar s v ∧ (u = v ∨ u = v.submit l r)
      ∧ (s.request l r act = u
        ∨ ((u.link l).request = some r ∧ s.request l r act = (u.makeRoom l).grant l r act)) := by
  have hstar := settleExpiries_star s
  unfold State.request
  dsimp only
  generalize s.settleExpiries = v at hstar
  refine ⟨v, if (v.link l).request = some r then v else v.submit l r, hstar, ?_, ?_⟩
  · split
    · exact .inl rfl
    · exact .inr rfl
  · generalize (if (v.link l).request = some r then v else v.submit l r) = u
    split
    case isTrue h => exact .inr ⟨h.1, rfl⟩
    case isFalse => exact .inl rfl

/-- A request command changes the lot state as its rule does (R167). -/
theorem request_lotState {l : Link} {r : Request} {act : State → Option ReplyBody × State}
    (hact : RuleOk r act) (s : State) :
    (s.request l r act).lot.state = s.lot.state
      ∨ ∃ u, u.lot.state = s.lot.state ∧ LotStep r u (act u)
        ∧ (s.request l r act).lot.state = (act u).2.lot.state := by
  obtain ⟨v, u, hv, hu, hreq⟩ := request_cases s l r act
  have hstate : u.lot.state = s.lot.state := by
    rcases hu with hu | hu
    · rw [hu, hv.lotState]
    · rw [hu, submit_lot, hv.lotState]
  rcases hreq with h | ⟨-, h⟩ <;> rw [h]
  · exact .inl hstate
  · have hg := grant_lotState (l := l) hact (u.makeRoom l)
    rwa [makeRoom_lot, hstate] at hg

/-! ## Sweep steps -/

theorem stepBucket_lot {act : SweepAction} (ha : ActionOk act) (lv : SweepLevel) (s : State) :
    (stepBucket lv act s).lot = s.lot := by
  have h := (visitBucket_ok ha lv s).1
  unfold stepBucket
  split
  case h_1 hv => rw [hv] at h; exact (by simp : _ = _).trans h.aside.lot
  case h_2 hv => rw [hv] at h; exact (by simp : _ = _).trans h.aside.lot
  case h_3 hv => rw [hv] at h; exact (by simp : _ = _).trans h.aside.lot

theorem endPurge_lotState (s : State) : s.endPurge.lot.state = s.lot.state := rfl

theorem purgeStep_lotState (s : State) : (purgeStep s).lot.state = s.lot.state := by
  have h := congrArg LotControl.state (stepBucket_lot
    (purgeAction_ok (BitVec.ofNat 8 (s.sweeps.purge.param.getD 0)) s.sweeps.purge.cursor) .purge s)
  unfold purgeStep
  dsimp only
  split
  · rw [endPurge_lotState]; exact h
  · exact h

theorem quarantineStep_lotState (s : State) : (quarantineStep s).lot.state = s.lot.state := by
  have h := congrArg LotControl.state (stepBucket_lot
    (quarantineAction_ok (s.sweeps.quarantine.param.getD 0)) .quarantine s)
  unfold quarantineStep
  dsimp only
  split
  · simpa using h
  · exact h

theorem auditTableStep_lotState (s : State) : (auditTableStep s).lot.state = s.lot.state := by
  have h := congrArg LotControl.state (stepBucket_lot auditAction_ok .audit s)
  unfold auditTableStep
  dsimp only
  split
  · simpa using h
  · exact h

theorem auditPoolStep_lotState (s : State) : (auditPoolStep s).lot.state = s.lot.state := by
  have h : EStar s ((List.range' (32 * s.sweeps.audit.cursor) 32).foldl auditSlot s) :=
    foldl_star auditSlot_star _ s
  unfold auditPoolStep
  dsimp only
  generalize (List.range' (32 * s.sweeps.audit.cursor) 32).foldl auditSlot s = u at h
  split
  · simpa using h.lotState
  · simpa using h.lotState

theorem closeScrubStep_lotState {s : State} (hc : s.lot.state = .closing) :
    (closeScrubStep s).lot.state = s.lot.state ∨ (closeScrubStep s).lot.state = .idle := by
  have h := (scrubGroup_star s.sweeps.scrubCursor hc).2
  unfold closeScrubStep
  dsimp only
  generalize s.scrubGroup s.sweeps.scrubCursor = u at h
  split
  · exact .inr rfl
  · exact .inl (congrArg LotControl.state h)

/-- A sweep step command, once the due expiries are taken, runs the step where it is offered (R129). -/
theorem sweepStep_cases (s : State) (k : SweepStep) (act : State → State) :
    ∃ u, EStar s u ∧ (s.sweepStep k act = u
      ∨ (u.offer = some k ∧ s.sweepStep k act = (act u.swept).endWork)) := by
  have hstar := settleExpiries_star s
  unfold State.sweepStep
  dsimp only
  generalize s.settleExpiries = u at hstar
  refine ⟨u, hstar, ?_⟩
  split
  case isTrue h => exact .inr ⟨h.1, rfl⟩
  case isFalse => exact .inl rfl

/-- A sweep step changes the lot state as its step does, where the step is offered. -/
theorem sweepStep_lotState {k : SweepStep} {act : State → State} (s : State) :
    (s.sweepStep k act).lot.state = s.lot.state
      ∨ ∃ u, u.lot.state = s.lot.state ∧ u.offer = some k
        ∧ (s.sweepStep k act).lot.state = (act u).lot.state := by
  obtain ⟨u, hstar, h | ⟨ho, h⟩⟩ := sweepStep_cases s k act
  · exact .inl (by rw [h, hstar.lotState])
  · exact .inr ⟨u.swept, hstar.lotState, ho, by rw [h, (endWork_star _).lotState]⟩

theorem sweepStep_same {k : SweepStep} {act : State → State}
    (hact : ∀ s, (act s).lot.state = s.lot.state) (s : State) :
    (s.sweepStep k act).lot.state = s.lot.state := by
  rcases sweepStep_lotState (k := k) (act := act) s with h | ⟨u, hu, -, h⟩
  · exact h
  · rw [h, hact, hu]

/-! ## Every command -/

theorem next_inj {s t : State}
    (h : (Host.Outcome.next s : Host.Outcome State Fault Refusal) = Host.Outcome.next t) : s = t :=
  Host.Outcome.next.inj h

theorem execLeaseExpiry_star {st : Station} {site : Site} {s t : State}
    (h : execLeaseExpiry st site s = .next t) : EStar s t := by
  unfold execLeaseExpiry at h
  split at h
  · rw [← next_inj h]
    exact (expiryFold_star _ _).trans (expire_star _ st site)
  · rw [← next_inj h]

theorem execLeaseTimerTick_star {d : Option Nat} {s t : State}
    (h : execLeaseTimerTick d s = .next t) : EStar s t := by
  unfold execLeaseTimerTick at h
  split at h
  · rw [← next_inj h]
    exact (settleExpiries_star s).tail (EMove.tick _)
  · rw [← next_inj h]
    exact (EMove.deferred s _).star

/-- Settles O54: a request by its rule's line of R1's table, the other commands one by one. -/
theorem lotStateTransitions : Obligations.LotStateTransitions := by
  unfold Obligations.LotStateTransitions
  intro s t i h hclear
  cases hr : i.request with
  | some p =>
    obtain ⟨l, r⟩ := p
    obtain ⟨-, act, hexec, hact⟩ := exec_request hr
    rw [← next_inj ((hexec s).symm.trans h)]
    rcases request_lotState hact s with h | ⟨u, hu, hstep, h⟩
    · exact .inl h
    · unfold LotStep State.taking at hstep
      rw [hu] at hstep
      rw [h]
      rcases hstep with h | ⟨h1, h2, b, rfl⟩ | ⟨h1, h2, h3⟩ | ⟨h1, h2, rfl, -⟩
      · exact .inl h
      · refine .inr (.inr (.inr (.inl ⟨h1, h2, b, ?_⟩)))
        cases i <;> simp_all [Instr.request]
      · refine .inr (.inr (.inr (.inr (.inl ⟨h1, h2, ?_⟩))))
        rcases h3 with rfl | ⟨items, rfl⟩ <;> cases i <;> simp_all [Instr.request]
      · refine .inr (.inr (.inr (.inr (.inr (.inl ⟨h1, h2, ?_⟩)))))
        cases i <;> simp_all [Instr.request]
  | none =>
    cases i <;> simp only [Instr.request, reduceCtorEq] at hr
    case deviceReset => cases h; exact .inr (.inl ⟨rfl, rfl⟩)
    case storeClearComplete =>
      change execStoreClearComplete s = _ at h
      unfold execStoreClearComplete at h
      split at h <;> cases h
      case isTrue hc => exact .inr (.inr (.inl ⟨hclear hc, rfl, rfl⟩))
      case isFalse => exact .inl rfl
    case frameArrival => rw [← next_inj h]; exact .inl (by rw [rxBytes_lot])
    case idleGap => rw [← next_inj h]; exact .inl (by rw [gap_lot])
    case lengthTooGreat => rw [← next_inj h]; exact .inl (by rw [rxBytes_lot])
    case purgeStep => rw [← next_inj h]; exact .inl (sweepStep_same purgeStep_lotState s)
    case quarantineStep => rw [← next_inj h]; exact .inl (sweepStep_same quarantineStep_lotState s)
    case auditTableStep => rw [← next_inj h]; exact .inl (sweepStep_same auditTableStep_lotState s)
    case auditPoolStep => rw [← next_inj h]; exact .inl (sweepStep_same auditPoolStep_lotState s)
    case closeScrubStep =>
      rw [← next_inj h]
      rcases sweepStep_lotState (k := .scrub) (act := closeScrubStep) s with h | ⟨u, hu, ho, h⟩
      · exact .inl h
      · have hc : u.lot.state = .closing := by
          rcases offer_cases ho with h | h | h | h <;> simp_all
        rcases closeScrubStep_lotState hc with h' | h'
        · exact .inl (by rw [h, h', hu])
        · exact .inr (.inr (.inr (.inr (.inr (.inr ⟨hu ▸ hc, h.trans h', rfl⟩)))))
    case leaseTimerTick => exact .inl (execLeaseTimerTick_star h).lotState
    case leaseExpiry => exact .inl (execLeaseExpiry_star h).lotState
    case replyFrameSent => rw [← next_inj h]; exact .inl (by rw [sent_lot])
    case frameStart => rw [← next_inj h]; exact .inl (by rw [rxByte_lot])
    case byteFramingError => rw [← next_inj h]; exact .inl (by rw [rxByte_lot])

end Sys2Proof.Machine

/-! PROOF. The laws of the fault record (R159), of the Link Units (R164 to R166), of the level-2 wait
(R137) and of the wafer table (R11, R134). -/

namespace Sys2Proof.Machine

open Relation

/-! ## The fault record -/

theorem faultsOk_of_same {s t : State} (hs : s.FaultsOk) (h : t.check.faults = s.check.faults)
    (hf : t.check.first = s.check.first) (hl : t.check.storeFault = s.check.storeFault) :
    t.FaultsOk := by
  unfold State.FaultsOk at *
  rw [h, hf, hl]
  exact hs

theorem recordFault_faultsOk {s : State} (p : FaultPlace) (g : FaultGroup) (o : FaultOrigin)
    (hs : s.FaultsOk) : (s.recordFault p g o).FaultsOk := by
  obtain ⟨hmax, hfirst, -⟩ := hs
  refine ⟨Nat.min_le_left _ _, ⟨fun _ => ?_, fun _ => ?_⟩, fun _ => rfl⟩
  · show 0 < min 255 (s.check.faults + 1)
    omega
  · show (if s.check.faults = 0 then some _ else s.check.first).isSome = true
    split
    · rfl
    case isFalse h => exact hfirst.mpr (Nat.pos_of_ne_zero h)

theorem tableFault_check (s : State) (p : FaultPlace) (g : FaultGroup) (o : FaultOrigin) :
    (s.tableFault p g o).check = { (s.recordFault p g o).check with halt := true } := by
  unfold State.tableFault
  dsimp only
  split <;> rfl

theorem keyFault_check (s : State) (n : Nat) (g : FaultGroup) (o : FaultOrigin) :
    (s.keyFault n g o).check = { (s.recordFault (.cell n) g o).check with
      halt := s.check.halt || s.limits.strict } := by
  unfold State.keyFault
  dsimp only
  split
  case isTrue h => simp [State.setHalt, h]
  case isFalse h => simp [h, State.recordFault]

theorem EMove.keeps_faultsOk {s t : State} (h : EMove s t) (hs : s.FaultsOk) : t.FaultsOk := by
  cases h with
  | tableFault p g o =>
    have hc := tableFault_check s p g o
    exact faultsOk_of_same (recordFault_faultsOk p g o hs) (by rw [hc]) (by rw [hc]) (by rw [hc])
  | keyFault n g o =>
    have hc := keyFault_check s n g o
    exact faultsOk_of_same (recordFault_faultsOk (.cell n) g o hs) (by rw [hc]) (by rw [hc])
      (by rw [hc])
  | draw n t hd =>
    obtain ⟨_, _, rfl⟩ := drawKey_frame hd
    exact hs
  | cell | retire | slot | close | withdraw | giveBack | remove | hit | count | tick | deferred =>
    exact faultsOk_of_same hs (by simp) (by simp) (by simp)

theorem AMove.keeps_faultsOk {s t : State} (h : AMove s t) (hs : s.FaultsOk) : t.FaultsOk := by
  cases h with
  | entry t he => exact he.keeps_faultsOk hs
  | commit st site b wafer x y cls h len last n k =>
    have hc := commitClaim_check st site b wafer x y cls h len last n k s
    exact faultsOk_of_same hs (by rw [hc]) (by rw [hc]) (by rw [hc])
  | forget => exact ⟨Nat.zero_le _, by simp, by simp⟩
  | scrubCell c _ =>
    have hc : (Machine.scrubCell s c).check = s.check := by
      unfold Machine.scrubCell; split <;> simp
    exact faultsOk_of_same hs (by rw [hc]) (by rw [hc]) (by rw [hc])
  | openLot | amend | unhalt | record | scrubHead | discard => exact faultsOk_of_same hs rfl rfl rfl
  | _ => exact faultsOk_of_same hs (by simp) (by simp) (by simp)

theorem Move.keeps_faultsOk {s t : State} (h : Move s t) (hs : s.FaultsOk) : t.FaultsOk := by
  cases h with
  | act t ha => exact ha.keeps_faultsOk hs
  | links ls a => exact hs
  | reset => exact ⟨Nat.zero_le _, iff_of_false (Bool.false_ne_true) (Nat.lt_irrefl 0),
      fun h0 => absurd h0 (Nat.lt_irrefl 0)⟩
  | clear _ => exact faultsOk_of_same hs rfl rfl rfl

/-! ## One Link Unit -/

/-- The law of one Link Unit, in a lot state (R164 to R166, log 14). -/
structure UnitOk (st : LotState) (l : Link) (u : LinkUnit) : Prop where
  linkReplies : (u.replies.filter (·.linkLevel)).length ≤ 3
  requestReplies : (u.replies.filter (!·.linkLevel)).length ≤ 1
  held : ∀ r, u.request = some r → u.outstanding = true ∧ permitted l r = true
  closing : l = .lot → st = .closing → u.outstanding = true ∧ u.request = none
    ∧ ∀ r ∈ u.replies, r.linkLevel = true

theorem linksOk_iff (s : State) : s.LinksOk ↔ ∀ l, UnitOk s.lot.state l (s.link l) := by
  constructor
  · rintro ⟨hcount, hheld, hclosing⟩ l
    exact ⟨(hcount l).1, (hcount l).2, hheld l, fun hl hst => by subst hl; exact hclosing hst⟩
  · intro h
    exact ⟨fun l => ⟨(h l).linkReplies, (h l).requestReplies⟩, fun l => (h l).held,
      (h .lot).closing rfl⟩

theorem link_congr {s t : State} (h : t.links = s.links) (l : Link) : t.link l = s.link l := by
  unfold State.link; rw [h]

/-- The law is kept where the links stand, unless the lot begins to close. -/
theorem linksOk_of_same {s t : State} (hs : s.LinksOk) (hlinks : t.links = s.links)
    (hlot : t.lot.state = .closing → s.lot.state = .closing) : t.LinksOk := by
  rw [linksOk_iff] at *
  intro l
  rw [link_congr hlinks]
  obtain ⟨h1, h2, h3, h4⟩ := hs l
  exact ⟨h1, h2, h3, fun hl hst => h4 hl (hlot hst)⟩

/-- One Link Unit is replaced by one that meets the law. -/
theorem linksOk_setLink {s t : State} {l : Link} {u : LinkUnit} (hs : s.LinksOk)
    (hlinks : t.links = (s.setLink l u).links) (hlot : t.lot.state = s.lot.state)
    (hu : UnitOk s.lot.state l u) : t.LinksOk := by
  rw [linksOk_iff] at *
  intro l'
  rw [link_congr hlinks, link_setLink, hlot]
  split
  case isTrue h => subst h; exact hu
  case isFalse => exact hs l'

theorem UnitOk.rx {st : LotState} {l : Link} {u : LinkUnit} (h : UnitOk st l u) (rx : RxState) :
    UnitOk st l { u with rx := rx } :=
  ⟨h.linkReplies, h.requestReplies, h.held, h.closing⟩

/-- A link-level reply joins a queue in which fewer than three wait. -/
theorem UnitOk.linkReply {st : LotState} {l : Link} {u : LinkUnit} (h : UnitOk st l u) (k : Byte)
    (c : Code) (hroom : (u.replies.filter (·.linkLevel)).length < 3) :
    UnitOk st l { u with replies := u.replies ++ [⟨k, .code c, true, false⟩] } := by
  refine ⟨by simpa using hroom, by simpa using h.requestReplies, h.held, fun hl hst => ?_⟩
  obtain ⟨hout, hreq, hlevel⟩ := h.closing hl hst
  refine ⟨hout, hreq, fun r hr => ?_⟩
  rcases List.mem_append.mp hr with hr | hr
  · exact hlevel r hr
  · rw [List.mem_singleton.mp hr]

/-- Replies leave the front of a queue. -/
theorem UnitOk.suffix {st : LotState} {l : Link} {u : LinkUnit} (h : UnitOk st l u)
    {q : List Reply} (hq : q <:+ u.replies) : UnitOk st l { u with replies := q } := by
  refine ⟨((hq.sublist.filter _).length_le).trans h.linkReplies,
    ((hq.sublist.filter _).length_le).trans h.requestReplies, h.held, fun hl hst => ?_⟩
  obtain ⟨hout, hreq, hlevel⟩ := h.closing hl hst
  exact ⟨hout, hreq, fun r hr => hlevel r (hq.subset hr)⟩

/-- The reply to a request joins a queue that has room for it, and the outstanding flag is cleared. -/
theorem UnitOk.reply {st : LotState} {l : Link} {u : LinkUnit} (h : UnitOk st l u) (p : Reply)
    (hp : p.linkLevel = false) (hroom : ∀ r ∈ u.replies, r.linkLevel = true)
    (hnone : u.request = none) (hst : l = .lot → st ≠ .closing) :
    UnitOk st l { u with replies := u.replies ++ [p], outstanding := false } := by
  have hempty : u.replies.filter (!·.linkLevel) = [] :=
    List.filter_eq_nil_iff.mpr fun r hr => by simp [hroom r hr]
  exact ⟨by simpa [hp] using h.linkReplies, by simp [hp, hempty],
    fun r hr => absurd (hnone.symm.trans hr) (by simp), fun hl hc => absurd hc (hst hl)⟩

/-! ## Events on the links -/

theorem linkReply_linksOk {s : State} (l : Link) (k : Byte) (c : Code) (hs : s.LinksOk) :
    (s.linkReply l k c).LinksOk := by
  unfold State.linkReply
  split
  · exact hs
  case isFalse h =>
    exact linksOk_setLink hs rfl rfl (((linksOk_iff s).mp hs l).linkReply k c (Nat.lt_of_not_le h))

theorem setRx_linksOk {s : State} (l : Link) (rx : RxState) (hs : s.LinksOk) :
    (s.setRx l rx).LinksOk :=
  linksOk_setLink hs rfl rfl (((linksOk_iff s).mp hs l).rx rx)

/-- A request is placed only where none is outstanding, so never on the lot link of a closing lot. -/
theorem place_linksOk {s : State} {l : Link} {r : Request} (hs : s.LinksOk)
    (hout : (s.link l).outstanding = false) (hp : permitted l r = true) : (s.place l r).LinksOk := by
  obtain ⟨h1, h2, -, h4⟩ := (linksOk_iff s).mp hs l
  refine linksOk_setLink hs rfl rfl ⟨h1, h2, fun r' hr => ⟨rfl, ?_⟩, fun hl hst => ?_⟩
  · obtain rfl : r = r' := Option.some.inj hr
    exact hp
  · rw [(h4 hl hst).1] at hout
    cases hout

theorem frameArrived_linksOk {s : State} (l : Link) (bytes : List Byte) (bad : Bool)
    (hs : s.LinksOk) : (s.frameArrived l bytes bad).LinksOk := by
  unfold State.frameArrived
  dsimp only
  split
  · exact linkReply_linksOk _ _ _ hs
  · split
    · exact linkReply_linksOk _ _ _ hs
    · split
      · exact linkReply_linksOk _ _ _ hs
      case isFalse hout =>
        split
        · exact linkReply_linksOk _ _ _ hs
        · split
          case isTrue hp => exact place_linksOk hs (Bool.not_eq_true _ ▸ hout) hp
          case isFalse => exact linkReply_linksOk _ _ _ hs

theorem rxByte_linksOk {s : State} (l : Link) (bad : Bool) (b : Byte) (hs : s.LinksOk) :
    (s.rxByte l bad b).LinksOk := by
  unfold State.rxByte
  split
  · exact hs
  · exact setRx_linksOk _ _ hs
  · dsimp only
    split
    · exact linkReply_linksOk _ _ _ (setRx_linksOk _ _ hs)
    · split
      · exact frameArrived_linksOk _ _ _ (setRx_linksOk _ _ hs)
      · exact setRx_linksOk _ _ hs

theorem rxBytes_linksOk (l : Link) (bytes : List Byte) {s : State} (hs : s.LinksOk) :
    (s.rxBytes l bytes).LinksOk := by
  unfold State.rxBytes
  induction bytes generalizing s with
  | nil => exact hs
  | cons b bs ih => exact ih (rxByte_linksOk l false b hs)

theorem gap_linksOk {s : State} (l : Link) (hs : s.LinksOk) : (s.gap l).LinksOk := by
  unfold State.gap
  split
  · exact setRx_linksOk _ _ hs
  · exact hs
  · exact linkReply_linksOk _ _ _ (setRx_linksOk _ _ hs)

theorem sent_linksOk {s : State} (l : Link) (hs : s.LinksOk) : (s.sent l).LinksOk := by
  unfold State.sent
  split
  · exact hs
  case h_2 r rest hq =>
    have hu := ((linksOk_iff s).mp hs l).suffix (q := rest) (hq ▸ List.suffix_cons r rest)
    dsimp only
    split
    · exact linksOk_setLink hs rfl rfl hu
    · exact linksOk_setLink hs rfl rfl hu

/-! ## Requests -/

theorem EStar.keeps_linksOk {s t : State} (h : EStar s t) (hs : s.LinksOk) : t.LinksOk :=
  linksOk_of_same hs h.aside.links (by rw [h.lotState]; exact id)

theorem submit_linksOk {s : State} {l : Link} {r : Request} (hp : permitted l r = true)
    (hs : s.LinksOk) : (s.submit l r).LinksOk := by
  unfold State.submit
  split
  · exact linkReply_linksOk _ _ _ hs
  case isFalse hout =>
    split
    · exact linkReply_linksOk _ _ _ hs
    · exact place_linksOk hs (Bool.not_eq_true _ ▸ hout) hp

/-- Room is made without touching a unit's flags, its request or the lot. -/
theorem makeRoom_unit (s : State) (l : Link) :
    ∃ q, q <:+ (s.link l).replies ∧ (∀ r ∈ q, r.linkLevel = true)
      ∧ (s.makeRoom l).links = (s.setLink l { s.link l with replies := q }).links
      ∧ (s.makeRoom l).link l = { s.link l with replies := q } := by
  obtain ⟨q, d, h, hq, -, hr⟩ := makeRoom_cases s l
  have hlinks : (s.makeRoom l).links = (s.setLink l { s.link l with replies := q }).links := by
    rw [h]
  exact ⟨q, hq, hr, hlinks, by rw [link_congr hlinks, link_setLink, if_pos rfl]⟩

theorem makeRoom_linksOk {s : State} (l : Link) (hs : s.LinksOk) : (s.makeRoom l).LinksOk := by
  obtain ⟨q, hq, -, hlinks, -⟩ := makeRoom_unit s l
  exact linksOk_setLink hs hlinks (by rw [makeRoom_lot]) (((linksOk_iff s).mp hs l).suffix hq)

theorem link_taken (s : State) (l : Link) :
    (s.taken l).link l = { s.link l with request := none } := by
  have h := link_setLink s l l { s.link l with request := none }
  rw [if_pos rfl] at h
  exact h

theorem taken_linksOk {s : State} (l : Link) (hs : s.LinksOk) : (s.taken l).LinksOk := by
  obtain ⟨h1, h2, -, h4⟩ := (linksOk_iff s).mp hs l
  refine linksOk_setLink (l := l) hs rfl rfl
    ⟨h1, h2, fun r hr => (by cases hr), fun hl hst => ?_⟩
  obtain ⟨hout, -, hlevel⟩ := h4 hl hst
  exact ⟨hout, rfl, hlevel⟩

/-- The end of a grant keeps the law: a reply has room, and the accepted LOT CLOSE, which gives none,
leaves the lot link outstanding, without a request and with room (R165, R166, log 14). -/
theorem placeReply_linksOk {u : State} {l : Link} {r : Request} {k : Byte}
    {out : Option ReplyBody × State} (hu : u.LinksOk) (hlinks : out.2.links = u.links)
    (hstep : LotStep r u out) (hrequest : (u.link l).request = none)
    (hroom : ∀ p ∈ (u.link l).replies, p.linkLevel = true)
    (hopen : l = .lot → u.lot.state ≠ .closing)
    (hclose : r = .lotClose → l = .lot ∧ (u.link .lot).outstanding = true) :
    (placeReply l k out).LinksOk := by
  have hclosing : out.2.lot.state = .closing → u.lot.state = .closing
      ∨ (r = .lotClose ∧ out.1 = none) := by
    intro h
    rcases hstep with h' | ⟨_, h', _⟩ | ⟨_, h', _⟩ | ⟨_, _, hr, hn⟩
    · exact .inl (h' ▸ h)
    · rw [h'] at h; cases h
    · rw [h'] at h; cases h
    · exact .inr ⟨hr, hn⟩
  unfold placeReply
  split
  case h_1 body hbody =>
    have hsame : out.2.lot.state = .closing → u.lot.state = .closing := fun h =>
      (hclosing h).resolve_right fun ⟨_, hn⟩ => by rw [hn] at hbody; cases hbody
    have hout := linksOk_of_same hu hlinks hsame
    refine linksOk_setLink hout rfl rfl ?_
    have hl := link_congr hlinks l
    exact ((linksOk_iff _).mp hout l).reply _ rfl (by rw [hl]; exact hroom) (by rw [hl]; exact hrequest)
      fun hlot hst => hopen hlot (hsame hst)
  case h_2 =>
    rw [linksOk_iff] at hu ⊢
    intro l'
    rw [link_congr hlinks]
    obtain ⟨h1, h2, h3, h4⟩ := hu l'
    refine ⟨h1, h2, h3, fun hl' hst => ?_⟩
    rcases hclosing hst with h | ⟨hr, -⟩
    · exact h4 hl' h
    · obtain ⟨hl, hout⟩ := hclose hr
      subst hl hl'
      exact ⟨hout, hrequest, hroom⟩

theorem grant_linksOk {s : State} {l : Link} {r : Request}
    {act : State → Option ReplyBody × State} (hact : RuleOk r act) (hs : s.LinksOk)
    (hheld : (s.link l).request = some r) : ((s.makeRoom l).grant l r act).LinksOk := by
  obtain ⟨q, -, hlevel, -, hlink⟩ := makeRoom_unit s l
  have hu := taken_linksOk l (makeRoom_linksOk l hs)
  obtain ⟨-, -, h3, h4⟩ := (linksOk_iff s).mp hs l
  have hunit := link_taken (s.makeRoom l) l
  rw [hlink] at hunit
  have hopen : l = .lot → ((s.makeRoom l).taken l).lot.state ≠ .closing := by
    intro hl hst
    have hst' : (s.makeRoom l).lot.state = .closing := hst
    rw [makeRoom_lot] at hst'
    have := (h4 hl hst').2.1
    rw [hheld] at this
    cases this
  have hclose : r = .lotClose → l = .lot ∧ (((s.makeRoom l).taken l).link .lot).outstanding = true := by
    rintro rfl
    obtain ⟨hout, hp⟩ := h3 _ hheld
    have hl : l = .lot := by simpa [permitted, isLotRequest, kindOf] using hp
    subst hl
    exact ⟨rfl, by rw [hunit]; exact hout⟩
  have hdecide : LotStep r ((s.makeRoom l).taken l) (((s.makeRoom l).taken l).decideRequest r act)
      ∧ (((s.makeRoom l).taken l).decideRequest r act).2.links = ((s.makeRoom l).taken l).links := by
    unfold State.decideRequest
    split
    · exact ⟨.inl rfl, rfl⟩
    case h_2 hgate => exact hact _ hgate
  have hplaced := placeReply_linksOk (k := kindOf r) hu hdecide.2 hdecide.1 (l := l) (by rw [hunit])
    (by rw [hunit]; exact hlevel) hopen hclose
  have hend := endWork_star (placeReply l (kindOf r) (((s.makeRoom l).taken l).decideRequest r act))
  exact hend.keeps_linksOk hplaced

theorem request_linksOk {s : State} {l : Link} {r : Request}
    {act : State → Option ReplyBody × State} (hp : permitted l r = true) (hact : RuleOk r act)
    (hs : s.LinksOk) : (s.request l r act).LinksOk := by
  obtain ⟨v, u, hv, hu, hreq⟩ := request_cases s l r act
  have huok : u.LinksOk := by
    rcases hu with hu | hu <;> rw [hu]
    · exact hv.keeps_linksOk hs
    · exact submit_linksOk hp (hv.keeps_linksOk hs)
  rcases hreq with h | ⟨hheld, h⟩ <;> rw [h]
  · exact huok
  · exact grant_linksOk hact huok hheld

/-! ## Sweep steps -/

/-- A latch set anew takes a mark off the replies that wait, and leaves each its level. -/
theorem latchDone_linksOk {s : State} (hs : s.LinksOk) : s.latchDone.LinksOk := by
  obtain ⟨h1, h2, h3, h4⟩ := (linksOk_iff s).mp hs .lot
  refine linksOk_setLink (l := .lot) hs rfl rfl ⟨?_, ?_, h3, fun hl hst => ?_⟩
  · simpa [State.link, List.filter_map, Function.comp_def] using h1
  · simpa [State.link, List.filter_map, Function.comp_def] using h2
  · obtain ⟨hout, hreq, hlevel⟩ := h4 hl hst
    refine ⟨hout, hreq, fun r hr => ?_⟩
    obtain ⟨p, hpm, rfl⟩ := List.mem_map.mp hr
    exact hlevel p hpm

theorem stepBucket_links {act : SweepAction} (ha : ActionOk act) (lv : SweepLevel) (s : State) :
    (stepBucket lv act s).links = s.links := by
  have h := (visitBucket_ok ha lv s).1
  unfold stepBucket
  split
  case h_1 hv => rw [hv] at h; exact (by simp : _ = _).trans h.aside.links
  case h_2 hv => rw [hv] at h; exact (by simp : _ = _).trans h.aside.links
  case h_3 hv => rw [hv] at h; exact (by simp : _ = _).trans h.aside.links

theorem stepBucket_linksOk {act : SweepAction} (ha : ActionOk act) (lv : SweepLevel) {s : State}
    (hs : s.LinksOk) : (stepBucket lv act s).LinksOk :=
  linksOk_of_same hs (stepBucket_links ha lv s) (by rw [stepBucket_lot ha]; exact id)

theorem purgeStep_linksOk {s : State} (hs : s.LinksOk) : (purgeStep s).LinksOk := by
  have h := stepBucket_linksOk (purgeAction_ok (BitVec.ofNat 8 (s.sweeps.purge.param.getD 0))
    s.sweeps.purge.cursor) .purge hs
  unfold purgeStep
  dsimp only
  split
  · rw [endPurge_eq]
    exact latchDone_linksOk (linksOk_of_same h (by simp) (by simp [State.setWafer]))
  · exact h

theorem quarantineStep_linksOk {s : State} (hs : s.LinksOk) : (quarantineStep s).LinksOk := by
  have h := stepBucket_linksOk (quarantineAction_ok (s.sweeps.quarantine.param.getD 0)) .quarantine hs
  unfold quarantineStep
  dsimp only
  split
  · exact latchDone_linksOk (linksOk_of_same h (by simp) (by simp))
  · exact h

theorem auditTableStep_linksOk {s : State} (hs : s.LinksOk) : (auditTableStep s).LinksOk := by
  have h := stepBucket_linksOk auditAction_ok .audit hs
  unfold auditTableStep
  dsimp only
  split
  · exact linksOk_of_same h (by simp) (by simp)
  · exact h

theorem auditPoolStep_linksOk {s : State} (hs : s.LinksOk) : (auditPoolStep s).LinksOk := by
  have hfold : EStar s ((List.range' (32 * s.sweeps.audit.cursor) 32).foldl auditSlot s) :=
    foldl_star auditSlot_star _ s
  unfold auditPoolStep
  dsimp only
  generalize (List.range' (32 * s.sweeps.audit.cursor) 32).foldl auditSlot s = u at hfold
  have hu := linksOk_of_same (t := u.advanceCursor .audit) (hfold.keeps_linksOk hs) (by simp) (by simp)
  split
  · exact latchDone_linksOk (linksOk_of_same hu (by simp) (by simp))
  · exact hu

/-- The last scrub step answers the LOT CLOSE on a link whose queue has kept room for it (log 14). -/
theorem closeScrubStep_linksOk {s : State} (hc : s.lot.state = .closing) (hs : s.LinksOk) :
    (closeScrubStep s).LinksOk := by
  obtain ⟨hstar, hlot⟩ := scrubGroup_star s.sweeps.scrubCursor hc
  obtain ⟨hout, hreq, hlevel⟩ := ((linksOk_iff s).mp hs .lot).closing rfl hc
  unfold closeScrubStep
  dsimp only
  generalize s.scrubGroup s.sweeps.scrubCursor = u at hstar hlot
  have hl := link_congr hstar.links .lot
  have hu : u.LinksOk := linksOk_of_same hs hstar.links (by rw [hlot]; exact id)
  split
  · have hd : u.discardLot.LinksOk := linksOk_of_same hu rfl (by simp [State.discardLot, LotControl.noLot])
    refine linksOk_setLink hd rfl rfl (((linksOk_iff _).mp hd .lot).reply _ rfl ?_ ?_ ?_)
    · rw [show u.discardLot.link .lot = u.link .lot from rfl, hl]
      exact hlevel
    · rw [show u.discardLot.link .lot = u.link .lot from rfl, hl]
      exact hreq
    · simp [State.discardLot, LotControl.noLot]
  · exact linksOk_of_same hu rfl id

theorem sweepStep_linksOk {k : SweepStep} {act : State → State}
    (hact : ∀ u : State, u.offer = some k → u.LinksOk → (act u).LinksOk) {s : State}
    (hs : s.LinksOk) : (s.sweepStep k act).LinksOk := by
  obtain ⟨u, hstar, h | ⟨ho, h⟩⟩ := sweepStep_cases s k act <;> rw [h]
  · exact hstar.keeps_linksOk hs
  · have hu : u.swept.LinksOk := hstar.keeps_linksOk hs
    exact (endWork_star _).keeps_linksOk (hact _ ho hu)

/-! ## Every command -/

theorem deviceReset_linksOk (s : State) : s.deviceReset.LinksOk := by
  rw [linksOk_iff]
  intro l
  have h : s.deviceReset.link l = .initial := by
    cases l <;> simp [State.deviceReset, State.reset, State.link]
  rw [h]
  exact ⟨by decide, by decide, fun r hr => (by cases hr), fun _ hst => (by cases hst)⟩

theorem exec_linksOk {i : Instr} {s t : State} (h : exec i s = .next t) (hs : s.LinksOk) :
    t.LinksOk := by
  cases hr : i.request with
  | some p =>
    obtain ⟨l, r⟩ := p
    obtain ⟨hp, act, hexec, hact⟩ := exec_request hr
    rw [← next_inj ((hexec s).symm.trans h)]
    exact request_linksOk hp hact hs
  | none =>
    cases i <;> simp only [Instr.request, reduceCtorEq] at hr
    case deviceReset => rw [← next_inj h]; exact deviceReset_linksOk s
    case storeClearComplete =>
      change execStoreClearComplete s = _ at h
      unfold execStoreClearComplete at h
      split at h <;> rw [← next_inj h]
      · exact linksOk_of_same hs rfl (by simp [State.clearStore])
      · exact hs
    case frameArrival => rw [← next_inj h]; exact rxBytes_linksOk _ _ hs
    case idleGap => rw [← next_inj h]; exact gap_linksOk _ hs
    case lengthTooGreat => rw [← next_inj h]; exact rxBytes_linksOk _ _ hs
    case purgeStep => rw [← next_inj h]; exact sweepStep_linksOk (fun _ _ => purgeStep_linksOk) hs
    case quarantineStep =>
      rw [← next_inj h]; exact sweepStep_linksOk (fun _ _ => quarantineStep_linksOk) hs
    case auditTableStep =>
      rw [← next_inj h]; exact sweepStep_linksOk (fun _ _ => auditTableStep_linksOk) hs
    case auditPoolStep =>
      rw [← next_inj h]; exact sweepStep_linksOk (fun _ _ => auditPoolStep_linksOk) hs
    case closeScrubStep =>
      rw [← next_inj h]
      refine sweepStep_linksOk (fun u ho => closeScrubStep_linksOk ?_) hs
      rcases offer_cases ho with h | h | h | h <;> simp_all
    case leaseTimerTick => exact (execLeaseTimerTick_star h).keeps_linksOk hs
    case leaseExpiry => exact (execLeaseExpiry_star h).keeps_linksOk hs
    case replyFrameSent => rw [← next_inj h]; exact sent_linksOk _ hs
    case frameStart => rw [← next_inj h]; exact rxByte_linksOk _ _ _ hs
    case byteFramingError => rw [← next_inj h]; exact rxByte_linksOk _ _ _ hs

/-- Settles O58: the fault record's law move by move, the Link Units' law command by command, since a
move of the links says nothing of what they become. -/
theorem stepKeepsFaultsAndLinks : Obligations.StepKeepsFaultsAndLinks := by
  unfold Obligations.StepKeepsFaultsAndLinks
  intro s t h
  refine ⟨step_keeps (fun _ _ hs => hs) (fun _ _ hm hs => hm.keeps_faultsOk hs) h, fun hs => ?_⟩
  unfold step at h
  split at h
  · rw [← next_inj h]; exact hs
  · exact exec_linksOk h hs

end Sys2Proof.Machine

/-! PROOF. The laws of the level-2 wait (R137) and of the wafer table (R11, R134), move by move. -/

namespace Sys2Proof.Machine

/-! ## The level-2 wait -/

/-- What the law reads is as it was, but for places that the journal may have lost. -/
theorem waitOk_of_same {s t : State} (hs : s.WaitOk)
    (hwait : t.sweeps.quarantine.waiting = true → s.sweeps.quarantine.waiting = true)
    (hactive : t.sweeps.quarantine.active = s.sweeps.quarantine.active)
    (htaking : s.taking → t.taking) (hsum : s.journalSum ≤ t.journalSum)
    (hclearing : t.check.clearing = s.check.clearing)
    (hinit : s.lot.state = .init → t.lot.state = .init) : t.WaitOk := by
  obtain ⟨hw, hc⟩ := hs
  refine ⟨fun h => ?_, fun h => hinit (hc (hclearing ▸ h))⟩
  obtain ⟨ha, ht, h256⟩ := hw (hwait h)
  exact ⟨hactive.trans ha, htaking ht, h256.trans hsum⟩

/-- The wait ends where the journal has room. -/
theorem waitOk_endWait {s : State}
    (hw : s.sweeps.quarantine.waiting = true → s.sweeps.quarantine.active = true ∧ s.taking)
    (hc : s.check.clearing = true → s.lot.state = .init) : s.endWait.WaitOk := by
  refine ⟨fun h => ?_, by simpa using hc⟩
  obtain ⟨hwait, hfull⟩ := (endWait_waiting s).mp h
  obtain ⟨hactive, htaking⟩ := hw hwait
  refine ⟨by simpa [endWait_sweeps] using hactive, by simpa [State.taking] using htaking, ?_⟩
  rw [State.endWait_journal]
  exact hfull

/-- An outcome uses the place that its entry's reservation held, or one that was free. -/
theorem appendOutcome_sum (s : State) (e : Entry) (k : JournalKind) (o : Option (Station × Site))
    (r : Option Reason) (x : Option (Nat × Nat)) :
    s.journalSum ≤ (s.appendOutcome e k o r x).journalSum := by
  unfold State.journalSum State.held
  rcases appendOutcome_journal s e k o r x with ⟨-, -, h⟩ | ⟨-, h⟩
  · rw [h]
  · rw [h, List.length_append, List.length_singleton]
    simp only
    omega

theorem journalSum_congr {s t : State} (h : t.journal = s.journal) : t.journalSum = s.journalSum := by
  unfold State.journalSum State.held; rw [h]

theorem countSweep_quarantine (s : State) (lv : SweepLevel) (f : SweepCounts → SweepCounts) :
    (s.countSweep lv f).sweeps.quarantine.waiting = s.sweeps.quarantine.waiting := by
  cases lv <;> rfl

theorem EMove.keeps_waitOk {s t : State} (h : EMove s t) (hs : s.WaitOk) : t.WaitOk := by
  have hlot := h.aside.lot
  have hactive := h.aside.quarantine
  have htaking : s.taking → t.taking := by unfold State.taking; rw [hlot]; exact id
  have hinit : s.lot.state = .init → t.lot.state = .init := by rw [hlot]; exact id
  cases h with
  | tableFault p g o =>
    exact waitOk_of_same hs (by simp) hactive htaking (journalSum_congr (by simp)).ge
      (by rw [tableFault_check]; rfl) hinit
  | keyFault n g o =>
    exact waitOk_of_same hs (by simp) hactive htaking (journalSum_congr (by simp)).ge
      (by rw [keyFault_check]; rfl) hinit
  | draw n t hd =>
    obtain ⟨_, _, rfl⟩ := drawKey_frame hd
    exact hs
  | close c e v k o r x =>
    have hsum := appendOutcome_sum (s.closeEntry c e v) e k o r x
    rw [journalSum_congr (s := s) (State.closeEntry_journal ..)] at hsum
    exact waitOk_of_same hs (by simp) hactive htaking hsum (by simp) hinit
  | withdraw c d e r o _ =>
    have hsum := appendOutcome_sum (s.withdrawKey e.keyNo) e .keyWithdrawn o (some r) none
    rw [journalSum_congr (s := s) (State.withdrawKey_journal ..)] at hsum
    have heq : (s.withdrawEntry c d e r o).journal
        = ((s.withdrawKey e.keyNo).appendOutcome e .keyWithdrawn o (some r) none).journal := by
      simp [State.withdrawEntry]
    rw [← journalSum_congr heq] at hsum
    exact waitOk_of_same hs (by simp) hactive htaking hsum (by simp) hinit
  | giveBack c d e _ =>
    obtain ⟨hw, hc⟩ := hs
    have hfree : ((s.pushKey e.keyNo).freeReservation).WaitOk :=
      waitOk_endWait (fun h => by
        obtain ⟨ha, ht, -⟩ := hw (by simpa using h)
        exact ⟨by simpa using ha, by simpa [State.taking] using ht⟩) (by simpa using hc)
    exact waitOk_of_same hfree (by simp) (by simp) (by simp [State.taking])
      (journalSum_congr (by simp)).ge (by simp) (by simp)
  | hit e _ =>
    exact waitOk_of_same hs (by simp) hactive htaking
      (by simp [State.journalSum, State.held, State.appendHit]) (by simp) hinit
  | count lv f =>
    exact waitOk_of_same hs (by rw [countSweep_quarantine]; exact id) hactive htaking
      (journalSum_congr (by simp)).ge (by simp) hinit
  | cell | retire | slot | remove | tick | deferred =>
    exact waitOk_of_same hs (by simp) hactive htaking (journalSum_congr (by simp)).ge (by simp) hinit

/-- While the lot takes no request there is no wait, and a state of another kind begins without one. -/
theorem not_waiting {s : State} (hs : s.WaitOk) (h : ¬ s.taking) :
    s.sweeps.quarantine.waiting = false := by
  cases hw : s.sweeps.quarantine.waiting
  · rfl
  · exact absurd (hs.1 hw).2.1 h

theorem waitOk_calm {t : State} (hw : t.sweeps.quarantine.waiting = false)
    (hc : t.check.clearing = true → t.lot.state = .init) : t.WaitOk :=
  ⟨fun h => by rw [hw] at h; exact absurd h Bool.false_ne_true, hc⟩

theorem closing_contexts {s : State} (h : s.closeFailures = []) :
    s.sweeps.purge.active = false ∧ s.sweeps.quarantine.active = false := by
  simp only [State.closeFailures, List.append_eq_nil_iff] at h
  obtain ⟨-, hfour⟩ := h
  have : ¬ (s.sweeps.audit.active || s.sweeps.purge.active || s.sweeps.quarantine.active) = true :=
    fun hc => by simp [hc] at hfour
  simp only [Bool.or_eq_true, not_or, Bool.not_eq_true] at this
  exact ⟨this.1.2, this.2⟩

theorem taking_not_init {s : State} (h : s.taking) : s.lot.state ≠ .init := by
  rcases h with h | h <;> rw [h] <;> decide

theorem AMove.keeps_waitOk {s t : State} (h : AMove s t) (hs : s.WaitOk) : t.WaitOk := by
  cases h with
  | entry t he => exact he.keeps_waitOk hs
  | commit st site b wafer x y cls h len last n k htake =>
    have htaking := commitClaim_taking (st := st) (site := site) (b := b) (wafer := wafer) (x := x)
      (y := y) (cls := cls) (h := h) (len := len) (n := n) (last := last) (k := k) htake
    have hsweeps := commitClaim_sweeps st site b wafer x y cls h len last n k s
    have hj := commitClaim_journal st site b wafer x y cls h len last n k s
    exact waitOk_of_same hs (by rw [hsweeps]; exact id) (by rw [hsweeps]) (fun _ => htaking)
      (by unfold State.journalSum State.held; rw [hj]; simp only; omega)
      (by rw [commitClaim_check]) (fun hi => absurd hi (taking_not_init htake))
  | openLot name split p hidle =>
    have hno : ¬ s.taking := by unfold State.taking; rw [hidle]; simp
    exact waitOk_calm (show s.sweeps.quarantine.waiting = false from not_waiting hs hno)
      fun h => absurd (hs.2 h) (by rw [hidle]; simp)
  | closing htake hfail =>
    have hno : ¬ s.sweeps.quarantine.waiting = true := fun hw => by
      have := (hs.1 hw).1
      rw [(closing_contexts hfail).2] at this
      cases this
    exact waitOk_calm (Bool.not_eq_true _ ▸ hno) fun h => absurd (hs.2 h) (taking_not_init htake)
  | lock hopened =>
    exact waitOk_of_same hs id rfl (fun _ => .inr rfl) le_rfl rfl (fun hi => by rw [hopened] at hi; cases hi)
  | take n =>
    exact waitOk_endWait (fun h => ⟨(hs.1 h).1, (hs.1 h).2.1⟩) hs.2
  | quarantineStart low high g htake _ =>
    exact waitOk_calm rfl hs.2
  | quarantineWait htake hactive hfull => exact ⟨fun _ => ⟨hactive, htake, hfull⟩, hs.2⟩
  | quarantineEnd => exact waitOk_calm rfl hs.2
  | audit c => exact hs
  | cursor lv => cases lv <;> exact hs
  | scrubCell c _ =>
    have hsweeps : (Machine.scrubCell s c).sweeps = s.sweeps := by
      unfold Machine.scrubCell; split <;> simp
    have hcheck : (Machine.scrubCell s c).check = s.check := by
      unfold Machine.scrubCell; split <;> simp
    exact waitOk_of_same hs (by rw [hsweeps]; exact id) (by rw [hsweeps])
      (by simp [State.taking, scrubCell_lot]) (journalSum_congr (scrubCell_journal s c)).ge
      (by rw [hcheck]) (by rw [scrubCell_lot]; exact id)
  | discard hclosing =>
    exact waitOk_calm rfl fun h => absurd (hs.2 h) (by rw [hclosing]; simp)
  | attach | detach | amend | record | batches | unhalt | forget | purgeStart | purgeEnd | sweepDone
    | scrubHead | scrubCursor => exact hs

theorem Move.keeps_waitOk {s t : State} (h : Move s t) (hs : s.WaitOk) : t.WaitOk := by
  cases h with
  | act t ha => exact ha.keeps_waitOk hs
  | links ls a => exact hs
  | reset => exact waitOk_calm rfl fun _ => rfl
  | clear hc =>
    have hno : ¬ s.taking := by unfold State.taking; rw [hs.2 hc]; simp
    exact waitOk_calm (show s.sweeps.quarantine.waiting = false from not_waiting hs hno)
      fun h => absurd h Bool.false_ne_true

/-! ## The wafer table -/

/-- What the law reads is as it was. -/
theorem wafersOk_of_same {s t : State} (hs : s.WafersOk)
    (hattached : ∀ st : Station, t.stations[st].attached = s.stations[st].attached)
    (hwafers : t.lot.wafers = s.lot.wafers)
    (hactive : t.sweeps.purge.active = s.sweeps.purge.active)
    (hparam : t.sweeps.purge.param = s.sweeps.purge.param)
    (htaking : s.taking → t.taking) (hclearing : t.check.clearing = s.check.clearing)
    (hinit : s.lot.state = .init → t.lot.state = .init) : t.WafersOk := by
  have hwafer (w : Byte) : t.wafer w = s.wafer w := by unfold State.wafer; rw [hwafers]
  obtain ⟨h1, h2, h3⟩ := hs
  refine ⟨fun st w => by rw [hattached, hwafer]; exact h1 st w, fun ha => ?_, fun hc =>
    hinit (h3 (hclearing ▸ hc))⟩
  obtain ⟨ht, w, hp, hw⟩ := h2 (hactive ▸ ha)
  exact ⟨htaking ht, w, hparam.trans hp, (hwafer w).trans hw⟩

theorem setSlot_attached (s : State) (st st' : Station) (site : Site) (v : Slot) :
    (s.setSlot st site v).stations[st'].attached = s.stations[st'].attached :=
  (setSlot_onlySite s st site v st').1

theorem countDown_attached (s : State) (st : Station) :
    s.countDown.stations[st].attached = s.stations[st].attached := by
  unfold State.countDown
  split
  · simp
  · rfl

theorem EMove.keeps_wafersOk {s t : State} (h : EMove s t) (hs : s.WafersOk) : t.WafersOk := by
  have hlot := h.aside.lot
  have hwafers : t.lot.wafers = s.lot.wafers := by rw [hlot]
  obtain ⟨hactive, hparam⟩ := h.aside.purge
  have htaking : s.taking → t.taking := by unfold State.taking; rw [hlot]; exact id
  have hinit : s.lot.state = .init → t.lot.state = .init := by rw [hlot]; exact id
  cases h with
  | slot st site v =>
    exact wafersOk_of_same hs (fun st' => setSlot_attached s st st' site v) hwafers hactive hparam
      htaking rfl hinit
  | tick =>
    exact wafersOk_of_same hs (countDown_attached s) hwafers hactive hparam htaking (by simp) hinit
  | tableFault p g o =>
    exact wafersOk_of_same hs (by simp) hwafers hactive hparam htaking
      (by rw [tableFault_check]; rfl) hinit
  | keyFault n g o =>
    exact wafersOk_of_same hs (by simp) hwafers hactive hparam htaking
      (by rw [keyFault_check]; rfl) hinit
  | draw n t hd =>
    obtain ⟨_, _, rfl⟩ := drawKey_frame hd
    exact hs
  | cell | retire | close | withdraw | giveBack | remove | hit | count | deferred =>
    exact wafersOk_of_same hs (by simp) hwafers hactive hparam htaking (by simp) hinit

/-- A wafer record that exists is replaced, with the attachment of one station. -/
theorem wafersOk_changed {s t : State} {w : Byte} {v : WaferState} (hs : s.WafersOk)
    (hrecord : s.wafer w ≠ none) (hwafers : t.lot.wafers = (s.setWafer w v).lot.wafers)
    (hattached : ∀ (st : Station) (u : Byte), t.stations[st].attached = some u ↔
      if u = w then v = .attached st else s.stations[st].attached = some u)
    (hpurge : t.sweeps.purge.active = true → t.taking ∧ ∃ u : Byte,
      t.sweeps.purge.param = some u.toNat
        ∧ ((u = w ∧ v = .purging) ∨ (u ≠ w ∧ s.wafer u = some .purging)))
    (hclearing : t.check.clearing = true → t.lot.state = .init) : t.WafersOk := by
  have hwafer (u : Byte) : t.wafer u = if u = w then some v else s.wafer u := by
    rw [← wafer_setWafer hrecord]
    unfold State.wafer
    rw [hwafers]
  refine ⟨fun st u => ?_, fun ha => ?_, hclearing⟩
  · rw [hattached, hwafer]
    split
    · exact Option.some_inj.symm
    · exact hs.1 st u
  · obtain ⟨ht, u, hp, hu⟩ := hpurge ha
    refine ⟨ht, u, hp, ?_⟩
    rw [hwafer]
    rcases hu with ⟨h, hv⟩ | ⟨h, hw⟩
    · rw [if_pos h, hv]
    · rw [if_neg h, hw]

/-- No station holds a wafer whose record does not say so. -/
theorem attached_ne {s : State} (hs : s.WafersOk) {w : Byte} {v : WaferState}
    (hw : s.wafer w = some v) (hv : ∀ st, v ≠ .attached st) (st : Station) :
    s.stations[st].attached ≠ some w := fun h => by
  have := (hs.1 st w).mp h
  rw [hw] at this
  exact hv st (Option.some.inj this)

/-- The purge of another wafer than the one whose record changes goes on. -/
theorem purge_other {s : State} (hs : s.WafersOk) {w : Byte} {x v : WaferState}
    (hw : s.wafer w = some x) (hx : x ≠ .purging) (h : s.sweeps.purge.active = true) :
    s.taking ∧ ∃ u : Byte, s.sweeps.purge.param = some u.toNat
      ∧ ((u = w ∧ v = .purging) ∨ (u ≠ w ∧ s.wafer u = some .purging)) := by
  obtain ⟨ht, u, hp, hu⟩ := hs.2.1 h
  refine ⟨ht, u, hp, .inr ⟨fun huw => hx ?_, hu⟩⟩
  rw [huw, hw] at hu
  exact Option.some.inj hu

theorem attachWafer_wafersOk {s : State} {st : Station} {w : Byte} (hs : s.WafersOk)
    (hw : s.wafer w = some .new ∨ s.wafer w = some .detached)
    (hnone : s.stations[st].attached = none) : (s.attachWafer st w).WafersOk := by
  obtain ⟨x, hx, hne, hp⟩ : ∃ x, s.wafer w = some x ∧ (∀ st, x ≠ .attached st) ∧ x ≠ .purging := by
    rcases hw with h | h
    · exact ⟨_, h, by simp, by simp⟩
    · exact ⟨_, h, by simp, by simp⟩
  refine wafersOk_changed (v := .attached st) hs (by simp [hx]) rfl (fun st' u => ?_)
    (fun ha => purge_other hs hx hp ha) hs.2.2
  unfold State.attachWafer
  by_cases hst : st' = st
  · subst hst
    rw [stations_setStation_same]
    by_cases hu : u = w
    · simp [hu]
    · rw [hnone]
      simp [hu, Ne.symm hu]
  · rw [stations_setStation_ne _ _ hst]
    by_cases hu : u = w
    · subst hu
      have := attached_ne hs hx hne st'
      simpa [Ne.symm hst] using this
    · simp [hu]

theorem detachWafer_wafersOk {s : State} {st : Station} {w : Byte} (hs : s.WafersOk)
    (h : s.stations[st].attached = some w) : (s.detachWafer st w).WafersOk := by
  have hw := (hs.1 st w).mp h
  refine wafersOk_changed (v := .detached) hs (by simp [hw]) rfl (fun st' u => ?_)
    (fun ha => purge_other hs hw (by simp) ha) hs.2.2
  by_cases hst : st' = st
  · subst hst
    rw [detachWafer_none, h]
    by_cases hu : u = w
    · simp [hu]
    · simp [hu, Ne.symm hu]
  · rw [detachWafer_stations_ne _ _ hst]
    by_cases hu : u = w
    · subst hu
      have hne : s.stations[st'].attached ≠ some u := fun h' => by
        have := (hs.1 st' u).mp h'
        rw [hw] at this
        simp only [Option.some.injEq, WaferState.attached.injEq] at this
        exact hst this.symm
      simpa using hne
    · simp [hu]

theorem purgeStart_wafersOk {s : State} {w : Byte} (hs : s.WafersOk) (ht : s.taking)
    (hw : s.wafer w = some .detached) :
    ((s.setWafer w .purging).setContext .purge (.start (some w.toNat))).WafersOk := by
  refine wafersOk_changed (v := .purging) hs (by simp [hw]) rfl (fun st u => ?_)
    (fun _ => ⟨ht, w, rfl, .inl ⟨rfl, rfl⟩⟩) hs.2.2
  by_cases hu : u = w
  · subst hu
    simpa [State.setContext, State.setWafer] using attached_ne hs hw (by simp) st
  · simp [hu, State.setContext, State.setWafer]

theorem purgeEnd_wafersOk {s : State} {v : WaferState} (hs : s.WafersOk)
    (hactive : s.sweeps.purge.active = true) (hv : v = .finished ∨ v = .detached) :
    ((s.setContext .purge { s.sweeps.purge with active := false }).setWafer
      (BitVec.ofNat 8 (s.sweeps.purge.param.getD 0)) v).WafersOk := by
  obtain ⟨ht, w, hp, hw⟩ := hs.2.1 hactive
  have hparam : BitVec.ofNat 8 (s.sweeps.purge.param.getD 0) = w := by simp [hp]
  rw [hparam]
  refine wafersOk_changed (v := v) hs (by simp [hw]) rfl (fun st u => ?_)
    (fun h => absurd h Bool.false_ne_true) hs.2.2
  have hne : v ≠ .attached st := by rcases hv with h | h <;> rw [h] <;> simp
  by_cases hu : u = w
  · subst hu
    simpa [State.setContext, State.setWafer, hne] using attached_ne hs hw (by simp) st
  · simp [hu, State.setContext, State.setWafer]

/-- No wafer is attached, and no record says so: at lot start and while no lot is open. -/
theorem wafersOk_noneAttached {t : State} (hattached : ∀ st : Station, t.stations[st].attached = none)
    (hwafer : ∀ w st, t.wafer w ≠ some (.attached st)) (hpurge : t.sweeps.purge.active = false)
    (hclearing : t.check.clearing = true → t.lot.state = .init) : t.WafersOk :=
  ⟨fun st w => by rw [hattached st]; simp [hwafer w st],
    fun h => by rw [hpurge] at h; exact absurd h Bool.false_ne_true, hclearing⟩

theorem wafer_nil {s : State} (h : s.lot.wafers = []) (w : Byte) : s.wafer w = none := by
  unfold State.wafer; rw [h]; simp

theorem openLot_wafersOk {s : State} (hs : s.WafersOk) (hidle : s.lot.state = .idle)
    (name : BitVec 64) (split : Nat) (p : Settled) : (s.openLot name split p).WafersOk := by
  refine wafersOk_noneAttached (fun st => by simp [State.openLot, StationTable.clear])
    (fun w st => ?_) ?_ fun hc => absurd (hs.2.2 hc) (by rw [hidle]; simp)
  · unfold State.wafer State.openLot
    split
    · simp
    · intro h
      have := List.eq_of_mem_replicate (List.mem_of_getElem? h)
      cases this
  · cases ha : s.sweeps.purge.active
    · exact ha
    · have := (hs.2.1 ha).1
      unfold State.taking at this
      rw [hidle] at this
      simp at this

theorem AMove.keeps_wafersOk {s t : State} (h : AMove s t) (hs : s.WafersOk) : t.WafersOk := by
  cases h with
  | entry t he => exact he.keeps_wafersOk hs
  | commit st site b wafer x y cls h len last n k htake =>
    have htaking := commitClaim_taking (st := st) (site := site) (b := b) (wafer := wafer) (x := x)
      (y := y) (cls := cls) (h := h) (len := len) (n := n) (last := last) (k := k) htake
    have hsweeps := commitClaim_sweeps st site b wafer x y cls h len last n k s
    refine wafersOk_of_same hs (fun st' => ?_) (commitClaim_wafers ..) (by rw [hsweeps])
      (by rw [hsweeps]) (fun _ => htaking) (by rw [commitClaim_check])
      (fun hi => absurd hi (taking_not_init htake))
    rw [commitClaim_eq, State.lockLot_stations, setSlot_attached]
    simp [committed]
  | attach st w hw hnone => exact attachWafer_wafersOk hs hw hnone
  | detach st w h => exact detachWafer_wafersOk hs h
  | openLot name split p hidle => exact openLot_wafersOk hs hidle name split p
  | closing htake hfail =>
    obtain ⟨h1, -, h3⟩ := hs
    refine ⟨h1, fun ha => ?_, fun hc => absurd (h3 hc) (taking_not_init htake)⟩
    have ha' : s.sweeps.purge.active = true := ha
    rw [(closing_contexts hfail).1] at ha'
    cases ha'
  | lock hopened =>
    exact wafersOk_of_same hs (fun _ => rfl) rfl rfl rfl (fun _ => .inr rfl) rfl
      (fun hi => by rw [hopened] at hi; cases hi)
  | take n =>
    exact wafersOk_of_same (t := ({ s with journal := _ } : State).endWait) hs
      (fun _ => by rw [State.endWait_stations]) (by simp) (by simp [endWait_sweeps])
      (by simp [endWait_sweeps]) (by simp [State.taking]) (by simp) (by simp)
  | purgeStart w htake _ hw => exact purgeStart_wafersOk hs htake hw
  | purgeEnd v hactive hv => exact purgeEnd_wafersOk hs hactive hv
  | scrubCell c _ =>
    have hsweeps : (Machine.scrubCell s c).sweeps = s.sweeps := by
      unfold Machine.scrubCell; split <;> simp
    have hcheck : (Machine.scrubCell s c).check = s.check := by
      unfold Machine.scrubCell; split <;> simp
    have hstations : (Machine.scrubCell s c).stations = s.stations := by
      unfold Machine.scrubCell; split <;> simp
    exact wafersOk_of_same hs (by simp [hstations]) (by rw [scrubCell_lot]) (by rw [hsweeps])
      (by rw [hsweeps]) (by simp [State.taking, scrubCell_lot]) (by rw [hcheck])
      (by rw [scrubCell_lot]; exact id)
  | discard hclosing =>
    exact wafersOk_noneAttached (fun st => by simp [State.discardLot, StationTable.clear])
      (fun w st => by rw [wafer_nil (by rfl)]; simp) rfl
      fun hc => absurd (hs.2.2 hc) (by rw [hclosing]; simp)
  | cursor lv => cases lv <;> exact hs
  | amend | record | batches | unhalt | forget | quarantineStart | quarantineWait | quarantineEnd
    | audit | sweepDone | scrubHead | scrubCursor => exact hs

theorem Move.keeps_wafersOk {s t : State} (h : Move s t) (hs : s.WafersOk) : t.WafersOk := by
  cases h with
  | act t ha => exact ha.keeps_wafersOk hs
  | links ls a => exact hs
  | reset =>
    exact wafersOk_noneAttached
      (fun st => by simp [State.deviceReset, State.reset, StationTable.clear])
      (fun w st => by rw [wafer_nil (by rfl)]; simp) rfl fun _ => rfl
  | clear hc =>
    obtain ⟨h1, h2, h3⟩ := hs
    refine ⟨h1, fun ha => ?_, fun h => absurd h Bool.false_ne_true⟩
    exact absurd (h3 hc) (taking_not_init (h2 ha).1)

/-- Settles O59: every move keeps each of the two laws. -/
theorem stepKeepsWaitAndWafers : Obligations.StepKeepsWaitAndWafers := by
  unfold Obligations.StepKeepsWaitAndWafers
  intro s t h
  exact ⟨step_keeps (fun _ _ hs => hs) (fun _ _ hm hs => hm.keeps_waitOk hs) h,
    step_keeps (fun _ _ hs => hs) (fun _ _ hm hs => hm.keeps_wafersOk hs) h⟩

/-! ## The state after device reset -/

/-- Settles O60: each law at reset; a device reset of the reset state leaves the laws of the links. -/
theorem resetMeetsTheLaws : Obligations.ResetMeetsTheLaws := by
  unfold Obligations.ResetMeetsTheLaws
  refine ⟨rfl, ⟨rfl, fun h => ?_⟩, ⟨Nat.zero_le _, rfl, fun _ => rfl⟩, absent_poolOk rfl,
    (Move.reset State.reset).keeps_faultsOk ⟨Nat.zero_le _, by decide, by decide⟩,
    deviceReset_linksOk State.reset, waitOk_calm rfl fun _ => rfl, ?_⟩
  · exact absurd rfl (taking_not_init h)
  · exact wafersOk_noneAttached (fun st => by simp [State.reset, StationTable.clear])
      (fun w st => by rw [wafer_nil (by rfl)]; simp) rfl fun _ => rfl

end Sys2Proof.Machine

/-! PROOF. The step and the queue (log 1), device reset and the store clear (R162), the receive framer and
the checks of a frame (R163, R164), the arbiter (R167), and the requests turned away before a grant. -/

namespace Sys2Proof.Machine

/-! ## The step and device reset -/

/-- Settles O1: the two cases of `step`. -/
theorem stepRunsFrontCommand : Obligations.StepRunsFrontCommand := by
  unfold Obligations.StepRunsFrontCommand
  refine fun s => ⟨fun c rest h => ?_, fun h => ?_⟩
  · rw [step, h]
  · rw [step, h]

/-- A map without records reads as its default everywhere. -/
theorem station_reset (st : Station) : State.reset.stations[st] = .clear := by
  simp [State.reset]

theorem slot_clear (site : Site) : StationTable.clear.slots[site] = .free := by
  simp [StationTable.clear]

theorem link_reset (l : Link) : State.reset.link l = .initial := by
  simp [State.reset, State.link]

/-- Settles O2: each block's reset value, read off the state; the vectors hold one value each. -/
theorem resetValues : Obligations.ResetValues := by
  unfold Obligations.ResetValues
  refine ⟨rfl, fun st => ⟨by rw [station_reset]; rfl, fun site => ?_⟩, rfl, rfl, rfl, rfl,
    fun _ => rfl, fun _ => rfl, rfl, rfl, rfl, rfl, rfl, rfl, rfl, rfl, rfl, rfl, rfl, rfl, rfl, rfl,
    rfl, link_reset, rfl, rfl⟩
  rw [State.slot, station_reset, slot_clear]

theorem exec_storeClearComplete (s : State) : exec .storeClearComplete s
    = if s.check.clearing then .next s.clearStore else .next s := rfl

/-- Settles O3: the clear empties the store and the heads; where none is in flight it does nothing. -/
theorem deviceResetAndStoreClear : Obligations.DeviceResetAndStoreClear := by
  unfold Obligations.DeviceResetAndStoreClear
  refine fun s => ⟨rfl, fun h => ⟨s.clearStore, ?_, fun _ => rfl, fun _ => rfl, rfl, rfl, rfl, ?_⟩,
    fun h => ?_⟩
  · rw [exec_storeClearComplete, if_pos h]
  · intro b hb
    cases b with
    | lot | check | table | store => simp at hb
    | _ => rfl
  · rw [exec_storeClearComplete, h]
    rfl

/-! ## The receive framer -/

theorem setLink_link (s : State) (l : Link) : s.setLink l (s.link l) = s := by
  have h : s.links.set (linkNo l) (s.link l) = s.links := by unfold State.link; simp
  rw [State.setLink, h]

theorem setLink_setLink (s : State) (l : Link) (u v : LinkUnit) :
    (s.setLink l u).setLink l v = s.setLink l v := by
  simp [State.setLink]

theorem link_setLink_same (s : State) (l : Link) (u : LinkUnit) : (s.setLink l u).link l = u := by
  rw [link_setLink, if_pos rfl]

/-- A link-level reply after a change of the framer is the Link Unit's answer (R164, R165). -/
theorem setRx_linkReply (s : State) (l : Link) (rx : RxState) (k : Byte) (c : Code) :
    (s.setRx l rx).linkReply l k c = s.linkAnswered l rx k c := by
  unfold State.linkReply State.linkAnswered State.setRx
  rw [link_setLink_same]
  by_cases h : 3 ≤ ((s.link l).replies.filter (·.linkLevel)).length
  · have hn : ¬ ((s.link l).replies.filter (·.linkLevel)).length < 3 := by omega
    simp [Config.linkReplyLimit, h, hn]
  · have hp : ((s.link l).replies.filter (·.linkLevel)).length < 3 := by omega
    simp only [Config.linkReplyLimit, h, hp, if_false, if_true, setLink_setLink]

theorem setRx_setRx (s : State) (l : Link) (rx rx' : RxState) :
    (s.setRx l rx).setRx l rx' = s.setRx l rx' := by
  simp only [State.setRx, setLink_setLink, link_setLink_same]

theorem linkAnswered_setRx (s : State) (l : Link) (rx rx' : RxState) (k : Byte) (c : Code) :
    (s.setRx l rx).linkAnswered l rx' k c = s.linkAnswered l rx' k c := by
  rw [← setRx_linkReply, setRx_setRx, setRx_linkReply]

theorem linkReply_eq (s : State) (l : Link) (k : Byte) (c : Code) :
    s.linkReply l k c = s.linkAnswered l (s.link l).rx k c := by
  have h : s.setRx l (s.link l).rx = s := setLink_link s l
  rw [← setRx_linkReply, h]

section
variable {s : State} {l : Link}

theorem rxByte_hunting (h : (s.link l).rx = .hunting) (bad : Bool) (b : Byte) :
    s.rxByte l bad b = s := by
  simp only [State.rxByte, h]

theorem rxByte_ready (h : (s.link l).rx = .ready) (bad : Bool) (b : Byte) :
    s.rxByte l bad b = s.setRx l (.inFrame [b] bad) := by
  simp only [State.rxByte, h]

variable {bs : List Byte} {bad : Bool}

/-- A byte of a frame that is not its last and does not give a length above the limit is collected. -/
theorem rxByte_collects (h : (s.link l).rx = .inFrame bs bad) {b : Byte} (badStop : Bool)
    (hb : bs.length < 2 ∨ (fieldOf (bs ++ [b]) 1 2 ≤ 1219
      ∧ bs.length + 1 < 5 + fieldOf (bs ++ [b]) 1 2)) :
    s.rxByte l badStop b = s.setRx l (.inFrame (bs ++ [b]) (bad || badStop)) := by
  simp only [State.rxByte, h]
  rw [if_neg, if_neg]
  · rw [List.length_append, List.length_singleton]
    omega
  · rw [List.length_append, List.length_singleton, Config.bodyLimit]
    omega

/-- The third byte of a frame whose length is above the limit cuts it off. -/
theorem rxByte_cuts (h : (s.link l).rx = .inFrame bs bad) {b : Byte} (badStop : Bool)
    (h3 : (bs ++ [b]).length = 3) (hlimit : 1219 < fieldOf (bs ++ [b]) 1 2) :
    s.rxByte l badStop b = s.linkAnswered l .hunting (byteAt (bs ++ [b]) 0) .format := by
  simp only [State.rxByte, h]
  rw [if_pos ⟨h3, hlimit⟩, setRx_linkReply]

/-- The last byte of a frame brings it to the Link Unit. -/
theorem rxByte_completes (h : (s.link l).rx = .inFrame bs bad) {b : Byte} (badStop : Bool)
    (hlen : (bs ++ [b]).length = 5 + fieldOf (bs ++ [b]) 1 2) :
    s.rxByte l badStop b = (s.setRx l .hunting).frameArrived l (bs ++ [b]) (bad || badStop) := by
  simp only [State.rxByte, h]
  rw [if_neg (by omega), if_pos ⟨by omega, hlen⟩]

end

theorem exec_frameStart (l : Link) (b : Byte) (s : State) :
    exec (.frameStart l b) s = .next (s.rxByte l false b) := rfl

theorem exec_byteFramingError (l : Link) (b : Byte) (s : State) :
    exec (.byteFramingError l b) s = .next (s.rxByte l true b) := rfl

theorem exec_frameArrival (l : Link) (bytes : List Byte) (s : State) :
    exec (.frameArrival l bytes) s = .next (s.rxBytes l bytes) := rfl

theorem exec_idleGap (l : Link) (s : State) : exec (.idleGap l) s = .next (s.gap l) := rfl

theorem exec_lengthTooGreat (l : Link) (high low : Byte) (s : State) :
    exec (.lengthTooGreat l high low) s = .next ((s.rxByte l false high).rxByte l false low) := rfl

theorem fieldOf_two (k high low : Byte) :
    fieldOf [k, high, low] 1 2 = high.toNat * 256 + low.toNat := by
  simp [fieldOf, numberOf]

/-- Settles O7: what each event does in each of the framer's three states. -/
theorem receiveFramer : Obligations.ReceiveFramer := by
  unfold Obligations.ReceiveFramer
  intro s l
  refine ⟨fun h => ⟨?_, fun b => ?_⟩, fun h => ⟨?_, fun b => ?_⟩, fun bs bad h => ⟨?_, fun b hb => ?_⟩,
    fun kind bad high low h => ?_⟩
  case refine_1 => simp only [exec_idleGap, State.gap, h, State.setRx]
  case refine_2 =>
    rw [exec_frameStart, exec_byteFramingError, rxByte_hunting h, rxByte_hunting h]
    exact ⟨rfl, rfl⟩
  case refine_3 => simp only [exec_idleGap, State.gap, h]
  case refine_4 =>
    rw [exec_frameStart, exec_byteFramingError, rxByte_ready h, rxByte_ready h]
    exact ⟨rfl, rfl⟩
  case refine_5 => simp only [exec_idleGap, State.gap, h, setRx_linkReply]
  case refine_6 =>
    rw [exec_frameStart, exec_byteFramingError, rxByte_collects h false hb, rxByte_collects h true hb,
      Bool.or_false, Bool.or_true]
    exact ⟨rfl, rfl⟩
  case refine_7 =>
    have h2 : ((s.setRx l (.inFrame [kind, high] bad)).link l).rx = .inFrame [kind, high] bad := by
      rw [State.setRx, link_setLink_same]
    rw [exec_lengthTooGreat, rxByte_collects h false (.inl (by simp)), Bool.or_false, List.singleton_append]
    change _ = Host.Outcome.next (if _ then _ else s.setRx l (.inFrame [kind, high, low] bad))
    congr 1
    have hlen := fieldOf_two kind high low
    split
    case isTrue hgreat =>
      rw [rxByte_cuts h2 false rfl (hlen.symm ▸ hgreat)]
      exact linkAnswered_setRx ..
    case isFalse hsmall =>
      have hlen' : fieldOf ([kind, high] ++ [low]) 1 2 = high.toNat * 256 + low.toNat := hlen
      rw [rxByte_collects h2 false (.inr ?_), Bool.or_false]
      · exact setRx_setRx ..
      · rw [hlen']
        simp only [List.length_cons, List.length_nil]
        omega

/-! ## The checks of a frame -/

section
variable {s : State} {l : Link} {bytes : List Byte}

theorem outstanding_setRx (s : State) (l : Link) (rx : RxState) :
    ((s.setRx l rx).link l).outstanding = (s.link l).outstanding := by
  rw [State.setRx, link_setLink_same]

theorem frameArrived_marked (s : State) (l : Link) (bytes : List Byte) :
    s.frameArrived l bytes true = s.linkReply l (byteAt bytes 0) .frameCheck := rfl

theorem frameArrived_badSum (bad : Bool)
    (h : twoSum (bytes.take (bytes.length - 2)) ≠ halfAt bytes (bytes.length - 2)) :
    s.frameArrived l bytes bad = s.linkReply l (byteAt bytes 0) .frameCheck := by
  cases bad
  · simp only [State.frameArrived, if_pos h, Bool.false_eq_true, if_false]
  · exact frameArrived_marked s l bytes

variable (hsum : twoSum (bytes.take (bytes.length - 2)) = halfAt bytes (bytes.length - 2))
include hsum

theorem frameArrived_busy (hout : (s.link l).outstanding = true) :
    s.frameArrived l bytes false = s.linkReply l (byteAt bytes 0) .linkBusy := by
  simp [State.frameArrived, hsum, hout]

theorem frameArrived_format (hout : (s.link l).outstanding = false)
    (hread : readRequest (byteAt bytes 0) ((bytes.take (bytes.length - 2)).drop 3) = none) :
    s.frameArrived l bytes false = s.linkReply l (byteAt bytes 0) .format := by
  simp [State.frameArrived, hsum, hout, hread]

theorem frameArrived_request {r : Request} (hout : (s.link l).outstanding = false)
    (hread : readRequest (byteAt bytes 0) ((bytes.take (bytes.length - 2)).drop 3) = some r) :
    s.frameArrived l bytes false
      = if permitted l r then s.place l r else s.linkReply l (byteAt bytes 0) .notPermitted := by
  simp [State.frameArrived, hsum, hout, hread]

end

theorem permitted_iff (l : Link) (r : Request) :
    permitted l r = true ↔ (isLotRequest r = true ↔ l = .lot) := by
  by_cases h : l = .lot <;> simp [permitted, h]

theorem setRx_place (s : State) (l : Link) (rx : RxState) (r : Request) :
    (s.setRx l rx).place l r
      = s.setLink l { s.link l with rx := rx, outstanding := true, request := some r } := by
  rw [State.place, State.setRx, link_setLink_same, setLink_setLink]

/-- Settles O6: the frame comes whole before the Link Unit, and the first check that it fails answers. -/
theorem frameChecksInOrder : Obligations.FrameChecksInOrder := by
  unfold Obligations.FrameChecksInOrder
  intro s l bs bad b h hlen kind front good
  have harrive : exec (.frameArrival l [b]) s
      = .next ((s.setRx l .hunting).frameArrived l (bs ++ [b]) bad) := by
    rw [exec_frameArrival]
    change Host.Outcome.next (s.rxByte l false b) = _
    rw [rxByte_completes h false hlen, Bool.or_false]
  have hout := outstanding_setRx s l .hunting
  refine ⟨?framing, fun hbad => ?check, fun hgood hbusy => ?busy, fun hgood hfree hread => ?format,
    fun r hgood hfree hread hnot => ?notPermitted, fun r hgood hfree hread hok => ?placed⟩
  case framing =>
    rw [exec_byteFramingError, rxByte_completes h true hlen, Bool.or_true, frameArrived_marked,
      setRx_linkReply]
  case check =>
    rw [harrive]
    cases bad with
    | true => rw [frameArrived_marked, setRx_linkReply]
    | false => rw [frameArrived_badSum _ fun hsum => hbad ⟨rfl, hsum⟩, setRx_linkReply]
  all_goals
    obtain ⟨rfl, hsum⟩ := hgood
    rw [harrive]
  case busy => rw [frameArrived_busy hsum (hout.trans hbusy), setRx_linkReply]
  case format => rw [frameArrived_format hsum (hout.trans hfree) hread, setRx_linkReply]
  case notPermitted =>
    rw [frameArrived_request hsum (hout.trans hfree) hread,
      if_neg fun hp => hnot ((permitted_iff l r).mp hp), setRx_linkReply]
  case placed =>
    rw [frameArrived_request hsum (hout.trans hfree) hread, if_pos ((permitted_iff l r).mpr hok),
      setRx_place]

/-! ## The arbiter -/

/-- Along a list on which f grows, the first element that holds something is the one of the least f. -/
theorem find?_least {α : Type} {f : α → Nat} {h : α → Bool} {xs : List α}
    (hsorted : xs.Pairwise (f · < f ·)) (p : α) :
    xs.find? h = some p ↔ p ∈ xs ∧ h p = true ∧ ∀ q ∈ xs, h q = true → f p ≤ f q := by
  induction xs with
  | nil => simp
  | cons x xs ih =>
    obtain ⟨hx, hrest⟩ := List.pairwise_cons.mp hsorted
    by_cases hh : h x = true
    · rw [List.find?_cons_of_pos hh, Option.some_inj]
      refine ⟨?_, fun ⟨hmem, _, hle⟩ => ?_⟩
      · rintro rfl
        refine ⟨List.mem_cons_self, hh, fun q hq _ => ?_⟩
        rcases List.mem_cons.mp hq with rfl | hq
        · exact le_rfl
        · exact (hx q hq).le
      · rcases List.mem_cons.mp hmem with rfl | hp
        · rfl
        · exact absurd (hle x List.mem_cons_self hh) (Nat.not_le.mpr (hx p hp))
    · rw [List.find?_cons_of_neg hh, ih hrest]
      refine ⟨fun ⟨hmem, hp, hle⟩ => ⟨List.mem_cons_of_mem _ hmem, hp, fun q hq hhq => ?_⟩,
        fun ⟨hmem, hp, hle⟩ => ⟨?_, hp, fun q hq => hle q (List.mem_cons_of_mem _ hq)⟩⟩
      · rcases List.mem_cons.mp hq with rfl | hq
        · exact absurd hhq hh
        · exact hle q hq hhq
      · exact (List.mem_cons.mp hmem).resolve_left fun e => hh (e ▸ hp)

theorem mem_arbiterOrder (p : Requester) : p ∈ arbiterOrder := by
  have hstations : ∀ st : Station, Requester.link (.station st) ∈ arbiterOrder := by decide
  match p with
  | .link (.station st) => exact hstations st
  | .link .lot => decide
  | .sweep => decide

theorem mem_orderFrom (a p : Requester) : p ∈ orderFrom a := by
  have : ∀ a ∈ arbiterOrder, ∀ p ∈ arbiterOrder, p ∈ orderFrom a := by decide
  exact this a (mem_arbiterOrder a) p (mem_arbiterOrder p)

theorem orderFrom_sorted (a : Requester) :
    (orderFrom a).Pairwise (a.distance · < a.distance ·) := by
  have : ∀ a ∈ arbiterOrder, (orderFrom a).Pairwise (a.distance · < a.distance ·) := by decide
  exact this a (mem_arbiterOrder a)

/-- From just after a requester, those that stand behind it from the pointer stand nearer. -/
theorem distance_after {a p q : Requester} (hne : q ≠ p) (h : a.distance p ≤ a.distance q) :
    p.after.distance q < a.distance q := by
  have : ∀ a ∈ arbiterOrder, ∀ p ∈ arbiterOrder, ∀ q ∈ arbiterOrder, q ≠ p →
      a.distance p ≤ a.distance q → p.after.distance q < a.distance q := by decide
  exact this a (mem_arbiterOrder a) p (mem_arbiterOrder p) q (mem_arbiterOrder q) hne h

theorem nextGrant_iff (s : State) (p : Requester) :
    s.nextGrant = some p ↔ s.holds p = true
      ∧ ∀ q, s.holds q = true → s.arbiter.distance p ≤ s.arbiter.distance q := by
  rw [State.nextGrant, find?_least (orderFrom_sorted s.arbiter)]
  simp [mem_orderFrom]

/-- Settles O9: the cyclic order from the pointer is the order of the distances. -/
theorem arbiterGrantsInTurn : Obligations.ArbiterGrantsInTurn := by
  unfold Obligations.ArbiterGrantsInTurn
  refine fun s => ⟨nextGrant_iff s, ?_, fun p q hp hq hne => ?_, fun q => ?_⟩
  · simp [State.nextGrant, mem_orderFrom]
  · exact distance_after hne (((nextGrant_iff s p).mp hp).2 q hq)
  · exact Nat.le_of_lt_succ (Nat.mod_lt _ (by decide))

/-! ## Requests that are not granted -/

/-- Settles O10: R2's code for each lot state, by `request_refused`. -/
theorem lotStateTest : Obligations.LotStateTest := by
  unfold Obligations.LotStateTest
  intro s i l r hi hg
  obtain ⟨-, act, hact, -⟩ := exec_request hi
  rw [hact]
  have refused {c : Code} (h : lotGate s.lot.state r = some c) :
      Host.Outcome.next (s.request l r act) = (.next (s.answeredCode l (kindOf r) c) :
        Host.Outcome State Fault Refusal) := by rw [request_refused hg h]
  refine ⟨fun hinit => refused ?_, fun hidle hopen hstatus hstation hread => refused ?_,
    fun hclosing hstation => refused ?_⟩
  · rw [hinit]; rfl
  · rw [hidle]
    cases r with
    | lotOpen b => exact absurd rfl (hopen b)
    | journalRead n => exact absurd rfl (hread n)
    | lotStatus | stationStatus => contradiction
    | _ => rfl
  · rw [hclosing]
    cases r with
    | stationStatus => contradiction
    | _ => rfl

theorem submit_busy {s : State} {l : Link} (r : Request) (h : (s.link l).outstanding = true) :
    s.submit l r = s.linkAnswered l (s.link l).rx (kindOf r) .linkBusy := by
  rw [State.submit, if_pos h, linkReply_eq]

theorem submit_placed {s : State} {l : Link} {r : Request} (hwf : r.wf = true)
    (h : (s.link l).outstanding = false) : s.submit l r = s.place l r := by
  simp [State.submit, h, hwf]

theorem request_linkAnswered (s : State) (l : Link) (rx : RxState) (k : Byte) (c : Code) :
    ((s.linkAnswered l rx k c).link l).request = (s.link l).request := by
  rw [State.linkAnswered, link_setLink_same]

theorem setLink_calm {s : State} (h : s.Calm) (l : Link) (u : LinkUnit) : (s.setLink l u).Calm :=
  ⟨h.noExpiry, h.noBoundary⟩

/-- What a request command comes to in a calm state (logs 2 and 4). -/
theorem request_calm {s : State} (h : s.Calm) (l : Link) (r : Request)
    (act : State → Option ReplyBody × State) :
    s.request l r act =
      let u := if (s.link l).request = some r then s else s.submit l r
      if (u.link l).request = some r ∧ u.nextGrant = some (.link l)
        then (u.makeRoom l).grant l r act else u := by
  unfold State.request
  rw [settleExpiries_calm h]

/-- Settles O11: the request waits, is refused by the Link Unit, or is placed; placed, the command goes
on as on the state in which its link holds it. -/
theorem requestWaitsItsTurn : Obligations.RequestWaitsItsTurn := by
  unfold Obligations.RequestWaitsItsTurn
  intro s i l r hi hwf hcalm
  obtain ⟨-, act, hact, -⟩ := exec_request hi
  simp only [hact]
  refine ⟨fun hheld hturn => ?waits, fun hheld hout => ?busy, fun hheld hout => ?placed⟩
  case waits =>
    rw [request_calm hcalm]
    simp only [hheld, if_true, true_and, if_neg hturn]
  case busy =>
    rw [request_calm hcalm]
    simp only [submit_busy r hout, request_linkAnswered, hheld, false_and, if_false]
  case placed =>
    have hu : (s.place l r).request l r act
        = if (s.place l r).nextGrant = some (.link l)
          then ((s.place l r).makeRoom l).grant l r act else s.place l r := by
      have hrequest : ((s.place l r).link l).request = some r := by
        rw [State.place, link_setLink_same]
      rw [request_calm (s := s.place l r) (setLink_calm hcalm l _)]
      simp only [hrequest, if_true, true_and]
    have hs : s.request l r act = (s.place l r).request l r act := by
      have hrequest : ((s.place l r).link l).request = some r := by
        rw [State.place, link_setLink_same]
      rw [hu, request_calm hcalm]
      simp only [if_neg hheld, submit_placed hwf hout, hrequest, true_and]
    change Host.Outcome.next (s.request l r act) = if (s.place l r).nextGrant = some (.link l)
      then .next ((s.place l r).request l r act) else .next (s.place l r)
    rw [hs]
    split
    case isTrue => rfl
    case isFalse hturn => rw [hu, if_neg hturn]

/-! ## STATION STATUS and the offer of the Sweep Controller -/

theorem exec_stationStatus (st : Station) (s : State) : exec (.stationStatus st) s
    = .next (s.request (.station st) .stationStatus (stationStatusRule st)) := rfl

/-- Settles O16: the rule reports and changes nothing, and only INIT does not take it. -/
theorem stationStatusReports : Obligations.StationStatusReports := by
  unfold Obligations.StationStatusReports
  intro s st hg hinit
  have hgate : lotGate s.lot.state .stationStatus = none := by
    cases hst : s.lot.state with
    | init => exact absurd hst hinit
    | _ => rfl
  rw [exec_stationStatus, request_unchanged hg hgate (show stationStatusRule st _ = _ from rfl)]
  rfl

/-- What the Sweep Controller offers in an open lot (R129). -/
theorem offer_taking {s : State} (h : s.taking) : s.offer =
    if s.sweeps.quarantine.active then
      if s.sweeps.quarantine.waiting then none else some .quarantine
    else if s.sweeps.purge.active then some .purge
    else if s.sweeps.audit.active then
      some (match s.sweeps.audit.phase with | .table => .auditTable | .pool => .auditPool)
    else none := by
  unfold State.offer
  rcases h with h | h <;> rw [h] <;> cases s.sweeps.audit.phase <;> rfl

/-- Settles O44: the branches of the offer. -/
theorem sweepOffersHighestLevel : Obligations.SweepOffersHighestLevel := by
  unfold Obligations.SweepOffersHighestLevel
  intro s
  refine ⟨fun ht hq hw => ?_, fun ht hq hw => ?_, fun ht hq hp => ?_, fun ht hq hp ha => ?_,
    fun ht hq hp ha => ?_, fun hc hs => ?_, fun h => ?_⟩
  · simp [offer_taking ht, hq, hw]
  · simp [offer_taking ht, hq, hw]
  · simp [offer_taking ht, hq, hp]
  · simp only [offer_taking ht, hq, hp, ha, Bool.false_eq_true, if_false, if_true] <;> rfl
  · simp [offer_taking ht, hq, hp, ha]
  · simp [State.offer, hc, hs]
  · rcases h with h | h <;> simp [State.offer, h]

end Sys2Proof.Machine

/-! PROOF. Frames, and the ends of a claim: what sameBeside keeps through composed operations, what a
return, a withdrawal, a VOID and a burn in flight leave of an entry (R34, R35, R100, R117 to R120), said
once for the requests, the expiry and the station reset. -/

namespace Sys2Proof.Machine

/-! ## Frames -/

theorem sameBeside_rfl (s : State) (ch : List Block) : s.sameBeside s ch := fun b _ => by
  cases b <;> rfl

theorem sameBeside_mono {s t : State} {ch ch' : List Block} (h : s.sameBeside t ch)
    (hsub : ∀ b ∈ ch, b ∈ ch') : s.sameBeside t ch' :=
  fun b hb => h b fun hc => hb (hsub b hc)

theorem sameBeside_trans {s t u : State} {ch : List Block} (h : s.sameBeside t ch)
    (k : t.sameBeside u ch) : s.sameBeside u ch := fun b hb => by
  have h1 := h b hb
  have h2 := k b hb
  cases b <;> exact Eq.trans h2 h1

theorem setSlot_sameBeside (s : State) (st : Station) (site : Site) (v : Slot) :
    s.sameBeside (s.setSlot st site v) [.stations] := fun b hb => by
  cases b with
  | stations => simp at hb
  | _ => rfl

/-- A slot replaced at the end of an operation adds the stations to what changes. -/
theorem sameBeside_setSlot {s t : State} {ch : List Block} (h : s.sameBeside t ch)
    (hst : Block.stations ∈ ch) (st : Station) (site : Site) (v : Slot) :
    s.sameBeside (t.setSlot st site v) ch :=
  sameBeside_trans h (sameBeside_mono (setSlot_sameBeside t st site v) (by simpa using hst))

theorem sameBeside_stations {s t : State} {ch : List Block} (h : s.sameBeside t ch)
    (hb : Block.stations ∉ ch) : t.stations = s.stations := h .stations hb

theorem onlySite_of_stations {s t u : State} {st : Station} {site : Site} {v : Slot}
    (h : t.onlySite u st site v) (hst : t.stations = s.stations) : s.onlySite u st site v := by
  intro st'
  obtain ⟨h1, h2⟩ := h st'
  refine ⟨by rw [h1, hst], fun site' => ?_⟩
  rw [h2 site']
  unfold State.slot
  rw [hst]

/-- A slot replaced after an operation that leaves the stations is the only site changed. -/
theorem setSlot_onlySite_of {s t : State} (hst : t.stations = s.stations) (st : Station) (site : Site)
    (v : Slot) : s.onlySite (t.setSlot st site v) st site v :=
  onlySite_of_stations (setSlot_onlySite t st site v) hst

/-! ## Lookups in a state with the same store and table -/

theorem find_congr {s t : State} (hlot : t.lot = s.lot) (htable : t.table = s.table)
    (hstore : t.store = s.store) (w x y : Byte) : t.find w x y = s.find w x y := by
  have hcell (k : Nat) : t.cell k = s.cell k := cell_congr hstore k
  have hhead (k : Nat) : t.head k = s.head k := head_congr (by rw [htable]) k
  have hslots : t.keySlots = s.keySlots := keySlots_congr hlot
  have hbucket (k : Nat) : t.cellBucket k = s.cellBucket k := cellBucket_congr (by rw [htable]) k
  have hin (h k : Nat) : t.inChain h k = s.inChain h k := by simp only [State.inChain, hslots, hbucket]
  have hfault (k : Nat) : t.entryFault k = s.entryFault k := by rw [State.entryFault, hcell]; rfl
  have hentry (k : Nat) : t.entryAt k = s.entryAt k := by rw [State.entryAt, hcell]; rfl
  have hlast (k : Nat) : t.isLast k = s.isLast k := by simp only [State.isLast, hcell]
  have hnext (k : Nat) : t.nextCell k = s.nextCell k := by rw [State.nextCell, hcell]; rfl
  have hwalk (h : Nat) : ∀ fuel n p k, t.walk h w x y fuel n p k = s.walk h w x y fuel n p k := by
    intro fuel
    induction fuel with
    | zero => intros; rfl
    | succ fuel ih =>
      intro n p k
      simp only [State.walk, hin, hfault, hentry, hlast, hnext, ih]
  have hcap : t.capacity = s.capacity := by simp only [State.capacity, hlot]
  have hheadFault (h : Nat) : t.headFault h = s.headFault h := by simp only [State.headFault, hhead]
  simp only [State.find, hheadFault, hhead, hcap, hwalk]

/-! ## What stays said of an entry through later changes of other parts -/

section
variable {s s' t t' : State}

theorem head_eq_of_table (h : t'.table = t.table) (k : Nat) : t'.head k = t.head k :=
  head_congr (by rw [h]) k

/-- An end of an open entry, said of states with the same store, pool, table and journal. -/
theorem State.Ends.congr {c : Nat} {e : Entry} {n : Fin 8192} {final : EntryState} {kind : JournalKind}
    {origin : Option (Station × Site)} {reason : Option Reason} {counts : Option (Nat × Nat)}
    (h : s.Ends t c e n final kind origin reason counts) (hstore : t'.store = t.store)
    (hpool : t'.pool = t.pool) (htable : t'.table = t.table) (hj : t'.journal = t.journal) :
    s.Ends t' c e n final kind origin reason counts := by
  have hcell (k : Nat) : t'.cell k = t.cell k := cell_congr hstore k
  obtain ⟨h1, h2, h3, h4, h5, h6⟩ := h
  exact ⟨Rewrites.congr h1 (hcell c), (hcell n).trans h2, fun k hk => (hcell k).trans (h3 k hk),
    hpool.trans h4, htable.trans h5, hj.trans h6⟩

theorem State.Removes.congr {h c : Nat} {pred : Option Nat} {o : Bool} (hr : s.Removes t h c pred o)
    (hstore : t'.store = t.store) (htable : t'.table = t.table) : s.Removes t' h c pred o := by
  have hcell (k : Nat) : t'.cell k = t.cell k := cell_congr hstore k
  obtain ⟨r1, r2, r3, r4, r5, r6, r7, r8, r9, r10⟩ := hr
  refine ⟨fun k => (head_eq_of_table htable k).trans (r1 k), fun d hd => ?_, (hcell c).trans r3,
    fun k => (cellBucket_congr (by rw [htable]) k).trans (r4 k), ?_, ?_, ?_, ?_, ?_, ?_⟩
  · rw [hcell d]
    exact r2 d hd
  all_goals rw [htable]
  all_goals assumption

theorem State.Withdraws.congr {c : Nat} {pred : Option Nat} {e : Entry} {n : Fin 8192} {reason : Reason}
    {origin : Option (Station × Site)} (h : s.Withdraws t c pred e n reason origin)
    (hstore : t'.store = t.store) (hpool : t'.pool = t.pool) (htable : t'.table = t.table)
    (hj : t'.journal = t.journal) : s.Withdraws t' c pred e n reason origin := by
  have hcell (k : Nat) : t'.cell k = t.cell k := cell_congr hstore k
  obtain ⟨h1, h2, h3, h4, h5, h6⟩ := h
  exact ⟨h1.congr hstore htable, (hcell n).trans h2, fun k hk => (hcell k).trans (h3 k hk),
    by rw [htable]; exact h4, hpool.trans h5, hj.trans h6⟩

theorem State.Returns.congr {c : Nat} {pred : Option Nat} {e : Entry} {n : Fin 8192}
    (h : s.Returns t c pred e n) (hstore : t'.store = t.store) (hpool : t'.pool = t.pool)
    (htable : t'.table = t.table) (hj : t'.journal = t.journal) (hsw : t'.sweeps = t.sweeps) :
    s.Returns t' c pred e n := by
  have hcell (k : Nat) : t'.cell k = t.cell k := cell_congr hstore k
  obtain ⟨h1, h2, h3, h4, h5, h6⟩ := h
  exact ⟨h1.congr hstore htable, fun k hk => (hcell k).trans (h2 k hk), by rw [htable]; exact h3,
    hpool.trans h4, hj.trans h5, hsw.trans h6⟩

end

/-! ## What is said of the state that a grant has taken is said of the state before it -/

section
variable {s t : State} {l : Link} {c : Nat} {pred : Option Nat} {e : Entry} {n : Fin 8192}

theorem State.Rewrites.untaken (h : (s.taken l).Rewrites t c e) : s.Rewrites t c e :=
  ⟨h.entry, h.clean, h.next, h.last⟩

theorem State.Ends.untaken {final : EntryState} {kind : JournalKind}
    {origin : Option (Station × Site)} {reason : Option Reason} {counts : Option (Nat × Nat)}
    (h : (s.taken l).Ends t c e n final kind origin reason counts) :
    s.Ends t c e n final kind origin reason counts :=
  ⟨h.entry.untaken, h.key, h.cells, h.pool, h.table, h.journal⟩

theorem State.Removes.untaken {b : Nat} {o : Bool} (h : (s.taken l).Removes t b c pred o) :
    s.Removes t b c pred o :=
  ⟨h.heads, h.before, h.cell, h.map, h.free, h.inUse, h.freeCount, h.openCount, h.longest, h.damaged⟩

theorem State.Withdraws.untaken {reason : Reason} {origin : Option (Station × Site)}
    (h : (s.taken l).Withdraws t c pred e n reason origin) :
    s.Withdraws t c pred e n reason origin :=
  ⟨h.removed.untaken, h.key, h.cells, h.binding, h.pool, h.journal⟩

theorem State.Returns.untaken (h : (s.taken l).Returns t c pred e n) : s.Returns t c pred e n :=
  ⟨h.removed.untaken, h.cells, h.binding, h.pool, h.journal, h.wait⟩

end

/-! ## The ends of an open entry -/

section
variable {s : State} {c : Nat} {e : Entry} {n : Fin 8192} (ho : s.OpenEntry c e n)
include ho

omit ho in
/-- The places that the removal's walk hands over are entry cells, and the predecessor another one. -/
theorem find_places {w x y : Byte} {c' : Nat} {pred : Option Nat} (hf : s.find w x y = .found c' pred) :
    s.keySlots ≤ c' ∧ ∀ d, pred = some d → d ≠ c' ∧ s.keySlots ≤ d := by
  obtain ⟨hin, -, -, hpred⟩ := find_found_place hf
  exact ⟨(inChain_iff.mp hin).1, fun d hd => ⟨(hpred d hd).1, (inChain_iff.mp (hpred d hd).2).1⟩⟩

theorem withdraw_found {c' : Nat} {pred : Option Nat} (hf : s.find e.wafer e.x e.y = .found c' pred)
    (reason : Reason) (origin : Option (Station × Site)) :
    s.Withdraws (s.withdrawEntry c' pred e reason origin) c' pred e n reason origin :=
  have hplaces := find_places hf
  withdrawEntry_withdraws ho hplaces.1 hplaces.2 reason origin

omit ho in
theorem withdrawEntry_sameBeside (s : State) (c : Nat) (pred : Option Nat) (e : Entry) (r : Reason)
    (o : Option (Station × Site)) :
    s.sameBeside (s.withdrawEntry c pred e r o) [.pool, .table, .store, .journal] := fun b hb => by
  cases b with
  | pool | table | store | journal => simp at hb
  | _ => simp [Block.same]

omit ho in
theorem voidEntry_sameBeside (s : State) (c : Nat) (e : Entry) (r : Reason)
    (o : Option (Station × Site)) (x : Option (Nat × Nat)) :
    s.sameBeside (s.voidEntry c e r o x) [.pool, .table, .store, .journal] := fun b hb => by
  cases b with
  | pool | table | store | journal => simp at hb
  | _ => simp [Block.same]

omit ho in
theorem giveBack_sameBeside (s : State) (n : Nat) (h c : Nat) (pred : Option Nat) :
    s.sameBeside (((s.pushKey n).freeReservation).removeEntry h c pred true)
      [.pool, .table, .store, .journal, .sweeps] := fun b hb => by
  cases b with
  | pool | table | store | journal | sweeps => simp at hb
  | _ => simp [Block.same]

omit ho in
theorem writeEntry_sameBeside (s : State) (c : Nat) (e : Entry) :
    s.sameBeside (s.writeEntry c e) [.store] := fun b hb => by
  cases b with
  | store => simp at hb
  | _ => rfl

/-- A return of an open entry's key (R34): which it is, and what it leaves. -/
theorem return_found {c' : Nat} {pred : Option Nat} {why : Option Reason} (hwhy : s.returnIs e n why)
    (hf : s.find e.wafer e.x e.y = .found c' pred) (origin : Option (Station × Site)) :
    (s.returnEntry c' pred e origin).1 = why
      ∧ (why = none → s.Returns (s.returnEntry c' pred e origin).2 c' pred e n
        ∧ s.sameBeside (s.returnEntry c' pred e origin).2 [.pool, .table, .store, .journal, .sweeps])
      ∧ (∀ reason, why = some reason →
        s.Withdraws (s.returnEntry c' pred e origin).2 c' pred e n reason origin
        ∧ s.sameBeside (s.returnEntry c' pred e origin).2 [.pool, .table, .store, .journal]) := by
  have hrefusal := returnRefusal_is ho.key hwhy
  have hplaces := find_places hf
  cases why with
  | none =>
    have hr : s.returnEntry c' pred e origin = (none, ((s.pushKey e.keyNo).freeReservation).removeEntry
        (bucketOf e.wafer e.x e.y) c' pred true) := by rw [State.returnEntry, hrefusal]
    rw [hr]
    exact ⟨rfl, fun _ => ⟨returnEntry_returns ho fun d hd => (hplaces.2 d hd).1,
      giveBack_sameBeside _ _ _ _ _⟩, fun _ h => absurd h (by simp)⟩
  | some reason =>
    have hr : s.returnEntry c' pred e origin
        = (some reason, s.withdrawEntry c' pred e reason origin) := by
      rw [State.returnEntry, hrefusal]
    rw [hr]
    refine ⟨rfl, fun h => absurd h (by simp), fun r hr => ?_⟩
    obtain rfl : reason = r := Option.some.inj hr
    exact ⟨withdraw_found ho hf reason origin, withdrawEntry_sameBeside _ _ _ _ _ _⟩

/-- The entry is written UNCERTAIN in its place (R100, R119). -/
theorem makeUncertain_rewrites :
    s.Rewrites (s.makeUncertain c e) c { e with state := .uncertain, owner := none }
      ∧ s.onlyCells (s.makeUncertain c e) [c] ∧ s.sameBeside (s.makeUncertain c e) [.store] :=
  ⟨writeEntry_rewrites ho.maps c _, writeEntry_cells s c _, writeEntry_sameBeside s c _⟩

/-! ## What a lease expiry or a STATION RESET does to the entry -/

theorem endClaim_released {st : Station} {site : Site} {c' : Nat} {pred : Option Nat}
    (hi : e.state = .issued) (h0 : e.attempts = 0) (hf : s.find e.wafer e.x e.y = .found c' pred) :
    s.endClaim st site c = (.released, (s.returnEntry c' pred e (some (st, site))).2) := by
  unfold State.endClaim
  simp only [access_reaches ho.reach, hi, if_pos h0, lookup_of_found hf]

theorem endClaim_uncertain (st : Station) (site : Site)
    (h : e.state = .burning ∨ (e.state = .issued ∧ e.attempts ≠ 0)) :
    s.endClaim st site c = (.uncertain, s.makeUncertain c e) := by
  unfold State.endClaim
  rcases h with h | ⟨h, h0⟩
  · simp only [access_reaches ho.reach, h]
  · simp only [access_reaches ho.reach, h, if_neg h0]

theorem endClaim_lost {p : FaultPlace} {g : FaultGroup} (st : Station) (site : Site)
    (hi : e.state = .issued) (h0 : e.attempts = 0) (hf : s.find e.wafer e.x e.y = .fault p g) :
    s.endClaim st site c = (.unreachable, s.tableFault p g .access) := by
  unfold State.endClaim
  simp only [access_reaches ho.reach, hi, if_pos h0, State.lookup, hf]

end

theorem lookup_fault {s : State} {w x y : Byte} {p : FaultPlace} {g : FaultGroup} (o : FaultOrigin)
    (h : s.find w x y = .fault p g) : s.lookup o w x y = (.damaged, s.tableFault p g o) := by
  unfold State.lookup; rw [h]

theorem endClaim_frozen {s : State} {c h : Nat} (st : Station) (site : Site)
    (hb : s.cellBucket c = some h) (hp : s.headFault h = false) (hd : (s.head h).damaged = true) :
    s.endClaim st site c = (.unreachable, s) := by
  unfold State.endClaim
  simp only [access_frozen hb hp hd]

/-- A reference access whose own read finds a fault handles it and reports DAMAGED (R72, R158). -/
theorem access_fault {s : State} {c h : Nat} {p : FaultPlace} {g : FaultGroup}
    (hb : s.cellBucket c = some h)
    (hf : (s.headFault h = true ∧ p = .head h ∧ g = .link)
      ∨ (s.headFault h = false ∧ (s.head h).damaged = false ∧ s.entryFault c = some g ∧ p = .cell c))
    (o : FaultOrigin) : s.access o c = (none, s.tableFault p g o) := by
  unfold State.access
  rcases hf with ⟨hh, rfl, rfl⟩ | ⟨hh, hd, he, rfl⟩
  · simp only [hb, hh, if_true]
  · simp only [hb, hh, hd, he, Bool.false_eq_true, if_false]

theorem endClaim_fault {s : State} {c h : Nat} {p : FaultPlace} {g : FaultGroup} (st : Station)
    (site : Site) (hb : s.cellBucket c = some h)
    (hf : (s.headFault h = true ∧ p = .head h ∧ g = .link)
      ∨ (s.headFault h = false ∧ (s.head h).damaged = false ∧ s.entryFault c = some g ∧ p = .cell c)) :
    s.endClaim st site c = (.unreachable, s.tableFault p g .access) := by
  unfold State.endClaim
  simp only [access_fault hb hf]

/-- The blocks that an end of a claim may touch: never the lot, the stations, the units, the links. -/
theorem endClaim_sameBeside (s : State) (st : Station) (site : Site) (c : Nat) :
    s.sameBeside (s.endClaim st site c).2 [.pool, .table, .store, .journal, .sweeps, .check] := by
  have hfault (u : State) (p : FaultPlace) (g : FaultGroup) (o : FaultOrigin) :
      u.sameBeside (u.tableFault p g o) [.pool, .table, .store, .journal, .sweeps, .check] :=
    fun b hb => by
      cases b with
      | pool | table | store | journal | sweeps | check => simp at hb
      | _ => simp [Block.same]
  have haccess : s.sameBeside (s.access .access c).2
      [.pool, .table, .store, .journal, .sweeps, .check] := by
    unfold State.access
    split
    · exact sameBeside_rfl _ _
    · split
      · exact hfault _ _ _ _
      · split
        · exact sameBeside_rfl _ _
        · split
          · exact hfault _ _ _ _
          · exact sameBeside_rfl _ _
  have huncertain (u : State) (e : Entry) :
      u.sameBeside (u.makeUncertain c e) [.pool, .table, .store, .journal, .sweeps, .check] :=
    sameBeside_mono (writeEntry_sameBeside u c _) (by decide)
  have hlookup (u : State) (w x y : Byte) : u.sameBeside (u.lookup .access w x y).2
      [.pool, .table, .store, .journal, .sweeps, .check] := by
    unfold State.lookup
    split
    · exact hfault _ _ _ _
    · exact sameBeside_rfl _ _
  have hreturn (u : State) (c' : Nat) (pred : Option Nat) (e : Entry) (o : Option (Station × Site)) :
      u.sameBeside (u.returnEntry c' pred e o).2 [.pool, .table, .store, .journal, .sweeps, .check] := by
    unfold State.returnEntry
    split
    · exact sameBeside_mono (withdrawEntry_sameBeside _ _ _ _ _ _) (by decide)
    · exact sameBeside_mono (giveBack_sameBeside _ _ _ _ _) (by decide)
  unfold State.endClaim
  split
  · rename_i h
    rwa [h] at haccess
  · rename_i e s1 h
    rw [h] at haccess
    split
    · exact sameBeside_trans haccess (huncertain _ _)
    · split
      · have hl := hlookup s1 e.wafer e.x e.y
        split
        · rename_i h2
          rw [h2] at hl
          exact sameBeside_trans haccess (sameBeside_trans hl (hreturn _ _ _ _ _))
        · rename_i h2
          rw [h2] at hl
          exact sameBeside_trans haccess hl
      · exact sameBeside_trans haccess (huncertain _ _)
    · exact haccess

end Sys2Proof.Machine

/-! PROOF. Leases (R15, R117 to R120) and STATION RESET (R123, R124): the expiries that are due, taken
site by site, the tick of the timer, and the sixteen slots that a reset frees. -/

namespace Sys2Proof.Machine

/-! ## The expiries that are due -/

/-- One site of the fold that takes the due expiries. -/
def State.settleAt (s : State) (p : Station × Site) : State :=
  if s.expiryDue p.1 p.2 then s.expire p.1 p.2 else s

theorem settleExpiries_eq (s : State) : s.settleExpiries = allSites.foldl State.settleAt s := by
  unfold State.settleExpiries
  rfl

/-- A slot once its expiry, if it is due, has been taken. -/
def Slot.settled : Slot → Slot
  | .held x y _ 0 => .expired x y
  | v => v

theorem settled_settled (v : Slot) : v.settled.settled = v.settled := by
  cases v with
  | held x y c lease => cases lease <;> rfl
  | _ => rfl

theorem expiryDue_iff {s : State} {st : Station} {site : Site} :
    s.expiryDue st site = true ↔ ∃ x y c, s.slot st site = .held x y c 0 := by
  unfold State.expiryDue
  cases s.slot st site <;> simp [eq_comm]

theorem settled_of_not_due {s : State} {st : Station} {site : Site}
    (h : ¬ s.expiryDue st site = true) : (s.slot st site).settled = s.slot st site := by
  rw [expiryDue_iff] at h
  unfold Slot.settled
  split
  · rename_i hv
    exact absurd ⟨_, _, _, hv⟩ h
  · rfl

theorem expiryDue_of_slot {s t : State} {st : Station} {site : Site}
    (h : t.slot st site = s.slot st site) : t.expiryDue st site = s.expiryDue st site := by
  unfold State.expiryDue; rw [h]

theorem expire_held {s : State} {st : Station} {site : Site} {x y : Byte} {c lease : Nat}
    (h : s.slot st site = .held x y c lease) :
    s.expire st site = (s.endClaim st site c).2.setSlot st site (.expired x y) := by
  unfold State.expire
  rw [h]

theorem expire_onlySite {s : State} {st : Station} {site : Site} {x y : Byte} {c lease : Nat}
    (h : s.slot st site = .held x y c lease) :
    s.onlySite (s.expire st site) st site (.expired x y) := by
  rw [expire_held h]
  exact setSlot_onlySite_of (endClaim_sameBeside s st site c .stations (by decide)) st site _

theorem settleAt_slot (s : State) (p : Station × Site) (st : Station) (site : Site) :
    (s.settleAt p).slot st site
      = if (st, site) = p then (s.slot st site).settled else s.slot st site := by
  unfold State.settleAt
  obtain ⟨st', site'⟩ := p
  by_cases hdue : s.expiryDue st' site' = true
  · obtain ⟨x, y, c, hs⟩ := expiryDue_iff.mp hdue
    obtain ⟨-, hslots⟩ := expire_onlySite hs st
    rw [if_pos hdue, hslots site]
    by_cases hp : st = st' ∧ site = site'
    · obtain ⟨rfl, rfl⟩ := hp
      rw [if_pos ⟨rfl, rfl⟩, if_pos rfl, hs]
      rfl
    · rw [if_neg hp, if_neg (by simpa using hp)]
  · rw [if_neg hdue]
    split
    · rename_i hp
      obtain ⟨rfl, rfl⟩ := Prod.mk.inj hp
      exact (settled_of_not_due hdue).symm
    · rfl

theorem settleFold_slot (l : List (Station × Site)) (s : State) (st : Station) (site : Site) :
    (l.foldl State.settleAt s).slot st site
      = if (st, site) ∈ l then (s.slot st site).settled else s.slot st site := by
  induction l generalizing s with
  | nil => rfl
  | cons p l ih =>
    rw [List.foldl_cons, ih, settleAt_slot]
    by_cases hp : (st, site) = p <;> by_cases hl : (st, site) ∈ l <;>
      simp [hp, hl, settled_settled]

theorem mem_allSites (p : Station × Site) : p ∈ allSites := by
  simp [allSites]

theorem settleExpiries_slot (s : State) (st : Station) (site : Site) :
    s.settleExpiries.slot st site = (s.slot st site).settled := by
  rw [settleExpiries_eq, settleFold_slot, if_pos (mem_allSites _)]

theorem settleExpiries_noneDue (s : State) (st : Station) (site : Site) :
    s.settleExpiries.expiryDue st site = false := by
  rw [← Bool.not_eq_true, expiryDue_iff, settleExpiries_slot]
  rintro ⟨x, y, c, h⟩
  have hs := settled_settled (s.slot st site)
  rw [h] at hs
  cases hs

theorem settleFold_skip {l : List (Station × Site)} {s : State}
    (h : ∀ p ∈ l, s.expiryDue p.1 p.2 = false) : l.foldl State.settleAt s = s :=
  foldl_skip l fun p hp => by rw [State.settleAt, h p hp]; rfl

theorem settleExpiries_skip {s : State} (h : ∀ st site, s.expiryDue st site = false) :
    s.settleExpiries = s := by
  rw [settleExpiries_eq]
  exact settleFold_skip fun p _ => h p.1 p.2

theorem settleExpiries_idem (s : State) : s.settleExpiries.settleExpiries = s.settleExpiries :=
  settleExpiries_skip (settleExpiries_noneDue s)

/-! ## The order of the sites -/

/-- A site stands before another in the order of R15. -/
def SiteBefore (p q : Station × Site) : Prop := p.1 < q.1 ∨ (p.1 = q.1 ∧ p.2 < q.2)

theorem allSites_sorted : allSites.Pairwise SiteBefore := by
  unfold allSites
  rw [List.pairwise_flatMap]
  refine ⟨fun st _ => ?_, (List.pairwise_lt_finRange 4).imp fun h p hp q hq => ?_⟩
  · rw [List.pairwise_map]
    exact (List.pairwise_lt_finRange 16).imp fun h => .inr ⟨rfl, h⟩
  · simp only [List.mem_map, List.mem_finRange, true_and] at hp hq
    obtain ⟨_, rfl⟩ := hp
    obtain ⟨_, rfl⟩ := hq
    exact .inl h

theorem SiteBefore.ne {p q : Station × Site} (h : SiteBefore p q) : p ≠ q := by
  rintro rfl
  rcases h with h | ⟨-, h⟩ <;> exact lt_irrefl _ h

/-- The 64 sites around one of them: those that come before it in the order, it, and the rest. -/
theorem allSites_split (p : Station × Site) : ∃ before after, allSites = before ++ p :: after
    ∧ allSites.takeWhile (· ≠ p) = before ∧ ∀ q ∈ before, SiteBefore q p := by
  obtain ⟨before, after, h⟩ := List.append_of_mem (mem_allSites p)
  have hbefore : ∀ q ∈ before, SiteBefore q p := fun q hq => by
    have := allSites_sorted
    rw [h] at this
    exact (List.pairwise_append.mp this).2.2 q hq p List.mem_cons_self
  refine ⟨before, after, h, ?_, hbefore⟩
  rw [h, List.takeWhile_append_of_pos fun q hq => by simpa using (hbefore q hq).ne]
  simp

theorem exec_leaseExpiry (st : Station) (site : Site) (s : State) : exec (.leaseExpiry st site) s
    = if s.expiryDue st site then
        .next (((allSites.takeWhile (· ≠ (st, site))).foldl State.settleAt s).expire st site)
      else .next s := by
  change execLeaseExpiry st site s = _
  unfold execLeaseExpiry
  rfl

/-- The LEASE_EXPIRY of the first slot that is due (R15). -/
theorem leaseExpiry_first {s : State} {st : Station} {site : Site} (h : s.expiryDue st site = true)
    (hfirst : ∀ q, SiteBefore q (st, site) → s.expiryDue q.1 q.2 = false) :
    exec (.leaseExpiry st site) s = .next (s.expire st site) := by
  obtain ⟨before, after, -, htake, hbefore⟩ := allSites_split (st, site)
  rw [exec_leaseExpiry, if_pos h, htake, settleFold_skip fun q hq => hfirst q (hbefore q hq)]

/-- Taking the first due expiry alone and then those that are due is taking all of them. -/
theorem expire_settleExpiries {s : State} {st : Station} {site : Site}
    (h : s.expiryDue st site = true)
    (hfirst : ∀ q, SiteBefore q (st, site) → s.expiryDue q.1 q.2 = false) :
    (s.expire st site).expiryDue st site = false
      ∧ (s.expire st site).settleExpiries = s.settleExpiries := by
  obtain ⟨before, after, hall, -, hbefore⟩ := allSites_split (st, site)
  obtain ⟨x, y, c, hs⟩ := expiryDue_iff.mp h
  have hat : s.settleAt (st, site) = s.expire st site := if_pos h
  have hdue : (s.expire st site).expiryDue st site = false := by
    rw [← Bool.not_eq_true, expiryDue_iff, ← hat, settleAt_slot, if_pos rfl, hs]
    simp [Slot.settled]
  have hbeforeDue : ∀ q ∈ before, (s.expire st site).expiryDue q.1 q.2 = false := fun q hq => by
    rw [expiryDue_of_slot (s := s), hfirst q (hbefore q hq)]
    rw [← hat, settleAt_slot, if_neg (hbefore q hq).ne]
  refine ⟨hdue, ?_⟩
  rw [settleExpiries_eq, settleExpiries_eq, hall, List.foldl_append, List.foldl_append,
    List.foldl_cons, List.foldl_cons, settleFold_skip fun q hq => hfirst q (hbefore q hq),
    settleFold_skip hbeforeDue, hat]
  congr 1
  rw [State.settleAt, hdue]
  rfl

theorem request_settled (s : State) (l : Link) (r : Request) (act : State → Option ReplyBody × State) :
    s.request l r act = s.settleExpiries.request l r act := by
  unfold State.request
  rw [settleExpiries_idem]

theorem sweepStep_settled (s : State) (k : SweepStep) (act : State → State) :
    s.sweepStep k act = s.settleExpiries.sweepStep k act := by
  unfold State.sweepStep
  rw [settleExpiries_idem]

theorem exec_purgeStep (s : State) : exec .purgeStep s = .next (s.sweepStep .purge purgeStep) := rfl

theorem exec_quarantineStep (s : State) :
    exec .quarantineStep s = .next (s.sweepStep .quarantine quarantineStep) := rfl

theorem exec_auditTableStep (s : State) :
    exec .auditTableStep s = .next (s.sweepStep .auditTable auditTableStep) := rfl

theorem exec_auditPoolStep (s : State) :
    exec .auditPoolStep s = .next (s.sweepStep .auditPool auditPoolStep) := rfl

theorem exec_closeScrubStep (s : State) :
    exec .closeScrubStep s = .next (s.sweepStep .scrub closeScrubStep) := rfl

theorem exec_leaseTimerTick (s : State) :
    exec (.leaseTimerTick none) s = .next s.settleExpiries.countDown := rfl

/-- The commands that take the due expiries first are the same on the state without them. -/
theorem exec_settled {i : Instr} (h : i ∈ [Instr.purgeStep, .quarantineStep, .auditTableStep,
    .auditPoolStep, .closeScrubStep, .leaseTimerTick none]) (s : State) :
    exec i s = exec i s.settleExpiries := by
  simp only [List.mem_cons, List.not_mem_nil, or_false] at h
  rcases h with rfl | rfl | rfl | rfl | rfl | rfl
  · rw [exec_purgeStep, exec_purgeStep, sweepStep_settled]
  · rw [exec_quarantineStep, exec_quarantineStep, sweepStep_settled]
  · rw [exec_auditTableStep, exec_auditTableStep, sweepStep_settled]
  · rw [exec_auditPoolStep, exec_auditPoolStep, sweepStep_settled]
  · rw [exec_closeScrubStep, exec_closeScrubStep, sweepStep_settled]
  · rw [exec_leaseTimerTick, exec_leaseTimerTick, settleExpiries_idem]

/-- Settles O13: the due expiries are taken site by site, and after them none is due. -/
theorem dueExpiriesAreTaken : Obligations.DueExpiriesAreTaken := by
  unfold Obligations.DueExpiriesAreTaken
  refine fun s => ⟨fun i l r hi => ?requests, fun i hi => exec_settled hi s,
    fun st site => (settleExpiries_slot s st site).trans ?slots, settleExpiries_noneDue s,
    settleExpiries_skip, fun st site hdue hfirst => ?first⟩
  case requests =>
    obtain ⟨-, act, hact, -⟩ := exec_request hi
    rw [hact, hact, request_settled]
  case slots =>
    unfold Slot.settled
    cases s.slot st site <;> rfl
  case first =>
    have hbefore : ∀ q, SiteBefore q (st, site) → s.expiryDue q.1 q.2 = false :=
      fun q hq => hfirst q.1 q.2 hq
    exact ⟨_, leaseExpiry_first hdue hbefore, expire_settleExpiries hdue hbefore⟩

/-! ## The tick -/

theorem lotLive_iff (s : State) :
    s.lotLive = true ↔ ¬ (s.lot.state = .init ∨ s.lot.state = .idle) := by
  unfold State.lotLive
  cases s.lot.state <;> simp

theorem countDown_slot (s : State) (st : Station) (site : Site) :
    s.countDown.slot st site = if s.lotLive then (s.slot st site).tick else s.slot st site := by
  unfold State.countDown
  split
  · simp [State.slot]
  · rfl

theorem countDown_sameBeside (s : State) : s.sameBeside s.countDown [.stations] := fun b hb => by
  cases b with
  | stations => simp at hb
  | _ => simp [Block.same]

/-- Settles O12: in a calm state the tick is the count-down alone. -/
theorem leaseTimerTick : Obligations.LeaseTimerTick := by
  unfold Obligations.LeaseTimerTick
  refine fun s => ⟨fun hcalm => ⟨s.countDown, ?_, countDown_sameBeside s, fun st =>
    ⟨countDown_attached s st, fun site => ?_⟩⟩, fun _ => rfl⟩
  · rw [exec_leaseTimerTick, settleExpiries_calm hcalm]
  · rw [countDown_slot]
    by_cases hidle : s.lot.state = .init ∨ s.lot.state = .idle
    · rw [if_neg fun hlive => (lotLive_iff s).mp hlive hidle]
      cases s.slot st site <;> simp [hidle]
    · rw [if_pos ((lotLive_iff s).mpr hidle)]
      cases s.slot st site <;> simp [hidle, Slot.tick]

/-! ## A lease expiry -/

/-- Settles O22: the one expiry that is due is the end of its claim, and its slot EXPIRED. -/
theorem leaseExpiryDecides : Obligations.LeaseExpiryDecides := by
  unfold Obligations.LeaseExpiryDecides
  intro s st site x y c hslot hothers
  have hexec : exec (.leaseExpiry st site) s
      = .next ((s.endClaim st site c).2.setSlot st site (.expired x y)) := by
    rw [leaseExpiry_first (expiryDue_iff.mpr ⟨x, y, c, hslot⟩) fun q hq => hothers q.1 q.2 hq.ne,
      expire_held hslot]
  have hsite : s.onlySite ((s.endClaim st site c).2.setSlot st site (.expired x y)) st site
      (.expired x y) := expire_held hslot ▸ expire_onlySite hslot
  refine ⟨fun e n c' pred why ho hi h0 hwhy hf => ?unburned, fun e n ho h => ?burned,
    fun h hb hp hd => ?frozen, fun h p g hb hfault => ?fault⟩
  case unburned =>
    obtain ⟨-, hreturns, hwithdraws⟩ := return_found ho hwhy hf (some (st, site))
    rw [endClaim_released ho hi h0 hf] at hexec hsite
    refine ⟨_, hexec, hsite, fun hw => ?_, fun reason hw => ?_⟩
    · obtain ⟨hr, hsame⟩ := hreturns hw
      exact ⟨hr.congr rfl rfl rfl rfl rfl,
        sameBeside_setSlot (sameBeside_mono hsame (by decide)) (by decide) st site _⟩
    · obtain ⟨hr, hsame⟩ := hwithdraws reason hw
      exact ⟨hr.congr rfl rfl rfl rfl,
        sameBeside_setSlot (sameBeside_mono hsame (by decide)) (by decide) st site _⟩
  case burned =>
    obtain ⟨hr, hcells, hsame⟩ := makeUncertain_rewrites ho
    rw [endClaim_uncertain ho st site h] at hexec hsite
    exact ⟨_, hexec, hsite, Rewrites.congr hr rfl, hcells,
      sameBeside_setSlot (sameBeside_mono hsame (by decide)) (by decide) st site _⟩
  case frozen =>
    rw [endClaim_frozen st site hb hp hd] at hexec hsite
    exact ⟨_, hexec, hsite, setSlot_sameBeside s st site _⟩
  case fault =>
    have hend : s.endClaim st site c = (.unreachable, s.tableFault p g .access) := by
      rcases hfault with hh | hh | ⟨e, n, ho, hi, h0, hf⟩
      · exact endClaim_fault st site hb (.inl hh)
      · exact endClaim_fault st site hb (.inr hh)
      · exact endClaim_lost ho st site hi h0 hf
    rw [hend] at hexec hsite
    exact ⟨_, hexec, hsite, setSlot_sameBeside _ st site _⟩

/-! ## STATION RESET -/

/-- The slots that the three counts of a reset have counted (R124). -/
def ResetTally.total (t : ResetTally) : Nat := t.released + t.uncertain + t.freed

/-- The blocks that a reset of a site may touch. -/
def resetBlocks : List Block := [.stations, .pool, .table, .store, .journal, .sweeps, .check]

theorem resetSite_free {st : Station} {acc : ResetTally × State} {site : Site}
    (h : acc.2.slot st site = .free) : resetSite st acc site = acc := by
  simp only [resetSite, h]

theorem resetSite_held {st : Station} {acc : ResetTally × State} {site : Site} {x y : Byte}
    {c lease : Nat} (h : acc.2.slot st site = .held x y c lease) :
    (resetSite st acc site).2 = (acc.2.endClaim st site c).2.setSlot st site .free
      ∧ (resetSite st acc site).1 = match (acc.2.endClaim st site c).1 with
        | .released => { acc.1 with released := acc.1.released + 1 }
        | .uncertain => { acc.1 with uncertain := acc.1.uncertain + 1 }
        | .unreachable => { acc.1 with freed := acc.1.freed + 1 } := by
  simp only [resetSite, h]
  cases (acc.2.endClaim st site c).1 <;> exact ⟨rfl, rfl⟩

/-- One site of a reset: its slot is FREE, and it is counted unless it was before (R123, R124). -/
theorem resetSite_spec (st : Station) (acc : ResetTally × State) (site : Site) :
    (resetSite st acc site).1.total
        = acc.1.total + (if acc.2.slot st site = .free then 0 else 1)
      ∧ acc.2.onlySite (resetSite st acc site).2 st site .free
      ∧ acc.2.sameBeside (resetSite st acc site).2 resetBlocks := by
  cases h : acc.2.slot st site with
  | free =>
    rw [resetSite_free h]
    refine ⟨rfl, fun st' => ⟨rfl, fun site' => ?_⟩, sameBeside_rfl _ _⟩
    split
    · rename_i hp
      rw [hp.1, hp.2, h]
    · rfl
  | revoked x y | expired x y =>
    simp only [resetSite, h]
    refine ⟨?_, setSlot_onlySite _ _ _ _,
      sameBeside_mono (setSlot_sameBeside _ _ _ _) (by decide)⟩
    simp only [ResetTally.total, reduceCtorEq, if_false]
    omega
  | held x y c lease =>
    obtain ⟨hstate, htally⟩ := resetSite_held h
    have hsame := endClaim_sameBeside acc.2 st site c
    rw [hstate, htally]
    refine ⟨?_, setSlot_onlySite_of (sameBeside_stations hsame (by decide)) _ _ _,
      sameBeside_setSlot (sameBeside_mono hsame (by decide)) (by decide) _ _ _⟩
    simp only [reduceCtorEq, if_false]
    cases (acc.2.endClaim st site c).1 <;> simp only [ResetTally.total] <;> omega

/-- The sites of a list, each once, are freed and counted. -/
theorem resetFold_spec (st : Station) {l : List Site} (hl : l.Nodup) (acc : ResetTally × State) :
    let done := l.foldl (resetSite st) acc
    done.1.total = acc.1.total + l.countP (fun site => decide (acc.2.slot st site ≠ .free))
      ∧ (∀ site, done.2.slot st site = if site ∈ l then .free else acc.2.slot st site)
      ∧ (∀ st' : Station, done.2.stations[st'].attached = acc.2.stations[st'].attached)
      ∧ (∀ st' site', st' ≠ st → done.2.slot st' site' = acc.2.slot st' site')
      ∧ acc.2.sameBeside done.2 resetBlocks := by
  induction l generalizing acc with
  | nil => exact ⟨rfl, fun _ => by simp, fun _ => rfl, fun _ _ _ => rfl, sameBeside_rfl _ _⟩
  | cons a l ih =>
    obtain ⟨ha, hl⟩ := List.nodup_cons.mp hl
    obtain ⟨htotal, hsite, hsame⟩ := resetSite_spec st acc a
    have hslot (site : Site) : (resetSite st acc a).2.slot st site
        = if site = a then .free else acc.2.slot st site := by
      rw [(hsite st).2 site]
      simp
    obtain ⟨h1, h2, h3, h4, h5⟩ := ih hl (resetSite st acc a)
    simp only [List.foldl_cons]
    refine ⟨?_, fun site => ?_, fun st' => (h3 st').trans (hsite st').1, fun st' site' hne => ?_,
      sameBeside_trans hsame h5⟩
    · have hcount : l.countP (fun site => decide ((resetSite st acc a).2.slot st site ≠ .free))
          = l.countP (fun site => decide (acc.2.slot st site ≠ .free)) :=
        List.countP_congr fun site hmem => by
          rw [hslot, if_neg]
          rintro rfl
          exact ha hmem
      rw [h1, htotal, hcount, List.countP_cons]
      by_cases hfree : acc.2.slot st a = .free
      · simp [hfree]
      · simp only [hfree, if_false, decide_true, if_true, ne_eq, not_false_eq_true]
        omega
    · rw [h2, hslot]
      by_cases hs : site = a <;> simp [hs]
    · rw [h4 st' site' hne, (hsite st').2, if_neg fun h => hne h.1]

theorem exec_stationReset (st : Station) (s : State) : exec (.stationReset st) s
    = .next (s.request (.station st) .stationReset (stationResetRule st)) := rfl

theorem kindOf_stationReset : kindOf .stationReset = 0x08 := rfl

/-- What the grant has taken and a reply placed add to the blocks that change. -/
theorem reply_sameBeside {s u : State} {l : Link} {ch : List Block} (h : (s.taken l).sameBeside u ch)
    (k : Byte) (body : ReplyBody) :
    s.sameBeside (u.reply l k body) (ch ++ [.links, .arbiter]) := fun b hb => by
  simp only [List.mem_append, List.mem_cons, List.not_mem_nil, or_false, not_or] at hb
  obtain ⟨hch, hlinks, harb⟩ := hb
  have := h b hch
  cases b with
  | links | arbiter => contradiction
  | _ => exact this

/-- The state that a STATION RESET leaves before its reply. -/
def State.stationReset (s : State) (st : Station) : ResetTally × State :=
  (List.finRange 16).foldl (resetSite st) (⟨0, 0, 0⟩, s)

theorem stationReset_spec (st : Station) (s : State) :
    (s.stationReset st).1.total
        = (List.finRange 16).countP (fun site => decide (s.slot st site ≠ .free))
      ∧ (∀ site, (s.stationReset st).2.slot st site = .free)
      ∧ (∀ st' : Station, (s.stationReset st).2.stations[st'].attached = s.stations[st'].attached)
      ∧ (∀ st' site', st' ≠ st → (s.stationReset st).2.slot st' site' = s.slot st' site')
      ∧ s.sameBeside (s.stationReset st).2 resetBlocks := by
  obtain ⟨h1, h2, h3, h4, h5⟩ := resetFold_spec st (List.nodup_finRange 16) (⟨0, 0, 0⟩, s)
  unfold State.stationReset
  refine ⟨?_, fun site => ?_, h3, h4, h5⟩
  · rw [h1]
    exact Nat.zero_add _
  · rw [h2 site, if_pos (List.mem_finRange site)]

/-- A granted STATION RESET: the sixteen slots, and the reply with the three counts. -/
theorem exec_stationReset_granted {s : State} {st : Station} (hg : s.Granted (.station st) .stationReset)
    (ht : s.taking) {t : ResetTally} {u : State}
    (hdone : (s.taken (.station st)).stationReset st = (t, u))
    (hsame : (s.taken (.station st)).sameBeside u resetBlocks) :
    exec (.stationReset st) s = .next (u.reply (.station st) 0x08
        (.stationReset t.released t.uncertain t.freed))
      ∧ s.Replies (u.reply (.station st) 0x08 (.stationReset t.released t.uncertain t.freed))
        (.station st) 0x08 (.stationReset t.released t.uncertain t.freed) false := by
  have hrule : stationResetRule st (s.taken (.station st))
      = (some (.stationReset t.released t.uncertain t.freed), u) := by
    unfold State.stationReset at hdone
    unfold stationResetRule
    rw [hdone]
  refine ⟨?_, replies_reply _ (hsame .links (by decide)) (hsame .arbiter (by decide)) rfl⟩
  rw [exec_stationReset, request_replies hg ht hrule
    ((hsame .deferred (by decide)).trans hg.calm.noBoundary), kindOf_stationReset]

theorem StationTable.ext_slots {t u : StationTable} (ha : t.attached = u.attached)
    (hs : ∀ site : Site, t.slots[site] = u.slots[site]) : t = u := by
  obtain ⟨a, v⟩ := t
  obtain ⟨b, w⟩ := u
  simp only at ha hs
  rw [ha, show v = w from Vector.ext fun i hi => hs ⟨i, hi⟩]

/-- Settles O17: the fold over the sixteen sites. -/
theorem stationResetFreesEverySite : Obligations.StationResetFreesEverySite := by
  unfold Obligations.StationResetFreesEverySite
  intro s st hg ht
  obtain ⟨htotal, hslots, hattached, hothers, hsame⟩ :=
    stationReset_spec st (s.taken (.station st))
  rcases hdone : (s.taken (.station st)).stationReset st with ⟨t, u⟩
  rw [hdone] at htotal hslots hattached hothers hsame
  obtain ⟨hexec, hreplies⟩ := exec_stationReset_granted hg ht hdone hsame
  refine ⟨_, _, _, _, hexec, hreplies, htotal, hattached st, hslots, fun st' hne => ?_,
    sameBeside_mono (reply_sameBeside hsame _ _) (by decide)⟩
  exact StationTable.ext_slots (hattached st') fun site => hothers st' site hne

/-- A reset of a station with one slot that is not FREE is the reset of that site. -/
theorem stationReset_lone {s : State} {st : Station} {site : Site}
    (h : ∀ site', site' ≠ site → s.slot st site' = .free) :
    s.stationReset st = resetSite st (⟨0, 0, 0⟩, s) site := by
  obtain ⟨before, after, hall⟩ := List.append_of_mem (List.mem_finRange site)
  have hnodup := List.nodup_finRange 16
  rw [hall] at hnodup
  have hbefore : ∀ site' ∈ before, site' ≠ site := fun site' hm => by
    rintro rfl
    exact (List.nodup_append.mp hnodup).2.2 _ hm _ List.mem_cons_self rfl
  have hfree (site' : Site) : (resetSite st (⟨0, 0, 0⟩, s) site).2.slot st site' = .free := by
    rw [((resetSite_spec st (⟨0, 0, 0⟩, s) site).2.1 st).2 site']
    split
    · rfl
    · exact h site' fun e => by simp_all
  unfold State.stationReset
  rw [hall, List.foldl_append, List.foldl_cons,
    foldl_skip before fun site' hm => resetSite_free (h site' (hbefore site' hm)),
    foldl_skip after fun site' _ => resetSite_free (hfree site')]

theorem Claimed.taken {s : State} {st : Station} {b : Byte} {site : Site} {x y : Byte} {c : Nat}
    {e : Entry} {n : Fin 8192} (h : s.Claimed st b site x y c e n) (l : Link) :
    (s.taken l).Claimed st b site x y c e n :=
  ⟨h.named, h.slot, OpenEntry.taken h.opened l⟩

/-- Settles O18: the lone claim ends as its lease expiry would end it. -/
theorem stationResetEndsAClaim : Obligations.StationResetEndsAClaim := by
  unfold Obligations.StationResetEndsAClaim
  intro s st b site x y c e n hg ht hclaimed hlone
  obtain ⟨-, ⟨lease, hslot⟩, ho⟩ := Claimed.taken hclaimed (.station st)
  obtain ⟨hstate, htally⟩ := resetSite_held (acc := (⟨0, 0, 0⟩, s.taken (.station st))) hslot
  have hdone := stationReset_lone (s := s.taken (.station st)) hlone
  obtain ⟨-, hsite, hsame⟩ := resetSite_spec st (⟨0, 0, 0⟩, s.taken (.station st)) site
  rw [hstate] at hsite hsame
  refine ⟨fun c' pred why hi h0 hwhy hf => ?unburned, fun h => ?burned⟩
  case unburned =>
    rw [← find_taken s (.station st)] at hf
    obtain ⟨-, hreturns, hwithdraws⟩ := return_found ho hwhy hf (some (st, site))
    rw [endClaim_released ho hi h0 hf] at hstate htally hsite hsame
    obtain ⟨hexec, hreplies⟩ := exec_stationReset_granted hg ht
      (hdone.trans (Prod.ext htally hstate)) hsame
    refine ⟨_, hexec, hreplies, hsite, fun hw => ?_, fun reason hw => ?_⟩
    · obtain ⟨hr, hsame'⟩ := hreturns hw
      have hslots := sameBeside_setSlot (sameBeside_mono (ch' := [.stations, .pool, .table, .store,
        .journal, .sweeps]) hsame' (by decide)) (by decide) st site .free
      exact ⟨hr.untaken.congr rfl rfl rfl rfl rfl, sameBeside_mono (reply_sameBeside hslots _ _) (by decide)⟩
    · obtain ⟨hr, hsame'⟩ := hwithdraws reason hw
      have hslots := sameBeside_setSlot (sameBeside_mono (ch' := [.stations, .pool, .table, .store,
        .journal]) hsame' (by decide)) (by decide) st site .free
      exact ⟨hr.untaken.congr rfl rfl rfl rfl, sameBeside_mono (reply_sameBeside hslots _ _) (by decide)⟩
  case burned =>
    obtain ⟨hr, hcells, hsame'⟩ := makeUncertain_rewrites ho
    rw [endClaim_uncertain ho st site h] at hstate htally hsite hsame
    obtain ⟨hexec, hreplies⟩ := exec_stationReset_granted hg ht
      (hdone.trans (Prod.ext htally hstate)) hsame
    have hslots := sameBeside_setSlot (sameBeside_mono (ch' := [.stations, .store]) hsame'
      (by decide)) (by decide) st site .free
    exact ⟨_, hexec, hreplies, hsite, Rewrites.congr hr.untaken rfl, hcells,
      sameBeside_mono (reply_sameBeside hslots _ _) (by decide)⟩

end Sys2Proof.Machine

/-! PROOF. Items of the list requests: the site check that comes first (R16), RELEASE (R100, R101), ABANDON
(R102), BURN BEGIN (R106 to R108) and BURN RESULT (R111 to R115), each on a request of one item, and the
items of a list one after another (R15, R82). -/

namespace Sys2Proof.Machine

/-! ## A list request of one item -/

/-- The rule of a list request whose one item is g. -/
def oneItem (g : State → ItemOutcome × State) (u : State) : Option ReplyBody × State :=
  listReply ([(g u).1], (g u).2.endItem 0)

theorem exec_claim_one (st : Station) (a : ClaimItem) (s : State) : exec (.claim st [a]) s
    = .next (s.request (.station st) (.claim [a]) (oneItem (claimItem st [a] 0 a))) := rfl

theorem exec_burnBegin_one (st : Station) (b : Byte) (s : State) : exec (.burnBegin st [b]) s
    = .next (s.request (.station st) (.burnBegin [b]) (oneItem (burnBeginItem st 0 b))) := rfl

theorem exec_burnResult_one (st : Station) (a : ResultItem) (s : State) : exec (.burnResult st [a]) s
    = .next (s.request (.station st) (.burnResult [a]) (oneItem (burnResultItem st 0 a))) := rfl

theorem exec_release_one (st : Station) (b : Byte) (s : State) : exec (.release st [b]) s
    = .next (s.request (.station st) (.release [b]) (oneItem (releaseItem st 0 b))) := rfl

theorem exec_abandon_one (st : Station) (b : Byte) (s : State) : exec (.abandon st [b]) s
    = .next (s.request (.station st) (.abandon [b]) (oneItem (abandonItem st 0 b))) := rfl

section
variable {s v w : State} {l : Link} {r : Request} {g : State → ItemOutcome × State} {out : ItemOutcome}

/-- The item, then its answer. -/
theorem request_oneItem (hg : s.Granted l r) (ht : s.taking) (hitem : g (s.taken l) = (out, w))
    (hd : w.deferred = []) :
    s.request l r (oneItem g) = w.reply l (kindOf r) (.items [out]) := by
  refine request_replies hg ht ?_ hd
  rw [oneItem, hitem]
  simp only [endItem_calm hd]
  rfl

/-- An item that leaves a state as its own grant would have taken it: the answer of Safety. -/
theorem request_oneItem_answered (hg : s.Granted l r) (ht : s.taking)
    (hitem : g (s.taken l) = (out, v.taken l)) (hd : v.deferred = s.deferred) :
    s.request l r (oneItem g) = v.answeredItems l (kindOf r) [out] := by
  rw [request_oneItem hg ht hitem (hd.trans hg.calm.noBoundary)]
  exact reply_taken v l (kindOf r) (.items [out])

end

/-- What an item reads its own links, site slots and boundaries from is the same in two states. -/
structure State.SameSites (s v : State) : Prop where
  stations : v.stations = s.stations
  links : v.links = s.links
  deferred : v.deferred = s.deferred

theorem State.SameSites.rfl {s : State} : s.SameSites s := ⟨by rfl, by rfl, by rfl⟩


section
variable {s v w : State} {st : Station} {i : Instr} {r : Request} {out : ItemOutcome}
  {g : State → ItemOutcome × State} {ch : List Block}

/-- An item that ends in a state w: its answer, and what beside the item's own blocks is as in v. -/
theorem item_done (hexec : ∀ s, exec i s = .next (s.request (.station st) r (oneItem g)))
    (hg : s.Granted (.station st) r) (ht : s.taking) (hv : s.SameSites v)
    (hitem : g (s.taken (.station st)) = (out, w)) (hsame : (v.taken (.station st)).sameBeside w ch)
    (hlinks : Block.links ∉ ch) (harb : Block.arbiter ∉ ch) (hdef : Block.deferred ∉ ch) :
    exec i s = .next (w.reply (.station st) (kindOf r) (.items [out]))
      ∧ s.Replies (w.reply (.station st) (kindOf r) (.items [out])) (.station st) (kindOf r)
        (.items [out]) false
      ∧ v.sameBeside (w.reply (.station st) (kindOf r) (.items [out])) (ch ++ [.links, .arbiter]) := by
  have hl : w.links = (s.taken (.station st)).links := by
    have h1 : w.links = (v.taken (.station st)).links := hsame .links hlinks
    rw [h1, State.taken, State.taken, State.link, State.link, hv.links]
  have hd : w.deferred = [] := by
    have h1 : w.deferred = v.deferred := hsame .deferred hdef
    rw [h1, hv.deferred, hg.calm.noBoundary]
  exact ⟨by rw [hexec, request_oneItem hg ht hitem hd],
    replies_reply _ hl (hsame .arbiter harb) rfl, reply_sameBeside hsame _ _⟩

/-- An item that ends with its site slot replaced. -/
theorem item_slot_done {site : Site} {sv : Slot}
    (hexec : ∀ s, exec i s = .next (s.request (.station st) r (oneItem g)))
    (hg : s.Granted (.station st) r) (ht : s.taking) (hv : s.SameSites v)
    (hitem : g (s.taken (.station st)) = (out, w.setSlot st site sv))
    (hsame : (v.taken (.station st)).sameBeside w ch) (hst : Block.stations ∉ ch)
    (hlinks : Block.links ∉ ch) (harb : Block.arbiter ∉ ch) (hdef : Block.deferred ∉ ch) :
    exec i s = .next ((w.setSlot st site sv).reply (.station st) (kindOf r) (.items [out]))
      ∧ s.Replies ((w.setSlot st site sv).reply (.station st) (kindOf r) (.items [out])) (.station st)
        (kindOf r) (.items [out]) false
      ∧ s.onlySite ((w.setSlot st site sv).reply (.station st) (kindOf r) (.items [out])) st site sv
      ∧ v.sameBeside ((w.setSlot st site sv).reply (.station st) (kindOf r) (.items [out]))
        (.stations :: ch ++ [.links, .arbiter]) := by
  have hsame' : (v.taken (.station st)).sameBeside (w.setSlot st site sv) (.stations :: ch) :=
    sameBeside_setSlot (sameBeside_mono hsame fun _ h => List.mem_cons_of_mem _ h)
      List.mem_cons_self st site sv
  obtain ⟨h1, h2, h3⟩ := item_done hexec hg ht hv hitem hsame' (by simpa using hlinks)
    (by simpa using harb) (by simpa using hdef)
  have hstations : w.stations = s.stations := (hsame .stations hst).trans hv.stations
  exact ⟨h1, h2, setSlot_onlySite_of hstations st site sv, h3⟩

/-- An item that changes nothing but what stands in v. -/
theorem item_answered (hexec : ∀ s, exec i s = .next (s.request (.station st) r (oneItem g)))
    (hg : s.Granted (.station st) r) (ht : s.taking)
    (hitem : g (s.taken (.station st)) = (out, v.taken (.station st))) (hd : v.deferred = s.deferred) :
    exec i s = .next (v.answeredItems (.station st) (kindOf r) [out]) := by
  rw [hexec, request_oneItem_answered hg ht hitem hd]

end

/-! ## The site check -/

theorem siteCheck_outOfRange {b : Byte} (h : 15 < b.toNat) (s : State) (st : Station) :
    s.siteCheck st b = (.ended .outOfRange, s) := by
  have hn : siteOf b = none := dif_neg (by omega)
  rw [State.siteCheck, hn]

theorem siteCheck_revoked {s : State} {st : Station} {b dx dy : Byte} {site : Site}
    (hb : siteOf b = some site) (h : s.slot st site = .revoked dx dy) :
    s.siteCheck st b = (.ended .revoked, s.setSlot st site .free) := by
  rw [State.siteCheck, hb]
  simp only [h]

theorem siteCheck_expired {s : State} {st : Station} {b dx dy : Byte} {site : Site}
    (hb : siteOf b = some site) (h : s.slot st site = .expired dx dy) :
    s.siteCheck st b = (.ended .expired, s.setSlot st site .free) := by
  rw [State.siteCheck, hb]
  simp only [h]

/-- A command whose one item settles its site before anything else (R16). -/
structure SettlesSite (st : Station) (b : Byte) (i : Instr) (r : Request)
    (g : State → ItemOutcome × State) : Prop where
  exec : ∀ s, exec i s = .next (s.request (.station st) r (oneItem g))
  ended : ∀ s c t, s.siteCheck st b = (.ended c, t) → g s = (plainItem b c, t)

/-- As `SettlesSite`, and a request on a claim that the site holds (R100, R102, R106, R111). -/
structure TakesClaim (st : Station) (b : Byte) (i : Instr) (r : Request)
    (g : State → ItemOutcome × State) : Prop extends SettlesSite st b i r g where
  idle : ∀ s site, s.siteCheck st b = (.free site, s) → g s = (plainItem b .siteIdle, s)
  damaged : ∀ s site x y c t, s.siteCheck st b = (.held site x y c, s) →
    s.access .access c = (none, t) → g s = (plainItem b .bucketDamaged, t.setSlot st site .free)

theorem claim_settles (st : Station) (a : ClaimItem) :
    SettlesSite st a.site (.claim st [a]) (.claim [a]) (claimItem st [a] 0 a) where
  exec := exec_claim_one st a
  ended s c t h := by simp only [claimItem, h]

theorem burnBegin_takes (st : Station) (b : Byte) :
    TakesClaim st b (.burnBegin st [b]) (.burnBegin [b]) (burnBeginItem st 0 b) where
  exec := exec_burnBegin_one st b
  ended s c t h := by simp only [burnBeginItem, h]
  idle s site h := by simp only [burnBeginItem, h]
  damaged s site x y c t h ha := by simp only [burnBeginItem, h, ha, State.freeSite]

theorem burnResult_takes (st : Station) (a : ResultItem) :
    TakesClaim st a.site (.burnResult st [a]) (.burnResult [a]) (burnResultItem st 0 a) where
  exec := exec_burnResult_one st a
  ended s c t h := by simp only [burnResultItem, h]
  idle s site h := by simp only [burnResultItem, h]
  damaged s site x y c t h ha := by simp only [burnResultItem, h, ha, State.freeSite]

theorem release_takes (st : Station) (b : Byte) :
    TakesClaim st b (.release st [b]) (.release [b]) (releaseItem st 0 b) where
  exec := exec_release_one st b
  ended s c t h := by simp only [releaseItem, h]
  idle s site h := by simp only [releaseItem, h]
  damaged s site x y c t h ha := by simp only [releaseItem, h, ha, State.freeSite]

theorem abandon_takes (st : Station) (b : Byte) :
    TakesClaim st b (.abandon st [b]) (.abandon [b]) (abandonItem st 0 b) where
  exec := exec_abandon_one st b
  ended s c t h := by simp only [abandonItem, h]
  idle s site h := by simp only [abandonItem, h]
  damaged s site x y c t h ha := by simp only [abandonItem, h, ha, State.freeSite]

/-- The four requests on claims, by their commands. -/
theorem takes_of_mem {st : Station} {b : Byte} {image : Key} {i : Instr} {r : Request}
    (hi : i ∈ [Instr.burnBegin st [b], .burnResult st [⟨b, image⟩], .release st [b], .abandon st [b]])
    (hr : i.request = some (.station st, r)) : ∃ g, TakesClaim st b i r g := by
  simp only [List.mem_cons, List.not_mem_nil, or_false] at hi
  rcases hi with rfl | rfl | rfl | rfl <;>
    simp only [Instr.request, Option.some.injEq, Prod.mk.injEq, true_and] at hr <;> subst hr
  · exact ⟨_, burnBegin_takes st b⟩
  · exact ⟨_, burnResult_takes st ⟨b, image⟩⟩
  · exact ⟨_, release_takes st b⟩
  · exact ⟨_, abandon_takes st b⟩

theorem settles_of_mem {st : Station} {b x y : Byte} {image : Key} {i : Instr} {r : Request}
    (hi : i ∈ [Instr.claim st [⟨b, x, y⟩], .burnBegin st [b], .burnResult st [⟨b, image⟩],
      .release st [b], .abandon st [b]])
    (hr : i.request = some (.station st, r)) : ∃ g, SettlesSite st b i r g := by
  rcases List.mem_cons.mp hi with rfl | hi
  · simp only [Instr.request, Option.some.injEq, Prod.mk.injEq, true_and] at hr
    subst hr
    exact ⟨_, claim_settles st ⟨b, x, y⟩⟩
  · obtain ⟨g, hg⟩ := takes_of_mem hi hr
    exact ⟨g, hg.toSettlesSite⟩

/-- Settles O19: the site check ends the item, whichever the request. -/
theorem siteNoticesAnswerFirst : Obligations.SiteNoticesAnswerFirst := by
  unfold Obligations.SiteNoticesAnswerFirst
  intro s st b x y image i r hi hr hg ht
  obtain ⟨g, hexec, hended⟩ := settles_of_mem hi hr
  have notice {c : Code} {site : Site} (h : (s.taken (.station st)).siteCheck st b
      = (.ended c, (s.taken (.station st)).setSlot st site .free)) :
      ∃ t, exec i s = .next t ∧ s.onlySite t st site .free
        ∧ s.Replies t (.station st) (kindOf r) (.items [⟨b, c, .none⟩]) false
        ∧ s.sameBeside t [.stations, .links, .arbiter] := by
    obtain ⟨h1, h2, h3, h4⟩ := item_slot_done hexec hg ht .rfl (hended _ _ _ h)
      (sameBeside_rfl _ []) (by decide) (by decide) (by decide) (by decide)
    exact ⟨_, h1, h3, h2, h4⟩
  refine ⟨fun h => ?_, fun site dx dy hb h => ?_, fun site dx dy hb h => ?_⟩
  · exact item_answered hexec hg ht (hended _ _ _ (siteCheck_outOfRange h _ st)) rfl
  · exact notice (siteCheck_revoked (s := s.taken (.station st)) (siteOf_val hb) h)
  · exact notice (siteCheck_expired (s := s.taken (.station st)) (siteOf_val hb) h)

/-! ## A read of the entry that does not reach it -/

theorem tableFault_taken (s : State) (l : Link) (p : FaultPlace) (g : FaultGroup) (o : FaultOrigin) :
    (s.taken l).tableFault p g o = (s.tableFault p g o).taken l := by
  cases p with
  | head h => rfl
  | cell c =>
    have h1 : ((s.taken l).recordFault (.cell c) g o).placeBucket (.cell c)
        = (s.recordFault (.cell c) g o).placeBucket (.cell c) := rfl
    unfold State.tableFault
    simp only [h1]
    cases (s.recordFault (.cell c) g o).placeBucket (.cell c) <;> rfl

theorem tableFault_sameSites (s : State) (p : FaultPlace) (g : FaultGroup) (o : FaultOrigin) :
    s.SameSites (s.tableFault p g o) := ⟨by simp, by simp, by simp⟩

/-- A place and group that a reference access to cell c charges (R72, R77). -/
def State.AccessFault (s : State) (c h : Nat) (p : FaultPlace) (g : FaultGroup) : Prop :=
  (s.headFault h = true ∧ p = .head h ∧ g = .link)
    ∨ (s.headFault h = false ∧ (s.head h).damaged = false ∧ s.entryFault c = some g ∧ p = .cell c)

/-- An item on a HELD site whose entry lies in a bucket marked damaged. -/
theorem item_frozen {s : State} {st : Station} {b : Byte} {site : Site} {x y : Byte} {c lease h : Nat}
    {i : Instr} {r : Request} {g : State → ItemOutcome × State}
    (hexec : ∀ s, exec i s = .next (s.request (.station st) r (oneItem g)))
    (hdamaged : ∀ s t, s.siteCheck st b = (.held site x y c, s) → s.access .access c = (none, t) →
      g s = (plainItem b .bucketDamaged, t.setSlot st site .free))
    (hg : s.Granted (.station st) r) (ht : s.taking) (hb : b.toNat = site.val)
    (hslot : s.slot st site = .held x y c lease) (hbucket : s.cellBucket c = some h)
    (hp : s.headFault h = false) (hd : (s.head h).damaged = true) :
    ∃ t, exec i s = .next t ∧ s.onlySite t st site .free
      ∧ s.Replies t (.station st) (kindOf r) (.items [⟨b, .bucketDamaged, .none⟩]) false
      ∧ s.sameBeside t [.stations, .links, .arbiter] := by
  obtain ⟨h1, h2, h3, h4⟩ := item_slot_done hexec hg ht .rfl
    (hdamaged _ _ (siteCheck_held (s := s.taken (.station st)) (siteOf_val hb) hslot)
      (access_frozen (s := s.taken (.station st)) hbucket hp hd .access))
    (sameBeside_rfl _ []) (by decide) (by decide) (by decide) (by decide)
  exact ⟨_, h1, h3, h2, h4⟩

/-- An item on a HELD site whose own read of the entry finds a fault. -/
theorem item_faulty {s : State} {st : Station} {b : Byte} {site : Site} {x y : Byte} {c lease h : Nat}
    {p : FaultPlace} {fg : FaultGroup} {i : Instr} {r : Request} {g : State → ItemOutcome × State}
    (hexec : ∀ s, exec i s = .next (s.request (.station st) r (oneItem g)))
    (hdamaged : ∀ s t, s.siteCheck st b = (.held site x y c, s) → s.access .access c = (none, t) →
      g s = (plainItem b .bucketDamaged, t.setSlot st site .free))
    (hg : s.Granted (.station st) r) (ht : s.taking) (hb : b.toNat = site.val)
    (hslot : s.slot st site = .held x y c lease) (hbucket : s.cellBucket c = some h)
    (hf : s.AccessFault c h p fg) :
    ∃ t, exec i s = .next t ∧ s.onlySite t st site .free
      ∧ s.Replies t (.station st) (kindOf r) (.items [⟨b, .bucketDamaged, .none⟩]) false
      ∧ (s.tableFault p fg .access).sameBeside t [.stations, .links, .arbiter] := by
  have haccess : (s.taken (.station st)).access .access c
      = (none, (s.tableFault p fg .access).taken (.station st)) := by
    rw [access_fault (s := s.taken (.station st)) hbucket hf, tableFault_taken]
  obtain ⟨h1, h2, h3, h4⟩ := item_slot_done hexec hg ht (tableFault_sameSites s p fg .access)
    (hdamaged _ _ (siteCheck_held (s := s.taken (.station st)) (siteOf_val hb) hslot) haccess)
    (sameBeside_rfl _ []) (by decide) (by decide) (by decide) (by decide)
  exact ⟨_, h1, h3, h2, h4⟩

/-- Settles O20: the three answers that come before the entry is read. -/
theorem idleAndFrozenSites : Obligations.IdleAndFrozenSites := by
  unfold Obligations.IdleAndFrozenSites
  intro s st b site image i r hi hr hg ht hb
  obtain ⟨g, htakes⟩ := takes_of_mem hi hr
  refine ⟨fun h => ?_, fun x y c lease h hslot hbucket hp hd => ?_,
    fun x y c lease h p fg hslot hbucket hf => ?_⟩
  · exact item_answered htakes.exec hg ht (htakes.idle _ site
      (siteCheck_free (s := s.taken (.station st)) (siteOf_val hb) h)) rfl
  · exact item_frozen htakes.exec (fun s t => htakes.damaged s site x y c t) hg ht hb hslot hbucket hp hd
  · exact item_faulty htakes.exec (fun s t => htakes.damaged s site x y c t) hg ht hb hslot hbucket hf

end Sys2Proof.Machine

/-! PROOF. The requests on a claim: RELEASE (R100, R101), ABANDON (R102), BURN BEGIN (R106 to R108) and
BURN RESULT (R109, R111 to R115), by the state of the entry and of its key. -/

namespace Sys2Proof.Machine

/-! ## The read of a key slot -/

theorem blocked_congr {s t : State} (h : t.lot = s.lot) (b : Half) : t.blocked b = s.blocked b := by
  unfold State.blocked; rw [h]

theorem limits_congr {s t : State} (h : t.lot = s.lot) : t.limits = s.limits := by
  unfold State.limits; rw [h]

theorem checkKey_clean {s : State} {n : Nat} (h : s.keyClean n) (o : FaultOrigin) :
    s.checkKey n o = s := by
  rw [State.checkKey, h.1]

theorem keyFault_taken (s : State) (l : Link) (n : Nat) (g : FaultGroup) (o : FaultOrigin) :
    (s.taken l).keyFault n g o = (s.keyFault n g o).taken l := by
  have hmark (u : State) : (u.taken l).markKeyFault n = (u.markKeyFault n).taken l := by
    unfold State.markKeyFault
    rw [show (u.taken l).keySlot n = u.keySlot n from rfl]
    cases (u.keySlot n).state <;> rfl
  have hrecord : (s.taken l).recordFault (.cell n) g o = (s.recordFault (.cell n) g o).taken l := rfl
  unfold State.keyFault
  simp only [hrecord, hmark, show (s.taken l).limits = s.limits from rfl]
  split <;> rfl

theorem checkKey_taken (s : State) (l : Link) (n : Nat) (o : FaultOrigin) :
    (s.taken l).checkKey n o = (s.checkKey n o).taken l := by
  unfold State.checkKey
  rw [show (s.taken l).keyReadFault n = s.keyReadFault n from rfl]
  cases s.keyReadFault n with
  | none => rfl
  | some g => exact keyFault_taken s l n g o

theorem checkKey_sameSites (s : State) (n : Nat) (o : FaultOrigin) : s.SameSites (s.checkKey n o) :=
  ⟨by simp, by simp, by simp⟩

theorem keySlot_keyFault_state {s : State} {n : Nat} (hm : s.MapsOk)
    (h : (s.keySlot n).state = .bound) (g : FaultGroup) (o : FaultOrigin) :
    ((s.keyFault n g o).keySlot n).state = .bound := by
  have hslot : (s.recordFault (.cell n) g o).keySlot n = s.keySlot n := rfl
  have hpool : (s.keyFault n g o).pool = ((s.recordFault (.cell n) g o).markKeyFault n).pool := by
    unfold State.keyFault
    dsimp only
    split <;> rfl
  have hmark : (s.recordFault (.cell n) g o).markKeyFault n = { s.recordFault (.cell n) g o with
      pool := { s.pool with slots := mapSet emptySlot s.pool.slots n ⟨.bound, true⟩ } } := by
    unfold State.markKeyFault
    rw [hslot, h]
    rfl
  rw [keySlot_congr (congrArg KeyPool.slots (hpool.trans (congrArg State.pool hmark)))]
  exact congrArg KeySlot.state ((mapGet_mapSet ((mapsOk_iff s).1 hm).2.2.1).trans (if_pos rfl))

theorem Reaches.congr {s t : State} {c : Nat} {e : Entry} (h : s.Reaches c e)
    (hstore : t.store = s.store) (htable : t.table = s.table) : t.Reaches c e := by
  have hcell : t.cell c = s.cell c := cell_congr hstore c
  have hhead (k : Nat) : t.head k = s.head k := head_congr (by rw [htable]) k
  obtain ⟨h1, h2, h3, h4, h5⟩ := h
  exact ⟨(cellBucket_congr (by rw [htable]) c).trans h1, by simpa only [State.headFault, hhead] using h2,
    by rw [hhead]; exact h3, by simpa only [State.entryFault, hcell] using h4,
    by simpa only [State.entryAt, hcell] using h5⟩

/-- The check of its key leaves an open entry open (R36). -/
theorem OpenEntry.checkKey {s : State} {c : Nat} {e : Entry} {n : Fin 8192} (h : s.OpenEntry c e n)
    (o : FaultOrigin) : (s.checkKey n o).OpenEntry c e n := by
  unfold State.checkKey
  cases s.keyReadFault n with
  | none => exact h
  | some g =>
    exact ⟨Reaches.congr h.reach (by simp) (by simp), h.key, keySlot_keyFault_state h.maps h.bound g o,
      by rw [keySlots_congr (s := s) (by simp)]; exact h.place, by simpa using h.reserved,
      keyFault_mapsOk n g o h.maps⟩

theorem find_checkKey (s : State) (n : Nat) (o : FaultOrigin) (w x y : Byte) :
    (s.checkKey n o).find w x y = s.find w x y :=
  find_congr (by simp) (by simp) (by simp) w x y

/-! ## A claim revoked over its key -/

section
variable {s : State} {c : Nat} {e : Entry} {st : Station} {site : Site} {withdrawn voided : Reason}

theorem revokeClaim_withdraws {c' : Nat} {pred : Option Nat} (h0 : e.attempts = 0)
    (hf : s.find e.wafer e.x e.y = .found c' pred) : s.revokeClaim st site c e withdrawn voided
      = (true, s.withdrawEntry c' pred e withdrawn (some (st, site))) := by
  rw [State.revokeClaim, if_pos h0, lookup_of_found hf]

theorem revokeClaim_voids (h0 : e.attempts ≠ 0) : s.revokeClaim st site c e withdrawn voided
      = (true, s.voidEntry c e voided (some (st, site)) none) := by
  rw [State.revokeClaim, if_neg h0]

theorem revokeClaim_lost {p : FaultPlace} {g : FaultGroup} (h0 : e.attempts = 0)
    (hf : s.find e.wafer e.x e.y = .fault p g) : s.revokeClaim st site c e withdrawn voided
      = (false, s.tableFault p g .access) := by
  rw [State.revokeClaim, if_pos h0, lookup_fault _ hf]

end

/-! ## A claimed site -/

section
variable {s : State} {st : Station} {b : Byte} {site : Site} {x y : Byte} {c : Nat} {e : Entry}
  {n : Fin 8192} (hc : s.Claimed st b site x y c e n)
include hc

theorem Claimed.siteCheck : s.siteCheck st b = (.held site x y c, s) := by
  obtain ⟨lease, hslot⟩ := hc.slot
  exact siteCheck_held hc.named hslot

theorem Claimed.access : s.access .access c = (some e, s) := access_reaches hc.opened.reach .access

/-! ## RELEASE and ABANDON -/

theorem releaseItem_burning (k : Nat) (h : e.state = .burning) :
    releaseItem st k b s = (plainItem b .wrongState, s) := by
  simp only [releaseItem, Claimed.siteCheck hc, Claimed.access hc, h]

theorem releaseItem_unburned (k : Nat) (h : e.state = .issued) (h0 : e.attempts = 0) :
    releaseItem st k b s = releaseUnburned st site b e s := by
  simp only [releaseItem, Claimed.siteCheck hc, Claimed.access hc, h, if_pos h0]

theorem releaseItem_burned (k : Nat) (h : e.state = .issued) (h0 : e.attempts ≠ 0) :
    releaseItem st k b s
      = (plainItem b .releasedUncertain, (s.makeUncertain c e).setSlot st site .free) := by
  simp only [releaseItem, Claimed.siteCheck hc, Claimed.access hc, h, if_neg h0, State.freeSite]

theorem abandonItem_claimed (k : Nat) (h : e.state = .issued ∨ e.state = .burning) :
    abandonItem st k b s = (plainItem b .voided,
      (s.voidEntry c e .abandoned (some (st, site)) none).setSlot st site .free) := by
  rcases h with h | h <;>
    simp only [abandonItem, Claimed.siteCheck hc, Claimed.access hc, h, State.freeSite]

theorem burnBeginItem_burning (k : Nat) (h : e.state = .burning) :
    burnBeginItem st k b s = (plainItem b .wrongState, s) := by
  simp only [burnBeginItem, Claimed.siteCheck hc, Claimed.access hc, h]

theorem burnBeginItem_issued (k : Nat) (h : e.state = .issued) :
    burnBeginItem st k b s = burnIssued st site b x y c e s := by
  simp only [burnBeginItem, Claimed.siteCheck hc, Claimed.access hc, h]

theorem burnResultItem_issued (k : Nat) (image : Key) (h : e.state = .issued) :
    burnResultItem st k ⟨b, image⟩ s = (plainItem b .wrongState, s) := by
  simp only [burnResultItem, Claimed.siteCheck hc, Claimed.access hc, h]

theorem burnResultItem_burning (k : Nat) (image : Key) (h : e.state = .burning) :
    burnResultItem st k ⟨b, image⟩ s = judgeBurn st site b x y image c e s := by
  simp only [burnResultItem, Claimed.siteCheck hc, Claimed.access hc, h]

end

theorem kindOf_release (l : List Byte) : kindOf (.release l) = 0x06 := rfl

theorem kindOf_abandon (l : List Byte) : kindOf (.abandon l) = 0x07 := rfl

/-- Settles O30: the claim is voided on the state that the grant has taken, and its slot freed. -/
theorem abandonVoids : Obligations.AbandonVoids := by
  unfold Obligations.AbandonVoids
  intro s st b x y site c e n hg ht hc h
  rw [← kindOf_abandon [b]]
  have hc' := Claimed.taken hc (.station st)
  obtain ⟨h1, h2, h3, h4⟩ := item_slot_done (exec_abandon_one st b) hg ht .rfl
    (abandonItem_claimed hc' 0 h) (voidEntry_sameBeside _ _ _ _ _ _) (by decide) (by decide) (by decide)
    (by decide)
  exact ⟨_, h1, h2, h3, (voidEntry_ends hc'.opened _ _ _).untaken.congr rfl rfl rfl rfl, h4⟩

/-- Settles O29: the entry's state and attempts decide. -/
theorem releaseDecides : Obligations.ReleaseDecides := by
  unfold Obligations.ReleaseDecides
  intro s st b x y site c e n hg ht hc
  simp only [← kindOf_release [b]]
  have hc' := Claimed.taken hc (.station st)
  refine ⟨fun hburning => ?burning, fun c' pred why hi h0 hwhy hf => ?returned, fun hi h0 => ?uncertain,
    fun p g hi h0 hf => ?lost⟩
  case burning =>
    exact item_answered (exec_release_one st b) hg ht (releaseItem_burning hc' 0 hburning) rfl
  case returned =>
    rw [← find_taken s (.station st)] at hf
    obtain ⟨hdisposition, hreturns, hwithdraws⟩ := return_found hc'.opened hwhy hf (some (st, site))
    have hitem' : releaseItem st 0 b (s.taken (.station st)) = (⟨b, .released, .disposition why⟩,
        ((s.taken (.station st)).returnEntry c' pred e (some (st, site))).2.setSlot st site .free) := by
      rw [releaseItem_unburned hc' 0 hi h0]
      simp only [releaseUnburned, lookup_of_found hf, hdisposition, State.freeSite]
    have hsame : (s.taken (.station st)).sameBeside
        ((s.taken (.station st)).returnEntry c' pred e (some (st, site))).2
        [.pool, .table, .store, .journal, .sweeps] := by
      cases why with
      | none => exact (hreturns rfl).2
      | some reason => exact sameBeside_mono (hwithdraws reason rfl).2 (by decide)
    obtain ⟨h1, h2, h3, h4⟩ := item_slot_done (exec_release_one st b) hg ht .rfl hitem' hsame
      (by decide) (by decide) (by decide) (by decide)
    refine ⟨_, h1, h2, h3, fun hw => ⟨(hreturns hw).1.untaken.congr rfl rfl rfl rfl rfl, h4⟩,
      fun reason hw => ?_⟩
    obtain ⟨-, -, -, h4'⟩ := item_slot_done (exec_release_one st b) hg ht .rfl hitem'
      (hwithdraws reason hw).2 (by decide) (by decide) (by decide) (by decide)
    exact ⟨(hwithdraws reason hw).1.untaken.congr rfl rfl rfl rfl, h4'⟩
  case uncertain =>
    obtain ⟨hr, hcells, hsame⟩ := makeUncertain_rewrites hc'.opened
    obtain ⟨h1, h2, h3, h4⟩ := item_slot_done (exec_release_one st b) hg ht .rfl
      (releaseItem_burned hc' 0 hi h0) hsame (by decide) (by decide) (by decide) (by decide)
    exact ⟨_, h1, h2, h3, Rewrites.congr hr.untaken rfl, hcells, h4⟩
  case lost =>
    rw [← find_taken s (.station st)] at hf
    have hitem' : releaseItem st 0 b (s.taken (.station st)) = (plainItem b .bucketDamaged,
        ((s.tableFault p g .access).taken (.station st)).setSlot st site .free) := by
      rw [releaseItem_unburned hc' 0 hi h0]
      simp only [releaseUnburned, lookup_fault .access hf, tableFault_taken, State.freeSite]
    obtain ⟨h1, h2, h3, h4⟩ := item_slot_done (exec_release_one st b) hg ht
      (tableFault_sameSites s p g .access) hitem' (sameBeside_rfl _ []) (by decide) (by decide)
      (by decide) (by decide)
    exact ⟨_, h1, h3, h2, h4⟩

/-! ## BURN BEGIN -/

section
variable {s : State} {c : Nat} {e : Entry} {n : Fin 8192} (ho : s.OpenEntry c e n) (st : Station)
  (site : Site) (b x y : Byte)

theorem burnIssued_blocked (h : s.blocked e.batch = true) : burnIssued st site b x y c e s
    = revokeBurn st site b c e .blocked .quarantine s := by
  rw [burnIssued, if_pos h]

include ho

theorem burnIssued_damaged (h : s.blocked e.batch = false)
    (hd : ((s.checkKey n .access).keySlot n).damaged = true) : burnIssued st site b x y c e s
    = revokeBurn st site b c e .keyDamaged .keyDamaged (s.checkKey n .access) := by
  rw [burnIssued, h, OpenEntry.keyNo ho]
  simp only [Bool.false_eq_true, if_false, hd, if_true]

theorem burnIssued_accepts (h : s.blocked e.batch = false) (hk : s.keyClean n) :
    burnIssued st site b x y c e s = acceptBurn st site b x y c e s := by
  rw [burnIssued, h, OpenEntry.keyNo ho, checkKey_clean hk]
  simp only [Bool.false_eq_true, if_false, hk.2]

end

/-- A BURN BEGIN item whose claim is revoked over its key, in the state v in which that is found. -/
theorem burnBegin_revokes {s v : State} {st : Station} {b : Byte} {site : Site} {c : Nat} {e : Entry}
    {n : Fin 8192} (hg : s.Granted (.station st) (.burnBegin [b])) (ht : s.taking)
    (hv : s.SameSites v) (ho : v.OpenEntry c e n) {withdrawn voided : Reason}
    (hfind : v.find e.wafer e.x e.y = s.find e.wafer e.x e.y)
    (hitem : burnBeginItem st 0 b (s.taken (.station st))
      = revokeBurn st site b c e withdrawn voided (v.taken (.station st))) :
    (e.attempts = 0 → ∀ c' pred, s.find e.wafer e.x e.y = .found c' pred →
        ∃ t, exec (.burnBegin st [b]) s = .next t
          ∧ s.Replies t (.station st) 0x04 (.items [⟨b, .revoked, .none⟩]) false
          ∧ s.onlySite t st site .free
          ∧ v.Withdraws t c' pred e n withdrawn (some (st, site))
          ∧ v.sameBeside t [.stations, .pool, .table, .store, .journal, .links, .arbiter])
      ∧ (e.attempts ≠ 0 → ∃ t, exec (.burnBegin st [b]) s = .next t
          ∧ s.Replies t (.station st) 0x04 (.items [⟨b, .revoked, .none⟩]) false
          ∧ s.onlySite t st site .free
          ∧ v.Ends t c e n .void .voided (some (st, site)) (some voided) none
          ∧ v.sameBeside t [.stations, .pool, .table, .store, .journal, .links, .arbiter])
      ∧ (e.attempts = 0 → ∀ p g, s.find e.wafer e.x e.y = .fault p g →
        ∃ t, exec (.burnBegin st [b]) s = .next t ∧ s.onlySite t st site .free
          ∧ s.Replies t (.station st) 0x04 (.items [⟨b, .bucketDamaged, .none⟩]) false
          ∧ (v.tableFault p g .access).sameBeside t [.stations, .links, .arbiter]) := by
  have ho' := OpenEntry.taken ho (.station st)
  have hfind' : (v.taken (.station st)).find e.wafer e.x e.y = s.find e.wafer e.x e.y :=
    (find_taken v _ _ _ _).trans hfind
  refine ⟨fun h0 c' pred hf => ?_, fun h0 => ?_, fun h0 p g hf => ?_⟩
  · rw [revokeBurn, revokeClaim_withdraws h0 (hfind'.trans hf)] at hitem
    obtain ⟨h1, h2, h3, h4⟩ := item_slot_done (exec_burnBegin_one st b) hg ht hv hitem
      (withdrawEntry_sameBeside _ _ _ _ _ _) (by decide) (by decide) (by decide) (by decide)
    exact ⟨_, h1, h2, h3,
      (withdraw_found ho' (hfind'.trans hf) _ _).untaken.congr rfl rfl rfl rfl, h4⟩
  · rw [revokeBurn, revokeClaim_voids h0] at hitem
    obtain ⟨h1, h2, h3, h4⟩ := item_slot_done (exec_burnBegin_one st b) hg ht hv hitem
      (voidEntry_sameBeside _ _ _ _ _ _) (by decide) (by decide) (by decide) (by decide)
    exact ⟨_, h1, h2, h3, (voidEntry_ends ho' _ _ _).untaken.congr rfl rfl rfl rfl, h4⟩
  · rw [revokeBurn, revokeClaim_lost h0 (hfind'.trans hf), tableFault_taken] at hitem
    have hv' := tableFault_sameSites v p g .access
    obtain ⟨h1, h2, h3, h4⟩ := item_slot_done (exec_burnBegin_one st b) hg ht
      ⟨hv'.stations.trans hv.stations, hv'.links.trans hv.links, hv'.deferred.trans hv.deferred⟩ hitem
      (sameBeside_rfl _ []) (by decide) (by decide) (by decide) (by decide)
    exact ⟨_, h1, h3, h2, h4⟩

/-- Settles O31: the tests of R106 in order, each on the state in which the one before has passed. -/
theorem burnBeginDecides : Obligations.BurnBeginDecides := by
  unfold Obligations.BurnBeginDecides
  intro s st b x y site c e n hg ht hc i u withdrawn voided
  have hc' := Claimed.taken hc (.station st)
  have blockedOut (hi : e.state = .issued) (hb : s.blocked e.batch = true) :=
    burnBegin_revokes (site := site) (withdrawn := .blocked) (voided := .quarantine) hg ht .rfl hc.opened
      rfl ((burnBeginItem_issued hc' 0 hi).trans
        (burnIssued_blocked (s := s.taken (.station st)) st site b x y hb))
  have damagedOut (hi : e.state = .issued) (hb : s.blocked e.batch = false)
      (hd : (u.keySlot n).damaged = true) :=
    burnBegin_revokes (site := site) (withdrawn := .keyDamaged) (voided := .keyDamaged) hg ht
      (checkKey_sameSites s n .access) (OpenEntry.checkKey hc.opened .access) (find_checkKey s n _ _ _ _)
      (by
        rw [burnBeginItem_issued hc' 0 hi, ← checkKey_taken]
        exact burnIssued_damaged hc'.opened st site b x y hb (by rw [checkKey_taken]; exact hd))
  refine ⟨fun hburning => ?burning, fun hi hb h0 => (blockedOut hi hb).1 h0,
    fun hi hb h0 => (blockedOut hi hb).2.1 h0, fun hi hb hd h0 => (damagedOut hi hb hd).1 h0,
    fun hi hb hd h0 => (damagedOut hi hb hd).2.1 h0, fun hi hb hk => ?accepted,
    fun p g v hi h0 hf hwhy => ?lost⟩
  case burning =>
    exact item_answered (exec_burnBegin_one st b) hg ht (burnBeginItem_burning hc' 0 hburning) rfl
  case accepted =>
    have hk' : (s.taken (.station st)).keyClean n := hk
    have hitem' := (burnBeginItem_issued hc' 0 hi).trans (burnIssued_accepts hc'.opened st site b x y hb hk')
    obtain ⟨h1, h2, h3, h4⟩ := item_slot_done (exec_burnBegin_one st b) hg ht .rfl hitem'
      (writeEntry_sameBeside _ _ _) (by decide) (by decide) (by decide) (by decide)
    exact ⟨_, h1, h2, h3, Rewrites.congr (writeEntry_rewrites hc'.opened.maps c _).untaken rfl,
      writeEntry_cells _ c _, h4⟩
  case lost =>
    rcases hwhy with ⟨hb, rfl⟩ | ⟨hb, hd, rfl⟩
    · exact (blockedOut hi hb).2.2 h0 p g hf
    · exact (damagedOut hi hb hd).2.2 h0 p g hf

/-! ## BURN RESULT -/

theorem bitsOnlyIn_eq (a b : Key) (n : Nat) :
    bitsOnlyIn a b n = (List.range n).countP fun k => a.getLsbD k && !b.getLsbD k := by
  induction n with
  | zero => rfl
  | succ n ih =>
    rw [bitsOnlyIn, ih, List.range_succ, List.countP_append, List.countP_singleton, Nat.add_comm]

/-- The bit places as the list of their numbers. -/
theorem finRange_numbers (n : Nat) :
    (do let k ← List.finRange n; pure k.val : List Nat) = List.range n := by
  rw [← List.map_coe_finRange_eq_range]
  exact List.flatMap_pure_eq_map _ _

theorem missingBits_eq (key image : Key) : missingBits key image
    = (List.finRange 128).countP fun k => key.getLsbD k && !image.getLsbD k := by
  rw [missingBits, bitsOnlyIn_eq, ← finRange_numbers]

theorem extraBits_eq (key image : Key) : extraBits key image
    = (List.finRange 128).countP fun k => image.getLsbD k && !key.getLsbD k := by
  rw [extraBits, bitsOnlyIn_eq, ← finRange_numbers]

section
variable {s : State} {c : Nat} {e : Entry} {n : Fin 8192} (ho : s.OpenEntry c e n) (st : Station)
  (site : Site) (b x y : Byte) (image : Key)
include ho

theorem judgeBurn_blocked (h : s.blocked e.batch = true) : judgeBurn st site b x y image c e s
    = resultRevoked st site b c e .quarantine (missingBits (s.keyAt n).key image)
      (extraBits (s.keyAt n).key image) (s.checkKey n .access) := by
  have hb : (s.checkKey n .access).blocked e.batch = true := by
    rw [blocked_congr (s := s) (by simp)]; exact h
  simp only [judgeBurn, OpenEntry.keyNo ho, hb, if_true]

theorem judgeBurn_damaged (h : s.blocked e.batch = false)
    (hd : ((s.checkKey n .access).keySlot n).damaged = true) : judgeBurn st site b x y image c e s
    = resultRevoked st site b c e .keyDamaged (missingBits (s.keyAt n).key image)
      (extraBits (s.keyAt n).key image) (s.checkKey n .access) := by
  have hb : (s.checkKey n .access).blocked e.batch = false := by
    rw [blocked_congr (s := s) (by simp)]; exact h
  simp only [judgeBurn, OpenEntry.keyNo ho, hb, Bool.false_eq_true, if_false, hd, if_true]

/-- With a clean key of a batch that is not blocked the bits judge (R109). -/
theorem judgeBurn_clean (h : s.blocked e.batch = false) (hk : s.keyClean n) :
    judgeBurn st site b x y image c e s =
      if 0 < extraBits (s.keyAt n).key image then
        resultVoided st site b c e .spoiled (missingBits (s.keyAt n).key image)
          (extraBits (s.keyAt n).key image) s
      else if missingBits (s.keyAt n).key image = 0 then resultPass st site b c e s
      else if e.attempts.toNat = s.limits.attemptLimit then
        resultVoided st site b c e .attempts (missingBits (s.keyAt n).key image)
          (extraBits (s.keyAt n).key image) s
      else resultPartial st site b x y c e (missingBits (s.keyAt n).key image) s := by
  simp only [judgeBurn, OpenEntry.keyNo ho, checkKey_clean hk, h, hk.2, Bool.false_eq_true, if_false]

end

theorem closeAppend_sameBeside (s : State) (c : Nat) (e : Entry) (v : EntryState) (k : JournalKind)
    (o : Option (Station × Site)) (r : Option Reason) (x : Option (Nat × Nat)) :
    s.sameBeside ((s.closeEntry c e v).appendOutcome e k o r x) [.pool, .table, .store, .journal] :=
  fun b hb => by
    cases b with
    | pool | table | store | journal => simp at hb
    | _ => simp [Block.same]

/-- A BURN RESULT item that ends its entry, in the state v in which it is judged. -/
theorem burnResult_ends {s v : State} {st : Station} {b : Byte} {site : Site} {c : Nat} {e : Entry}
    {n : Fin 8192} {image : Key} (hg : s.Granted (.station st) (.burnResult [⟨b, image⟩]))
    (ht : s.taking) (hv : s.SameSites v) (ho : v.OpenEntry c e n) {out : ItemOutcome}
    {final : EntryState} {kind : JournalKind} {reason : Option Reason} {counts : Nat × Nat}
    (hitem : burnResultItem st 0 ⟨b, image⟩ (s.taken (.station st)) = (out,
      (((v.taken (.station st)).closeEntry c e final).appendOutcome e kind (some (st, site)) reason
        (some counts)).setSlot st site .free)) :
    ∃ t, exec (.burnResult st [⟨b, image⟩]) s = .next t
      ∧ s.Replies t (.station st) 0x05 (.items [out]) false
      ∧ s.onlySite t st site .free
      ∧ v.Ends t c e n final kind (some (st, site)) reason (some counts)
      ∧ v.sameBeside t [.stations, .pool, .table, .store, .journal, .links, .arbiter] := by
  obtain ⟨h1, h2, h3, h4⟩ := item_slot_done (exec_burnResult_one st ⟨b, image⟩) hg ht hv hitem
    (closeAppend_sameBeside _ _ _ _ _ _ _ _) (by decide) (by decide) (by decide) (by decide)
  exact ⟨_, h1, h2, h3,
    (closeEntry_ends (OpenEntry.taken ho (.station st)) _ _ _ _ _).untaken.congr rfl rfl rfl rfl, h4⟩

/-- Settles O32: the tests of R111 in order, and the judgement of R109. -/
theorem burnResultDecides : Obligations.BurnResultDecides := by
  unfold Obligations.BurnResultDecides
  intro s st b x y site image c e n hg ht hc i key missing extra u ended
  have hc' := Claimed.taken hc (.station st)
  have hmissing : missingBits key image = missing := missingBits_eq key image
  have hextra : extraBits key image = extra := extraBits_eq key image
  have hsites := checkKey_sameSites s n .access
  have hou := OpenEntry.checkKey hc.opened .access
  have judged (hi : e.state = .burning) : burnResultItem st 0 ⟨b, image⟩ (s.taken (.station st))
      = judgeBurn st site b x y image c e (s.taken (.station st)) :=
    burnResultItem_burning hc' 0 image hi
  have clean (hi : e.state = .burning) (hb : s.blocked e.batch = false) (hk : s.keyClean n) :=
    (judged hi).trans (judgeBurn_clean hc'.opened st site b x y image hb hk)
  simp only [show ((s.taken (.station st)).keyAt n).key = key from rfl, hmissing, hextra] at clean
  refine ⟨fun hissued => ?issued, fun hi hb => ?blocked, fun hi hb hd => ?damaged,
    fun hi hb hk hex => ?spoiled, fun hi hb hk hex hmi => ?pass, fun hi hb hk hex hmi ha => ?attempts,
    fun hi hb hk hex hmi ha => ?partly⟩
  case issued =>
    exact item_answered (exec_burnResult_one st ⟨b, image⟩) hg ht
      (burnResultItem_issued hc' 0 image hissued) rfl
  case blocked =>
    refine burnResult_ends (n := n) hg ht hsites hou ((judged hi).trans
      ((judgeBurn_blocked hc'.opened st site b x y image hb).trans ?_))
    rw [checkKey_taken, ← hmissing, ← hextra]
    rfl
  case damaged =>
    refine burnResult_ends (n := n) hg ht hsites hou ((judged hi).trans
      ((judgeBurn_damaged hc'.opened st site b x y image hb (by rw [checkKey_taken]; exact hd)).trans ?_))
    rw [checkKey_taken, ← hmissing, ← hextra]
    rfl
  case spoiled =>
    have h := clean hi hb hk
    rw [if_pos hex] at h
    exact burnResult_ends (n := n) hg ht .rfl hc.opened h
  case pass =>
    have h := clean hi hb hk
    rw [if_neg (by omega), if_pos hmi] at h
    have hcounts : (missing, extra) = (0, 0) := by rw [hmi, hex]
    change ∃ t, _ ∧ _ ∧ _ ∧ State.Ends s t c e n _ _ _ _ (some (missing, extra)) ∧ _
    rw [hcounts]
    exact burnResult_ends (n := n) hg ht .rfl hc.opened h
  case attempts =>
    have h := clean hi hb hk
    rw [if_neg (by omega), if_neg (by omega), if_pos (by exact ha)] at h
    exact burnResult_ends (n := n) hg ht .rfl hc.opened h
  case partly =>
    have h := clean hi hb hk
    rw [if_neg (by omega), if_neg (by omega), if_neg (by exact ha)] at h
    obtain ⟨h1, h2, h3, h4⟩ := item_slot_done (exec_burnResult_one st ⟨b, image⟩) hg ht .rfl h
      (writeEntry_sameBeside _ _ _) (by decide) (by decide) (by decide) (by decide)
    exact ⟨_, h1, h2, h3, Rewrites.congr (writeEntry_rewrites hc'.opened.maps c _).untaken rfl,
      writeEntry_cells _ c _, h4⟩

end Sys2Proof.Machine

/-! PROOF. CLAIM items: the refusals before the table and at it (R83, R89 to R93), the resource tests (R96),
the repeat on a HELD site (R85 to R88) and the takeover of an UNCERTAIN entry (R94, R95). -/

namespace Sys2Proof.Machine

theorem claimItem_outOfRange {s : State} {st : Station} {items : List ClaimItem} {k : Nat}
    {i : ClaimItem} (h : 15 < i.site.toNat) :
    claimItem st items k i s = (plainItem i.site .outOfRange, s) := by
  simp only [claimItem, siteCheck_outOfRange h]

/-! ## A claim item on a FREE site -/

section
variable {s : State} {st : Station} {items : List ClaimItem} {k : Nat} {i : ClaimItem} {site : Site}
  {w : Byte} (hb : siteOf i.site = some site) (hslot : s.slot st site = .free)
include hb hslot

theorem claimItem_noWafer (hw : s.stations[st].attached = none) :
    claimItem st items k i s = (plainItem i.site .noWafer, s) := by
  simp only [claimItem, siteCheck_free hb hslot, claimFree, hw]

variable (hw : s.stations[st].attached = some w)
include hw

theorem claimItem_duplicate
    (h : ∃ j, j < k ∧ ∃ h : j < items.length, items[j].x = i.x ∧ items[j].y = i.y) :
    claimItem st items k i s = (plainItem i.site .duplicateInSet, s) := by
  obtain ⟨j, hjk, hj, hx, hy⟩ := h
  have hany : (items.take k).any (fun a => a.x = i.x && a.y = i.y) = true := by
    rw [List.any_eq_true]
    exact ⟨items[j], List.mem_take_iff_getElem.mpr ⟨j, by omega, rfl⟩, by simp [hx, hy]⟩
  simp only [claimItem, siteCheck_free hb hslot, claimFree, hw, hany, if_true]

variable (hfirst : (items.take k).any (fun a => a.x = i.x && a.y = i.y) = false)
include hfirst

theorem claimItem_halted (hh : s.check.halt = true) :
    claimItem st items k i s = (plainItem i.site .issueHalted, s) := by
  simp only [claimItem, siteCheck_free hb hslot, claimFree, hw, hfirst, hh, Bool.false_eq_true, if_false,
    if_true]

variable (hh : s.check.halt = false)
include hh

theorem claimItem_excluded (hd : s.decision w i.x i.y = .exclude) :
    claimItem st items k i s = (plainItem i.site .excluded, s) := by
  simp only [claimItem, siteCheck_free hb hslot, claimFree, hw, hfirst, hh, hd, Bool.false_eq_true, if_false]

theorem claimItem_bucket {cls : SerialClass} (hd : s.decision w i.x i.y = .cls cls) :
    claimItem st items k i s = claimBucket st site i.site w i.x i.y cls s := by
  simp only [claimItem, siteCheck_free hb hslot, claimFree, hw, hfirst, hh, hd, Bool.false_eq_true, if_false]

end

section
variable {s : State} {st : Station} {site : Site} {b w x y : Byte} {cls : SerialClass}

theorem claimBucket_damaged (hp : s.headFault (bucketOf w x y) = false)
    (hd : (s.head (bucketOf w x y)).damaged = true) :
    claimBucket st site b w x y cls s = (plainItem b .bucketDamaged, s) := by
  simp only [claimBucket, hp, hd, Bool.false_eq_true, if_false, if_true]

/-- A fault that the item's own read of the head or its walk finds (R77, R158). -/
theorem claimBucket_fault {p : FaultPlace} {g : FaultGroup} (hf : s.find w x y = .fault p g) :
    claimBucket st site b w x y cls s = (plainItem b .bucketDamaged, s.tableFault p g .access) := by
  cases hhead : s.headFault (bucketOf w x y) with
  | true =>
    have hfind := hf
    simp only [State.find, hhead, if_true, Lookup.fault.injEq] at hfind
    obtain ⟨rfl, rfl⟩ := hfind
    simp only [claimBucket, hhead, if_true]
  | false =>
    have hwhole : (s.head (bucketOf w x y)).damaged = false := by
      cases hd : (s.head (bucketOf w x y)).damaged with
      | false => rfl
      | true => simp [State.find, hhead, hd] at hf
    simp only [claimBucket, hhead, hwhole, Bool.false_eq_true, if_false, lookup_fault .access hf]

end

section
variable {s : State} {st : Station} {b : Byte} {site : Site} {w x y : Byte} {cls : SerialClass}
  (h : s.AtTable st b site w x y cls)
include h

/-- The first item of a CLAIM, at the table. -/
theorem AtTable.claimItem (items : List ClaimItem) :
    claimItem st items 0 ⟨b, x, y⟩ s = claimBucket st site b w x y cls s :=
  claimItem_bucket (i := ⟨b, x, y⟩) h.named h.slot h.wafer rfl h.halt h.decided

theorem AtTable.claimNew (items : List ClaimItem) {len : Nat} {last : Option Nat}
    (hf : s.find w x y = .notFound len last) :
    Machine.claimItem st items 0 ⟨b, x, y⟩ s = Machine.claimNew st site b w x y cls len last s := by
  rw [AtTable.claimItem h]
  simp only [claimBucket, h.head, h.whole, Bool.false_eq_true, if_false, lookup_notFound hf]

theorem AtTable.claimExisting (items : List ClaimItem) {c : Nat} {pred : Option Nat}
    (hf : s.find w x y = .found c pred) :
    Machine.claimItem st items 0 ⟨b, x, y⟩ s = Machine.claimExisting st site b x y c s := by
  rw [AtTable.claimItem h]
  simp only [claimBucket, h.head, h.whole, Bool.false_eq_true, if_false, lookup_of_found hf]

end

theorem AtTable.taken {s : State} {st : Station} {b : Byte} {site : Site} {w x y : Byte}
    {cls : SerialClass} (h : s.AtTable st b site w x y cls) (l : Link) :
    (s.taken l).AtTable st b site w x y cls :=
  ⟨h.named, h.slot, h.wafer, h.halt, h.decided, h.head, h.whole⟩

section
variable {s : State} {st : Station} {site : Site} {b x y : Byte} {c : Nat}

theorem claimExisting_held (h : (s.entryAt c).state = .issued ∨ (s.entryAt c).state = .burning) :
    claimExisting st site b x y c s = (plainItem b .heldElsewhere, s) := by
  rcases h with h | h <;> simp only [claimExisting, h]

theorem claimExisting_provisioned (h : (s.entryAt c).state = .provisioned) :
    claimExisting st site b x y c s = (⟨b, .alreadyProvisioned,
      .serial (s.entryAt c).serial (s.entryAt c).digit (s.entryAt c).cls⟩, s) := by
  simp only [claimExisting, h]

theorem claimExisting_void (h : (s.entryAt c).state = .void) :
    claimExisting st site b x y c s = (plainItem b .dieVoid, s) := by
  simp only [claimExisting, h]

theorem claimExisting_uncertain {e : Entry} (he : s.entryAt c = e) (h : e.state = .uncertain) :
    claimExisting st site b x y c s = takeover st site b x y c e s := by
  simp only [claimExisting, he, h]

end

/-- A list request of two items that both leave the state as it was. -/
theorem request_two_unchanged {α : Type} {s : State} {l : Link} {r : Request} (hg : s.Granted l r)
    (ht : s.taking) {f : Nat → α → State → ItemOutcome × State} {a a' : α} {out out' : ItemOutcome}
    (h : f 0 a (s.taken l) = (out, s.taken l)) (h' : f 1 a' (s.taken l) = (out', s.taken l)) :
    s.request l r (fun u => listReply (runItems f 0 [a, a'] u))
      = s.answeredItems l (kindOf r) [out, out'] := by
  have hd : (s.taken l).deferred = [] := hg.calm.noBoundary
  have hrun : runItems f 0 [a, a'] (s.taken l) = ([out, out'], s.taken l) := by
    simp only [runItems, h, h', endItem_calm hd, Nat.zero_add]
  rw [request_replies hg ht (u := s.taken l) (body := .items [out, out']) ?_ hd]
  · exact reply_taken s l (kindOf r) _
  · rw [hrun]
    rfl

theorem exec_claim_list (st : Station) (items : List ClaimItem) (s : State) : exec (.claim st items) s
    = .next (s.request (.station st) (.claim items)
      fun u => listReply (runItems (claimItem st items) 0 items u)) := rfl

/-- Settles O23: the checks of R83 in order, each on the state that the grant has taken. -/
theorem claimRefusedAtTheTable : Obligations.ClaimRefusedAtTheTable := by
  unfold Obligations.ClaimRefusedAtTheTable
  refine ⟨?item, ?duplicate, ?twice⟩
  case item =>
    intro s st b x y site hg ht hb hslot answered
    have hslot' : (s.taken (.station st)).slot st site = .free := hslot
    have done {code : Code} {data : ItemData}
        (h : claimItem st [⟨b, x, y⟩] 0 ⟨b, x, y⟩ (s.taken (.station st))
          = (⟨b, code, data⟩, s.taken (.station st))) : answered code data := by
      exact item_answered (exec_claim_one st ⟨b, x, y⟩) hg ht h rfl
    refine ⟨fun hw => ?noWafer, fun w hw hh => ?halted, fun w hw hh hd => ?excluded,
      fun w cls hw hh hd hp hdam => ?damaged, fun w cls c pred hat hf => ?existing,
      fun w cls p g hw hh hd hf => ?fault⟩
    case noWafer => exact done (claimItem_noWafer (siteOf_val hb) hslot' hw)
    case halted => exact done (claimItem_halted (siteOf_val hb) hslot' hw rfl hh)
    case excluded => exact done (claimItem_excluded (siteOf_val hb) hslot' hw rfl hh hd)
    case damaged =>
      exact done ((claimItem_bucket (i := ⟨b, x, y⟩) (siteOf_val hb) hslot' hw rfl hh hd).trans
        (claimBucket_damaged (s := s.taken (.station st)) hp hdam))
    case existing =>
      have hat' := AtTable.taken hat (.station st)
      have hitem := AtTable.claimExisting hat' [⟨b, x, y⟩] ((find_taken s _ _ _ _).trans hf)
      refine ⟨fun h => done (hitem.trans ?_), fun h => done (hitem.trans ?_),
        fun h => done (hitem.trans ?_)⟩
      · exact claimExisting_held (s := s.taken (.station st)) h
      · exact claimExisting_provisioned (s := s.taken (.station st)) h
      · exact claimExisting_void (s := s.taken (.station st)) h
    case fault =>
      have hitem : claimItem st [⟨b, x, y⟩] 0 ⟨b, x, y⟩ (s.taken (.station st))
          = (plainItem b .bucketDamaged, (s.tableFault p g .access).taken (.station st)) := by
        rw [claimItem_bucket (i := ⟨b, x, y⟩) (siteOf_val hb) hslot' hw rfl hh hd,
          claimBucket_fault ((find_taken s _ _ _ _).trans hf), tableFault_taken]
      exact item_answered (exec_claim_one st ⟨b, x, y⟩) hg ht hitem (by simp)
  case duplicate =>
    intro s st items k i site w hb hslot hw hearlier
    exact claimItem_duplicate (siteOf_val hb) hslot hw hearlier
  case twice =>
    intro s st b b' x y w site hg ht hb hb' hslot hw
    rw [exec_claim_list, request_two_unchanged hg ht (claimItem_outOfRange (i := ⟨b, x, y⟩) hb)
      (claimItem_duplicate (i := ⟨b', x, y⟩) (siteOf_val hb') hslot hw
        ⟨0, by omega, by simp, rfl, rfl⟩)]
    rfl

/-! ## The resource tests -/

theorem claimNew_refused {s : State} {st : Station} {site : Site} {b w x y : Byte} {cls : SerialClass}
    {len : Nat} {last : Option Nat} {code : Code} (h : resourceRefusal cls s = some code) :
    claimNew st site b w x y cls len last s = (plainItem b code, s) := by
  rw [claimNew, h]

/-- Settles O24: the first resource test that fails. -/
theorem claimResourceOrder : Obligations.ClaimResourceOrder := by
  unfold Obligations.ClaimResourceOrder
  intro s st b w x y site cls len last hg ht hat hf refused unit sum
  have hunit : s.unit cls = unit := by cases cls <;> rfl
  have hitem := AtTable.claimNew (AtTable.taken hat (.station st)) [⟨b, x, y⟩]
    ((find_taken s _ _ _ _).trans hf)
  have done {code : Code} (h : resourceRefusal cls (s.taken (.station st)) = some code) :
      refused code :=
    item_answered (exec_claim_one st ⟨b, x, y⟩) hg ht (hitem.trans (claimNew_refused h)) rfl
  have hrefusal : resourceRefusal cls (s.taken (.station st)) =
      if s.table.free.isEmpty then some .tableFull
      else if unit.exhausted then some .serialExhausted
      else if 256 ≤ sum then some .journalFull
      else if s.pool.stack.length + s.pool.fresh.length = 0 then some .poolEmpty
      else none := by rw [← hunit]; cases cls <;> rfl
  refine ⟨fun hfree => done ?_, fun hfree hex => done ?_, fun hfree hex hsum => done ?_,
    fun hfree hex hsum hstack hfresh => done ?_⟩ <;> rw [hrefusal]
  · simp [hfree]
  · simp [hfree, hex]
  · simp [hfree, hex, hsum]
  · simp [hfree, hex, hstack, hfresh, Nat.not_le.mpr hsum]

/-! ## The repeat on a HELD site -/

section
variable {s : State} {st : Station} {b : Byte} {site : Site} {x y : Byte} {c : Nat} {e : Entry}
  {n : Fin 8192}

theorem claimItem_busy {items : List ClaimItem} {k : Nat} {x' y' : Byte} {lease : Nat}
    (hb : siteOf b = some site) (hslot : s.slot st site = .held x' y' c lease)
    (hne : ¬ (x' = x ∧ y' = y)) :
    claimItem st items k ⟨b, x, y⟩ s = (plainItem b .siteBusy, s) := by
  simp only [claimItem, siteCheck_held hb hslot, if_neg hne]

/-- The claim item's own read of the entry does not reach it. -/
theorem claimItem_unreached {items : List ClaimItem} {k : Nat} {t : State}
    (h : s.siteCheck st b = (.held site x y c, s)) (ha : s.access .access c = (none, t)) :
    claimItem st items k ⟨b, x, y⟩ s = (plainItem b .bucketDamaged, t.setSlot st site .free) := by
  simp only [claimItem, h, and_self, if_true, claimRepeat, ha, State.freeSite]

variable (hc : s.Claimed st b site x y c e n)
include hc

theorem claimItem_burning (items : List ClaimItem) (k : Nat) (h : e.state = .burning) :
    claimItem st items k ⟨b, x, y⟩ s = (plainItem b .wrongState, s) := by
  simp only [claimItem, Claimed.siteCheck hc, and_self, if_true, claimRepeat, Claimed.access hc, h]

theorem claimItem_reissued (items : List ClaimItem) (k : Nat) (h : e.state = .issued)
    (hk : s.keyClean n) : claimItem st items k ⟨b, x, y⟩ s
      = (⟨b, .reissued, grantData e (s.keyAt n).key⟩,
        s.setSlot st site (.held x y c s.limits.claimLease)) := by
  simp only [claimItem, Claimed.siteCheck hc, and_self, if_true, claimRepeat, Claimed.access hc, h,
    OpenEntry.keyNo hc.opened, checkKey_clean hk, hk.2, Bool.false_eq_true, if_false]
  rfl

theorem claimItem_damaged (items : List ClaimItem) (k : Nat) (h : e.state = .issued)
    (hd : ((s.checkKey n .access).keySlot n).damaged = true) : claimItem st items k ⟨b, x, y⟩ s
      = repeatOnDamaged st site b c e (s.checkKey n .access) := by
  simp only [claimItem, Claimed.siteCheck hc, and_self, if_true, claimRepeat, Claimed.access hc, h,
    OpenEntry.keyNo hc.opened, hd]

end

/-- Settles O27: the site's die, then the entry's state and its key. -/
theorem Settles.claimRepeat : Obligations.ClaimRepeat := by
  unfold Obligations.ClaimRepeat
  intro s st b x y site c hg ht i u
  have hexec := exec_claim_one st ⟨b, x, y⟩
  have damaged {e : Entry} {n : Fin 8192} (hc : s.Claimed st b site x y c e n) (hi : e.state = .issued)
      (hd : ((u n).keySlot n).damaged = true) :
      claimItem st [⟨b, x, y⟩] 0 ⟨b, x, y⟩ (s.taken (.station st))
        = repeatOnDamaged st site b c e ((u n).taken (.station st)) := by
    rw [← checkKey_taken]
    exact claimItem_damaged (Claimed.taken hc (.station st)) _ 0 hi (by rw [checkKey_taken]; exact hd)
  have hfind (n : Nat) (e : Entry) : ((u n).taken (.station st)).find e.wafer e.x e.y
      = s.find e.wafer e.x e.y := (find_taken _ _ _ _ _).trans (find_checkKey s n .access _ _ _)
  refine ⟨fun e n hc hburning => ?burning, fun e n hc hi hk => ?reissued,
    fun e n c' pred hc hi hd h0 hf => ?withdrawn, fun e n hc hi hd h0 => ?voided,
    fun x' y' lease hb hslot hne => ?busy, fun lease h hb hslot hbucket hp hd => ?frozen,
    fun lease h p g hb hslot hbucket hf => ?fault, fun e n p g hc hi hd h0 hf => ?lost⟩
  case burning =>
    exact item_answered hexec hg ht (claimItem_burning (Claimed.taken hc (.station st)) _ 0 hburning) rfl
  case reissued =>
    have hitem := claimItem_reissued (Claimed.taken hc (.station st)) [⟨b, x, y⟩] 0 hi hk
    obtain ⟨h1, h2, h3, h4⟩ := item_slot_done hexec hg ht .rfl hitem
      (sameBeside_rfl _ []) (by decide) (by decide) (by decide) (by decide)
    exact ⟨_, h1, h2, h3, h4⟩
  case withdrawn =>
    have hitem := damaged hc hi hd
    rw [repeatOnDamaged, revokeClaim_withdraws h0 ((hfind n e).trans hf)] at hitem
    obtain ⟨h1, h2, h3, h4⟩ := item_slot_done hexec hg ht (checkKey_sameSites s n .access) hitem
      (withdrawEntry_sameBeside _ _ _ _ _ _) (by decide) (by decide) (by decide) (by decide)
    have ho := OpenEntry.taken (OpenEntry.checkKey hc.opened .access) (.station st)
    exact ⟨_, h1, h2, h3,
      (withdraw_found ho ((hfind n e).trans hf) _ _).untaken.congr rfl rfl rfl rfl, h4⟩
  case voided =>
    have hitem := damaged hc hi hd
    rw [repeatOnDamaged, revokeClaim_voids h0] at hitem
    obtain ⟨h1, h2, h3, h4⟩ := item_slot_done hexec hg ht (checkKey_sameSites s n .access) hitem
      (voidEntry_sameBeside _ _ _ _ _ _) (by decide) (by decide) (by decide) (by decide)
    have ho := OpenEntry.taken (OpenEntry.checkKey hc.opened .access) (.station st)
    exact ⟨_, h1, h2, h3, (voidEntry_ends ho _ _ _).untaken.congr rfl rfl rfl rfl, h4⟩
  case busy =>
    exact item_answered hexec hg ht
      (claimItem_busy (s := s.taken (.station st)) (siteOf_val hb) hslot hne) rfl
  case frozen =>
    exact item_frozen hexec (fun s t => claimItem_unreached) hg ht hb hslot hbucket hp hd
  case fault =>
    exact item_faulty hexec (fun s t => claimItem_unreached) hg ht hb hslot hbucket hf
  case lost =>
    have hitem := damaged hc hi hd
    rw [repeatOnDamaged, revokeClaim_lost h0 ((hfind n e).trans hf), tableFault_taken] at hitem
    have hv := checkKey_sameSites s n .access
    have hv' := tableFault_sameSites (u n) p g .access
    obtain ⟨h1, h2, h3, h4⟩ := item_slot_done hexec hg ht
      ⟨hv'.stations.trans hv.stations, hv'.links.trans hv.links, hv'.deferred.trans hv.deferred⟩ hitem
      (sameBeside_rfl _ []) (by decide) (by decide) (by decide) (by decide)
    exact ⟨_, h1, h3, h2, h4⟩

/-! ## The takeover -/

section
variable {s : State} {c : Nat} {e : Entry} {n : Fin 8192} (st : Station) (site : Site) (b x y : Byte)

theorem takeover_blocked (h : s.blocked e.batch = true) :
    takeover st site b x y c e s = voidUncertain st site b c e .quarantine s := by
  rw [takeover, if_pos h]

variable (ho : s.OpenEntry c e n) (h : s.blocked e.batch = false)
include ho h

theorem takeover_damaged (hd : ((s.checkKey n .access).keySlot n).damaged = true) :
    takeover st site b x y c e s = voidUncertain st site b c e .keyDamaged (s.checkKey n .access) := by
  simp only [takeover, h, OpenEntry.keyNo ho, hd, Bool.false_eq_true, if_false, if_true]

variable (hk : s.keyClean n)
include hk

theorem takeover_spent (ha : e.attempts.toNat = s.limits.attemptLimit) :
    takeover st site b x y c e s = voidUncertain st site b c e .attempts s := by
  simp only [takeover, h, OpenEntry.keyNo ho, checkKey_clean hk, hk.2, ha, Bool.false_eq_true, if_false,
    if_true]

theorem takeover_takes (ha : e.attempts.toNat ≠ s.limits.attemptLimit) :
    takeover st site b x y c e s = (⟨b, .reissued, grantData e (s.keyAt n).key⟩,
      (s.writeEntry c { e with state := .issued, owner := some (st, site) }).setSlot st site
        (.held x y c s.limits.claimLease)) := by
  simp only [takeover, h, OpenEntry.keyNo ho, checkKey_clean hk, hk.2, if_neg ha, Bool.false_eq_true,
    if_false]
  rfl

end

/-- Settles O28: the takeover tests in order. -/
theorem claimTakesOver : Obligations.ClaimTakesOver := by
  unfold Obligations.ClaimTakesOver
  intro s st b w x y site cls c pred e n hg ht hat hf ho hun u voided
  have hexec := exec_claim_one st ⟨b, x, y⟩
  have ho' := OpenEntry.taken ho (.station st)
  have hitem : claimItem st [⟨b, x, y⟩] 0 ⟨b, x, y⟩ (s.taken (.station st))
      = takeover st site b x y c e (s.taken (.station st)) :=
    (AtTable.claimExisting (AtTable.taken hat (.station st)) _ ((find_taken s _ _ _ _).trans hf)).trans
      (claimExisting_uncertain ho'.reach.entry hun)
  have void {v : State} {reason : Reason} (hv : s.SameSites v) (hov : v.OpenEntry c e n)
      (h : takeover st site b x y c e (s.taken (.station st))
        = voidUncertain st site b c e reason (v.taken (.station st))) : voided v reason := by
    obtain ⟨h1, h2, h3⟩ := item_done hexec hg ht hv (hitem.trans h)
      (voidEntry_sameBeside _ _ _ _ _ _) (by decide) (by decide) (by decide)
    exact ⟨_, h1, h2,
      (voidEntry_ends (OpenEntry.taken hov (.station st)) _ _ _).untaken.congr rfl rfl rfl rfl, h3⟩
  refine ⟨fun hb => void .rfl ho ?_, fun hb hd => void (checkKey_sameSites s n .access)
    (OpenEntry.checkKey ho .access) ?_, fun hb hk ha => void .rfl ho ?_, fun hb hk ha => ?takes⟩
  · exact takeover_blocked (s := s.taken (.station st)) st site b x y hb
  · rw [← checkKey_taken]
    exact takeover_damaged st site b x y ho' hb (by rw [checkKey_taken]; exact hd)
  · exact takeover_spent st site b x y ho' hb hk ha
  case takes =>
    obtain ⟨h1, h2, h3, h4⟩ := item_slot_done hexec hg ht .rfl
      (hitem.trans (takeover_takes st site b x y ho' hb hk ha))
      (writeEntry_sameBeside _ _ _) (by decide) (by decide) (by decide) (by decide)
    exact ⟨_, h1, h2, h3, Rewrites.congr (writeEntry_rewrites ho'.maps c _).untaken rfl,
      writeEntry_cells _ c _, h4⟩

end Sys2Proof.Machine

/-! PROOF. ATTACH (R12) and the lot link's requests on the lot, the journal and the sweeps: LOT OPEN (R4),
LOT AMEND (R6), LOT LOCK (R7), LOT CLOSE (R9), JOURNAL TAKE (R152), QUARANTINE (R135), PURGE WAFER (R132),
AUDIT START and AUDIT STOP (R139). -/

namespace Sys2Proof.Machine

/-- A granted request that its lot state takes and whose rule leaves some state as its own grant would
have taken it: the answer of Safety, on that state. -/
theorem request_answers {s t : State} {l : Link} {r : Request} (h : s.Granted l r)
    (hgate : lotGate s.lot.state r = none) {act : State → Option ReplyBody × State} {body : ReplyBody}
    (ha : act (s.taken l) = (some body, t.taken l)) (hd : t.deferred = s.deferred) :
    s.request l r act = t.answered l (kindOf r) body ((t.taken l).reportsDone body) := by
  have hcalm : ((t.taken l).reply l (kindOf r) body).deferred = [] := hd.trans h.calm.noBoundary
  rw [request_decided h hgate, ha]
  exact (endWork_calm hcalm).trans (reply_taken t l (kindOf r) body)

/-! ## ATTACH -/

section
variable {s : State} {st : Station} {w : Byte}

theorem wafer_none (h : w = 0 ∨ 25 < w.toNat) : s.wafer w = none := if_pos h

theorem attachRule_badParam (h : s.wafer w = none) : attachRule st w s = answer s .badParam := by
  simp only [attachRule, h]

theorem attachRule_same (h : s.wafer w = some (.attached st)) :
    attachRule st w s = (some (.attached w none 0), s) := by
  simp only [attachRule, h, if_true]

theorem attachRule_finished (h : s.wafer w = some .finished) :
    attachRule st w s = answer s .waferFinished := by
  simp only [attachRule, h]

theorem attachRule_busy
    (h : (∃ t, t ≠ st ∧ s.wafer w = some (.attached t)) ∨ s.wafer w = some .purging) :
    attachRule st w s = answer s .waferBusy := by
  rcases h with ⟨t, hne, h⟩ | h
  · simp only [attachRule, h, if_neg hne]
  · simp only [attachRule, h]

variable (h : s.wafer w = some .new ∨ s.wafer w = some .detached)
include h

theorem attachRule_claims (hc : ∃ site, (s.slot st site).isHeld = true) :
    attachRule st w s = answer s .claimsActive := by
  have hholds : s.stations[st].holds = true := s.stations[st].holds_iff.mpr hc
  rcases h with h | h <;> simp only [attachRule, h, hholds, if_true]

theorem attachRule_moves (hc : ¬ ∃ site, (s.slot st site).isHeld = true) :
    attachRule st w s = s.moveStation st w := by
  have hholds : ¬ s.stations[st].holds = true := fun hh => hc (s.stations[st].holds_iff.mp hh)
  rcases h with h | h <;> simp only [attachRule, h, if_neg hholds]

end

theorem exec_attach (st : Station) (w : Byte) (s : State) : exec (.attach st w) s
    = .next (s.request (.station st) (.attach w) (attachRule st w)) := rfl

theorem kindOf_attach (w : Byte) : kindOf (.attach w) = 0x01 := rfl

/-- A detach, an attach and the reply touch the lot, the stations, the links and the arbiter alone. -/
theorem attach_sameBeside (s : State) (st : Station) (old w : Byte) (l : Link) (k : Byte)
    (body : ReplyBody) :
    s.sameBeside ((((s.taken l).detachWafer st old).attachWafer st w).reply l k body)
      [.lot, .stations, .links, .arbiter] := by
  intro b hb
  cases b with
  | lot | stations | links | arbiter => simp at hb
  | _ => rfl

/-- The wafer records after the implicit detach and the attach (R12). -/
theorem wafer_moveStation {s : State} {st : Station} {old w : Byte} (hold : s.wafer old ≠ none)
    (hw : s.wafer w ≠ none) (v : Byte) : ((s.detachWafer st old).attachWafer st w).wafer v
      = if v = w then some (.attached st) else if v = old then some .detached else s.wafer v := by
  have hw' : (s.detachWafer st old).wafer w ≠ none := by
    rw [wafer_detachWafer hold]
    split
    · simp
    · exact hw
  have h := wafer_setWafer (v := v) (x := .attached st) hw'
  rw [← wafer_detachWafer hold st v]
  exact h

theorem attachWafer_slot (s : State) (st : Station) (w : Byte) (site : Site) :
    (s.attachWafer st w).slot st site = s.slot st site := by
  unfold State.slot State.attachWafer
  rw [stations_setStation_same]

theorem attachWafer_stations_ne (s : State) {st st' : Station} (w : Byte) (h : st' ≠ st) :
    (s.attachWafer st w).stations[st'] = s.stations[st'] :=
  stations_setStation_ne _ _ h

/-- Settles O14: the cases of the rule, each on the state that the grant has taken. -/
theorem attachDecides : Obligations.AttachDecides := by
  unfold Obligations.AttachDecides
  intro s st w hg ht hok code open_ claims
  have hcode {c : Code} (h : attachRule st w (s.taken (.station st)) = answer (s.taken (.station st)) c) :
      exec (.attach st w) s = .next (code c) := by
    rw [exec_attach, request_code hg ht h]
    rfl
  refine ⟨fun h => ?badParam, fun h => ?same, fun h => hcode (attachRule_finished h),
    fun h => hcode (attachRule_busy h), fun h hc => hcode (attachRule_claims h hc),
    fun h hc hnone => ?attached, fun old h hc hold => ?moved⟩
  case badParam => exact hcode (attachRule_badParam (wafer_none h))
  case same =>
    rw [exec_attach, request_answers hg (lotGate_taking ht _) (t := s) (attachRule_same h) rfl]
    rfl
  case attached =>
    have hrule : attachRule st w (s.taken (.station st))
        = (some (.attached w none 0), (s.attachWafer st w).taken (.station st)) := by
      rw [attachRule_moves (s := s.taken (.station st)) h hc, State.moveStation]
      simp only [show (s.taken (.station st)).stations[st].attached = none from hnone]
      rfl
    rw [exec_attach, request_answers hg (lotGate_taking ht _) hrule rfl]
    rfl
  case moved =>
    have hrule : attachRule st w (s.taken (.station st))
        = (some (.attached w (some old) s.stations[st].notices),
          ((s.taken (.station st)).detachWafer st old).attachWafer st w) := by
      rw [attachRule_moves (s := s.taken (.station st)) h hc, State.moveStation]
      simp only [show (s.taken (.station st)).stations[st].attached = some old from hold]
      rfl
    have holdrec : s.wafer old ≠ none := by
      obtain ⟨hattached, -, -⟩ := hok
      simp [(hattached st old).mp hold]
    have hrec : s.wafer w ≠ none := by rcases h with h | h <;> simp [h]
    have hexec : exec (.attach st w) s = .next
        ((((s.taken (.station st)).detachWafer st old).attachWafer st w).reply (.station st) 0x01
          (.attached w (some old) s.stations[st].notices)) := by
      rw [exec_attach, request_replies hg ht hrule hg.calm.noBoundary, kindOf_attach]
    refine ⟨_, s.stations[st].notices, hexec, replies_reply _ rfl rfl rfl,
      s.stations[st].notices_eq_countP, ?_, fun site => ?_, fun st' hne => ?_,
      wafer_moveStation (s := s.taken (.station st)) holdrec hrec, rfl,
      attach_sameBeside s st old w _ _ _⟩
    · exact congrArg StationTable.attached (stations_setStation_same _ st _)
    · exact (attachWafer_slot _ st w site).trans (detachWafer_slot _ st old site)
    · exact (attachWafer_stations_ne _ w hne).trans (detachWafer_stations_ne _ old hne)

/-! ## LOT OPEN, LOT AMEND and LOT LOCK -/

theorem exec_lotOpen (b : OpenBody) (s : State) :
    exec (.lotOpen b) s = .next (s.request .lot (.lotOpen b) (lotOpenRule b)) := rfl

theorem exec_lotAmend (b : AmendBody) (s : State) :
    exec (.lotAmend b) s = .next (s.request .lot (.lotAmend b) (lotAmendRule b)) := rfl

theorem exec_lotLock (s : State) :
    exec .lotLock s = .next (s.request .lot .lotLock lotLockRule) := rfl

theorem keySlotsOf_split {b : Byte} (h : b.toNat ≤ 2) :
    keySlotsOf b.toNat = if b = 0 then 2048 else if b = 1 then 4096 else 6144 := by
  have hb : b = BitVec.ofNat 8 b.toNat := by simp
  generalize b.toNat = n at h hb
  subst hb
  obtain rfl | rfl | rfl : n = 0 ∨ n = 1 ∨ n = 2 := by omega
  · rfl
  · rfl
  · rfl

/-- The split code that settles is at most 2 (R3). -/
theorem settleOpen_split {b : OpenBody} {p : Settled} (h : settleOpen b = .ok p) : b.split.toNat ≤ 2 := by
  unfold settleOpen at h
  by_contra hn
  have hs : 2 < b.split := by rw [BitVec.lt_def]; exact Nat.not_le.mp hn
  split at h <;> cases h

section
variable {s : State} {b : OpenBody}

theorem lotOpenRule_open (h : s.lot.state ≠ .idle) : lotOpenRule b s = answer s .lotOpen := by
  rw [lotOpenRule, if_pos h]

theorem lotOpenRule_refused {number : Nat} {rule : Option Nat} (h : s.lot.state = .idle)
    (hb : settleOpen b = .error (number, rule)) :
    lotOpenRule b s = (some (.badParameter number rule), s) := by
  rw [lotOpenRule, if_neg (not_not.mpr h), hb]
  rfl

theorem lotOpenRule_opens {p : Settled} (h : s.lot.state = .idle) (hb : settleOpen b = .ok p) :
    lotOpenRule b s = (some (.lotOpened b.name b.split.toNat p (keySlotsOf b.split.toNat)
      (8192 - keySlotsOf b.split.toNat)), s.openLot b.name b.split.toNat p) := by
  rw [lotOpenRule, if_neg (not_not.mpr h), hb]
  rfl

end

/-- Settles O33: the three answers of the rule. -/
theorem lotOpenDecides : Obligations.LotOpenDecides := by
  unfold Obligations.LotOpenDecides
  intro s b hg k
  refine ⟨fun ht => ?taken, fun number rule hidle hb => ?refused, fun p hidle hb => ?opens⟩
  case taken =>
    have hne : s.lot.state ≠ .idle := by rcases ht with h | h <;> rw [h] <;> decide
    rw [exec_lotOpen, request_code hg ht (lotOpenRule_open hne)]
    rfl
  case refused =>
    rw [exec_lotOpen, request_answers (t := s) hg (by rw [hidle]; rfl) (lotOpenRule_refused hidle hb) rfl]
    rfl
  case opens =>
    have hk : keySlotsOf b.split.toNat = k := keySlotsOf_split (settleOpen_split hb)
    have hrule : lotOpenRule b (s.taken .lot)
        = (some (.lotOpened b.name b.split.toNat p k (8192 - k)),
          (s.openLot b.name b.split.toNat p).taken .lot) := by
      rw [← hk, lotOpenRule_opens (s := s.taken .lot) hidle hb]
      rfl
    rw [exec_lotOpen, request_answers hg (by rw [hidle]; rfl) hrule rfl, State.openLot,
      IssueTable.start, hk]
    rfl

section
variable {s : State} {b : AmendBody}

theorem lotAmendRule_locked (h : s.lot.state ≠ .opened) : lotAmendRule b s = answer s .lotLocked := by
  rw [lotAmendRule, if_pos h]

theorem lotAmendRule_refused {number : Nat} {rule : Option Nat} (h : s.lot.state = .opened)
    (hb : settle b s.unitP.next s.unitE.next = .error (number, rule)) :
    lotAmendRule b s = (some (.badParameter number rule), s) := by
  rw [lotAmendRule, if_neg (not_not.mpr h), hb]
  rfl

theorem lotAmendRule_amends {p : Settled} (h : s.lot.state = .opened)
    (hb : settle b s.unitP.next s.unitE.next = .ok p) :
    lotAmendRule b s = (some (.lotAmended p), s.amendLot p) := by
  rw [lotAmendRule, if_neg (not_not.mpr h), hb]

end

/-- Settles O35: the answers of the two rules. -/
theorem lotAmendAndLock : Obligations.LotAmendAndLock := by
  unfold Obligations.LotAmendAndLock
  intro s b
  refine ⟨fun hg => ⟨fun hlocked => ?amendLocked, fun number rule hopen hb => ?refused,
    fun p q hopen hb hq => ?amends⟩, fun hg => ⟨fun hlocked => ?lockLocked, fun hopen => ?locks⟩⟩
  case amendLocked =>
    rw [exec_lotAmend, request_code hg (.inr hlocked) (lotAmendRule_locked (by
      change s.lot.state ≠ _
      rw [hlocked]
      decide))]
    rfl
  case refused =>
    rw [exec_lotAmend, request_answers (t := s) hg (lotGate_taking (.inl hopen) _)
      (lotAmendRule_refused hopen hb) rfl]
    rfl
  case amends =>
    have hrule : lotAmendRule b (s.taken .lot)
        = (some (.lotAmended p), (s.amendLot p).taken .lot) := lotAmendRule_amends hopen hb
    rw [exec_lotAmend, request_answers hg (lotGate_taking (.inl hopen) _) hrule rfl, State.amendLot, hq]
    rfl
  case lockLocked =>
    have hrule : lotLockRule (s.taken .lot) = answer (s.taken .lot) .lotLocked := by
      rw [lotLockRule, if_pos]
      change s.lot.state ≠ _
      rw [hlocked]
      decide
    rw [exec_lotLock, request_code hg (.inr hlocked) hrule]
    rfl
  case locks =>
    have hrule : lotLockRule (s.taken .lot) = (some (.code .ok),
        ({ s with lot := { s.lot with state := .locked, lock := true } } : State).taken .lot) := by
      rw [lotLockRule, if_neg (not_not.mpr (show (s.taken .lot).lot.state = _ from hopen))]
      rfl
    rw [exec_lotLock, request_answers hg (lotGate_taking (.inl hopen) _) hrule rfl]
    rfl

/-! ## LOT CLOSE -/

theorem exec_lotClose (s : State) :
    exec .lotClose s = .next (s.request .lot .lotClose lotCloseRule) := rfl

theorem mem_closeFailures (s : State) (k : Nat) : k ∈ s.closeFailures ↔
    (k = 1 ∧ ∃ v ∈ s.lot.wafers, v.inUse = true) ∨ (k = 2 ∧ s.table.openCount ≠ 0)
      ∨ (k = 3 ∧ (s.journal.queue ≠ [] ∨ s.journal.reservations ≠ 0))
      ∨ (k = 4 ∧ (s.sweeps.audit.active = true ∨ s.sweeps.purge.active = true
        ∨ s.sweeps.quarantine.active = true)) := by
  have hif (p : Prop) [Decidable p] (m : Nat) : k ∈ (if p then [m] else []) ↔ k = m ∧ p := by
    split <;> simp_all
  simp only [State.closeFailures, List.mem_append, hif, or_assoc, State.held, List.any_eq_true,
    Bool.or_eq_true, ne_eq, List.length_eq_zero_iff]

theorem closeFailures_ascending (s : State) : s.closeFailures.Pairwise (· < ·) := by
  have hif (p : Prop) [Decidable p] (m : Nat) : (if p then [m] else []).Sublist [m] := by
    split
    · exact List.Sublist.refl _
    · exact List.nil_sublist _
  have hsub : s.closeFailures.Sublist ([1] ++ [2] ++ [3] ++ [4]) :=
    (((hif _ 1).append (hif _ 2)).append (hif _ 3)).append (hif _ 4)
  exact List.Pairwise.sublist hsub (by decide)

theorem inUse_iff (v : WaferState) : v.inUse = true ↔ v = .purging ∨ ∃ st, v = .attached st := by
  cases v <;> simp [WaferState.inUse]

theorem lotCloseRule_refused {s : State} (h : s.closeFailures ≠ []) :
    lotCloseRule s = (some (.notClosable s.closeFailures), s) := by
  unfold lotCloseRule
  split
  · contradiction
  · rfl

theorem lotCloseRule_accepted {s : State} (h : s.closeFailures = []) :
    lotCloseRule s = (none, { s with
      lot := { s.lot with state := .closing }
      sweeps := { s.sweeps with scrubActive := true, scrubCursor := 0 } }) := by
  rw [lotCloseRule, h]

/-- Settles O36: the list of the conditions that fail, and the two answers of the rule. -/
theorem lotCloseTestsItsConditions : Obligations.LotCloseTestsItsConditions := by
  unfold Obligations.LotCloseTestsItsConditions
  intro s hg ht fails
  have hfails (k : Nat) : k ∈ s.closeFailures ↔ fails k := by
    rw [mem_closeFailures]
    match k with
    | 0 => simp [fails]
    | 1 => simp [fails, inUse_iff]
    | 2 => simp [fails]
    | 3 => simp [fails]
    | 4 => simp [fails]
    | k + 5 => simp [fails]
  refine ⟨fun ⟨k, hk⟩ => ⟨s.closeFailures, ?_, hfails, closeFailures_ascending s⟩, fun hnone => ?_⟩
  · have hne : s.closeFailures ≠ [] := List.ne_nil_of_mem ((hfails k).mpr hk)
    rw [exec_lotClose, request_answers (t := s) hg (lotGate_taking ht _)
      (lotCloseRule_refused (s := s.taken .lot) hne) rfl]
    rfl
  · have hnil : (s.taken .lot).closeFailures = [] :=
      List.eq_nil_iff_forall_not_mem.mpr fun k hk => hnone k ((hfails k).mp hk)
    rw [exec_lotClose, request_decided hg (lotGate_taking ht _), lotCloseRule_accepted hnil]
    exact congrArg _ (endWork_calm hg.calm.noBoundary)

/-! ## JOURNAL TAKE -/

theorem exec_journalTake (n : Half) (s : State) :
    exec (.journalTake n) s = .next (s.request .lot (.journalTake n) (journalTakeRule n)) := rfl

theorem kindOf_journalTake (n : Half) : kindOf (.journalTake n) = 0x29 := rfl

/-- The journal without its oldest n entries, which may end a level-2 wait (R137, R152). -/
def State.takeJournal (s : State) (n : Nat) : State :=
  { s with journal := { s.journal with queue := s.journal.queue.drop n } }.endWait

theorem takeJournal_sameBeside (s : State) (n : Nat) :
    s.sameBeside (s.takeJournal n) [.journal, .sweeps] := fun b hb => by
  cases b with
  | journal | sweeps => simp at hb
  | _ => simp [Block.same, State.takeJournal]

section
variable {s : State} {n : Half}

theorem halfIsZero_iff : n = 0 ↔ n.toNat = 0 := by
  rw [← BitVec.toNat_inj]
  rfl

theorem journalTakeRule_badParam (h : n.toNat = 0 ∨ 256 < n.toNat) :
    journalTakeRule n s = answer s .badParam := by
  rw [journalTakeRule, if_pos]
  rcases h with h | h
  · exact .inl (halfIsZero_iff.mpr h)
  · exact .inr h

variable (h1 : 1 ≤ n.toNat) (h256 : n.toNat ≤ 256)
include h1 h256

theorem journalTake_count_ok : ¬ (n = 0 ∨ Config.journalPlaces < n.toNat) := by
  rw [halfIsZero_iff, Config.journalPlaces]
  omega

theorem journalTakeRule_short (h : s.journal.queue.length < n.toNat) :
    journalTakeRule n s = (some (.badTake s.journal.queue.length), s) := by
  rw [journalTakeRule, if_neg (journalTake_count_ok h1 h256), State.held, if_pos h]

theorem journalTakeRule_takes (h : n.toNat ≤ s.journal.queue.length) :
    journalTakeRule n s = (some (.journalTaken (entryNumber s.journal.queue.head?)
      (entryNumber s.journal.queue[n.toNat - 1]?) (s.journal.queue.length - n.toNat)
      s.journal.reservations), s.takeJournal n.toNat) := by
  rw [journalTakeRule, if_neg (journalTake_count_ok h1 h256), State.held, if_neg (Nat.not_lt.mpr h)]
  simp [State.takeJournal, State.held]

end

/-- Settles O41: R2's refusals, and the three answers of the rule. -/
theorem journalTakeRemoves : Obligations.JournalTakeRemoves := by
  unfold Obligations.JournalTakeRemoves
  intro s n hg held
  rw [exec_journalTake, ← kindOf_journalTake n]
  refine ⟨fun h => ?init, fun h => ?idle, fun h => ?closing, fun ht h => ?badParam,
    fun ht h1 h256 h => ?short, fun ht h1 h256 h => ?takes⟩
  case init => rw [request_refused hg (by rw [h]; rfl)]
  case idle => rw [request_refused hg (by rw [h]; rfl)]
  case closing => rw [request_refused hg (by rw [h]; rfl)]
  case badParam => rw [request_code hg ht (journalTakeRule_badParam h)]
  case short =>
    rw [request_answers (t := s) hg (lotGate_taking ht _)
      (journalTakeRule_short (s := s.taken .lot) h1 h256 h) rfl]
    rfl
  case takes =>
    have hpos : 0 < s.journal.queue.length := by omega
    have hlast : n.toNat - 1 < s.journal.queue.length := by omega
    have hhead : s.journal.queue.head? = some s.journal.queue[0] := by
      rw [List.head?_eq_getElem?, List.getElem?_eq_getElem hpos]
    have hlast? := List.getElem?_eq_getElem hlast
    have hrule := journalTakeRule_takes (s := s.taken .lot) h1 h256 h
    have hsame := takeJournal_sameBeside (s.taken .lot) n.toNat
    have hdef : ((s.taken .lot).takeJournal n.toNat).deferred = [] :=
      (hsame .deferred (by decide)).trans hg.calm.noBoundary
    rw [show entryNumber (s.taken .lot).journal.queue.head? = s.journal.queue[0].number by
        rw [show (s.taken .lot).journal = s.journal from rfl, hhead]; rfl,
      show entryNumber (s.taken .lot).journal.queue[n.toNat - 1]?
          = s.journal.queue[n.toNat - 1].number by
        rw [show (s.taken .lot).journal = s.journal from rfl, hlast?]; rfl] at hrule
    refine ⟨_, _, _, congrArg _ (request_replies hg ht hrule hdef), hhead, hlast?,
      replies_reply _ (hsame .links (by decide)) (hsame .arbiter (by decide)) rfl, ?_, ?_,
      sameBeside_mono (reply_sameBeside hsame _ _) (by decide)⟩
    · exact State.endWait_journal _
    · refine (endWait_sweeps _).trans ?_
      simp only [State.journalSum, State.held, List.length_drop]
      rfl

/-! ## The requests that start and stop sweeps -/

theorem exec_quarantine (low high : Half) (s : State) : exec (.quarantine low high) s
    = .next (s.request .lot (.quarantine low high) (quarantineRule low high)) := rfl

theorem exec_purgeWafer (w : Byte) (s : State) : exec (.purgeWafer w) s
    = .next (s.request .lot (.purgeWafer w) (purgeWaferRule w)) := rfl

theorem exec_auditStart (s : State) : exec .auditStart s
    = .next (s.request .lot .auditStart auditStartRule) := rfl

theorem exec_auditStop (s : State) : exec .auditStop s
    = .next (s.request .lot .auditStop auditStopRule) := rfl

section
variable {s : State} {low high : Half}

theorem quarantineRule_badParam (h : low = 0 ∨ high = 0 ∨ high.toNat < low.toNat) :
    quarantineRule low high s = answer s .badParam := by
  rw [quarantineRule, if_pos (show low = 0 ∨ high = 0 ∨ high < low from h)]

variable (h : ¬ (low = 0 ∨ high = 0 ∨ high.toNat < low.toNat))
include h

theorem quarantineRule_active (ha : s.sweeps.quarantine.active = true) :
    quarantineRule low high s = answer s .sweepActive := by
  rw [quarantineRule, if_neg (show ¬ (low = 0 ∨ high = 0 ∨ high < low) from h), if_pos ha]

theorem quarantineRule_full (ha : s.sweeps.quarantine.active = false) (hf : 8 ≤ s.lot.blocked.length) :
    quarantineRule low high s = answer s .blockListFull := by
  rw [quarantineRule, if_neg (show ¬ (low = 0 ∨ high = 0 ∨ high < low) from h), if_neg (by simp [ha]),
    if_pos (show Config.blockedLimit ≤ _ from hf)]

theorem quarantineRule_starts (ha : s.sweeps.quarantine.active = false)
    (hf : s.lot.blocked.length < 8) :
    quarantineRule low high s = (some (.quarantined (s.lot.blocked.length + 1)),
      (s.blockRange low high).setContext .quarantine (.start (some (s.lot.blocked.length + 1)))) := by
  rw [quarantineRule, if_neg (show ¬ (low = 0 ∨ high = 0 ∨ high < low) from h), if_neg (by simp [ha]),
    if_neg (show ¬ Config.blockedLimit ≤ _ from Nat.not_le.mpr hf)]

end

section
variable {s : State} {w : Byte}

theorem purgeWaferRule_badParam (h : s.wafer w = none) : purgeWaferRule w s = answer s .badParam := by
  rw [purgeWaferRule, h]

theorem purgeWaferRule_active {v : WaferState} (h : s.wafer w = some v)
    (ha : s.sweeps.purge.active = true) : purgeWaferRule w s = answer s .sweepActive := by
  simp only [purgeWaferRule, h, ha, if_true]

theorem purgeWaferRule_wrong {v : WaferState} (h : s.wafer w = some v)
    (ha : s.sweeps.purge.active = false) (hv : v ≠ .detached) :
    purgeWaferRule w s = answer s .wrongState := by
  simp only [purgeWaferRule, h, ha, Bool.false_eq_true, if_false, if_pos hv]

theorem purgeWaferRule_starts (h : s.wafer w = some .detached) (ha : s.sweeps.purge.active = false) :
    purgeWaferRule w s = (some (.purging w),
      (s.setWafer w .purging).setContext .purge (.start (some w.toNat))) := by
  simp only [purgeWaferRule, h, ha, Bool.false_eq_true, if_false, ne_eq, not_true_eq_false]

end

/-- Settles O43: the cases of the four rules in order. -/
theorem sweepRequestsDecide : Obligations.SweepRequestsDecide := by
  unfold Obligations.SweepRequestsDecide
  intro s ht
  refine ⟨?quarantine, ?purge, fun hg => ?start,
    fun hg => ?stop⟩
  case quarantine =>
    intro low high hg refused bad
    have code {c : Code} (h : quarantineRule low high (s.taken .lot) = answer (s.taken .lot) c) :
        refused c := by
      change exec _ s = _
      rw [exec_quarantine, request_code hg ht h]
      rfl
    refine ⟨fun h => code (quarantineRule_badParam h), fun h ha => code (quarantineRule_active h ha),
      fun h ha hf => code (quarantineRule_full h ha hf), fun h ha hf => ?_⟩
    rw [exec_quarantine, request_answers (t := (s.blockRange low high).setContext .quarantine
      (.start (some (s.lot.blocked.length + 1)))) hg (lotGate_taking ht _)
      (quarantineRule_starts (s := s.taken .lot) h ha hf) rfl]
    rfl
  case purge =>
    intro w hg refused
    have code {c : Code} (h : purgeWaferRule w (s.taken .lot) = answer (s.taken .lot) c) :
        refused c := by
      change exec _ s = _
      rw [exec_purgeWafer, request_code hg ht h]
      rfl
    refine ⟨fun h => code (purgeWaferRule_badParam (wafer_none h)),
      fun v hv ha => code (purgeWaferRule_active hv ha),
      fun v hv ha hne => code (purgeWaferRule_wrong hv ha hne), fun hv ha => ?_⟩
    rw [exec_purgeWafer, request_answers (t := (s.setWafer w .purging).setContext .purge
      (.start (some w.toNat))) hg (lotGate_taking ht _)
      (purgeWaferRule_starts (s := s.taken .lot) hv ha) rfl]
    rfl
  case start =>
    refine ⟨fun ha => ?_, fun ha => ?_⟩
    · have hrule : auditStartRule (s.taken .lot) = answer (s.taken .lot) .sweepActive := if_pos ha
      rw [exec_auditStart, request_code hg ht hrule]
      rfl
    · have hrule : auditStartRule (s.taken .lot)
          = (some (.code .ok), (s.setContext .audit (.start none)).taken .lot) :=
        if_neg (by rw [show (s.taken .lot).sweeps = s.sweeps from rfl, ha]; decide)
      rw [exec_auditStart, request_answers hg (lotGate_taking ht _) hrule rfl]
      rfl
  case stop =>
    refine ⟨fun ha => ?_, fun ha => ?_⟩
    · have hrule : auditStopRule (s.taken .lot) = answer (s.taken .lot) .wrongState :=
        if_neg (by rw [show (s.taken .lot).sweeps = s.sweeps from rfl, ha]; decide)
      rw [exec_auditStop, request_code hg ht hrule]
      rfl
    · have hrule : auditStopRule (s.taken .lot) = (some (.auditStopped s.sweeps.audit.phase
          s.sweeps.audit.cursor s.sweeps.audit.counts), (s.setContext .audit .clear).taken .lot) :=
        if_pos ha
      rw [exec_auditStop, request_answers hg (lotGate_taking ht _) hrule rfl]
      rfl

end Sys2Proof.Machine

/-! PROOF. The items of a list request one after another (R15, R16, R82): no item holds a boundary back or
applies one, so the run of the items is that of Safety, with or without a boundary during it. -/

namespace Sys2Proof.Machine

/-! ## No item touches the boundaries held back -/

theorem access_deferred (s : State) (o : FaultOrigin) (c : Nat) :
    (s.access o c).2.deferred = s.deferred := by
  rcases access_cases s o c with h | h | ⟨p, g, h⟩ <;> rw [h]
  exact State.tableFault_deferred ..

theorem lookup_deferred (s : State) (o : FaultOrigin) (w x y : Byte) :
    (s.lookup o w x y).2.deferred = s.deferred := by
  rcases lookup_cases s o w x y with ⟨p, g, h⟩ | ⟨h, -⟩ <;> rw [h]
  exact State.tableFault_deferred ..

theorem siteCheck_deferred (s : State) (st : Station) (b : Byte) :
    (s.siteCheck st b).2.deferred = s.deferred := by
  unfold State.siteCheck
  split
  · rfl
  · split <;> rfl

theorem returnEntry_deferred (s : State) (c : Nat) (pred : Option Nat) (e : Entry)
    (o : Option (Station × Site)) : (s.returnEntry c pred e o).2.deferred = s.deferred := by
  unfold State.returnEntry
  split <;> simp

theorem revokeClaim_deferred (s : State) (st : Station) (site : Site) (c : Nat) (e : Entry)
    (r v : Reason) : (s.revokeClaim st site c e r v).2.deferred = s.deferred := by
  have hl := lookup_deferred s .access e.wafer e.x e.y
  unfold State.revokeClaim
  split
  · split <;> rename_i h <;> rw [h] at hl
    · exact (State.withdrawEntry_deferred ..).trans hl
    · exact hl
  · simp

theorem allocateKey_deferred (fuel : Nat) (s : State) :
    (s.allocateKey fuel).2.deferred = s.deferred := by
  induction fuel generalizing s with
  | zero => rfl
  | succ fuel ih =>
    unfold State.allocateKey
    split
    · rfl
    · rename_i n s1 hd
      obtain ⟨_, _, hs⟩ := drawKey_frame hd
      have h1 : s1.deferred = s.deferred := by rw [hs]
      split
      · rw [ih, h1]
      · rw [ih, h1]
      · rw [ih, State.retireKey_deferred, h1]
      all_goals
        split
        · rw [ih, State.retireKey_deferred, State.keyFault_deferred, h1]
        · split
          · rw [ih, State.retireKey_deferred, h1]
          · exact h1

theorem commitClaim_deferred (st : Station) (site : Site) (b w x y : Byte) (cls : SerialClass)
    (h len : Nat) (last : Option Nat) (n : Nat) (k : KeyCell) (s : State) :
    (commitClaim st site b w x y cls h len last n k s).2.deferred = s.deferred := by
  rw [commitClaim_eq]
  simp [committed]

/-- An operation of an item leaves the boundaries held back as they are. -/
def KeepsDeferred {α : Type} (f : State → α × State) : Prop := ∀ s, (f s).2.deferred = s.deferred

/-- An item that goes on from the site check. -/
theorem keepsDeferred_site {st : Station} {b : Byte} {f : State → ItemOutcome × State}
    (h : ∀ s r t, s.siteCheck st b = (r, t) → (f s).2.deferred = t.deferred) : KeepsDeferred f :=
  fun s => (h s _ _ rfl).trans (siteCheck_deferred s st b)

theorem claimRepeat_deferred (st : Station) (site : Site) (b x y : Byte) (c : Nat) :
    KeepsDeferred (claimRepeat st site b x y c) := fun s => by
  have ha := access_deferred s .access c
  unfold claimRepeat
  split <;> rename_i h <;> rw [h] at ha
  · exact ha
  · split
    · dsimp only
      split
      · exact (revokeClaim_deferred ..).trans ((State.checkKey_deferred ..).trans ha)
      · exact (State.checkKey_deferred ..).trans ha
    · exact ha

theorem takeover_deferred (st : Station) (site : Site) (b x y : Byte) (c : Nat) (e : Entry) :
    KeepsDeferred (takeover st site b x y c e) := fun s => by
  unfold takeover voidUncertain
  dsimp only
  repeat' split
  all_goals simp

theorem claimExisting_deferred (st : Station) (site : Site) (b x y : Byte) (c : Nat) :
    KeepsDeferred (claimExisting st site b x y c) := fun s => by
  unfold claimExisting
  dsimp only
  split
  case h_3 => exact takeover_deferred st site b x y c _ s
  all_goals rfl

theorem claimNew_deferred (st : Station) (site : Site) (b w x y : Byte) (cls : SerialClass) (len : Nat)
    (last : Option Nat) : KeepsDeferred (claimNew st site b w x y cls len last) := fun s => by
  have ha := allocateKey_deferred s.candidates s
  unfold claimNew
  split
  · rfl
  · split <;> rename_i h <;> rw [h] at ha
    · exact ha
    · exact (commitClaim_deferred ..).trans ha

theorem claimBucket_deferred (st : Station) (site : Site) (b w x y : Byte) (cls : SerialClass) :
    KeepsDeferred (claimBucket st site b w x y cls) := fun s => by
  have hl := lookup_deferred s .access w x y
  unfold claimBucket
  dsimp only
  split
  · exact State.tableFault_deferred ..
  · split
    · rfl
    · split <;> rename_i h <;> rw [h] at hl
      · exact (claimNew_deferred _ _ _ _ _ _ _ _ _ _).trans hl
      · exact (claimExisting_deferred _ _ _ _ _ _ _).trans hl
      · exact hl

theorem claimItem_deferred (st : Station) (items : List ClaimItem) (k : Nat) (i : ClaimItem) :
    KeepsDeferred (claimItem st items k i) := by
  refine keepsDeferred_site (st := st) (b := i.site) fun s r t hs => ?_
  simp only [claimItem, hs]
  cases r with
  | ended c => rfl
  | free site =>
    simp only [claimFree]
    split
    · rfl
    · split
      · rfl
      · split
        · rfl
        · split
          · rfl
          · exact claimBucket_deferred _ _ _ _ _ _ _ _
  | held site x y c =>
    simp only
    split
    · exact claimRepeat_deferred _ _ _ _ _ _ _
    · rfl

theorem releaseItem_deferred (st : Station) (k : Nat) (b : Byte) :
    KeepsDeferred (releaseItem st k b) := by
  refine keepsDeferred_site (st := st) (b := b) fun s r t hs => ?_
  simp only [releaseItem, hs]
  cases r with
  | ended c => rfl
  | free site => rfl
  | held site x y c =>
    have ha := access_deferred t .access c
    simp only
    split <;> rename_i h <;> rw [h] at ha
    · exact ha
    · split
      · split
        · rename_i e u _ _ _
          have hl := lookup_deferred u .access e.wafer e.x e.y
          unfold releaseUnburned
          split <;> rename_i hh <;> rw [hh] at hl
          · exact (returnEntry_deferred ..).trans (hl.trans ha)
          · exact hl.trans ha
        · exact ha
      · exact ha

theorem abandonItem_deferred (st : Station) (k : Nat) (b : Byte) :
    KeepsDeferred (abandonItem st k b) := by
  refine keepsDeferred_site (st := st) (b := b) fun s r t hs => ?_
  simp only [abandonItem, hs]
  cases r with
  | ended c => rfl
  | free site => rfl
  | held site x y c =>
    have ha := access_deferred t .access c
    simp only
    split <;> rename_i h <;> rw [h] at ha
    · exact ha
    · split
      · exact (State.voidEntry_deferred ..).trans ha
      · exact (State.voidEntry_deferred ..).trans ha
      · exact ha

theorem burnIssued_deferred (st : Station) (site : Site) (b x y : Byte) (c : Nat) (e : Entry) :
    KeepsDeferred (burnIssued st site b x y c e) := fun s => by
  unfold burnIssued
  dsimp only
  split
  · exact revokeClaim_deferred ..
  · split
    · exact (revokeClaim_deferred ..).trans (State.checkKey_deferred ..)
    · exact State.checkKey_deferred ..

theorem burnBeginItem_deferred (st : Station) (k : Nat) (b : Byte) :
    KeepsDeferred (burnBeginItem st k b) := by
  refine keepsDeferred_site (st := st) (b := b) fun s r t hs => ?_
  simp only [burnBeginItem, hs]
  cases r with
  | ended c => rfl
  | free site => rfl
  | held site x y c =>
    have ha := access_deferred t .access c
    simp only
    split <;> rename_i h <;> rw [h] at ha
    · exact ha
    · split
      · exact (burnIssued_deferred _ _ _ _ _ _ _ _).trans ha
      · exact ha

theorem judgeBurn_deferred (st : Station) (site : Site) (b x y : Byte) (image : Key) (c : Nat)
    (e : Entry) : KeepsDeferred (judgeBurn st site b x y image c e) := fun s => by
  unfold judgeBurn resultRevoked resultVoided resultPass resultPartial State.freeSite
  dsimp only
  repeat' split
  all_goals simp

theorem burnResultItem_deferred (st : Station) (k : Nat) (i : ResultItem) :
    KeepsDeferred (burnResultItem st k i) := by
  refine keepsDeferred_site (st := st) (b := i.site) fun s r t hs => ?_
  simp only [burnResultItem, hs]
  cases r with
  | ended c => rfl
  | free site => rfl
  | held site x y c =>
    have ha := access_deferred t .access c
    simp only
    split <;> rename_i h <;> rw [h] at ha
    · exact ha
    · split
      · exact (judgeBurn_deferred _ _ _ _ _ _ _ _ _).trans ha
      · exact ha

/-! ## The run of the items -/

section
variable {α : Type} {f : Nat → α → State → ItemOutcome × State} (hf : ∀ k a, KeepsDeferred (f k a))
include hf

/-- Where no boundary is held back nothing comes between the items. -/
theorem runItems_calm (l : List α) {k : Nat} {s : State} (hd : s.deferred = []) :
    runItems f k l s = takeItems f k l s ∧ (takeItems f k l s).2.deferred = [] := by
  induction l generalizing k s with
  | nil => exact ⟨rfl, hd⟩
  | cons a l ih =>
    have hone : (f k a s).2.deferred = [] := (hf k a s).trans hd
    obtain ⟨hrun, hdef⟩ := ih (k := k + 1) hone
    refine ⟨?_, hdef⟩
    rw [runItems, takeItems]
    simp only [endItem_calm hone, hrun]

omit hf in
/-- Past the item during which the boundary fell the two runs of Safety agree. -/
theorem takeItemsAcross_past (l : List α) {k m : Nat} (hm : m < k) (s : State) :
    takeItemsAcross f m k l s = takeItems f k l s := by
  induction l generalizing k s with
  | nil => rfl
  | cons a l ih =>
    have hne : ¬ k = m := by omega
    rw [takeItemsAcross, takeItems]
    simp only [if_neg hne, ih (Nat.lt_succ_of_lt hm)]

end

/-- The expiries that are due touch the blocks of a claim's end and the stations alone. -/
theorem settleExpiries_sameBeside (s : State) : s.sameBeside s.settleExpiries resetBlocks := by
  rw [settleExpiries_eq]
  generalize allSites = l
  induction l generalizing s with
  | nil => exact sameBeside_rfl _ _
  | cons p l ih =>
    refine sameBeside_trans ?_ (ih _)
    unfold State.settleAt
    split
    · rename_i hdue
      obtain ⟨x, y, c, hslot⟩ := expiryDue_iff.mp hdue
      rw [expire_held hslot]
      exact sameBeside_setSlot
        (sameBeside_mono (ch' := resetBlocks) (endClaim_sameBeside _ _ _ _) (by decide)) (by decide) _ _ _
    · exact sameBeside_rfl _ _

/-- A boundary that fell during an item, applied as the item ends (R15). -/
theorem endItem_during {s : State} {k : Nat} (h : s.deferred = [k]) :
    s.endItem k = ({ s with deferred := [] } : State).countDown.settleExpiries := by
  have hcount : s.deferred.count k = 1 := by rw [h]; simp
  have hfilter : s.deferred.filter (· ≠ k) = [] := by rw [h]; simp
  unfold State.endItem
  rw [hcount, hfilter]
  unfold State.boundaries State.boundaries State.boundary
  rfl

theorem endItem_other {s : State} {k m : Nat} (h : s.deferred = [m]) (hne : k ≠ m) :
    s.endItem k = s := by
  have hcount : s.deferred.count k = 0 := by rw [h]; simp [Ne.symm hne]
  have hfilter : s.deferred.filter (· ≠ k) = s.deferred := by rw [h]; simp [Ne.symm hne]
  unfold State.endItem
  rw [hcount, hfilter]
  rfl

section
variable {α : Type} {f : Nat → α → State → ItemOutcome × State} (hf : ∀ k a, KeepsDeferred (f k a))
include hf

/-- A boundary held back for item m is applied as that item ends, and stays held back where the list has
no such item. -/
theorem runItems_across (l : List α) {k m : Nat} (hkm : k ≤ m) {s : State} (hd : s.deferred = [m]) :
    runItems f k l s = takeItemsAcross f m k l s
      ∧ (takeItemsAcross f m k l s).2.deferred = if m < k + l.length then [] else [m] := by
  induction l generalizing k s with
  | nil => exact ⟨rfl, by simp [takeItemsAcross, hd, Nat.not_lt.mpr hkm]⟩
  | cons a l ih =>
    have hone : (f k a s).2.deferred = [m] := (hf k a s).trans hd
    rw [runItems, takeItemsAcross]
    by_cases hk : k = m
    · subst hk
      have hsame := settleExpiries_sameBeside
        ({ (f k a s).2 with deferred := [] } : State).countDown
      simp only [if_true, endItem_during hone]
      generalize ({ (f k a s).2 with deferred := [] } : State).countDown.settleExpiries = u at hsame
      have hu : u.deferred = [] := (hsame .deferred (by decide)).trans (by simp)
      obtain ⟨hrun, hdef⟩ := runItems_calm hf l (k := k + 1) hu
      rw [takeItemsAcross_past l (Nat.lt_succ_self k), hrun]
      refine ⟨rfl, hdef.trans (if_pos ?_).symm⟩
      simp
    · obtain ⟨hrun, hdef⟩ := ih (k := k + 1) (by omega) hone
      simp only [if_neg hk, endItem_other hone hk, hrun]
      refine ⟨trivial, hdef.trans ?_⟩
      simp only [List.length_cons]
      congr 2
      omega

omit hf in
theorem answeredAcross_during {l : Link} {kind : Byte} {during count : Nat}
    {done : List ItemOutcome × State} (h : during < count) :
    State.answeredAcross l kind during count done = done.2.reply l kind (.items done.1) := if_pos h

/-- A granted list request. -/
theorem request_list {s : State} {l : Link} {r : Request} (hg : s.Granted l r) (ht : s.taking)
    (items : List α) :
    s.request l r (fun u => listReply (runItems f 0 items u))
      = (takeItems f 0 items (s.taken l)).2.reply l (kindOf r)
        (.items (takeItems f 0 items (s.taken l)).1) := by
  obtain ⟨hrun, hdef⟩ := runItems_calm hf items (k := 0) (s := s.taken l) hg.calm.noBoundary
  refine request_replies hg ht ?_ hdef
  rw [hrun]
  rfl

/-- A list request granted while a boundary is held back. -/
theorem request_list_across {s : State} {l : Link} {r : Request} {m : Nat}
    (hg : s.GrantedAcross l r m) (ht : s.taking) (items : List α) :
    s.request l r (fun u => listReply (runItems f 0 items u))
      = State.answeredAcross l (kindOf r) m items.length
        (takeItemsAcross f m 0 items (s.taken l)) := by
  obtain ⟨hrun, hdef⟩ := runItems_across hf items (Nat.zero_le m) (s := s.taken l) hg.boundary
  have hrequest : s.request l r (fun u => listReply (runItems f 0 items u))
      = (placeReply l (kindOf r) (listReply (runItems f 0 items (s.taken l)))).endWork := by
    unfold State.request
    rw [settleExpiries_skip hg.noExpiry]
    simp only [hg.held, hg.turn, and_self, if_true, makeRoom_room hg.room]
    unfold State.grant State.decideRequest
    rw [show (s.taken l).lot.state = s.lot.state from rfl, lotGate_taking ht]
  rw [hrequest, hrun]
  generalize takeItemsAcross f m 0 items (s.taken l) = done at hdef
  rw [Nat.zero_add] at hdef
  change (done.2.reply l (kindOf r) (.items done.1)).endWork = _
  unfold State.answeredAcross
  split at hdef <;> rename_i hm
  · rw [if_pos hm]
    exact endWork_calm hdef
  · rw [if_neg hm]
    have hlen : (done.2.reply l (kindOf r) (.items done.1)).deferred.length = 1 := by
      change done.2.deferred.length = 1
      rw [hdef]
      rfl
    unfold State.endWork
    rw [hlen]
    unfold State.boundaries State.boundaries State.boundary
    rfl

end

theorem exec_burnBegin_list (st : Station) (sites : List Byte) (s : State) :
    exec (.burnBegin st sites) s = .next (s.request (.station st) (.burnBegin sites)
      fun u => listReply (runItems (burnBeginItem st) 0 sites u)) := rfl

theorem exec_burnResult_list (st : Station) (items : List ResultItem) (s : State) :
    exec (.burnResult st items) s = .next (s.request (.station st) (.burnResult items)
      fun u => listReply (runItems (burnResultItem st) 0 items u)) := rfl

theorem exec_release_list (st : Station) (sites : List Byte) (s : State) :
    exec (.release st sites) s = .next (s.request (.station st) (.release sites)
      fun u => listReply (runItems (releaseItem st) 0 sites u)) := rfl

theorem exec_abandon_list (st : Station) (sites : List Byte) (s : State) :
    exec (.abandon st sites) s = .next (s.request (.station st) (.abandon sites)
      fun u => listReply (runItems (abandonItem st) 0 sites u)) := rfl

theorem outOfRange_released {b : Byte} (h : 15 < b.toNat) (st : Station) (k : Nat) (s : State) :
    releaseItem st k b s = (⟨b, .outOfRange, .none⟩, s) := by
  simp only [releaseItem, siteCheck_outOfRange h, plainItem]

theorem expired_released {s : State} {st : Station} {b dx dy : Byte} {site : Site}
    (hb : siteOf b = some site) (h : s.slot st site = .expired dx dy) (k : Nat) :
    releaseItem st k b s = (⟨b, .expired, .none⟩, s.setSlot st site .free) := by
  simp only [releaseItem, siteCheck_expired hb h, plainItem]

/-- A boundary's effect on a slot while the timer runs: one unit down, and EXPIRED at 0 (R15). -/
theorem boundary_slot {s : State} (ht : s.taking) (st : Station) (site : Site) :
    s.countDown.settleExpiries.slot st site = (s.slot st site).tick.settled := by
  have hlive : s.lotLive = true := (lotLive_iff s).mpr fun h => by
    rcases ht with h1 | h1 <;> simp [h1] at h
  rw [settleExpiries_slot, countDown_slot, if_pos hlive]

/-- Settles O21: the run of the items is that of Safety, and a slot whose lease runs down at the boundary
after the first item of a RELEASE answers the second with EXPIRED. -/
theorem listItemsAreTakenInOrder : Obligations.ListItemsAreTakenInOrder := by
  unfold Obligations.ListItemsAreTakenInOrder
  intro s st ht
  refine ⟨fun items hg => ?_, fun sites hg => ?_, fun items hg => ?_, fun sites hg => ?_,
    fun sites hg => ?_, fun items k hg => ?_, fun sites k hg => ?_, fun items k hg => ?_,
    fun sites k hg => ?_, fun sites k hg => ?_, fun b b' site x y c hg hb hb' hslot => ?_⟩
  · rw [exec_claim_list, request_list (claimItem_deferred st items) hg ht]; rfl
  · rw [exec_burnBegin_list, request_list (burnBeginItem_deferred st) hg ht]; rfl
  · rw [exec_burnResult_list, request_list (burnResultItem_deferred st) hg ht]; rfl
  · rw [exec_release_list, request_list (releaseItem_deferred st) hg ht]; rfl
  · rw [exec_abandon_list, request_list (abandonItem_deferred st) hg ht]; rfl
  · rw [exec_claim_list, request_list_across (claimItem_deferred st items) hg ht]; rfl
  · rw [exec_burnBegin_list, request_list_across (burnBeginItem_deferred st) hg ht]; rfl
  · rw [exec_burnResult_list, request_list_across (burnResultItem_deferred st) hg ht]; rfl
  · rw [exec_release_list, request_list_across (releaseItem_deferred st) hg ht]; rfl
  · rw [exec_abandon_list, request_list_across (abandonItem_deferred st) hg ht]; rfl
  · let s0 : State := { s.taken (.station st) with deferred := [] }
    have hs0 : s0.sameBeside s0.countDown.settleExpiries resetBlocks :=
      sameBeside_trans (sameBeside_mono (countDown_sameBeside s0) (by decide))
        (settleExpiries_sameBeside _)
    have hslots : ∀ st' site', s0.countDown.settleExpiries.slot st' site'
        = (s.slot st' site').tick.settled :=
      boundary_slot (s := s0) ht
    have hsite : siteOf b' = some site := by
      have hlt : b'.toNat < 16 := by omega
      exact (dif_pos hlt).trans (by simp [hb'])
    have hacross : takeItemsAcross (releaseItem st) 0 0 [b, b'] (s.taken (.station st))
        = ([⟨b, .outOfRange, .none⟩, ⟨b', .expired, .none⟩],
          s0.countDown.settleExpiries.setSlot st site .free) := by
      rw [takeItemsAcross, outOfRange_released hb]
      dsimp only
      rw [if_pos rfl, takeItemsAcross, takeItemsAcross, expired_released hsite (dx := x) (dy := y)]
      · rfl
      · rw [hslots, hslot]
        rfl
    rw [exec_release_list, request_list_across (releaseItem_deferred st) hg ht, hacross]
    generalize s0.countDown.settleExpiries = u at hs0 hslots
    refine ⟨_, congrArg _ (answeredAcross_during Nat.zero_lt_two), ?_, ?_, fun st' site' => ?_⟩
    · exact hs0 .deferred (by decide)
    · exact replies_reply _ (hs0 .links (by decide)) (hs0 .arbiter (by decide)) rfl
    · refine (slot_setSlot u st st' site site' .free).trans ?_
      rw [hslots]
      split
      · rfl
      · have hdue := hg.noExpiry st' site'
        cases hv : s.slot st' site' with
        | held x y c lease =>
          rcases lease with _ | _ | lease
          · exact absurd (expiryDue_iff.mpr ⟨x, y, c, hv⟩) (by simp [hdue])
          · rfl
          · rfl
        | _ => rfl

end Sys2Proof.Machine

/-! PROOF. Store faults and the walk of a chain (R70, R71, R158): what a fault records and marks, and what
the walk of a bucket comes to, told by the cells that it reads. -/

namespace Sys2Proof.Machine

/-! ## What a fault marks -/

theorem tableFault_placed {s : State} {p : FaultPlace} {h : Nat} (hp : s.placeBucket p = some h)
    (g : FaultGroup) (o : FaultOrigin) :
    s.tableFault p g o = ((s.recordFault p g o).markDamaged h).setHalt := by
  have hr : (s.recordFault p g o).placeBucket p = some h := by cases p <;> exact hp
  unfold State.tableFault
  simp only [hr]

theorem tableFault_head {s : State} (hm : s.MapsOk) {p : FaultPlace} {h : Nat}
    (hp : s.placeBucket p = some h) (g : FaultGroup) (o : FaultOrigin) (k : Nat) :
    (s.tableFault p g o).head k
      = if k = h then BucketHead.written { s.head h with damaged := true } else s.head k := by
  rw [tableFault_placed hp]
  exact head_writeHead (s := { s.recordFault p g o with table := { s.table with
    damagedBuckets := s.table.damagedBuckets + if (s.head h).damaged then 0 else 1 } })
    (mapsOk_of_eq hm rfl rfl rfl rfl rfl) h k _

theorem tableFault_sameBeside (s : State) (p : FaultPlace) (g : FaultGroup) (o : FaultOrigin) :
    s.sameBeside (s.tableFault p g o) [.table, .check] := fun b hb => by
  cases b with
  | table | check => simp at hb
  | _ => simp [Block.same]

theorem keyFault_sameBeside (s : State) (n : Nat) (g : FaultGroup) (o : FaultOrigin) :
    s.sameBeside (s.keyFault n g o) [.pool, .check] := fun b hb => by
  cases b with
  | pool | check => simp at hb
  | _ => simp [Block.same]

theorem recorded_faults (n : Nat) : min 255 (n + 1) = if n < 255 then n + 1 else 255 := by
  split <;> omega

theorem keyFault_pool (s : State) (n : Nat) (g : FaultGroup) (o : FaultOrigin) :
    (s.keyFault n g o).pool = (s.markKeyFault n).pool := by
  have hmark : ((s.recordFault (.cell n) g o).markKeyFault n).pool = (s.markKeyFault n).pool := by
    unfold State.markKeyFault
    rw [show (s.recordFault (.cell n) g o).keySlot n = s.keySlot n from rfl]
    cases (s.keySlot n).state <;> rfl
  unfold State.keyFault
  dsimp only
  split <;> exact hmark

/-- What marking a key slot for a fault makes of the pool, by the state the slot was in (R36). -/
def KeyPool.marked (p : KeyPool) (n : Nat) : KeyState → KeyPool
  | .fresh => { p with
      slots := mapSet emptySlot p.slots n ⟨.faulted, false⟩
      counts := { p.counts with fresh := p.counts.fresh - 1, faulted := p.counts.faulted + 1 } }
  | .returned => { p with
      slots := mapSet emptySlot p.slots n ⟨.faulted, false⟩
      counts := { p.counts with returned := p.counts.returned - 1, faulted := p.counts.faulted + 1 } }
  | .bound => { p with slots := mapSet emptySlot p.slots n ⟨.bound, true⟩ }
  | .faulted => p
  | .empty => p

theorem markKeyFault_pool (s : State) (n : Nat) :
    (s.markKeyFault n).pool = s.pool.marked n (s.keySlot n).state := by
  unfold State.markKeyFault
  cases hs : (s.keySlot n).state
  case fresh | returned => simp [State.moveKey, hs, PoolCounts.leave, KeyPool.marked]
  all_goals rfl

/-- The slots after such a mark: at most slot n has changed. -/
theorem keyFault_slots (s : State) (n : Nat) (g : FaultGroup) (o : FaultOrigin) :
    (s.keyFault n g o).pool.slots = s.pool.slots
      ∨ ∃ v, (s.keyFault n g o).pool.slots = mapSet emptySlot s.pool.slots n v := by
  rw [keyFault_pool, markKeyFault_pool]
  cases (s.keySlot n).state
  case fresh | returned | bound => exact .inr ⟨_, rfl⟩
  all_goals exact .inl rfl

theorem keySlot_keyFault_ne (s : State) {n k : Nat} (h : k ≠ n) (g : FaultGroup) (o : FaultOrigin) :
    (s.keyFault n g o).keySlot k = s.keySlot k := by
  unfold State.keySlot
  rcases keyFault_slots s n g o with hs | ⟨v, hs⟩ <;> rw [hs]
  exact mapGet_mapSet_ne h

theorem keySlot_of_slots {s t : State} (hm : s.MapsOk) {n : Nat} {v : KeySlot}
    (h : t.pool.slots = mapSet emptySlot s.pool.slots n v) : t.keySlot n = v := by
  unfold State.keySlot
  rw [h]
  exact (mapGet_mapSet ((mapsOk_iff s).1 hm).2.2.1).trans (if_pos rfl)

/-! ## The walk of a chain -/

/-- An entry has a die identity. -/
def State.HasDie (s : State) (w x y : Byte) (c : Nat) : Prop :=
  (s.entryAt c).wafer = w ∧ (s.entryAt c).x = x ∧ (s.entryAt c).y = y

section
variable {s : State} {h : Nat} {w x y : Byte}

theorem not_isLast {c : Nat} (hl : (s.cell c).last = 0) : s.isLast c = false := by
  simp [State.isLast, hl]

/-- The walk passes every cell in place that reads cleanly, holds another die and is not the last. -/
theorem walk_leads {before : List Nat} {c : Nat} (hno : ∀ d ∈ before, ¬ s.HasDie w x y d)
    {from_ fuel n : Nat} {pred : Option Nat} (hl : s.Leads h from_ before c)
    (hroom : before.length ≤ fuel) :
    s.walk h w x y fuel n pred from_
      = s.walk h w x y (fuel - before.length) (n + before.length) (before.getLast?.or pred) c := by
  induction before generalizing from_ fuel n pred with
  | nil => rw [show from_ = c from hl]; rfl
  | cons d ds ih =>
    obtain ⟨rfl, hplace, hclean, hlast, hrest⟩ := hl
    obtain ⟨fuel, rfl⟩ : ∃ m, fuel = m + 1 := ⟨fuel - 1, by simp at hroom; omega⟩
    have hother : ¬ s.HasDie w x y from_ := hno from_ (List.mem_cons_self ..)
    have hstep : s.walk h w x y (fuel + 1) n pred from_
        = s.walk h w x y fuel (n + 1) (some from_) (s.cell from_).next.toNat := by
      rw [State.walk]
      simp only [inChain_iff.mpr hplace, hclean, not_isLast hlast]
      exact if_neg hother
    rw [hstep, ih (fun e he => hno e (List.mem_cons_of_mem _ he)) hrest
      (Nat.le_of_succ_le_succ hroom), List.getLast?_cons]
    have hlen : n + 1 + ds.length = n + (from_ :: ds).length := by simp; omega
    rw [hlen]
    cases ds.getLast? <;> simp

theorem walkReads_leads {before : List Nat} {c : Nat} (hno : ∀ d ∈ before, ¬ s.HasDie w x y d)
    {from_ fuel : Nat} (hl : s.Leads h from_ before c) (hroom : before.length ≤ fuel) :
    s.walkReads h w x y fuel from_
      = before.length + s.walkReads h w x y (fuel - before.length) c := by
  induction before generalizing from_ fuel with
  | nil => rw [show from_ = c from hl]; simp
  | cons d ds ih =>
    obtain ⟨rfl, hplace, hclean, hlast, hrest⟩ := hl
    obtain ⟨fuel, rfl⟩ : ∃ m, fuel = m + 1 := ⟨fuel - 1, by simp at hroom; omega⟩
    have hother : ¬ s.HasDie w x y from_ := hno from_ (List.mem_cons_self ..)
    have hstep : s.walkReads h w x y (fuel + 1) from_
        = 1 + s.walkReads h w x y fuel (s.cell from_).next.toNat := by
      have hgo : ¬ (s.HasDie w x y from_ ∨ s.isLast from_ = true) := by
        simp [hother, not_isLast hlast]
      rw [State.walkReads]
      simp only [inChain_iff.mpr hplace, hclean]
      exact if_neg hgo
    rw [hstep, ih (fun e he => hno e (List.mem_cons_of_mem _ he)) hrest
      (Nat.le_of_succ_le_succ hroom)]
    simp only [List.length_cons, Nat.succ_sub_succ]
    omega

/-- One more cell of the walk: the die sought. -/
theorem walk_sought {c fuel n : Nat} {pred : Option Nat} (hplace : s.InPlace h c)
    (hclean : s.entryFault c = none) (hdie : s.HasDie w x y c) :
    s.walk h w x y (fuel + 1) n pred c = .found c pred
      ∧ s.walkReads h w x y (fuel + 1) c = 1 := by
  refine ⟨?_, ?_⟩
  · rw [State.walk]
    simp only [inChain_iff.mpr hplace, hclean]
    exact if_pos hdie
  · rw [State.walkReads]
    simp only [inChain_iff.mpr hplace, hclean]
    exact if_pos (Or.inl hdie)

/-- One more cell of the walk: the chain's last, of another die. -/
theorem walk_last {c fuel n : Nat} {pred : Option Nat} (hplace : s.InPlace h c)
    (hclean : s.entryFault c = none) (hdie : ¬ s.HasDie w x y c) (hlast : (s.cell c).last ≠ 0) :
    s.walk h w x y (fuel + 1) n pred c = .notFound (n + 1) (some c)
      ∧ s.walkReads h w x y (fuel + 1) c = 1 := by
  have hl : s.isLast c = true := decide_eq_true hlast
  refine ⟨?_, ?_⟩
  · rw [State.walk]
    simp only [inChain_iff.mpr hplace, hclean, hl]
    exact if_neg hdie
  · rw [State.walkReads]
    simp only [inChain_iff.mpr hplace, hclean]
    exact if_pos (Or.inr hl)

/-- The walk ends at a read that fails: a pointer out of the chain, a chain too long, a bad cell (R71). -/
theorem walk_fails {c fuel n : Nat} {pred : Option Nat} {p : FaultPlace} {g : FaultGroup}
    (hf : ((¬ s.InPlace h c ∨ fuel = 0) ∧ p = pointerOf h pred ∧ g = .link)
      ∨ (0 < fuel ∧ s.InPlace h c ∧ s.entryFault c = some g ∧ p = .cell c)) :
    s.walk h w x y fuel n pred c = .fault p g ∧ s.walkReads h w x y fuel c = 0 := by
  cases fuel with
  | zero =>
    rcases hf with ⟨-, rfl, rfl⟩ | ⟨h0, -⟩
    · exact ⟨rfl, rfl⟩
    · exact absurd h0 (by decide)
  | succ fuel =>
    rw [State.walk, State.walkReads]
    rcases hf with ⟨hout, rfl, rfl⟩ | ⟨-, hplace, hbad, rfl⟩
    · have hin : s.inChain h c = false := by
        rw [Bool.eq_false_iff, Ne, inChain_iff]
        exact hout.resolve_right (by omega)
      simp [hin]
    · simp [inChain_iff.mpr hplace, hbad]

/-- A lookup whose walk comes to the pointer value c. -/
theorem find_walksTo {before : List Nat} {c : Nat} (hw : s.WalksTo (bucketOf w x y) before c)
    (hno : ∀ d ∈ before, ¬ s.HasDie w x y d) :
    s.find w x y = s.walk (bucketOf w x y) w x y (s.capacity - before.length) before.length
        before.getLast? c
      ∧ s.findReads w x y = before.length
        + s.walkReads (bucketOf w x y) w x y (s.capacity - before.length) c := by
  refine ⟨?_, ?_⟩
  · unfold State.find
    simp only [hw.head, hw.whole, hw.valid]
    refine (walk_leads hno hw.leads hw.room).trans ?_
    simp
  · unfold State.findReads
    simp only [hw.head, hw.whole, hw.valid]
    exact walkReads_leads hno hw.leads hw.room

theorem find_reads {before : List Nat} {c : Nat} (hr : s.Reads (bucketOf w x y) before c)
    (hno : ∀ d ∈ before, ¬ s.HasDie w x y d) (hdie : s.HasDie w x y c) :
    s.find w x y = .found c before.getLast? ∧ s.findReads w x y = before.length + 1 := by
  obtain ⟨hfind, hreads⟩ := find_walksTo hr.walks hno
  obtain ⟨fuel, hfuel⟩ : ∃ m, s.capacity - before.length = m + 1 :=
    ⟨s.capacity - before.length - 1, by have := hr.room; omega⟩
  rw [hfuel] at hfind hreads
  obtain ⟨h1, h2⟩ := walk_sought (fuel := fuel) (n := before.length) (pred := before.getLast?)
    hr.place hr.clean hdie
  exact ⟨hfind.trans h1, hreads.trans (by rw [h2])⟩

theorem find_chain {before : List Nat} {c : Nat} (hr : s.Chain (bucketOf w x y) before c)
    (hno : ∀ d ∈ before ++ [c], ¬ s.HasDie w x y d) :
    s.find w x y = .notFound (before.length + 1) (some c)
      ∧ s.findReads w x y = before.length + 1 := by
  obtain ⟨hfind, hreads⟩ := find_walksTo hr.reads.walks fun d hd => hno d (by simp [hd])
  obtain ⟨fuel, hfuel⟩ : ∃ m, s.capacity - before.length = m + 1 :=
    ⟨s.capacity - before.length - 1, by have := hr.reads.room; omega⟩
  rw [hfuel] at hfind hreads
  obtain ⟨h1, h2⟩ := walk_last (fuel := fuel) (n := before.length) (pred := before.getLast?)
    hr.reads.place hr.reads.clean (hno c (by simp)) hr.last
  exact ⟨hfind.trans h1, hreads.trans (by rw [h2])⟩

/-- A walk that breaks off, with the record its last pointer stands in. -/
theorem breaks_iff {before : List Nat} {p : FaultPlace} {g : FaultGroup} :
    s.Breaks h before p g ↔ ∃ c, s.WalksTo h before c
      ∧ (((¬ s.InPlace h c ∨ s.capacity - before.length = 0) ∧ p = pointerOf h before.getLast?
          ∧ g = .link)
        ∨ (0 < s.capacity - before.length ∧ s.InPlace h c ∧ s.entryFault c = some g ∧ p = .cell c)) := by
  have hall : ∀ pointer, pointer = pointerOf h before.getLast? →
      ((∃ c, s.WalksTo h before c
          ∧ ((¬ s.InPlace h c ∧ p = pointer ∧ g = .link)
            ∨ (before.length = s.capacity ∧ p = pointer ∧ g = .link)
            ∨ (before.length < s.capacity ∧ s.InPlace h c ∧ s.entryFault c = some g ∧ p = .cell c)))
        ↔ ∃ c, s.WalksTo h before c
          ∧ (((¬ s.InPlace h c ∨ s.capacity - before.length = 0) ∧ p = pointerOf h before.getLast?
              ∧ g = .link)
            ∨ (0 < s.capacity - before.length ∧ s.InPlace h c ∧ s.entryFault c = some g
              ∧ p = .cell c))) := by
    rintro pointer rfl
    refine exists_congr fun c => and_congr_right fun hw => ?_
    have hroom := hw.room
    constructor
    · rintro (⟨h1, h2, h3⟩ | ⟨h1, h2, h3⟩ | ⟨h1, h2, h3⟩)
      · exact .inl ⟨.inl h1, h2, h3⟩
      · exact .inl ⟨.inr (by omega), h2, h3⟩
      · exact .inr ⟨by omega, h2, h3⟩
    · rintro (⟨h1 | h1, h2, h3⟩ | ⟨h1, h2, h3⟩)
      · exact .inl ⟨h1, h2, h3⟩
      · exact .inr (.inl ⟨by omega, h2, h3⟩)
      · exact .inr (.inr ⟨by omega, h2, h3⟩)
  refine hall _ ?_
  cases before.getLast? <;> rfl

theorem find_breaks {before : List Nat} {p : FaultPlace} {g : FaultGroup}
    (hb : s.Breaks (bucketOf w x y) before p g) (hno : ∀ d ∈ before, ¬ s.HasDie w x y d) :
    s.find w x y = .fault p g ∧ s.findReads w x y = before.length := by
  obtain ⟨c, hw, hf⟩ := breaks_iff.mp hb
  obtain ⟨hfind, hreads⟩ := find_walksTo hw hno
  obtain ⟨h1, h2⟩ := walk_fails (w := w) (x := x) (y := y) (n := before.length) hf
  exact ⟨hfind.trans h1, hreads.trans (by rw [h2]; rfl)⟩

end

/-- Settles O53: a fault is recorded, its bucket or key slot marked and the halt set; and the walk passes
the cells that lead on, to the die, to the last cell or to the read that fails. -/
theorem storeFaultIsHandled : Obligations.StoreFaultIsHandled := by
  unfold Obligations.StoreFaultIsHandled
  intro s p g o n hm
  have hmarked := (keyFault_pool s n g o).trans (markKeyFault_pool s n)
  refine ⟨fun h hp => ?table, ?record, keyFault_sameBeside s n g o, ?rest,
    fun k hk => keySlot_keyFault_ne s hk g o, fun hs => ?fresh, fun hs => ?returned, fun hs => ?bound,
    fun hs => ?still, fun w x y => ⟨fun hh => ?headFault, fun hh hd => ?damaged, fun hh hd hv => ?empty,
      fun before c hr hno hdie => find_reads hr hno hdie,
      fun before c hc hno => find_chain hc hno,
      fun before place group hb hno => find_breaks hb hno, rfl⟩⟩
  case table =>
    have hplace : s.placeBucket p = some h := by
      rcases hp with rfl | ⟨c, rfl, hc⟩
      · rfl
      · exact hc
    refine ⟨?_, tableFault_head hm hplace g o, ?_, tableFault_sameBeside s p g o⟩
    · rw [tableFault_check]
      simp only [State.recordFault, recorded_faults]
    · rw [tableFault_placed hplace]
      rfl
  case record =>
    rw [keyFault_check]
    simp only [State.recordFault, recorded_faults]
  case rest =>
    rw [hmarked]
    cases (s.keySlot n).state <;> rfl
  case fresh =>
    rw [hs] at hmarked
    exact ⟨keySlot_of_slots hm (congrArg KeyPool.slots hmarked), congrArg KeyPool.counts hmarked⟩
  case returned =>
    rw [hs] at hmarked
    exact ⟨keySlot_of_slots hm (congrArg KeyPool.slots hmarked), congrArg KeyPool.counts hmarked⟩
  case bound =>
    rw [hs] at hmarked
    exact ⟨keySlot_of_slots hm (congrArg KeyPool.slots hmarked), (congrArg KeyPool.counts hmarked).trans rfl⟩
  case still =>
    rcases hs with hs | hs <;> rw [hs] at hmarked <;> exact hmarked
  case headFault =>
    simp [State.find, State.findReads, hh]
  case damaged =>
    simp [State.find, State.findReads, hh, hd]
  case empty =>
    simp [State.find, State.findReads, hh, hd, hv]

end Sys2Proof.Machine

/-! PROOF. A sweep step on one bucket (R131): what its walk does with each entry, how the step ends, and
the steps that pass a bucket in which the sweep has nothing to change (R131, R134, R138, R140). -/

namespace Sys2Proof.Machine

/-! ## The result counts -/

section
variable (s : State) (lv : SweepLevel) (f g : SweepCounts → SweepCounts)

theorem countSweep_countSweep : (s.countSweep lv f).countSweep lv g = s.countSweep lv (g ∘ f) := by
  cases lv <;> rfl

theorem countSweep_id : s.countSweep lv id = s := by cases lv <;> rfl

theorem entryFault_countSweep (c : Nat) : (s.countSweep lv f).entryFault c = s.entryFault c := by
  cases lv <;> rfl

theorem entryAt_countSweep (c : Nat) : (s.countSweep lv f).entryAt c = s.entryAt c := by
  cases lv <;> rfl

theorem cell_countSweep (c : Nat) : (s.countSweep lv f).cell c = s.cell c := by cases lv <;> rfl

theorem inPlace_countSweep (h c : Nat) : (s.countSweep lv f).InPlace h c ↔ s.InPlace h c := by
  cases lv <;> exact Iff.rfl

theorem tableFault_countSweep (p : FaultPlace) (k : FaultGroup) (o : FaultOrigin) :
    (s.countSweep lv f).tableFault p k o = (s.tableFault p k o).countSweep lv f := by
  have hplace : ((s.countSweep lv f).recordFault p k o).placeBucket p
      = (s.recordFault p k o).placeBucket p := by cases p <;> cases lv <;> rfl
  unfold State.tableFault
  simp only [hplace]
  cases (s.recordFault p k o).placeBucket p <;> cases lv <;> rfl

end

theorem visit_iterate {c : SweepCounts} (h : c.visited ≤ 4294967295) (n : Nat) :
    SweepCounts.visit^[n] c = { c with visited := min 4294967295 (c.visited + n) } := by
  induction n with
  | zero => simp [Nat.min_eq_right h]
  | succ n ih =>
    rw [Function.iterate_succ_apply', ih]
    simp only [SweepCounts.visit, satAdd, Config.countMax]
    congr 1
    omega

/-! ## The walk of a sweep step, entry by entry -/

theorem isLast_of {s : State} {c : Nat} (h : (s.cell c).last ≠ 0) : s.isLast c = true :=
  decide_eq_true h

section
variable {lv : SweepLevel} {act : SweepAction} {h fuel c : Nat} {pred : Option Nat} {s t : State}

section
variable (hplace : s.InPlace h c) (hclean : s.entryFault c = none)
include hplace hclean

theorem sweepWalk_kept (ha : act c pred (s.entryAt c) (s.countSweep lv .visit) = (.kept, t))
    (hl : (s.cell c).last = 0) : sweepWalk lv act h (fuel + 1) pred c s
      = sweepWalk lv act h fuel (some c) (s.cell c).next.toNat t := by
  rw [sweepWalk]
  simp only [inChain_iff.mpr hplace, hclean, ha, not_isLast hl, Bool.not_true, Bool.false_eq_true,
    if_false]
  rfl

theorem sweepWalk_kept_last (ha : act c pred (s.entryAt c) (s.countSweep lv .visit) = (.kept, t))
    (hl : (s.cell c).last ≠ 0) : sweepWalk lv act h (fuel + 1) pred c s = (.walked, t) := by
  rw [sweepWalk]
  simp [inChain_iff.mpr hplace, hclean, ha, isLast_of hl]

theorem sweepWalk_removed
    (ha : act c pred (s.entryAt c) (s.countSweep lv .visit) = (.removed, t))
    (hl : (s.cell c).last = 0) : sweepWalk lv act h (fuel + 1) pred c s
      = sweepWalk lv act h fuel pred (s.cell c).next.toNat t := by
  rw [sweepWalk]
  simp only [inChain_iff.mpr hplace, hclean, ha, not_isLast hl, Bool.not_true, Bool.false_eq_true,
    if_false]
  rfl

theorem sweepWalk_removed_last
    (ha : act c pred (s.entryAt c) (s.countSweep lv .visit) = (.removed, t))
    (hl : (s.cell c).last ≠ 0) : sweepWalk lv act h (fuel + 1) pred c s = (.walked, t) := by
  rw [sweepWalk]
  simp [inChain_iff.mpr hplace, hclean, ha, isLast_of hl]

theorem sweepWalk_waits
    (ha : act c pred (s.entryAt c) (s.countSweep lv .visit) = (.noRoom, t)) :
    sweepWalk lv act h (fuel + 1) pred c s = (.waits, t) := by
  rw [sweepWalk]
  simp [inChain_iff.mpr hplace, hclean, ha]

end

/-- The walk ends at a read that fails (R71, R131). -/
theorem sweepWalk_fails {p : FaultPlace} {g : FaultGroup}
    (hf : ((¬ s.InPlace h c ∨ fuel = 0) ∧ p = pointerOf h pred ∧ g = .link)
      ∨ (0 < fuel ∧ s.InPlace h c ∧ s.entryFault c = some g ∧ p = .cell c)) :
    sweepWalk lv act h fuel pred c s = (.damaged, s.tableFault p g lv.origin) := by
  cases fuel with
  | zero =>
    rcases hf with ⟨-, rfl, rfl⟩ | ⟨h0, -⟩
    · rfl
    · exact absurd h0 (by decide)
  | succ fuel =>
    rw [sweepWalk]
    rcases hf with ⟨hout, rfl, rfl⟩ | ⟨-, hplace, hbad, rfl⟩
    · have hin : s.inChain h c = false := by
        rw [Bool.eq_false_iff, Ne, inChain_iff]
        exact hout.resolve_right (by omega)
      simp [hin]
    · simp [inChain_iff.mpr hplace, hbad]

/-- The sweep has nothing to change in an entry, however many it has counted before. -/
def PassesOver (lv : SweepLevel) (act : SweepAction) (s : State) (d : Nat) : Prop :=
  ∀ pred f, act d pred (s.entryAt d) (s.countSweep lv f) = (.kept, s.countSweep lv f)

/-- The walk counts and passes the entries in which the sweep has nothing to change. -/
theorem sweepWalk_leads {before : List Nat} (hp : ∀ d ∈ before, PassesOver lv act s d) {from_ : Nat}
    (hl : s.Leads h from_ before c) (hroom : before.length ≤ fuel) (f : SweepCounts → SweepCounts) :
    sweepWalk lv act h fuel pred from_ (s.countSweep lv f)
      = sweepWalk lv act h (fuel - before.length) (before.getLast?.or pred) c
        (s.countSweep lv (SweepCounts.visit^[before.length] ∘ f)) := by
  induction before generalizing from_ fuel pred f with
  | nil => rw [show from_ = c from hl]; rfl
  | cons d ds ih =>
    obtain ⟨rfl, hplace, hclean, hlast, hrest⟩ := hl
    obtain ⟨fuel, rfl⟩ : ∃ m, fuel = m + 1 := ⟨fuel - 1, by simp at hroom; omega⟩
    have hact : act from_ pred ((s.countSweep lv f).entryAt from_)
        ((s.countSweep lv f).countSweep lv .visit) = (.kept, s.countSweep lv (.visit ∘ f)) := by
      rw [entryAt_countSweep, countSweep_countSweep]
      exact hp from_ (List.mem_cons_self ..) pred _
    rw [sweepWalk_kept ((inPlace_countSweep ..).mpr hplace) ((entryFault_countSweep ..).trans hclean)
      hact (by rw [cell_countSweep]; exact hlast), cell_countSweep,
      ih (fun e he => hp e (List.mem_cons_of_mem _ he)) hrest (Nat.le_of_succ_le_succ hroom),
      List.getLast?_cons]
    cases ds.getLast? <;> simp [Function.iterate_succ, Function.comp_assoc]

end

/-! ## A step on the bucket that the cursor names -/

section
variable {lv : SweepLevel} {act : SweepAction} {h : Nat} {s : State}

/-- A level's context after a step: its counts changed and its cursor one on (R131). -/
def State.stepped (s : State) (lv : SweepLevel) (f : SweepCounts → SweepCounts) : State :=
  (s.countSweep lv f).advanceCursor lv

theorem stepBucket_walked {t : State} (hv : visitBucket lv act s = (.walked, t)) :
    stepBucket lv act s = t.advanceCursor lv := by
  unfold stepBucket; rw [hv]

theorem stepBucket_damaged {t : State} (hv : visitBucket lv act s = (.damaged, t)) :
    stepBucket lv act s = t.stepped lv .fault := by
  unfold stepBucket; rw [hv]; rfl

theorem stepBucket_waits {t : State} (hv : visitBucket lv act s = (.waits, t)) :
    stepBucket lv act s = t.setContext lv { t.context lv with waiting := true } := by
  unfold stepBucket; rw [hv]

variable (hc : (s.context lv).cursor = h)
include hc

theorem stepBucket_empty (hp : s.headFault h = false) (hd : (s.head h).damaged = false)
    (hv : (s.head h).valid = false) : stepBucket lv act s = s.stepped lv id := by
  refine (stepBucket_walked (t := s) ?_).trans ?_
  · unfold visitBucket
    simp [hc, hp, hd, hv]
  · rw [State.stepped, countSweep_id]

theorem stepBucket_marked (hp : s.headFault h = false) (hd : (s.head h).damaged = true) :
    stepBucket lv act s = s.stepped lv .fault := by
  refine stepBucket_damaged ?_
  unfold visitBucket
  simp [hc, hp, hd]

theorem stepBucket_headFault (hp : s.headFault h = true) :
    stepBucket lv act s = (s.tableFault (.head h) .link lv.origin).stepped lv .fault := by
  refine stepBucket_damaged ?_
  unfold visitBucket
  simp [hc, hp]

/-- A step whose head leads into a chain is the walk of it. -/
theorem visitBucket_walks (hp : s.headFault h = false) (hd : (s.head h).damaged = false)
    (hv : (s.head h).valid = true) :
    visitBucket lv act s = sweepWalk lv act h s.capacity none (s.head h).first.toNat s := by
  unfold visitBucket
  simp [hc, hp, hd, hv]

/-- A step up to the pointer value c, where nothing was to change so far. -/
theorem visitBucket_leads {before : List Nat} {c : Nat} (hw : s.WalksTo h before c)
    (hpass : ∀ d ∈ before, PassesOver lv act s d) :
    visitBucket lv act s = sweepWalk lv act h (s.capacity - before.length) before.getLast? c
      (s.countSweep lv SweepCounts.visit^[before.length]) := by
  rw [visitBucket_walks hc hw.head hw.whole hw.valid]
  have hwalk := sweepWalk_leads (pred := none) hpass hw.leads hw.room id
  rw [countSweep_id] at hwalk
  rw [hwalk, Option.or_none]
  rfl

/-- A step on a chain in which nothing is to change: each entry is counted. -/
theorem stepBucket_chain {before : List Nat} {c : Nat} (hch : s.Chain h before c)
    (hpass : ∀ d ∈ before ++ [c], PassesOver lv act s d) :
    stepBucket lv act s = s.stepped lv SweepCounts.visit^[before.length + 1] := by
  obtain ⟨fuel, hfuel⟩ : ∃ m, s.capacity - before.length = m + 1 :=
    ⟨s.capacity - before.length - 1, by have := hch.reads.room; omega⟩
  refine (stepBucket_walked (t := s.countSweep lv SweepCounts.visit^[before.length + 1]) ?_).trans rfl
  rw [visitBucket_leads hc hch.reads.walks fun d hd => hpass d (by simp [hd]), hfuel]
  refine sweepWalk_kept_last ((inPlace_countSweep ..).mpr hch.reads.place)
    ((entryFault_countSweep ..).trans hch.reads.clean) ?_ (by rw [cell_countSweep]; exact hch.last)
  rw [entryAt_countSweep, countSweep_countSweep, hpass c (by simp), Function.iterate_succ']

/-- A step on a chain that breaks off, where nothing was to change before the break. -/
theorem stepBucket_breaks {before : List Nat} {p : FaultPlace} {g : FaultGroup}
    (hb : s.Breaks h before p g) (hpass : ∀ d ∈ before, PassesOver lv act s d) :
    stepBucket lv act s
      = (s.tableFault p g lv.origin).stepped lv (.fault ∘ SweepCounts.visit^[before.length]) := by
  obtain ⟨c, hw, hf⟩ := breaks_iff.mp hb
  refine (stepBucket_damaged (t := (s.tableFault p g lv.origin).countSweep lv
    SweepCounts.visit^[before.length]) ?_).trans ?_
  · rw [visitBucket_leads hc hw hpass, ← tableFault_countSweep]
    refine sweepWalk_fails ?_
    rw [inPlace_countSweep, entryFault_countSweep]
    exact hf
  · rw [State.stepped, State.stepped, countSweep_countSweep]

end

/-! ## The three sweeps on a bucket before the last -/

theorem passes_purge {s : State} {w : Byte} {d : Nat} (h : Nat) (hw : (s.entryAt d).wafer ≠ w) :
    PassesOver .purge (purgeAction w h) s d := fun _ _ => if_pos hw

theorem passes_audit (s : State) (d : Nat) : PassesOver .audit auditAction s d := fun _ _ => rfl

theorem inRangeNo_iff {s : State} {g : Nat} {r : BatchRange} (hr : s.lot.blocked[g - 1]? = some r)
    (b : Half) : s.inRangeNo g b = true ↔ r.low.toNat ≤ b.toNat ∧ b.toNat ≤ r.high.toNat := by
  unfold State.inRangeNo
  rw [hr]
  simp [BitVec.le_def]

theorem noted_eq_iff {g : Nat} (h : g ≤ 8) (b : Byte) : b = BitVec.ofNat 8 g ↔ b.toNat = g := by
  rw [← BitVec.toNat_inj, BitVec.toNat_ofNat, Nat.mod_eq_of_lt (by omega)]

/-- An entry that the quarantine of range g leaves as it is (R136). -/
theorem quarantineAction_passes {s : State} {g : Nat} {r : BatchRange} (hg : g ≤ 8)
    (hr : s.lot.blocked[g - 1]? = some r) {e : Entry}
    (he : ¬ (r.low.toNat ≤ e.batch.toNat ∧ e.batch.toNat ≤ r.high.toNat) ∨ e.state = .void
      ∨ (e.state = .provisioned ∧ e.noted.toNat = g)) (c : Nat) (pred : Option Nat) :
    quarantineAction g c pred e s = (.kept, s) := by
  unfold quarantineAction
  split
  · rfl
  · rename_i hin
    have hin : r.low.toNat ≤ e.batch.toNat ∧ e.batch.toNat ≤ r.high.toNat :=
      (inRangeNo_iff hr e.batch).mp (by simpa using hin)
    rcases he with hout | hvoid | ⟨hprov, hnoted⟩
    · exact absurd hin hout
    · simp only [hvoid]
    · simp only [hprov, if_pos ((noted_eq_iff hg _).mpr hnoted)]

theorem passes_quarantine {s : State} {g : Nat} {r : BatchRange} (hg : g ≤ 8)
    (hr : s.lot.blocked[g - 1]? = some r) {d : Nat}
    (hd : ¬ (r.low.toNat ≤ (s.entryAt d).batch.toNat ∧ (s.entryAt d).batch.toNat ≤ r.high.toNat)
      ∨ (s.entryAt d).state = .void
      ∨ ((s.entryAt d).state = .provisioned ∧ (s.entryAt d).noted.toNat = g)) :
    PassesOver .quarantine (quarantineAction g) s d := fun pred _ =>
  quarantineAction_passes hg (by rw [State.countSweep_lot]; exact hr) hd d pred

theorem ofNat_toNat_byte (w : Byte) : BitVec.ofNat 8 ((some w.toNat).getD 0) = w := by simp

section
variable {s u : State}

theorem exec_purgeStep_offered (ho : s.Offered .purge)
    (hu : stepBucket .purge (purgeAction (BitVec.ofNat 8 (s.sweeps.purge.param.getD 0))
      s.sweeps.purge.cursor) s.swept = u)
    (hcur : u.sweeps.purge.cursor < 2048) (hd : u.deferred = []) : exec .purgeStep s = .next u := by
  have hstep : purgeStep s.swept = u := by
    have hlt : ¬ Config.buckets ≤ u.sweeps.purge.cursor := Nat.not_le.mpr hcur
    unfold purgeStep
    simp only [show s.swept.sweeps = s.sweeps from rfl, hu]
    exact if_neg hlt
  rw [exec_purgeStep, sweepStep_offered ho, hstep, endWork_calm hd]

theorem exec_quarantineStep_offered (ho : s.Offered .quarantine)
    (hu : stepBucket .quarantine (quarantineAction (s.sweeps.quarantine.param.getD 0)) s.swept = u)
    (hcur : u.sweeps.quarantine.cursor < 2048) (hd : u.deferred = []) :
    exec .quarantineStep s = .next u := by
  have hstep : quarantineStep s.swept = u := by
    have hlt : ¬ Config.buckets ≤ u.sweeps.quarantine.cursor := Nat.not_le.mpr hcur
    unfold quarantineStep
    simp only [show s.swept.sweeps = s.sweeps from rfl, hu]
    exact if_neg hlt
  rw [exec_quarantineStep, sweepStep_offered ho, hstep, endWork_calm hd]

theorem exec_auditTableStep_offered (ho : s.Offered .auditTable)
    (hu : stepBucket .audit auditAction s.swept = u)
    (hcur : u.sweeps.audit.cursor < 2048) (hd : u.deferred = []) :
    exec .auditTableStep s = .next u := by
  have hstep : auditTableStep s.swept = u := by
    have hlt : ¬ Config.buckets ≤ u.sweeps.audit.cursor := Nat.not_le.mpr hcur
    unfold auditTableStep
    simp only [hu]
    exact if_neg hlt
  rw [exec_auditTableStep, sweepStep_offered ho, hstep, endWork_calm hd]

end

/-- The counts of a walk of n entries, and of one that breaks off after n (R128). -/
theorem visits_counts {k : SweepCounts} (h : k.visited ≤ 4294967295) (n : Nat) :
    SweepCounts.visit^[n] k = { k with visited := min 4294967295 (k.visited + n) }
      ∧ (SweepCounts.fault ∘ SweepCounts.visit^[n]) k = { k with
        visited := min 4294967295 (k.visited + n), faults := min 4294967295 (k.faults + 1) } := by
  have hv := visit_iterate h n
  exact ⟨hv, by rw [Function.comp_apply, hv]; rfl⟩

/-- The steps of the three levels, with the context that they leave. -/
theorem stepped_purge (s : State) (f : SweepCounts → SweepCounts) : s.stepped .purge f
    = { s with sweeps := { s.sweeps with purge := { s.sweeps.purge with
        cursor := s.sweeps.purge.cursor + 1, counts := f s.sweeps.purge.counts } } } := rfl

theorem stepped_quarantine (s : State) (f : SweepCounts → SweepCounts) : s.stepped .quarantine f
    = { s with sweeps := { s.sweeps with quarantine := { s.sweeps.quarantine with
        cursor := s.sweeps.quarantine.cursor + 1, counts := f s.sweeps.quarantine.counts } } } := rfl

theorem stepped_audit (s : State) (f : SweepCounts → SweepCounts) : s.stepped .audit f
    = { s with sweeps := { s.sweeps with audit := { s.sweeps.audit with
        cursor := s.sweeps.audit.cursor + 1, counts := f s.sweeps.audit.counts } } } := rfl

theorem tableFault_swept (s : State) (p : FaultPlace) (g : FaultGroup) (o : FaultOrigin) :
    s.swept.tableFault p g o = (s.tableFault p g o).swept := by
  have hplace : (s.swept.recordFault p g o).placeBucket p = (s.recordFault p g o).placeBucket p := by
    cases p <;> rfl
  unfold State.tableFault
  simp only [hplace]
  cases (s.recordFault p g o).placeBucket p <;> rfl

/-- Facts about a state hold of it with the pointer moved on. -/
theorem leads_swept {s : State} {h c : Nat} {l : List Nat} :
    ∀ {f : Nat}, s.Leads h f l c → s.swept.Leads h f l c := by
  induction l with
  | nil => exact fun hl => hl
  | cons d ds ih =>
    rintro f ⟨heq, hplace, hclean, hlast, hrest⟩
    exact ⟨heq, hplace, hclean, hlast, ih hrest⟩

theorem walksTo_swept {s : State} {h : Nat} {before : List Nat} {c : Nat} (hw : s.WalksTo h before c) :
    s.swept.WalksTo h before c := ⟨hw.head, hw.whole, hw.valid, leads_swept hw.leads, hw.room⟩

theorem chain_swept {s : State} {h : Nat} {before : List Nat} {c : Nat} (hc : s.Chain h before c) :
    s.swept.Chain h before c :=
  ⟨⟨walksTo_swept hc.reads.walks, hc.reads.room, hc.reads.place, hc.reads.clean⟩, hc.last⟩

theorem breaks_swept {s : State} {h : Nat} {before : List Nat} {p : FaultPlace} {g : FaultGroup}
    (hb : s.Breaks h before p g) : s.swept.Breaks h before p g := by
  obtain ⟨c, hw, hf⟩ := breaks_iff.mp hb
  exact breaks_iff.mpr ⟨c, walksTo_swept hw, hf⟩

section
variable {s u : State} {f : SweepCounts → SweepCounts} {k : SweepCounts}

theorem exec_purgeStep_stepped (ho : s.Offered .purge)
    (hb : stepBucket .purge (purgeAction (BitVec.ofNat 8 (s.sweeps.purge.param.getD 0))
      s.sweeps.purge.cursor) s.swept = u.swept.stepped .purge f)
    (hk : f s.sweeps.purge.counts = k) (hsw : u.sweeps = s.sweeps)
    (hcur : s.sweeps.purge.cursor < 2047) (hd : u.deferred = s.deferred) :
    exec .purgeStep s = .next { u.swept with sweeps := { s.sweeps with purge := { s.sweeps.purge with
      cursor := s.sweeps.purge.cursor + 1, counts := k } } } := by
  have hu : u.swept.stepped .purge f = { u.swept with sweeps := { s.sweeps with
      purge := { s.sweeps.purge with cursor := s.sweeps.purge.cursor + 1, counts := k } } } := by
    rw [stepped_purge, show u.swept.sweeps = s.sweeps from hsw, hk]
  rw [exec_purgeStep_offered ho hb (by rw [hu]; exact Nat.succ_lt_succ hcur)
    (by rw [hu]; exact hd.trans ho.calm.noBoundary), hu]

theorem exec_quarantineStep_stepped (ho : s.Offered .quarantine)
    (hb : stepBucket .quarantine (quarantineAction (s.sweeps.quarantine.param.getD 0)) s.swept = u.swept.stepped .quarantine f)
    (hk : f s.sweeps.quarantine.counts = k) (hsw : u.sweeps = s.sweeps)
    (hcur : s.sweeps.quarantine.cursor < 2047) (hd : u.deferred = s.deferred) :
    exec .quarantineStep s = .next { u.swept with sweeps := { s.sweeps with quarantine := { s.sweeps.quarantine with
      cursor := s.sweeps.quarantine.cursor + 1, counts := k } } } := by
  have hu : u.swept.stepped .quarantine f = { u.swept with sweeps := { s.sweeps with
      quarantine := { s.sweeps.quarantine with cursor := s.sweeps.quarantine.cursor + 1, counts := k } } } := by
    rw [stepped_quarantine, show u.swept.sweeps = s.sweeps from hsw, hk]
  rw [exec_quarantineStep_offered ho hb (by rw [hu]; exact Nat.succ_lt_succ hcur)
    (by rw [hu]; exact hd.trans ho.calm.noBoundary), hu]

theorem exec_auditTableStep_stepped (ho : s.Offered .auditTable)
    (hb : stepBucket .audit auditAction s.swept = u.swept.stepped .audit f)
    (hk : f s.sweeps.audit.counts = k) (hsw : u.sweeps = s.sweeps)
    (hcur : s.sweeps.audit.cursor < 2047) (hd : u.deferred = s.deferred) :
    exec .auditTableStep s = .next { u.swept with sweeps := { s.sweeps with audit := { s.sweeps.audit with
      cursor := s.sweeps.audit.cursor + 1, counts := k } } } := by
  have hu : u.swept.stepped .audit f = { u.swept with sweeps := { s.sweeps with
      audit := { s.sweeps.audit with cursor := s.sweeps.audit.cursor + 1, counts := k } } } := by
    rw [stepped_audit, show u.swept.sweeps = s.sweeps from hsw, hk]
  rw [exec_auditTableStep_offered ho hb (by rw [hu]; exact Nat.succ_lt_succ hcur)
    (by rw [hu]; exact hd.trans ho.calm.noBoundary), hu]

end

/-- Settles O45: a step with nothing to change goes on by one bucket, and its walk or the read that
fails changes the counts alone. -/
theorem sweepPassesABucket : Obligations.SweepPassesABucket := by
  unfold Obligations.SweepPassesABucket
  intro s h hh
  refine ⟨fun ho hc => ⟨fun ⟨hp, hd, hv⟩ => ?_, fun ⟨hp, hd⟩ => ?_, fun hp => ?_⟩,
    fun ho hc => ⟨fun ⟨hp, hd, hv⟩ => ?_, fun ⟨hp, hd⟩ => ?_, fun hp => ?_⟩,
    fun ho hc => ⟨fun ⟨hp, hd, hv⟩ => ?_, fun ⟨hp, hd⟩ => ?_, fun hp => ?_⟩,
    fun w ho hc hw hmax => ⟨fun before c hch hpass => ?_, fun before p g hb hpass => ?_⟩,
    fun n r ho hc hn _ hn8 hr hmax => ⟨fun before c hch hpass => ?_, fun before p g hb hpass => ?_⟩,
    fun ho hc hmax => ⟨fun before c hch => ?_, fun before p g hb => ?_⟩⟩
  · subst hc
    exact exec_purgeStep_stepped ho (stepBucket_empty (s := s.swept) rfl hp hd hv) rfl rfl hh rfl
  · subst hc
    exact exec_purgeStep_stepped ho (stepBucket_marked (s := s.swept) rfl hp hd) rfl rfl hh rfl
  · subst hc
    refine exec_purgeStep_stepped ho (u := s.tableFault _ .link .access) (f := .fault) ?_ rfl (by simp) hh
      (by simp)
    rw [← tableFault_swept]
    exact stepBucket_headFault (s := s.swept) rfl hp
  · subst hc
    exact exec_quarantineStep_stepped ho (stepBucket_empty (s := s.swept) rfl hp hd hv) rfl rfl hh rfl
  · subst hc
    exact exec_quarantineStep_stepped ho (stepBucket_marked (s := s.swept) rfl hp hd) rfl rfl hh rfl
  · subst hc
    refine exec_quarantineStep_stepped ho (u := s.tableFault _ .link .access) (f := .fault) ?_ rfl (by simp) hh
      (by simp)
    rw [← tableFault_swept]
    exact stepBucket_headFault (s := s.swept) rfl hp
  · subst hc
    exact exec_auditTableStep_stepped ho (stepBucket_empty (s := s.swept) rfl hp hd hv) rfl rfl hh rfl
  · subst hc
    exact exec_auditTableStep_stepped ho (stepBucket_marked (s := s.swept) rfl hp hd) rfl rfl hh rfl
  · subst hc
    refine exec_auditTableStep_stepped ho (u := s.tableFault _ .link .audit) (f := .fault) ?_ rfl (by simp) hh
      (by simp)
    rw [← tableFault_swept]
    exact stepBucket_headFault (s := s.swept) rfl hp
  · subst hc
    exact exec_purgeStep_stepped ho (stepBucket_chain (s := s.swept) rfl (chain_swept hch)
      fun d hd => passes_purge (s := s.swept) _ (by rw [hw, ofNat_toNat_byte]; exact hpass d hd)) (visits_counts hmax _).1 rfl hh rfl
  · subst hc
    refine exec_purgeStep_stepped ho (u := s.tableFault p g .access) ?_ (visits_counts hmax _).2 (by simp)
      hh (by simp)
    rw [← tableFault_swept]
    exact stepBucket_breaks (s := s.swept) rfl (breaks_swept hb) fun d hd => passes_purge (s := s.swept) _ (by rw [hw, ofNat_toNat_byte]; exact hpass d hd)
  · subst hc
    exact exec_quarantineStep_stepped ho (stepBucket_chain (s := s.swept) rfl (chain_swept hch)
      fun d hd => by
      rw [hn]
      exact passes_quarantine (s := s.swept) hn8 hr (hpass d hd)) (visits_counts hmax _).1 rfl hh rfl
  · subst hc
    refine exec_quarantineStep_stepped ho (u := s.tableFault p g .access) ?_ (visits_counts hmax _).2 (by simp)
      hh (by simp)
    rw [← tableFault_swept]
    exact stepBucket_breaks (s := s.swept) rfl (breaks_swept hb) fun d hd => by
      rw [hn]
      exact passes_quarantine (s := s.swept) hn8 hr (hpass d hd)
  · subst hc
    exact exec_auditTableStep_stepped ho (stepBucket_chain (s := s.swept) rfl (chain_swept hch)
      fun d hd => passes_audit _ d) (visits_counts hmax _).1 rfl hh rfl
  · subst hc
    refine exec_auditTableStep_stepped ho (u := s.tableFault p g .audit) ?_ (visits_counts hmax _).2 (by simp)
      hh (by simp)
    rw [← tableFault_swept]
    exact stepBucket_breaks (s := s.swept) rfl (breaks_swept hb) fun d hd => passes_audit _ d

/-! ## The last bucket -/

/-- An offered sweep step whose action is known. -/
theorem sweepStep_done {s u : State} {k : SweepStep} {act : State → State} (ho : s.Offered k)
    (hact : act s.swept = u) (hd : u.deferred = []) : s.sweepStep k act = u := by
  rw [sweepStep_offered ho, hact, endWork_calm hd]

theorem latchDone_eq (s : State) : s.latchDone = { s with
    sweeps := { s.sweeps with sweepDone := true }, links := s.doneLatched } := rfl

section
variable {s u : State}

theorem purgeStep_ends (hu : stepBucket .purge (purgeAction (BitVec.ofNat 8
      (s.sweeps.purge.param.getD 0)) s.sweeps.purge.cursor) s = u)
    (hcur : u.sweeps.purge.cursor = 2048) : purgeStep s = u.endPurge := by
  have hlast : Config.buckets ≤ u.sweeps.purge.cursor := hcur.ge
  unfold purgeStep
  simp only [hu]
  exact if_pos hlast

theorem quarantineStep_ends
    (hu : stepBucket .quarantine (quarantineAction (s.sweeps.quarantine.param.getD 0)) s = u)
    (hcur : u.sweeps.quarantine.cursor = 2048) : quarantineStep s
      = (u.setContext .quarantine { u.sweeps.quarantine with active := false, waiting := false }).latchDone
    := by
  have hlast : Config.buckets ≤ u.sweeps.quarantine.cursor := hcur.ge
  unfold quarantineStep
  simp only [hu]
  exact if_pos hlast

theorem auditTableStep_ends (hu : stepBucket .audit auditAction s = u)
    (hcur : u.sweeps.audit.cursor = 2048) : auditTableStep s
      = u.setContext .audit { u.sweeps.audit with phase := .pool, cursor := 0 } := by
  have hlast : Config.buckets ≤ u.sweeps.audit.cursor := hcur.ge
  unfold auditTableStep
  simp only [hu]
  exact if_pos hlast

end

/-- Settles O46: past the last bucket the purge and the quarantine end with the latch set, and the audit
goes on with the pool. -/
theorem lastBucketCompletes : Obligations.LastBucketCompletes := by
  unfold Obligations.LastBucketCompletes
  intro s hp hd hv
  refine ⟨fun w ho hc hw hwafer => ?_, fun ho hc => ?_, fun ho hc => ?_⟩
  · have hstep := purgeStep_ends (s := s.swept) (stepBucket_empty (s := s.swept) hc hp hd hv)
      (congrArg Nat.succ hc)
    rw [endPurge_eq, stepped_purge, latchDone_eq] at hstep
    rw [exec_purgeStep, sweepStep_done ho hstep ho.calm.noBoundary]
    simp only [show s.swept.sweeps = s.sweeps from rfl, hw, ofNat_toNat_byte, hc]
    rfl
  · have hstep := quarantineStep_ends (s := s.swept) (stepBucket_empty (s := s.swept) hc hp hd hv)
      (congrArg Nat.succ hc)
    rw [stepped_quarantine, latchDone_eq] at hstep
    rw [exec_quarantineStep, sweepStep_done ho hstep ho.calm.noBoundary]
    simp only [show s.swept.sweeps = s.sweeps from rfl, hc]
    rfl
  · have hstep := auditTableStep_ends (s := s.swept) (stepBucket_empty (s := s.swept) hc hp hd hv)
      (congrArg Nat.succ hc)
    rw [stepped_audit] at hstep
    rw [exec_auditTableStep, sweepStep_done ho hstep ho.calm.noBoundary]
    rfl

end Sys2Proof.Machine

/-! PROOF. KEY LOAD: the checks of R28 in their order, and what an accepted load puts into the pool (R29). -/

namespace Sys2Proof.Machine

theorem exec_keyLoad (batch : Half) (records : List KeyRecord) (s : State) : exec (.keyLoad batch records) s
    = .next (s.request .lot (.keyLoad batch records) (keyLoadRule batch records)) := rfl

theorem kindOf_keyLoad (batch : Half) (records : List KeyRecord) :
    kindOf (.keyLoad batch records) = 0x23 := rfl

/-! ## The index check -/

/-- The record numbered k has an index above 63, or one that a list or an earlier record has (R28). -/
def BadAt (seen : List Byte) (records : List KeyRecord) (k : Nat) : Prop :=
  ∃ r, records[k]? = some r
    ∧ (63 < r.index.toNat ∨ r.index ∈ seen ∨ r.index ∈ (records.take k).map (·.index))

theorem badAt_zero {seen : List Byte} {r : KeyRecord} {rs : List KeyRecord} :
    BadAt seen (r :: rs) 0 ↔ 63 < r.index.toNat ∨ r.index ∈ seen := by
  simp [BadAt]

theorem badAt_succ {seen : List Byte} {r : KeyRecord} {rs : List KeyRecord} {k : Nat} :
    BadAt seen (r :: rs) (k + 1) ↔ BadAt (r.index :: seen) rs k := by
  simp only [BadAt, List.getElem?_cons_succ, List.take_succ_cons, List.map_cons, List.mem_cons]
  refine exists_congr fun q => and_congr_right fun _ => ?_
  tauto

/-- The check's condition on the first record. -/
theorem badIndex_head {seen : List Byte} {r : KeyRecord} {rs : List KeyRecord} :
    (63 < r.index ∨ r.index ∈ seen) ↔ BadAt seen (r :: rs) 0 :=
  (or_congr_left BitVec.lt_def).trans badAt_zero.symm

/-- The index check names the first bad record. -/
theorem badIndex_first {records : List KeyRecord} {seen : List Byte} {n k : Nat}
    (hk : BadAt seen records k) (hfirst : ∀ j, j < k → ¬ BadAt seen records j) :
    badIndex seen n records = some (n + k) := by
  induction records generalizing seen n k with
  | nil => obtain ⟨r, h, -⟩ := hk; simp at h
  | cons r rs ih =>
    rw [badIndex]
    cases k with
    | zero => rw [if_pos (badIndex_head.mpr hk)]; rfl
    | succ k =>
      rw [if_neg fun h => hfirst 0 (Nat.succ_pos k) (badIndex_head.mp h),
        ih (badAt_succ.mp hk) fun j hj hb => hfirst (j + 1) (by omega) (badAt_succ.mpr hb)]
      congr 1
      omega

theorem badIndex_none {records : List KeyRecord} {seen : List Byte} {n : Nat}
    (h : ∀ k, ¬ BadAt seen records k) : badIndex seen n records = none := by
  induction records generalizing seen n with
  | nil => rfl
  | cons r rs ih =>
    rw [badIndex, if_neg fun hb => h 0 (badIndex_head.mp hb)]
    exact ih fun k hb => h (k + 1) (badAt_succ.mpr hb)

theorem badAt_iff {records : List KeyRecord} {k : Nat} : BadAt [] records k ↔
    ∃ h : k < records.length, 63 < records[k].index.toNat
      ∨ ∃ j, ∃ g : j < k, (records[j]'(by omega)).index = records[k].index := by
  constructor
  · rintro ⟨r, hr, hbad⟩
    obtain ⟨hk, rfl⟩ := List.getElem?_eq_some_iff.mp hr
    refine ⟨hk, hbad.imp_right fun h => ?_⟩
    obtain ⟨q, hq, heq⟩ := List.mem_map.mp (h.resolve_left (by simp))
    obtain ⟨j, hj, rfl⟩ := List.mem_take_iff_getElem.mp hq
    exact ⟨j, by omega, heq⟩
  · rintro ⟨hk, hbad⟩
    refine ⟨records[k], List.getElem?_eq_getElem hk, hbad.imp_right ?_⟩
    rintro ⟨j, hj, heq⟩
    exact .inr (List.mem_map.mpr ⟨_, List.mem_take_iff_getElem.mpr ⟨j, by omega, rfl⟩, heq⟩)

/-! ## The checks in order -/

section
variable {batch : Half} {records : List KeyRecord} {s : State}

/-- The first check of R28 passes. -/
def LoadCounted (batch : Half) (records : List KeyRecord) : Prop :=
  batch ≠ 0 ∧ records ≠ [] ∧ records.length ≤ 64

theorem loadRefusal_counts (h : ¬ LoadCounted batch records) :
    loadRefusal batch records s = some (.badRecord 0) := by
  refine if_pos ?_
  by_contra hno
  rw [not_or, not_or] at hno
  exact h ⟨hno.1, fun h0 => hno.2.1 (by rw [h0]; rfl), Nat.le_of_not_lt hno.2.2⟩

theorem loadCounted_iff (h : LoadCounted batch records) :
    ¬ (batch = 0 ∨ records.length = 0 ∨ Config.recordLimit < records.length) := by
  obtain ⟨h1, h2, h3⟩ := h
  rintro (h | h | h)
  · exact h1 h
  · exact h2 (List.length_eq_zero_iff.mp h)
  · exact absurd h (Nat.not_lt.mpr h3)

variable (h1 : LoadCounted batch records)
include h1

theorem loadRefusal_index {k : Nat} (hk : BadAt [] records k)
    (hfirst : ∀ j, j < k → ¬ BadAt [] records j) :
    loadRefusal batch records s = some (.badRecord (k + 1)) := by
  unfold loadRefusal
  rw [if_neg (loadCounted_iff h1), badIndex_first hk hfirst, Nat.add_comm]

variable (h2 : ∀ k, ¬ BadAt [] records k)
include h2

theorem loadRefusal_duplicate (h3 : batch ∈ s.pool.batches) :
    loadRefusal batch records s = some (.code .batchDuplicate) := by
  unfold loadRefusal
  rw [if_neg (loadCounted_iff h1), badIndex_none h2]
  exact if_pos h3

variable (h3 : batch ∉ s.pool.batches)
include h3

theorem loadRefusal_blocked {g : Nat} (h4 : s.blockedBy batch = some g) :
    loadRefusal batch records s = some (.batchBlocked g) := by
  unfold loadRefusal
  rw [if_neg (loadCounted_iff h1), badIndex_none h2]
  simp only [if_neg h3, h4]

variable (h4 : s.blockedBy batch = none)
include h4

theorem loadRefusal_batchList (h5 : 512 ≤ s.pool.batches.length) :
    loadRefusal batch records s = some (.code .batchListFull) := by
  unfold loadRefusal
  rw [if_neg (loadCounted_iff h1), badIndex_none h2]
  simp only [if_neg h3, h4]
  exact if_pos h5

variable (h5 : s.pool.batches.length < 512)
include h5

theorem loadRefusal_poolFull (h6 : s.emptyCount < records.length) :
    loadRefusal batch records s = some (.poolFull s.emptyCount) := by
  have hlist : ¬ Config.batchLimit ≤ s.pool.batches.length := Nat.not_le.mpr h5
  unfold loadRefusal
  rw [if_neg (loadCounted_iff h1), badIndex_none h2]
  simp only [if_neg h3, h4, if_neg hlist, if_pos h6]

variable (h6 : records.length ≤ s.emptyCount)
include h6

theorem loadRefusal_check (h7 : failingRecords batch records ≠ []) :
    loadRefusal batch records s = some (.recordCheck (failingRecords batch records)) := by
  have hlist : ¬ Config.batchLimit ≤ s.pool.batches.length := Nat.not_le.mpr h5
  unfold loadRefusal
  rw [if_neg (loadCounted_iff h1), badIndex_none h2]
  simp only [if_neg h3, h4, if_neg hlist, if_neg (Nat.not_lt.mpr h6)]

theorem loadRefusal_none (h7 : failingRecords batch records = []) :
    loadRefusal batch records s = none := by
  have hlist : ¬ Config.batchLimit ≤ s.pool.batches.length := Nat.not_le.mpr h5
  unfold loadRefusal
  rw [if_neg (loadCounted_iff h1), badIndex_none h2]
  simp only [if_neg h3, h4, if_neg hlist, if_neg (Nat.not_lt.mpr h6), h7]

end

theorem blockedBy_first {s : State} {batch : Half} {g : Nat} (hg : g < s.lot.blocked.length)
    (hin : s.lot.blocked[g].low.toNat ≤ batch.toNat ∧ batch.toNat ≤ s.lot.blocked[g].high.toNat)
    (hfirst : ∀ j, ∀ k : j < g, ¬ ((s.lot.blocked[j]'(by omega)).low.toNat ≤ batch.toNat
      ∧ batch.toNat ≤ (s.lot.blocked[j]'(by omega)).high.toNat)) :
    s.blockedBy batch = some (g + 1) := by
  have hidx : s.lot.blocked.findIdx? (fun r => r.low ≤ batch && batch ≤ r.high) = some g := by
    rw [List.findIdx?_eq_some_iff_getElem]
    refine ⟨hg, by simpa [BitVec.le_def] using hin, fun j hj => ?_⟩
    simpa [BitVec.le_def] using hfirst j hj
  unfold State.blockedBy
  rw [hidx]
  rfl

theorem blockedBy_none {s : State} {batch : Half}
    (h : ∀ r ∈ s.lot.blocked, ¬ (r.low.toNat ≤ batch.toNat ∧ batch.toNat ≤ r.high.toNat)) :
    s.blockedBy batch = none := by
  have hidx : s.lot.blocked.findIdx? (fun r => r.low ≤ batch && batch ≤ r.high) = none := by
    rw [List.findIdx?_eq_none_iff]
    intro r hr
    have hno := h r hr
    rw [Bool.eq_false_iff]
    simpa [BitVec.le_def] using hno
  unfold State.blockedBy
  rw [hidx]
  rfl

/-- A refused load answers and changes nothing. -/
theorem keyLoad_refused {s : State} {batch : Half} {records : List KeyRecord} {body : ReplyBody}
    (hg : s.Granted .lot (.keyLoad batch records)) (ht : s.taking)
    (hr : loadRefusal batch records (s.taken .lot) = some body)
    (hdone : (s.taken .lot).reportsDone body = false) :
    exec (.keyLoad batch records) s = .next (s.answered .lot 0x23 body false) := by
  have hrule : keyLoadRule batch records (s.taken .lot) = (some body, s.taken .lot) := by
    unfold keyLoadRule; rw [hr]
  rw [exec_keyLoad, request_unchanged hg (lotGate_taking ht _) hrule, hdone, kindOf_keyLoad]

/-- Settles O38: the checks of a load one after another, each on the state that the grant has taken. -/
theorem keyLoadChecksInOrder : Obligations.KeyLoadChecksInOrder := by
  unfold Obligations.KeyLoadChecksInOrder
  intro s batch records hg ht
  have hgood : (∀ k, ¬ ∃ h : k < records.length, 63 < records[k].index.toNat
      ∨ ∃ j, ∃ g : j < k, (records[j]'(by omega)).index = records[k].index) →
      ∀ k, ¬ BadAt [] records k := fun h k hb => h k (badAt_iff.mp hb)
  refine ⟨fun h1 => ?_, fun k h1 hk hfirst => ?_, fun h1 h2 h3 => ?_, fun g h1 h2 h3 hlt hin hno => ?_,
    fun h1 h2 h3 h4 h5 => ?_, fun h1 h2 h3 h4 h5 h6 => ?_, fun h1 h2 h3 h4 h5 h6 h7 => ?_⟩
  · exact keyLoad_refused hg ht (loadRefusal_counts h1) rfl
  · exact keyLoad_refused hg ht (loadRefusal_index h1 (badAt_iff.mpr hk) fun j hj hb =>
      hfirst j hj (badAt_iff.mp hb)) rfl
  · exact keyLoad_refused hg ht (loadRefusal_duplicate h1 (hgood h2) (not_not.mp h3)) rfl
  · exact keyLoad_refused hg ht
      (loadRefusal_blocked (s := s.taken .lot) h1 (hgood h2) h3 (blockedBy_first hlt hin hno)) rfl
  · exact keyLoad_refused hg ht (loadRefusal_batchList (s := s.taken .lot) h1 (hgood h2) h3
      (blockedBy_none h4) (Nat.not_lt.mp h5)) rfl
  · exact keyLoad_refused hg ht (loadRefusal_poolFull (s := s.taken .lot) h1 (hgood h2) h3
      (blockedBy_none h4) h5 (Nat.not_le.mp h6)) rfl
  · refine keyLoad_refused hg ht (loadRefusal_check (s := s.taken .lot) h1 (hgood h2) h3
      (blockedBy_none h4) h5 h6 fun hnil => ?_) rfl
    obtain ⟨r, hr, hw⟩ := h7
    have hmem : r.index ∈ failingRecords batch records :=
      List.mem_map_of_mem (List.mem_filter.mpr ⟨hr, decide_eq_true hw⟩)
    rw [hnil] at hmem
    exact absurd hmem (List.not_mem_nil)

/-! ## The slots of an accepted load -/

theorem emptySlots_below (s : State) (fuel n count : Nat) :
    ∀ k ∈ s.emptySlots fuel n count, k < n + fuel := by
  induction fuel generalizing n count with
  | zero => simp [State.emptySlots]
  | succ fuel ih =>
    cases count with
    | zero => simp [State.emptySlots]
    | succ count =>
      intro k hk
      rw [State.emptySlots] at hk
      split at hk
      · rcases List.mem_cons.mp hk with rfl | hk
        · omega
        · have := ih _ _ k hk; omega
      · have := ih _ _ k hk; omega

/-- An EMPTY slot that is not taken stands above those that are. -/
theorem emptySlots_lowest (s : State) (fuel n count : Nat) {m : Nat} (hm : (s.keySlot m).state = .empty)
    (hn : n ≤ m) (hno : m ∉ s.emptySlots fuel n count) :
    ∀ k ∈ s.emptySlots fuel n count, k < m := by
  induction fuel generalizing n count with
  | zero => simp [State.emptySlots]
  | succ fuel ih =>
    cases count with
    | zero => simp [State.emptySlots]
    | succ count =>
      intro k hk
      rw [State.emptySlots] at hk hno
      split at hk
      case isTrue he =>
        rw [if_pos he] at hno
        obtain ⟨hne, hno⟩ := not_or.mp fun h => hno (List.mem_cons.mpr h)
        rcases List.mem_cons.mp hk with rfl | hk
        · omega
        · exact ih _ _ (by omega) hno k hk
      case isFalse he =>
        rw [if_neg he] at hno
        have hne : m ≠ n := fun h => he (h ▸ hm)
        exact ih _ _ (by omega) hno k hk

theorem emptySlots_length (s : State) (fuel n count : Nat) :
    (s.emptySlots fuel n count).length
      = min count ((List.range' n fuel).countP fun k => decide ((s.keySlot k).state = .empty)) := by
  induction fuel generalizing n count with
  | zero => simp [State.emptySlots]
  | succ fuel ih =>
    cases count with
    | zero => simp [State.emptySlots]
    | succ count =>
      rw [State.emptySlots, List.range'_succ, List.countP_cons]
      split
      case isTrue he => simp [he, ih]
      case isFalse he => simp [he, ih]

/-- A slot that is not EMPTY is listed with its state. -/
theorem mem_of_mapGet {α : Type} {d : α} {m : List (Nat × α)} {n : Nat} (h : mapGet d m n ≠ d) :
    (n, mapGet d m n) ∈ m := by
  induction m with
  | nil => exact absurd rfl h
  | cons e m ih =>
    obtain ⟨k, v⟩ := e
    rw [mapGet] at h ⊢
    split
    case isTrue hk => exact List.mem_cons.mpr (.inl (by rw [hk]))
    case isFalse hk =>
      rw [if_neg hk] at h
      exact List.mem_cons_of_mem _ (ih h)

/-- The slots in use number at most those that the counts name (R27). -/
theorem slotsInUse_le (s : State) (hp : s.PoolOk) (l : List Nat) (hl : l.Nodup) :
    l.countP (fun k => !decide ((s.keySlot k).state = .empty))
      ≤ s.pool.counts.fresh + s.pool.counts.returned + s.pool.counts.bound + s.pool.counts.faulted := by
  obtain ⟨-, hf, hr, hb, hx, -⟩ := hp
  have hsum : (s.pool.slots.filter fun e => !decide (e.2.state = .empty)).length
      = s.pool.counts.fresh + s.pool.counts.returned + s.pool.counts.bound + s.pool.counts.faulted := by
    rw [hf, hr, hb, hx]
    unfold KeyPool.inState
    generalize s.pool.slots = m
    induction m with
    | nil => rfl
    | cons e m ih =>
      obtain ⟨k, v⟩ := e
      cases hv : v.state <;> simp [hv] at ih ⊢ <;> omega
  rw [← hsum, List.countP_eq_length_filter, ← List.length_map (f := Prod.fst)]
  refine (List.subperm_of_subset (hl.filter _) fun k hk => ?_).length_le
  obtain ⟨-, hk⟩ := List.mem_filter.mp hk
  have hstate : (s.keySlot k).state ≠ .empty := by simpa using hk
  have hlisted : (k, s.keySlot k) ∈ s.pool.slots :=
    mem_of_mapGet fun h => hstate (congrArg KeySlot.state h)
  exact List.mem_map.mpr ⟨_, List.mem_filter.mpr ⟨hlisted, by simpa using hstate⟩, rfl⟩

/-- A load that fits finds a slot for every record (R28 check 6, R29). -/
theorem emptySlots_enough {s : State} (hp : s.PoolOk) {count : Nat} (hc : count ≤ s.emptyCount) :
    (s.emptySlots s.keySlots 0 count).length = count := by
  have hused := slotsInUse_le s hp (List.range' 0 s.keySlots) List.nodup_range'
  have hsplit := List.length_eq_countP_add_countP
    (fun k => decide ((s.keySlot k).state = .empty)) (l := List.range' 0 s.keySlots)
  rw [List.length_range'] at hsplit
  unfold State.emptyCount at hc
  rw [emptySlots_length]
  simp only [Bool.not_eq_true, decide_eq_false_iff_not] at hsplit
  simp only [decide_not] at hsplit hused
  omega

/-! ## The records in their slots -/

/-- A load of records into distinct EMPTY slots: what stands in each slot, and what the pool counts. -/
structure State.Loads (s t : State) (batch : Half) (ps : List (Nat × KeyRecord)) : Prop where
  maps : t.MapsOk
  filled : ∀ p ∈ ps, t.cell p.1 = (⟨keyContent ⟨batch, p.2.index, p.2.key, p.2.check⟩, 0, 0, false,
    false⟩ : StoreCell).written ∧ t.keySlot p.1 = ⟨.fresh, false⟩
  others : ∀ m, m ∉ ps.map (·.1) → t.keySlot m = s.keySlot m ∧ t.cell m = s.cell m
  pool : t.pool = { s.pool with
    slots := t.pool.slots
    fresh := s.pool.fresh ++ ps.map (·.1)
    counts := { s.pool.counts with
      loaded := s.pool.counts.loaded + ps.length
      fresh := s.pool.counts.fresh + ps.length } }
  rest : s.sameBeside t [.pool, .store]

theorem loadRecord_loads {s : State} (hm : s.MapsOk) (batch : Half) (p : Nat × KeyRecord)
    (he : (s.keySlot p.1).state = .empty) : s.Loads (loadRecord batch s p) batch [p] where
  maps := loadRecord_mapsOk batch p hm
  filled q hq := by
    obtain rfl := List.mem_singleton.mp hq
    exact ⟨(mapGet_mapSet ((mapsOk_iff s).1 hm).1).trans (if_pos rfl),
      (mapGet_mapSet ((mapsOk_iff s).1 hm).2.2.1).trans (if_pos rfl)⟩
  others m hne := by
    have hne : m ≠ p.1 := by simpa using hne
    exact ⟨loadRecord_slot batch s p m hne, mapGet_mapSet_ne hne⟩
  pool := by
    unfold loadRecord State.moveKey
    simp only [show (s.writeCell p.1 _).keySlot p.1 = s.keySlot p.1 from rfl, he]
    rfl
  rest b hb := by
    cases b with
    | pool | store => simp at hb
    | _ => rfl

theorem Loads.cons {s u t : State} {batch : Half} {p : Nat × KeyRecord} {ps : List (Nat × KeyRecord)}
    (h : s.Loads u batch [p]) (k : u.Loads t batch ps) (hp : p.1 ∉ ps.map (·.1)) :
    s.Loads t batch (p :: ps) where
  maps := k.maps
  filled q hq := by
    rcases List.mem_cons.mp hq with rfl | hq
    · obtain ⟨hslot, hcell⟩ := k.others q.1 hp
      rw [hslot, hcell]
      exact h.filled q (List.mem_singleton_self q)
    · exact k.filled q hq
  others m hm := by
    obtain ⟨h1, h2⟩ := k.others m fun hk => hm (List.mem_cons_of_mem _ hk)
    obtain ⟨h3, h4⟩ := h.others m fun hk => hm (by simpa using .inl (List.mem_singleton.mp hk))
    exact ⟨h1.trans h3, h2.trans h4⟩
  pool := by
    rw [k.pool, h.pool]
    simp [Nat.add_assoc, Nat.add_comm 1]
  rest := sameBeside_trans h.rest k.rest

theorem loadRecords_loads (batch : Half) {ps : List (Nat × KeyRecord)} {s : State} (hm : s.MapsOk)
    (hn : (ps.map (·.1)).Nodup) (he : ∀ p ∈ ps, (s.keySlot p.1).state = .empty) :
    s.Loads (ps.foldl (loadRecord batch) s) batch ps := by
  induction ps generalizing s with
  | nil => exact ⟨hm, by simp, fun _ _ => ⟨rfl, rfl⟩, by simp, sameBeside_rfl _ _⟩
  | cons p ps ih =>
    obtain ⟨hp, hn⟩ := List.nodup_cons.mp hn
    have hone := loadRecord_loads hm batch p (he p (List.mem_cons_self ..))
    refine Loads.cons hone (ih hone.maps hn fun q hq => ?_) hp
    rw [loadRecord_slot batch s p q.1 fun h => hp (List.mem_map.mpr ⟨q, hq, h⟩)]
    exact he q (List.mem_cons_of_mem _ hq)

/-- Settles O39: the lowest EMPTY slots are enough, and the records fill them one after another. -/
theorem keyLoadFillsLowestSlots : Obligations.KeyLoadFillsLowestSlots := by
  unfold Obligations.KeyLoadFillsLowestSlots
  intro s batch records hg ht hm hp hb hr hlen hidx hdistinct hbatch hblocked hlist hfit hsum
  let v := s.taken .lot
  let ns := v.emptySlots v.keySlots 0 records.length
  have hns : ns.length = records.length := emptySlots_enough (s := v) hp hfit
  obtain ⟨hsorted, hempty⟩ := emptySlots_spec v v.keySlots 0 records.length
  have hfst : (ns.zip records).map (·.1) = ns := List.map_fst_zip hns.le
  have hloads := loadRecords_loads batch (ps := ns.zip records) (s := v)
    (mapsOk_of_eq hm rfl rfl rfl rfl rfl)
    (by rw [hfst]; exact hsorted.imp fun h => Nat.ne_of_lt h)
    fun p hp => (hempty p.1 (List.of_mem_zip hp).1).2
  have hbad : ∀ k, ¬ BadAt [] records k := by
    rintro k ⟨r, hk, hbad⟩
    obtain ⟨hlt, rfl⟩ := List.getElem?_eq_some_iff.mp hk
    rcases hbad with h63 | hnil | htake
    · exact absurd (hidx _ (List.getElem_mem hlt)) (Nat.not_le.mpr h63)
    · simp at hnil
    · obtain ⟨q, hq, heq⟩ := List.mem_map.mp htake
      obtain ⟨j, hj, rfl⟩ := List.mem_take_iff_getElem.mp hq
      have hjk := hdistinct.getElem_inj_iff (i := j) (j := k) (hi := by simp; omega)
        (hj := by simpa using hlt)
      simp only [List.getElem_map] at hjk
      exact absurd (hjk.mp heq) (by omega)
  have hfail : failingRecords batch records = [] := by
    have hnone : (records.filter fun r => twoSum (keyFields batch r.index r.key) ≠ r.check) = [] :=
      List.filter_eq_nil_iff.mpr fun r hr hw => absurd (hsum r hr) (of_decide_eq_true hw)
    unfold failingRecords
    rw [hnone]
    rfl
  have hblock : v.blockedBy batch = none := by
    refine blockedBy_none fun r hr hin => ?_
    have hno := List.any_eq_false.mp hblocked r hr
    exact hno (by simpa [BitVec.le_def] using hin)
  generalize hu : (ns.zip records).foldl (loadRecord batch) v = u at hloads
  let t : State := { u with pool := { u.pool with batches := u.pool.batches ++ [batch] } }
  have hload : v.loadKeys batch records = t := by
    unfold State.loadKeys
    dsimp only
    rw [hu]
  have hrule : keyLoadRule batch records v
      = (some (.keyLoaded batch records.length t.pool.counts.fresh t.pool.fresh.length), t) := by
    unfold keyLoadRule
    rw [loadRefusal_none (s := v) ⟨hb, hr, hlen⟩ hbad hbatch hblock hlist hfit hfail, hload]
  have hsame : v.sameBeside t [.pool, .store] := fun b hb => by
    have h := hloads.rest b hb
    cases b with
    | pool | store => simp at hb
    | _ => exact h
  have hzip : (ns.zip records).length = records.length := by simp [hns]
  have hpool := hloads.pool
  rw [hfst, hzip] at hpool
  have hexec : exec (.keyLoad batch records) s = .next (t.reply .lot 0x23
      (.keyLoaded batch records.length t.pool.counts.fresh t.pool.fresh.length)) := by
    have hd : t.deferred = [] := (hsame .deferred (by decide)).trans hg.calm.noBoundary
    rw [exec_keyLoad, request_replies hg ht hrule hd, kindOf_keyLoad]
  refine ⟨_, ns, hexec, hns, hsorted, fun n hn => ⟨?_, (hempty n hn).2⟩,
    fun m hm hno n hn => emptySlots_lowest v _ _ _ hm (Nat.zero_le m) hno n hn, fun p hp => ?_,
    fun m hno => (hloads.others m (by rwa [hfst])).1, fun m hno => (hloads.others m (by rwa [hfst])).2,
    ?_, ?_, ?_, ?_, replies_reply _ (hsame .links (by decide)) (hsame .arbiter (by decide)) rfl,
    reply_sameBeside hsame _ _⟩
  · have hlt := emptySlots_below v _ _ _ n hn
    rw [Nat.zero_add] at hlt
    exact hlt
  · obtain ⟨hcell, hslot⟩ := hloads.filled p hp
    have hrec : p.2 ∈ records := (List.of_mem_zip hp).2
    refine ⟨?_, ?_, hslot⟩
    · change keyCellOf (u.cell p.1).content = _
      rw [hcell, written_content, keyCellOf_keyContent]
    · change cellFault (u.cell p.1) keyCheckOk = none
      rw [hcell]
      exact cellFault_written _ _ (keyCheckOk_content _ (hsum p.2 hrec))
  · exact congrArg KeyPool.fresh hpool
  · exact (congrArg KeyPool.stack hpool).trans rfl
  · change u.pool.batches ++ [batch] = _
    rw [hpool]
    rfl
  · exact congrArg KeyPool.counts hpool

end Sys2Proof.Machine

/-! PROOF. Serials (R45 to R48): how the weighted sum changes from one value to the next, and what an
allocation yields. -/

namespace Sys2Proof.Machine

/-- What the carries over k nines take from the weighted sum, from a weight on (R45). -/
def nines : Nat → Nat → Nat
  | 0, _ => 0
  | k + 1, weight => 9 * weight + nines k (weight + 1)

/-- From a value to the next the nines at its end turn to 0 and the digit before them rises by one. -/
theorem weightedDigits_succ (n weight v : Nat) (hv : v + 1 < 10 ^ n) :
    ∃ k < n, weightedDigits n weight (v + 1) + nines k weight = weightedDigits n weight v + (weight + k) := by
  induction n generalizing weight v with
  | zero => simp at hv
  | succ n ih =>
    by_cases h9 : v % 10 = 9
    · obtain ⟨k, hk, heq⟩ := ih (weight + 1) (v / 10) (by rw [pow_succ] at hv; omega)
      have hmod : (v + 1) % 10 = 0 := by omega
      have hdiv : (v + 1) / 10 = v / 10 + 1 := by omega
      refine ⟨k + 1, by omega, ?_⟩
      rw [weightedDigits, weightedDigits, nines, hmod, hdiv, h9]
      omega
    · have hmod : (v + 1) % 10 = v % 10 + 1 := by omega
      have hdiv : (v + 1) / 10 = v / 10 := by omega
      refine ⟨0, by omega, ?_⟩
      rw [weightedDigits, weightedDigits, nines, hmod, hdiv, Nat.add_mul]
      omega

/-- No carry changes the check value by a multiple of 11: of two consecutive values at most one has none
(R45). -/
theorem checkValue_consecutive {v : Nat} (hv : v < 9999999999) :
    ¬ (checkValue v = 10 ∧ checkValue (v + 1) = 10) := by
  obtain ⟨k, hk, heq⟩ := weightedDigits_succ 10 2 v (by omega)
  unfold checkValue weightedSum
  rintro ⟨h1, h2⟩
  interval_cases k <;> simp only [nines] at heq <;> omega

theorem checkValue_le_nine {v : Nat} (h : checkValue v ≠ 10) : checkValue v ≤ 9 := by
  have := Nat.mod_lt (weightedSum v) (show 0 < 11 by decide)
  unfold checkValue at *
  omega

section
variable {u : SerialUnit} {n : Nat}

theorem advance_max (hn : u.next = some n) (h : n = 9999999999) :
    u.advance = { u with next := some 0, overflow := true } := by
  unfold SerialUnit.advance
  simp only [hn]
  exact if_pos h

theorem advance_below (hn : u.next = some n) (h : n ≠ 9999999999) :
    u.advance = { u with next := some (n + 1) } := by
  unfold SerialUnit.advance
  simp only [hn]
  exact if_neg h

theorem passOver_usable (hn : u.next = some n) (h : checkValue n ≠ 10) : u.passOver = u := by
  unfold SerialUnit.passOver
  simp only [hn, if_neg h]

theorem passOver_skips (hn : u.next = some n) (h : checkValue n = 10) (hmax : n ≠ 9999999999) :
    u.passOver = { u with next := some (n + 1), skipped := satAdd u.skipped } := by
  unfold SerialUnit.passOver
  simp only [hn, if_pos h, advance_below hn hmax]

theorem exhausted_iff {w : Window} (hw : u.window = some w) (hn : u.next = some n) :
    u.exhausted = true ↔ u.overflow = true ∨ w.last < n ∨ (n = w.last ∧ checkValue n = 10) := by
  unfold SerialUnit.exhausted
  simp only [hw, hn, Bool.or_eq_true, Bool.and_eq_true, decide_eq_true_eq, or_assoc]

/-- What an allocation yields from a unit whose next value, after the passing over, is v (R48). -/
theorem allocate_of_passOver {p : SerialUnit} {v : Nat} (hp : u.passOver = p) (hv : p.next = some v) :
    u.allocate.1 = v ∧ u.allocate.2.window = p.window
      ∧ u.allocate.2.issued = min 4294967295 (p.issued + 1) ∧ u.allocate.2.skipped = p.skipped
      ∧ (v = 9999999999 → u.allocate.2.next = some 0 ∧ u.allocate.2.overflow = true)
      ∧ (v ≠ 9999999999 → u.allocate.2.next = some (v + 1) ∧ u.allocate.2.overflow = p.overflow) := by
  have hall : u.allocate = (v, { p.advance with issued := satAdd p.issued }) := by
    unfold SerialUnit.allocate
    simp only [hp, hv, Option.getD_some]
  rw [hall]
  by_cases hmax : v = 9999999999
  · rw [advance_max hv hmax]
    exact ⟨rfl, rfl, rfl, rfl, fun _ => ⟨rfl, rfl⟩, fun h => absurd hmax h⟩
  · rw [advance_below hv hmax]
    exact ⟨rfl, rfl, rfl, rfl, fun h => absurd h hmax, fun _ => ⟨rfl, rfl⟩⟩

end

/-- Settles O51: at most one value is passed over, and the one after it has a check digit. -/
theorem allocationYieldsASerial : Obligations.AllocationYieldsASerial := by
  unfold Obligations.AllocationYieldsASerial
  refine ⟨fun v hv => checkValue_consecutive hv, by decide, fun u w n hw hn hfirst hlast =>
    ⟨exhausted_iff hw hn, fun hex => ?_⟩⟩
  have hok : ¬ (u.overflow = true ∨ w.last < n ∨ (n = w.last ∧ checkValue n = 10)) := by
    rw [← exhausted_iff hw hn, hex]
    decide
  obtain ⟨-, hle, hcheck⟩ := not_or.mp hok |>.imp_right not_or.mp
  by_cases h10 : checkValue n = 10
  · have hlt : n < w.last := by
      have : n ≠ w.last := fun h => hcheck ⟨h, h10⟩
      omega
    obtain ⟨hv, hwin, hiss, hskip, hmax, hbelow⟩ :=
      allocate_of_passOver (passOver_skips hn h10 (by omega)) rfl
    have hnext : checkValue (n + 1) ≠ 10 := fun h => checkValue_consecutive (by omega) ⟨h10, h⟩
    exact ⟨n + 1, hv, by omega, by omega, checkValue_le_nine hnext, by omega, by omega, hwin, hiss,
      by rw [hskip, if_neg (by omega)]; rfl, hmax, hbelow⟩
  · obtain ⟨hv, hwin, hiss, hskip, hmax, hbelow⟩ := allocate_of_passOver (passOver_usable hn h10) hn
    exact ⟨n, hv, hfirst, by omega, checkValue_le_nine h10, by omega, by omega, hwin, hiss,
      by rw [hskip, if_pos rfl], hmax, hbelow⟩

end Sys2Proof.Machine

/-! PROOF. The close scrub (R144, R145): what its cells and heads leave of the store, the pool and the
table, and the step that closes the lot. -/

namespace Sys2Proof.Machine

/-- The key slots among some cells that stand in a state. -/
def State.slotsIn (s : State) (l : List Nat) (v : KeyState) : Nat :=
  l.countP fun k => decide (k < s.keySlots) && decide ((s.keySlot k).state = v)

/-- The key slots among some cells that are not EMPTY. -/
def State.slotsUsed (s : State) (l : List Nat) : Nat :=
  l.countP fun k => decide (k < s.keySlots) && decide ((s.keySlot k).state ≠ .empty)

/-- The cells of a list have been cleared, each key slot among them retired (R39, R144). -/
structure State.Scrubs (s t : State) (l : List Nat) : Prop where
  maps : t.MapsOk
  cells : ∀ k, t.cell k = if k ∈ l then zeroCell else s.cell k
  emptied : ∀ k ∈ l, k < s.keySlots → (t.keySlot k).state = .empty
  slots : ∀ k, (k ∉ l ∨ s.keySlots ≤ k) → t.keySlot k = s.keySlot k
  unmapped : ∀ k ∈ l, s.keySlots ≤ k → t.cellBucket k = none
  mapped : ∀ k, (k ∉ l ∨ k < s.keySlots) → t.cellBucket k = s.cellBucket k
  pool : t.pool = { s.pool with
    slots := t.pool.slots
    counts := { s.pool.counts with
      fresh := s.pool.counts.fresh - s.slotsIn l .fresh
      returned := s.pool.counts.returned - s.slotsIn l .returned
      bound := s.pool.counts.bound - s.slotsIn l .bound
      faulted := s.pool.counts.faulted - s.slotsIn l .faulted
      retired := s.pool.counts.retired + s.slotsUsed l } }
  table : t.table = { s.table with cellMap := t.table.cellMap }
  rest : s.sameBeside t [.pool, .table, .store]

theorem writeZero_cell {s : State} (hm : s.MapsOk) (c k : Nat) :
    (s.writeCell c zeroCell).cell k = if k = c then zeroCell else s.cell k := by
  rw [cell_writeCell hm, zeroCell_written]

/-- One cell above the key slots: its cell and its cell map record are cleared. -/
theorem scrubCell_entry {s : State} (hm : s.MapsOk) {c : Nat} (hc : s.keySlots ≤ c) :
    s.Scrubs (scrubCell s c) [c] := by
  have hcell : scrubCell s c = { s.writeCell c zeroCell with
      table := { s.table with cellMap := mapSet none s.table.cellMap c none } } :=
    if_neg (Nat.not_lt.mpr hc)
  have hbucket (k : Nat) : (scrubCell s c).cellBucket k = if k = c then none else s.cellBucket k := by
    rw [hcell]
    exact mapGet_mapSet ((mapsOk_iff s).1 hm).2.2.2.1
  have hnone (v : KeyState) : s.slotsIn [c] v = 0 := by
    simp [State.slotsIn, Nat.not_lt.mpr hc]
  have hused : s.slotsUsed [c] = 0 := by simp [State.slotsUsed, Nat.not_lt.mpr hc]
  refine ⟨scrubCell_mapsOk c hm, fun k => ?_, fun k hk hlt => ?_, fun k _ => ?_, fun k hk _ => ?_,
    fun k hk => ?_, ?_, ?_, fun b hb => ?_⟩
  · rw [hcell]
    exact (writeZero_cell hm c k).trans (by simp)
  · obtain rfl := List.mem_singleton.mp hk
    exact absurd hlt (Nat.not_lt.mpr hc)
  · rw [hcell]; rfl
  · rw [hbucket, if_pos (List.mem_singleton.mp hk)]
  · refine (hbucket k).trans (if_neg ?_)
    rintro rfl
    rcases hk with hk | hk
    · exact hk (List.mem_singleton_self _)
    · omega
  · rw [hcell, hnone, hnone, hnone, hnone, hused]
    rfl
  · rw [hcell]
  · rw [hcell]
    cases b with
    | pool | table | store => simp at hb
    | _ => rfl

/-- One key slot: it is retired, leaving the count of its state; an EMPTY one has only its cell cleared. -/
theorem scrubCell_slot {s : State} (hm : s.MapsOk) {c : Nat} (hc : c < s.keySlots) :
    s.Scrubs (scrubCell s c) [c] := by
  have hcell : scrubCell s c = s.retireKey c := if_pos hc
  have hin (v : KeyState) : s.slotsIn [c] v = if (s.keySlot c).state = v then 1 else 0 := by
    simp [State.slotsIn, hc]
  have hused : s.slotsUsed [c] = if (s.keySlot c).state = .empty then 0 else 1 := by
    simp [State.slotsUsed, hc]
  have hrest : s.sameBeside (s.retireKey c) [.pool, .table, .store] := fun b hb => by
    cases b with
    | pool | table | store => simp at hb
    | _ => simp [Block.same]
  have hcells (k : Nat) : (s.retireKey c).cell k = if k ∈ [c] then zeroCell else s.cell k := by
    simp only [List.mem_singleton]
    unfold State.retireKey
    split
    · exact writeZero_cell hm c k
    · exact writeZero_cell (moveKey_mapsOk c emptySlot _ hm) c k
  have hslot : ∀ k, k ≠ c → (s.retireKey c).keySlot k = s.keySlot k := fun k hk => by
    unfold State.retireKey
    split
    · rfl
    · exact mapGet_mapSet_ne hk
  have hempty : ((s.retireKey c).keySlot c).state = .empty := by
    unfold State.retireKey
    split
    case isTrue he => exact he
    case isFalse => exact congrArg KeySlot.state (keySlot_of_slots (v := emptySlot) hm rfl)
  have hpool : (s.retireKey c).pool = { s.pool with
      slots := (s.retireKey c).pool.slots
      counts := { s.pool.counts with
        fresh := s.pool.counts.fresh - s.slotsIn [c] .fresh
        returned := s.pool.counts.returned - s.slotsIn [c] .returned
        bound := s.pool.counts.bound - s.slotsIn [c] .bound
        faulted := s.pool.counts.faulted - s.slotsIn [c] .faulted
        retired := s.pool.counts.retired + s.slotsUsed [c] } } := by
    simp only [hin, hused]
    unfold State.retireKey State.moveKey
    cases hs : (s.keySlot c).state <;> rfl
  rw [hcell]
  exact ⟨retireKey_mapsOk c hm, hcells, fun k hk _ => by rwa [List.mem_singleton.mp hk],
    fun k hk => hslot k (by rintro rfl; exact hk.elim (fun h => h (List.mem_singleton_self _)) (by omega)),
    fun k hk hge => by rw [List.mem_singleton.mp hk] at hge; omega,
    fun k _ => cellBucket_congr (by simp) k, hpool, by simp, hrest⟩

theorem scrubCell_scrubs {s : State} (hm : s.MapsOk) (c : Nat) : s.Scrubs (scrubCell s c) [c] := by
  rcases Nat.lt_or_ge c s.keySlots with h | h
  · exact scrubCell_slot hm h
  · exact scrubCell_entry hm h

theorem State.Scrubs.keySlots {s t : State} {l : List Nat} (h : s.Scrubs t l) : t.keySlots = s.keySlots :=
  keySlots_congr (h.rest .lot (by decide))

theorem State.Scrubs.slotsIn {s t : State} {l l' : List Nat} (h : s.Scrubs t l) (hl : ∀ k ∈ l', k ∉ l)
    (v : KeyState) : t.slotsIn l' v = s.slotsIn l' v :=
  List.countP_congr fun k hk => by rw [h.keySlots, h.slots k (.inl (hl k hk))]

theorem State.Scrubs.slotsUsed {s t : State} {l l' : List Nat} (h : s.Scrubs t l) (hl : ∀ k ∈ l', k ∉ l) :
    t.slotsUsed l' = s.slotsUsed l' :=
  List.countP_congr fun k hk => by rw [h.keySlots, h.slots k (.inl (hl k hk))]

theorem State.Scrubs.cons {s u t : State} {c : Nat} {l : List Nat} (h : s.Scrubs u [c]) (k : u.Scrubs t l)
    (hc : c ∉ l) : s.Scrubs t (c :: l) := by
  have hks : u.keySlots = s.keySlots := h.keySlots
  have hl : ∀ j ∈ l, j ∉ [c] := fun j hj hjc => hc (List.mem_singleton.mp hjc ▸ hj)
  have hin (v : KeyState) : s.slotsIn (c :: l) v = s.slotsIn [c] v + u.slotsIn l v := by
    rw [h.slotsIn hl]
    exact (List.countP_append (l₁ := [c]))
  have hused : s.slotsUsed (c :: l) = s.slotsUsed [c] + u.slotsUsed l := by
    rw [h.slotsUsed hl]
    exact (List.countP_append (l₁ := [c]))
  refine ⟨k.maps, fun j => ?_, fun j hj hlt => ?_, fun j hj => ?_, fun j hj hge => ?_, fun j hj => ?_,
    ?_, ?_, sameBeside_trans h.rest k.rest⟩
  · rw [k.cells, h.cells]
    by_cases h1 : j ∈ l <;> by_cases h2 : j = c <;> simp [h1, h2]
  · by_cases hjl : j ∈ l
    · exact k.emptied j hjl (hks ▸ hlt)
    · obtain rfl : j = c := (List.mem_cons.mp hj).resolve_right hjl
      rw [k.slots j (.inl hjl)]
      exact h.emptied j (List.mem_singleton_self j) hlt
  · have h1 : j ∉ l ∨ s.keySlots ≤ j := hj.imp_left fun h hm => h (List.mem_cons_of_mem _ hm)
    have h2 : j ∉ [c] ∨ s.keySlots ≤ j := hj.imp_left fun h hm => h (by
      rw [List.mem_singleton.mp hm]; exact List.mem_cons_self ..)
    rw [k.slots j (hks ▸ h1), h.slots j h2]
  · by_cases hjl : j ∈ l
    · exact k.unmapped j hjl (hks ▸ hge)
    · obtain rfl : j = c := (List.mem_cons.mp hj).resolve_right hjl
      rw [k.mapped j (.inl hjl)]
      exact h.unmapped j (List.mem_singleton_self j) hge
  · have h1 : j ∉ l ∨ j < s.keySlots := hj.imp_left fun h hm => h (List.mem_cons_of_mem _ hm)
    have h2 : j ∉ [c] ∨ j < s.keySlots := hj.imp_left fun h hm => h (by
      rw [List.mem_singleton.mp hm]; exact List.mem_cons_self ..)
    rw [k.mapped j (hks ▸ h1), h.mapped j h2]
  · rw [k.pool, h.pool]
    simp only [hin, hused, Nat.sub_sub, Nat.add_assoc]
  · rw [k.table, h.table]

theorem scrubCells_scrubs {l : List Nat} (hl : l.Nodup) {s : State} (hm : s.MapsOk) :
    s.Scrubs (l.foldl scrubCell s) l := by
  induction l generalizing s with
  | nil => exact ⟨hm, by simp, by simp, fun _ _ => rfl, by simp, fun _ _ => rfl,
      by simp [State.slotsIn, State.slotsUsed], rfl, sameBeside_rfl _ _⟩
  | cons c l ih =>
    obtain ⟨hc, hl⟩ := List.nodup_cons.mp hl
    have h := scrubCell_scrubs hm c
    exact h.cons (ih hl h.maps) hc

/-- The heads of a list have been cleared. -/
theorem scrubHeads_heads (l : List Nat) {s : State} (hm : s.MapsOk) :
    (∀ k, (l.foldl scrubHead s).head k = if k ∈ l then zeroHead else s.head k)
      ∧ l.foldl scrubHead s = { s with
        table := { s.table with heads := (l.foldl scrubHead s).table.heads } } := by
  induction l generalizing s with
  | nil => simp
  | cons h l ih =>
    obtain ⟨hheads, hrest⟩ := ih (s := scrubHead s h) (writeHead_mapsOk h zeroHead hm)
    refine ⟨fun k => ?_, hrest⟩
    have hone : (scrubHead s h).head k = if k = h then zeroHead else s.head k :=
      (head_writeHead hm h k zeroHead).trans (by rw [zeroHead_written])
    rw [List.foldl_cons, hheads, hone]
    by_cases h1 : k ∈ l <;> by_cases h2 : k = h <;> simp [h1, h2]

/-! ## A step of the scrub -/

/-- One step's group: its cells, then its heads (R144). -/
theorem scrubGroup_eq (s : State) (n : Nat) : s.scrubGroup n
    = (List.range' (8 * n) 8).foldl scrubHead ((List.range' (32 * n) 32).foldl scrubCell s) := rfl

theorem closeScrubStep_goes_on {s : State} {n : Nat} (hn : s.sweeps.scrubCursor = n) (hlt : n < 255) :
    closeScrubStep s = { s.scrubGroup n with
      sweeps := { (s.scrubGroup n).sweeps with scrubCursor := n + 1 } } := by
  have hgo : ¬ Config.scrubSteps ≤ n + 1 := Nat.not_le.mpr (Nat.succ_lt_succ hlt)
  unfold closeScrubStep
  simp only [hn]
  exact if_neg hgo

theorem closeScrubStep_closes {s : State} (hn : s.sweeps.scrubCursor = 255) :
    closeScrubStep s = (s.scrubGroup 255).discardLot.reply .lot 0x2C (s.scrubGroup 255).closeReply := by
  have hend : Config.scrubSteps ≤ 255 + 1 := by decide
  unfold closeScrubStep
  simp only [hn, if_pos hend]
  generalize s.scrubGroup 255 = v
  rfl

theorem mem_cells (n k : Nat) : k ∈ List.range' (32 * n) 32 ↔ 32 * n ≤ k ∧ k < 32 * n + 32 :=
  List.mem_range'_1

theorem mem_heads (n k : Nat) : k ∈ List.range' (8 * n) 8 ↔ 8 * n ≤ k ∧ k < 8 * n + 8 :=
  List.mem_range'_1

/-- Settles O50: each step clears its group, and the last one discards the lot and answers its close. -/
theorem closeScrubStepClears : Obligations.CloseScrubStepClears := by
  unfold Obligations.CloseScrubStepClears
  intro s ho hm
  let n := s.sweeps.scrubCursor
  have hcells := scrubCells_scrubs (l := List.range' (32 * n) 32) (s := s.swept) List.nodup_range'
    (mapsOk_of_eq hm rfl rfl rfl rfl rfl)
  have hgroup := scrubGroup_eq s.swept n
  generalize (List.range' (32 * n) 32).foldl scrubCell s.swept = u at hcells hgroup
  obtain ⟨hheads, hbeside⟩ := scrubHeads_heads (List.range' (8 * n) 8) hcells.maps
  rw [← hgroup] at hheads hbeside
  generalize hv : s.swept.scrubGroup n = v at hheads hbeside
  have hhead (k : Nat) : v.head k = if 8 * n ≤ k ∧ k < 8 * n + 8 then zeroHead else s.head k := by
    have hu : u.head k = s.head k := by
      unfold State.head
      rw [hcells.table]
      rfl
    rw [hheads, hu]
    simp only [mem_heads]
  have hcell (k : Nat) : v.cell k = if 32 * n ≤ k ∧ k < 32 * n + 32 then zeroCell else s.cell k := by
    have hu : v.cell k = u.cell k := by rw [hbeside]; rfl
    rw [hu, hcells.cells]
    simp only [mem_cells]
    rfl
  have hslot (k : Nat) : v.keySlot k = u.keySlot k := by rw [hbeside]; rfl
  have hbucket (k : Nat) : v.cellBucket k = u.cellBucket k := by rw [hbeside]; rfl
  have hpool : v.pool = u.pool := by rw [hbeside]
  have htable : v.table = { s.table with heads := v.table.heads, cellMap := v.table.cellMap } := by
    rw [hbeside, hcells.table]
    rfl
  have hrest : s.swept.sameBeside v [.pool, .table, .store] := fun b hb => by
    rw [hbeside]
    have h := hcells.rest b hb
    cases b with
    | pool | table | store => simp at hb
    | _ => exact h
  refine ⟨fun hlt => ?goesOn, fun h255 q hq => ?closes⟩
  case goesOn =>
    have hstep := closeScrubStep_goes_on (s := s.swept) (n := n) rfl hlt
    rw [hv] at hstep
    have hdef : v.deferred = [] := (hrest .deferred (by decide)).trans ho.calm.noBoundary
    have hexec : exec .closeScrubStep s
        = .next { v with sweeps := { v.sweeps with scrubCursor := n + 1 } } := by
      rw [exec_closeScrubStep, sweepStep_done ho hstep hdef]
    refine ⟨_, hexec, fun k hk => (hcell k).trans (if_pos hk), fun k hk => (hcell k).trans (if_neg hk),
      hhead, fun k => ⟨fun hk hlt => ?_, fun hk => ?_⟩, fun k => ⟨fun hk hge => ?_, fun hk => ?_⟩,
      ?_, htable, ?_, hrest .arbiter (by decide), fun b hb => ?_⟩
    · exact (congrArg KeySlot.state (hslot k)).trans (hcells.emptied k ((mem_cells n k).mpr hk) hlt)
    · exact (hslot k).trans (hcells.slots k (hk.imp_left fun h hm => h ((mem_cells n k).mp hm)))
    · exact (hbucket k).trans (hcells.unmapped k ((mem_cells n k).mpr hk) hge)
    · exact (hbucket k).trans (hcells.mapped k (hk.imp_left fun h hm => h ((mem_cells n k).mp hm)))
    · exact hpool.trans (hcells.pool.trans (by rw [hpool]; rfl))
    · change { v.sweeps with scrubCursor := n + 1 } = _
      rw [hrest .sweeps (by decide)]
      rfl
    · have h := hrest b
      cases b with
      | pool | table | store | sweeps | arbiter => simp at hb
      | _ => exact h (by decide)
  case closes =>
    have hstep := closeScrubStep_closes (s := s.swept) h255
    rw [← h255, hv] at hstep
    have hlot : v.lot = s.lot := hrest .lot (by decide)
    have hlinks : v.links = s.links := hrest .links (by decide)
    have hcheck : v.check = s.check := hrest .check (by decide)
    have hreply : v.closeReply = .lotClosed q.name s.lot.lock s.pool.counts.loaded s.pool.counts.spent
        (s.pool.counts.retired + s.slotsUsed (List.range' (32 * n) 32)) := by
      unfold State.closeReply
      rw [hlot, hq, hpool, hcells.pool]
      rfl
    have hdef : (v.discardLot.reply .lot 0x2C v.closeReply).deferred = [] :=
      (hrest .deferred (by decide)).trans ho.calm.noBoundary
    have hexec : exec .closeScrubStep s = .next (v.discardLot.reply .lot 0x2C v.closeReply) := by
      rw [exec_closeScrubStep, sweepStep_done ho hstep hdef]
    refine ⟨_, hexec, rfl, fun st => ?_, rfl, rfl, rfl, rfl, fun k => ?_, rfl, rfl, ?_, hcell, ?_,
      hrest .arbiter (by decide), fun b hb => ?_⟩
    · change (Vector.replicate 4 StationTable.clear)[st] = _
      simp [StationTable.clear]
    · have h := hhead k
      have hn : n = 255 := h255
      rw [hn] at h
      exact h
    · change { v.check with halt := false } = _
      rw [hcheck]
    · rw [hreply]
      change v.links.set 4 { v.discardLot.link .lot with
        outstanding := false, replies := (v.discardLot.link .lot).replies ++ _ } = _
      rw [show v.discardLot.link .lot = s.link .lot from link_congr hlinks .lot, hlinks]
      rfl
    · have h := hrest b
      cases b with
      | journal | deferred | pending => exact h (by decide)
      | _ => simp at hb

end Sys2Proof.Machine

/-! PROOF. Request frames (11.5, R163): a body is read back whole field by field, and the bytes of a whole
frame are collected one after another up to the last, which brings the request before the arbiter. -/

namespace Sys2Proof.Machine

/-! ## Reading a field behind others -/

section
variable {n at_ len v : Nat} {b : Byte} {l : List Byte}

theorem fieldOf_cons : fieldOf (b :: l) (at_ + 1) len = fieldOf l at_ len := rfl

theorem fieldOf_skip (h : n ≤ at_) : fieldOf (bytesOf n v ++ l) at_ len = fieldOf l (at_ - n) len := by
  unfold fieldOf
  rw [List.drop_append, bytesOf_length, List.drop_eq_nil_of_le (by rwa [bytesOf_length]),
    List.nil_append]

theorem fieldOf_here : fieldOf (bytesOf n v ++ l) 0 n = v % 256 ^ n :=
  fieldOf_append [] l n v 0 rfl

theorem fieldOf_only : fieldOf (bytesOf n v) 0 n = v % 256 ^ n := by
  have h := fieldOf_here (n := n) (v := v) (l := [])
  rwa [List.append_nil] at h

theorem byteAt_zero : byteAt (b :: l) 0 = b := rfl

theorem byteAt_cons : byteAt (b :: l) (at_ + 1) = byteAt l at_ := rfl

theorem byteAt_skip (h : n ≤ at_) : byteAt (bytesOf n v ++ l) at_ = byteAt l (at_ - n) := by
  unfold byteAt
  rw [List.getD_append_right _ _ _ _ (by rwa [bytesOf_length]), bytesOf_length]

theorem drop_skip (h : n ≤ at_) : (bytesOf n v ++ l).drop at_ = l.drop (at_ - n) := by
  rw [List.drop_append, bytesOf_length, List.drop_eq_nil_of_le (by rwa [bytesOf_length]),
    List.nil_append]

end

/-- A number that fits its bytes is read back from them. -/
theorem ofNat_field {w : Nat} (v : BitVec w) {m : Nat} (h : m = 2 ^ w) :
    BitVec.ofNat w (v.toNat % m) = v := by
  subst h
  simp

theorem halfAt_skip {n at_ v : Nat} {l : List Byte} (h : n ≤ at_) :
    halfAt (bytesOf n v ++ l) at_ = halfAt l (at_ - n) := by
  rw [halfAt, halfAt, fieldOf_skip h]

theorem halfAt_cons {at_ : Nat} {b : Byte} {l : List Byte} : halfAt (b :: l) (at_ + 1) = halfAt l at_ :=
  rfl

theorem halfAt_here {v : Half} {l : List Byte} : halfAt (bytesOf 2 v.toNat ++ l) 0 = v := by
  rw [halfAt, fieldOf_here]
  exact ofNat_field v (by decide)

theorem halfAt_only {v : Half} : halfAt (bytesOf 2 v.toNat) 0 = v := by
  rw [halfAt, fieldOf_only]
  exact ofNat_field v (by decide)

/-! ## Lists of items -/

theorem length_flatMap_of {α : Type} {g : α → List Byte} {size : Nat} (hg : ∀ a, (g a).length = size)
    (xs : List α) : (xs.flatMap g).length = size * xs.length := by
  induction xs with
  | nil => rfl
  | cons x xs ih => rw [List.flatMap_cons, List.length_append, hg, ih, List.length_cons]; ring

/-- Items written one after another are read back one by one. -/
theorem readMany_flatMap {α : Type} {f : List Byte → α} {g : α → List Byte} {size : Nat}
    (hg : ∀ a, (g a).length = size) (hf : ∀ a, f (g a) = a) (xs : List α) :
    readMany size f xs.length (xs.flatMap g) = some xs := by
  induction xs with
  | nil => rfl
  | cons x xs ih =>
    have hlen : ¬ ((x :: xs).flatMap g).length < size := by
      rw [List.flatMap_cons, List.length_append, hg]
      omega
    rw [List.length_cons, readMany, if_neg hlen, List.flatMap_cons, List.drop_left' (hg x),
      List.take_left' (hg x), hf, ih]
    rfl

theorem count_toNat {n : Nat} (h : n < 256) : (BitVec.ofNat 8 n).toNat = n := by
  rw [BitVec.toNat_ofNat]
  exact Nat.mod_eq_of_lt h

theorem itemCountOk_iff {n : Nat} : itemCountOk n = true ↔ 1 ≤ n ∧ n ≤ 16 := by
  simp only [itemCountOk, Bool.and_eq_true, decide_eq_true_eq]
  exact Iff.rfl

theorem readList_listBody {α : Type} {f : List Byte → α} {g : α → List Byte} {size : Nat}
    (hg : ∀ a, (g a).length = size) (hf : ∀ a, f (g a) = a) {xs : List α}
    (hn : itemCountOk xs.length = true) : readList size f (listBody g xs) = some xs := by
  have hcount : (byteAt (listBody g xs) 0).toNat = xs.length :=
    count_toNat (by have := itemCountOk_iff.mp hn; omega)
  unfold readList
  rw [hcount, if_pos hn]
  exact readMany_flatMap hg hf xs

theorem length_listBody {α : Type} {g : α → List Byte} {size : Nat} (hg : ∀ a, (g a).length = size)
    (xs : List α) : (listBody g xs).length = size * xs.length + 1 := by
  rw [listBody, List.length_cons, length_flatMap_of hg]

/-! ## The items and bodies with fields -/

theorem resultItemOf_bytes (i : ResultItem) : resultItemOf (i.site :: bytesOf 16 i.image.toNat) = i := by
  unfold resultItemOf
  rw [byteAt_zero, fieldOf_cons, fieldOf_only, ofNat_field i.image (by decide)]

theorem keyRecordOf_bytes (r : KeyRecord) :
    keyRecordOf (r.index :: bytesOf 16 r.key.toNat ++ halfBytes r.check) = r := by
  unfold keyRecordOf halfBytes
  rw [List.cons_append, byteAt_zero, fieldOf_cons, fieldOf_here, halfAt_cons, halfAt_skip (Nat.le_refl _),
    halfAt_only, ofNat_field r.key (by decide)]

theorem rawRuleOf_bytes (r : RawRule) : rawRuleOf (rawRuleBytes r) = r := rfl

theorem readSites_bytes {sites : List Byte} (h : itemCountOk sites.length = true) :
    readList 1 (byteAt · 0) (listBody (fun b => [b]) sites) = some sites :=
  readList_listBody (size := 1) (f := (byteAt · 0)) (g := fun b => [b]) (fun _ => rfl) (fun _ => rfl) h

/-- The 34 fixed bytes of a LOT AMEND body. -/
theorem readAmend_bytes {b : AmendBody} (h : b.rules.length ≤ 98) : readAmend (amendBytes b) = some b := by
  have hbytes : amendBytes b = bytesOf 5 b.windowP.first.toNat ++ (bytesOf 5 b.windowP.last.toNat
      ++ (b.presenceE :: (bytesOf 5 b.windowE.first.toNat ++ (bytesOf 5 b.windowE.last.toNat
      ++ (bytesOf 2 b.claimLease.toNat ++ (bytesOf 2 b.burnLease.toNat ++ (b.attemptLimit
      :: (bytesOf 2 b.poolLow.toNat ++ (bytesOf 2 b.tableLow.toNat ++ (bytesOf 2 b.journalHigh.toNat
      ++ (b.strict :: BitVec.ofNat 8 b.rules.length :: b.rules.flatMap rawRuleBytes))))))))))) := by
    simp [amendBytes, rawWindowBytes, halfBytes, listBody]
  have hlen : ¬ (amendBytes b).length < 34 := by
    rw [hbytes]
    simp
    omega
  have hrules := readMany_flatMap (size := 12) (fun _ => rfl) rawRuleOf_bytes b.rules
  have h40 (v : BitVec 40) : BitVec.ofNat 40 (v.toNat % 1099511627776) = v :=
    ofNat_field v (by decide)
  unfold readAmend
  rw [if_neg hlen, hbytes]
  simp [byteAt_skip, byteAt_cons, byteAt_zero, drop_skip, count_toNat (show b.rules.length < 256 by omega),
    hrules, rawWindowOf, fieldOf_skip, fieldOf_cons, fieldOf_here, halfAt_skip, halfAt_cons, halfAt_here,
    h40]

theorem readOpen_bytes {b : OpenBody} (h : b.rest.rules.length ≤ 98) :
    readOpen (bytesOf 8 b.name.toNat ++ b.split :: amendBytes b.rest) = some b := by
  have hlen : ¬ (bytesOf 8 b.name.toNat ++ b.split :: amendBytes b.rest).length < 9 := by
    simp
    omega
  unfold readOpen
  rw [if_neg hlen, drop_skip (by decide), show 9 - 8 = 0 + 1 from rfl, List.drop_succ_cons,
    List.drop_zero, readAmend_bytes h, fieldOf_here, ofNat_field b.name (by decide),
    byteAt_skip (Nat.le_refl _), Nat.sub_self, byteAt_zero]
  rfl

theorem readKeyLoad_bytes {batch : Half} {records : List KeyRecord} (h : records.length ≤ 64) :
    readKeyLoad (bodyOf (.keyLoad batch records)) = some (.keyLoad batch records) := by
  have hcount : (byteAt (bodyOf (.keyLoad batch records)) 2).toNat = records.length :=
    (congrArg BitVec.toNat (byteAt_skip (Nat.le_refl 2))).trans (count_toNat (by omega))
  have hsize (r : KeyRecord) : (r.index :: bytesOf 16 r.key.toNat ++ halfBytes r.check).length = 19 := by
    simp [halfBytes]
  have hok : ¬ ((bodyOf (.keyLoad batch records)).length < 3
      ∨ Config.recordLimit < (byteAt (bodyOf (.keyLoad batch records)) 2).toNat) := by
    rw [hcount]
    have hlimit : ¬ Config.recordLimit < records.length := Nat.not_lt.mpr h
    simp [bodyOf, listBody, halfBytes, hlimit]
    omega
  have hdrop : (bodyOf (.keyLoad batch records)).drop 3
      = records.flatMap fun r => r.index :: bytesOf 16 r.key.toNat ++ halfBytes r.check :=
    drop_skip (by decide)
  have hbatch : halfAt (bodyOf (.keyLoad batch records)) 0 = batch := halfAt_here
  unfold readKeyLoad
  rw [if_neg hok, hcount, hdrop, hbatch, readMany_flatMap hsize keyRecordOf_bytes]
  rfl

theorem length_amendBytes (b : AmendBody) : (amendBytes b).length = 12 * b.rules.length + 34 := by
  have h := length_listBody (g := rawRuleBytes) (size := 12) (fun _ => rfl) b.rules
  simp [amendBytes, rawWindowBytes, halfBytes, h]
  omega

/-- A body is read back whole from the bytes that it is built with (11.5). -/
theorem readRequest_bodyOf {r : Request} (h : r.wf = true) : readRequest (kindOf r) (bodyOf r) = some r := by
  cases r with
  | claim items =>
    change (readList 3 claimItemOf (listBody (fun i => [i.site, i.x, i.y]) items)).map Request.claim = _
    rw [readList_listBody (size := 3) (f := claimItemOf) (g := fun i => [i.site, i.x, i.y])
      (fun _ => rfl) (fun _ => rfl) h]
    rfl
  | burnBegin sites =>
    change (readList 1 (byteAt · 0) (listBody (fun b => [b]) sites)).map Request.burnBegin = _
    rw [readSites_bytes h]
    rfl
  | burnResult items =>
    change (readList 17 resultItemOf (listBody (fun i => i.site :: bytesOf 16 i.image.toNat) items)).map
      Request.burnResult = _
    rw [readList_listBody (by simp) resultItemOf_bytes h]
    rfl
  | release sites =>
    change (readList 1 (byteAt · 0) (listBody (fun b => [b]) sites)).map Request.release = _
    rw [readSites_bytes h]
    rfl
  | abandon sites =>
    change (readList 1 (byteAt · 0) (listBody (fun b => [b]) sites)).map Request.abandon = _
    rw [readSites_bytes h]
    rfl
  | lotOpen b =>
    change (readOpen (bytesOf 8 b.name.toNat ++ b.split :: amendBytes b.rest)).map Request.lotOpen = _
    rw [readOpen_bytes (of_decide_eq_true h)]
    rfl
  | lotAmend b =>
    change (readAmend (amendBytes b)).map Request.lotAmend = _
    rw [readAmend_bytes (of_decide_eq_true h)]
    rfl
  | keyLoad batch records => exact readKeyLoad_bytes (of_decide_eq_true h)
  | quarantine low high =>
    change readFixed 4 (fun b => Request.quarantine (halfAt b 0) (halfAt b 2))
      (bytesOf 2 low.toNat ++ bytesOf 2 high.toNat) = _
    rw [readFixed, if_pos (by simp), halfAt_here, halfAt_skip (Nat.le_refl 2), halfAt_only]
  | journalTake n =>
    change readFixed 2 (fun b => Request.journalTake (halfAt b 0)) (bytesOf 2 n.toNat) = _
    rw [readFixed, if_pos (by simp), halfAt_only]
  | _ => rfl

/-- A body keeps within the greatest length of a frame's body (R163). -/
theorem length_bodyOf {r : Request} (h : r.wf = true) : (bodyOf r).length ≤ 1219 := by
  have hitems {α : Type} {g : α → List Byte} {size : Nat} (hs : size ≤ 17)
      (hg : ∀ a, (g a).length = size) {xs : List α} (hx : itemCountOk xs.length = true) :
      (listBody g xs).length ≤ 1219 := by
    have hlen := (itemCountOk_iff.mp hx).2
    rw [length_listBody hg]
    exact Nat.le_trans (Nat.succ_le_succ (Nat.mul_le_mul hs hlen)) (by decide)
  cases r with
  | claim items => exact hitems (size := 3) (by decide) (fun _ => rfl) h
  | burnBegin sites => exact hitems (size := 1) (by decide) (fun _ => rfl) h
  | release sites => exact hitems (size := 1) (by decide) (fun _ => rfl) h
  | abandon sites => exact hitems (size := 1) (by decide) (fun _ => rfl) h
  | burnResult items => exact hitems (Nat.le_refl 17) (by simp) h
  | lotOpen b =>
    have hn : b.rest.rules.length ≤ 98 := of_decide_eq_true h
    simp [bodyOf, length_amendBytes]
    omega
  | lotAmend b =>
    have hn : b.rules.length ≤ 98 := of_decide_eq_true h
    simp [bodyOf, length_amendBytes]
    omega
  | keyLoad batch records =>
    have hn : records.length ≤ 64 := of_decide_eq_true h
    have hlist := length_listBody (size := 19)
      (g := fun r : KeyRecord => r.index :: bytesOf 16 r.key.toNat ++ halfBytes r.check)
      (by simp [halfBytes]) records
    simp only [bodyOf, List.length_append, hlist]
    simp only [halfBytes, bytesOf_length]
    omega
  | quarantine low high | journalTake n => simp [bodyOf, halfBytes]
  | _ => simp [bodyOf]

/-- Settles O4: every field of a body is read back from its own bytes. -/
theorem requestBodyRoundTrip : Obligations.RequestBodyRoundTrip := by
  unfold Obligations.RequestBodyRoundTrip
  exact fun r h => ⟨readRequest_bodyOf h, length_bodyOf h⟩

/-! ## A whole frame -/

section
variable {r : Request} (h : r.wf = true)

theorem requestFrame_eq (r : Request) : requestFrame r = (kindOf r :: bytesOf 2 (bodyOf r).length
    ++ bodyOf r) ++ halfBytes (twoSum (kindOf r :: bytesOf 2 (bodyOf r).length ++ bodyOf r)) := rfl

theorem length_requestFrame (r : Request) : (requestFrame r).length = 5 + (bodyOf r).length := by
  rw [requestFrame_eq]
  simp [halfBytes]
  omega

include h in
/-- The length bytes of a frame say its body's length. -/
theorem lengthField_requestFrame (k : Nat) (hk : 3 ≤ k) :
    fieldOf ((requestFrame r).take k) 1 2 = (bodyOf r).length := by
  have hfront : requestFrame r = kindOf r :: (bytesOf 2 (bodyOf r).length ++ (bodyOf r
      ++ halfBytes (twoSum (kindOf r :: bytesOf 2 (bodyOf r).length ++ bodyOf r)))) := by
    rw [requestFrame_eq]
    simp
  obtain ⟨m, rfl⟩ : ∃ m, k = m + 1 + 2 := ⟨k - 3, by omega⟩
  have hlen := length_bodyOf h
  rw [hfront, List.take_succ_cons, List.take_append, List.take_of_length_le (by simp), fieldOf_cons,
    fieldOf_here]
  omega

include h in
/-- Up to its last byte a frame is collected byte by byte (R163). -/
theorem rxBytes_prefix {s : State} {l : Link} (hready : (s.link l).rx = .ready) {k : Nat} (h1 : 1 ≤ k)
    (hk : k < (requestFrame r).length) :
    s.rxBytes l ((requestFrame r).take k) = s.setRx l (.inFrame ((requestFrame r).take k) false) := by
  induction k, h1 using Nat.le_induction with
  | base =>
    have hone : (requestFrame r).take 1 = [kindOf r] := rfl
    rw [hone]
    exact rxByte_ready hready false (kindOf r)
  | succ k h1 ih =>
    have hsplit : (requestFrame r).take (k + 1) = (requestFrame r).take k ++ [(requestFrame r)[k]] :=
      List.take_succ_eq_append_getElem (by omega)
    have hrx : ((s.setRx l (.inFrame ((requestFrame r).take k) false)).link l).rx
        = .inFrame ((requestFrame r).take k) false := by rw [State.setRx, link_setLink_same]
    have hlen : ((requestFrame r).take k).length = k := List.length_take_of_le (by omega)
    have hgoes : ((requestFrame r).take k).length < 2
        ∨ (fieldOf ((requestFrame r).take k ++ [(requestFrame r)[k]]) 1 2 ≤ 1219
          ∧ ((requestFrame r).take k).length + 1
            < 5 + fieldOf ((requestFrame r).take k ++ [(requestFrame r)[k]]) 1 2) := by
      rw [← hsplit, hlen]
      rcases Nat.lt_or_ge k 2 with h2 | h2
      · exact .inl h2
      · rw [lengthField_requestFrame h (k + 1) (by omega)]
        rw [length_requestFrame] at hk
        exact .inr ⟨length_bodyOf h, by omega⟩
    have hstep := rxByte_collects hrx false hgoes
    rw [hsplit, State.rxBytes, List.foldl_append]
    change State.rxByte (s.rxBytes l _) l false _ = _
    rw [ih (by omega), hstep, setRx_setRx]
    rfl

end

/-- Settles O5: the frame is collected to its last byte, and its checks hold. -/
theorem requestFrameIsPlaced : Obligations.RequestFrameIsPlaced := by
  unfold Obligations.RequestFrameIsPlaced
  intro s l r h hlink hready hout
  have hlen := length_requestFrame r
  obtain ⟨k, hk⟩ : ∃ k, (requestFrame r).length = k + 1 := ⟨4 + (bodyOf r).length, by omega⟩
  have hsplit : requestFrame r = (requestFrame r).take k ++ [(requestFrame r)[k]] := by
    rw [← List.take_succ_eq_append_getElem (by omega), ← hk, List.take_length]
  have hpre := rxBytes_prefix h hready (k := k) (by omega) (by omega)
  have hrx : ((s.setRx l (.inFrame ((requestFrame r).take k) false)).link l).rx
      = .inFrame ((requestFrame r).take k) false := by rw [State.setRx, link_setLink_same]
  have hfield : fieldOf (requestFrame r) 1 2 = (bodyOf r).length := by
    have hf := lengthField_requestFrame h (k + 1) (by omega)
    rwa [← hk, List.take_length] at hf
  have hdone := rxByte_completes hrx (b := (requestFrame r)[k]) false (by
    rw [← hsplit, hfield, hlen])
  rw [← hsplit, setRx_setRx] at hdone
  have hfront : (requestFrame r).take ((requestFrame r).length - 2)
      = kindOf r :: bytesOf 2 (bodyOf r).length ++ bodyOf r := by
    rw [hlen, requestFrame_eq]
    exact List.take_left' (by simp; omega)
  have hsum : twoSum ((requestFrame r).take ((requestFrame r).length - 2))
      = halfAt (requestFrame r) ((requestFrame r).length - 2) := by
    have hcheck := halfAt_append (kindOf r :: bytesOf 2 (bodyOf r).length ++ bodyOf r) []
      (twoSum (kindOf r :: bytesOf 2 (bodyOf r).length ++ bodyOf r)) ((requestFrame r).length - 2)
      (by simp [hlen]; omega)
    rw [List.append_nil, ← requestFrame_eq] at hcheck
    rw [hfront, hcheck]
  have hread : readRequest (byteAt (requestFrame r) 0)
      (((requestFrame r).take ((requestFrame r).length - 2)).drop 3) = some r := by
    rw [hfront, show byteAt (requestFrame r) 0 = kindOf r from rfl]
    exact readRequest_bodyOf h
  have hrun : s.rxBytes l (requestFrame r) = (s.setRx l .hunting).frameArrived l (requestFrame r) false := by
    rw [State.rxBytes]
    conv_lhs => rw [hsplit]
    rw [List.foldl_append]
    change State.rxByte (s.rxBytes l _) l false _ = _
    rw [hpre, hdone]
    rfl
  rw [exec_frameArrival, hrun, frameArrived_request hsum ((outstanding_setRx ..).trans hout) hread,
    if_pos ((permitted_iff l r).mpr hlink), setRx_place]

end Sys2Proof.Machine

/-! PROOF. Replies (R165, R169): what the sending of the oldest reply changes, that the grant of a waiting
request sends it first, and the bytes of every reply as 11.6 and 11.7 lay them out. -/

namespace Sys2Proof.Machine

theorem exec_replyFrameSent (l : Link) (s : State) : exec (.replyFrameSent l) s = .next (s.sent l) := rfl

/-! ## The sending of the oldest reply -/

section
variable {s : State} {l : Link}

theorem sent_none (h : (s.link l).replies = []) : s.sent l = s := by
  unfold State.sent; rw [h]

theorem sent_oldest {r : Reply} {rest : List Reply} (h : (s.link l).replies = r :: rest) :
    s.sent l = { s.setLink l { s.link l with replies := rest } with
      sweeps := { s.sweeps with
        sweepDone := if r.clearsDone = true then false else s.sweeps.sweepDone } } := by
  unfold State.sent
  rw [h]
  dsimp only
  split <;> rfl

/-- What the sending leaves of the sender's own queue, and of every link's request. -/
theorem link_sent {r : Reply} {rest : List Reply} (h : (s.link l).replies = r :: rest) (l' : Link) :
    (s.sent l).link l' = if l' = l then { s.link l with replies := rest } else s.link l' := by
  rw [sent_oldest h]
  exact link_setLink s l l' _

theorem request_sent (l' : Link) : ((s.sent l).link l').request = (s.link l').request := by
  cases h : (s.link l).replies with
  | nil => rw [sent_none h]
  | cons r rest =>
    rw [link_sent h]
    split
    case isTrue heq => rw [heq]
    case isFalse => rfl

theorem sent_frame : (s.sent l).stations = s.stations ∧ (s.sent l).deferred = s.deferred
    ∧ (s.sent l).arbiter = s.arbiter ∧ (s.sent l).offer = s.offer := by
  cases h : (s.link l).replies with
  | nil => rw [sent_none h]; exact ⟨rfl, rfl, rfl, rfl⟩
  | cons r rest => rw [sent_oldest h]; exact ⟨rfl, rfl, rfl, rfl⟩

theorem sent_calm (h : s.Calm) : (s.sent l).Calm := by
  obtain ⟨hst, hdef, -⟩ := sent_frame (s := s) (l := l)
  refine ⟨fun st site => ?_, hdef.trans h.noBoundary⟩
  have hslot : (s.sent l).slot st site = s.slot st site := by
    unfold State.slot; rw [hst]
  exact (expiryDue_of_slot hslot).trans (h.noExpiry st site)

theorem sent_nextGrant : (s.sent l).nextGrant = s.nextGrant := by
  obtain ⟨-, -, harb, hoffer⟩ := sent_frame (s := s) (l := l)
  have hholds : (s.sent l).holds = s.holds := by
    funext p
    cases p with
    | link l' => exact congrArg Option.isSome (request_sent l')
    | sweep => exact congrArg Option.isSome hoffer
  unfold State.nextGrant
  rw [harb, hholds]

/-- Where a request reply waits the room for the next one is made by sending the oldest reply first. -/
theorem makeRoom_sent (h : ¬ s.Room l) : s.makeRoom l = (s.sent l).makeRoom l := by
  have hwaits : s.replyWaits l = true := by
    unfold State.replyWaits
    rw [List.any_eq_true]
    by_contra hno
    refine h fun r hr => ?_
    by_contra hlevel
    exact hno ⟨r, hr, by simpa using hlevel⟩
  cases hq : (s.link l).replies with
  | nil => exact absurd (fun r hr => by simp [hq] at hr) h
  | cons r rest =>
    have hlen : ((s.sent l).link l).replies.length = rest.length := by rw [link_sent hq, if_pos rfl]
    unfold State.makeRoom
    rw [hq, hlen, List.length_cons, State.sendAhead, if_pos hwaits]

/-- A request whose turn has come is granted when the room for its reply has been made. -/
theorem request_turn {r : Request} (hc : s.Calm) (ht : s.Turn l r)
    (act : State → Option ReplyBody × State) : s.request l r act = (s.makeRoom l).grant l r act := by
  unfold State.request
  rw [settleExpiries_skip hc.noExpiry]
  simp only [ht.held, ht.turn, and_self, if_true]

end

/-! ## The layouts of 11.6 -/

/-- The bytes of a number, written out by place. -/
theorem bytesOf_eq_map (k v : Nat) :
    (List.range k).map (fun i => BitVec.ofNat 8 (v / 256 ^ (k - 1 - i))) = bytesOf k v := by
  induction k with
  | zero => rfl
  | succ k ih =>
    rw [List.range_succ_eq_map, List.map_cons, List.map_map, bytesOf, ← ih]
    congr 1
    refine List.map_congr_left fun i hi => ?_
    have hi := List.mem_range.mp hi
    simp only [Function.comp_apply]
    congr 3
    omega

theorem bytesOf_one (v : Nat) : bytesOf 1 v = [BitVec.ofNat 8 v] := by simp [bytesOf]

/-- A list's count and its items (11.6). -/
theorem listBody_eq {α : Type} (f : α → List Byte) (xs : List α) :
    listBody f xs = bytesOf 1 xs.length ++ xs.flatMap f := by
  rw [bytesOf_one]
  rfl

theorem dieRuleBytes_eq (r : DieRule) : dieRuleBytes r = flagByte r.enabled :: (rangeBytes r.wafer
    ++ (rangeBytes r.xRange ++ (rangeBytes r.yRange ++ (bytesOf 1 r.priority ++ [actionByte r.action])))) := by
  simp [dieRuleBytes]

theorem packDigits_lt (n v : Nat) : packDigits n v < 16 ^ n := by
  induction n generalizing v with
  | zero => exact Nat.zero_lt_one
  | succ n ih =>
    have h := ih (v / 10)
    rw [packDigits, pow_succ]
    omega

theorem packSerial_toNat (v : Nat) : (packSerial v).toNat = packDigits 10 v := by
  rw [packSerial, BitVec.toNat_ofNat]
  exact Nat.mod_eq_of_lt (Nat.lt_of_lt_of_eq (packDigits_lt 10 v) (by decide))

/-- Settles O8: the oldest reply leaves its queue, a waiting request's grant sends it first, and the
layouts of the model are those of the chapter once its abbreviations are named. -/
theorem replyFrameSent : Obligations.ReplyFrameSent := by
  unfold Obligations.ReplyFrameSent
  refine ⟨fun s l => ⟨fun h => ?none, fun r rest h => ?oldest, fun i r t hi hc ht hroom hexec => ?turn⟩, ?layouts⟩
  case none => rw [exec_replyFrameSent, sent_none h]
  case oldest =>
    refine ⟨_, exec_replyFrameSent l s, ?_, ?_, fun b hb => ?_⟩
    · rw [sent_oldest h]; rfl
    · rw [sent_oldest h]
    · rw [sent_oldest h]
      cases b with
      | links | sweeps => simp at hb
      | _ => rfl
  case turn =>
    obtain ⟨-, act, hact, -⟩ := exec_request hi
    obtain rfl : s.sent l = t := next_inj hexec
    have hturn : (s.sent l).Turn l r := ⟨(request_sent l).trans ht.held, sent_nextGrant.trans ht.turn⟩
    rw [hact, hact, request_turn hc ht, request_turn (sent_calm hc) hturn, makeRoom_sent hroom]
  case layouts =>
    intro num codes serial reason data wafer flag counts slot lot kind phase journal faults window range
      action settled
    have hnum : num = bytesOf := funext fun k => funext fun v => bytesOf_eq_map k v
    clear_value num
    subst hnum
    have hserial : serial = serialBytes := by
      funext v digit c
      cases c <;> rfl
    have hreason : reason = fun r => reasonByte (some r) := by
      funext r
      cases r <;> rfl
    clear_value serial reason
    subst hserial hreason
    have hdata : data = itemDataBytes := by
      funext d
      cases d with
      | disposition w => cases w <;> rfl
      | grant g => simp [data, itemDataBytes, halfBytes]
      | voided r m x => simp [data, itemDataBytes]
      | _ => rfl
    have hwafer : wafer = waferByte := by
      funext w
      cases w <;> rfl
    have hflag : flag = flagByte := rfl
    have hcounts : counts = countsBytes := rfl
    have hslot : slot = slotBytes := by
      funext v
      cases v <;> rfl
    have hlot : lot = lotStateByte := by
      funext v
      cases v <;> rfl
    have hkind : kind = journalKindByte := by
      funext v
      cases v <;> rfl
    have hphase : phase = phaseByte := by
      funext v
      cases v <;> rfl
    clear_value data wafer flag counts slot lot kind phase
    subst hdata hwafer hflag hcounts hslot hlot hkind hphase
    have hjournal : journal = journalBytes := by
      funext j
      obtain ⟨number, k, w, x, y, batch, index, sn, digit, cls, attempts, origin, why, n⟩ := j
      cases origin <;> cases why <;> cases n <;>
        simp [journal, journalBytes, halfBytes, ownerCode, reasonByte]
    have hfaults : faults = faultRecordBytes := by
      funext n first
      rcases first with _ | ⟨p, g, o⟩
      · rfl
      · cases p <;> cases g <;> cases o <;> rfl
    have hwindow : window = windowBytes := by
      funext w
      simp only [window, packSerial_toNat]
      rfl
    have hrange : range = rangeBytes := by
      funext v
      rcases v with _ | ⟨lo, hi⟩ <;> rfl
    have haction : action = actionByte := by
      funext a
      rcases a with _ | c
      · rfl
      · cases c <;> rfl
    clear_value journal faults window range action
    subst hjournal hfaults hwindow hrange haction
    have hsettled : settled = settledBytes := by
      funext p
      obtain ⟨wp, we, limits, rules⟩ := p
      have hcount := bytesOf_one rules.length
      have hrules := funext dieRuleBytes_eq
      cases we <;> simp [settled, settledBytes, windowEBytes, listBody, hcount, hrules]
    clear_value settled
    subst hsettled
    have hitems : (fun i : ItemOutcome => [i.site, codeByte i.code] ++ itemDataBytes i.data) = itemBytes :=
      rfl
    refine ⟨fun r => rfl, rfl, rfl, fun c => rfl, fun items => ?_, fun w d freed => rfl,
      fun w freed => rfl, fun a b c => rfl, fun v halt table => rfl, fun name split p keys capacity => rfl,
      fun p => rfl, fun batch count fresh depth => rfl, fun g => rfl, fun w => rfl, fun p cursor c => rfl,
      fun held reservations entries => rfl, fun a b held reservations => rfl, fun halt n first => rfl,
      fun name lock a b c => ?_, fun report => rfl, fun n k => ?_, fun n => rfl, fun n => rfl,
      fun g => rfl, fun n => rfl, fun indices => ?_, fun ks => ?_⟩
    · rw [hitems, replyBytes, listBody_eq]
      rfl
    · simp [replyBytes, codeByte]
    · cases k with
      | none => rfl
      | some k => rw [replyBytes, bytesOf_one k]; rfl
    · simp [replyBytes, listBody_eq, codeByte]
    · rw [replyBytes, listBody_eq]
      rfl

end Sys2Proof.Machine

/-! PROOF. The lot parameters (R3, R6, R55, R56): the model's digit and byte recursions by place, the checks
of a window and of a die rule as conditions, and how the settling of a body ends. -/

namespace Sys2Proof.Machine

/-! ## Digits and bytes by place -/

theorem unpackDigits_eq_sum (n v : Nat) :
    ((List.range n).map fun i => v / 16 ^ i % 16 * 10 ^ i).sum = unpackDigits n v := by
  induction n generalizing v with
  | zero => rfl
  | succ n ih =>
    have hshift : ((List.range n).map fun i => v / 16 ^ (i + 1) % 16 * 10 ^ (i + 1)).sum
        = 10 * ((List.range n).map fun i => v / 16 / 16 ^ i % 16 * 10 ^ i).sum := by
      rw [← List.sum_map_mul_left]
      refine congrArg List.sum (List.map_congr_left fun i _ => ?_)
      rw [pow_succ', pow_succ', Nat.div_div_eq_div_mul]
      ring
    rw [unpackDigits, ← ih, ← hshift, List.range_succ_eq_map, List.map_cons, List.map_map, List.sum_cons]
    simp [Function.comp_def]

theorem digitsOk_iff (n v : Nat) : digitsOk n v = true ↔ ∀ i, i < n → v / 16 ^ i % 16 ≤ 9 := by
  induction n generalizing v with
  | zero => simp [digitsOk]
  | succ n ih =>
    rw [digitsOk, Bool.and_eq_true, ih, decide_eq_true_iff, Nat.forall_lt_succ_left]
    simp [pow_succ', Nat.div_div_eq_div_mul]

theorem unpackDigits_lt {n v : Nat} (h : digitsOk n v = true) : unpackDigits n v < 10 ^ n := by
  induction n generalizing v with
  | zero => exact Nat.zero_lt_one
  | succ n ih =>
    rw [digitsOk, Bool.and_eq_true, decide_eq_true_iff] at h
    have hrest := ih h.2
    rw [unpackDigits, pow_succ']
    omega

theorem mem_bytesOf {n v : Nat} {c : Byte} :
    c ∈ bytesOf n v ↔ ∃ i, i < n ∧ BitVec.ofNat 8 (v / 256 ^ i) = c := by
  induction n with
  | zero => simp [bytesOf]
  | succ n ih => 
    rw [bytesOf, List.mem_cons, ih]
    simp only [Nat.exists_lt_succ_right, eq_comm, or_comm]

theorem nameOk_iff (name : BitVec 64) : nameOk name = true ↔ ∀ i, i < 8 →
    0x20 ≤ name.toNat / 256 ^ i % 256 ∧ name.toNat / 256 ^ i % 256 ≤ 0x7E := by
  simp only [nameOk, List.all_eq_true, mem_bytesOf, forall_exists_index, and_imp,
    forall_apply_eq_imp_iff₂, Bool.and_eq_true, decide_eq_true_iff, BitVec.le_def, BitVec.toNat_ofNat]
  exact Iff.rfl

/-! ## The checks of a window -/

/-- A window's digits, its order, and the unit's next value where R6 compares with one. -/
def WindowFits (w : RawWindow) (next : Option Nat) : Prop :=
  serialOk w.first = true ∧ serialOk w.last = true ∧ serialOf w.first ≤ serialOf w.last
    ∧ ∀ n, next = some n → n ≤ serialOf w.first

section
variable {w : RawWindow} {next : Option Nat}

theorem settleWindow_fits (h : WindowFits w next) :
    settleWindow w next = some ⟨serialOf w.first, serialOf w.last⟩ := by
  obtain ⟨hfirst, hlast, hle, hnext⟩ := h
  unfold settleWindow
  cases next with
  | none => simp [hfirst, hlast, hle]
  | some n => simp [hfirst, hlast, hle, hnext n rfl]

theorem settleWindow_none (h : ¬ WindowFits w next) : settleWindow w next = none := by
  unfold settleWindow
  refine if_neg fun hall => h ?_
  simp only [Bool.and_eq_true, decide_eq_true_iff] at hall
  obtain ⟨⟨⟨hfirst, hlast⟩, hle⟩, hnext⟩ := hall
  exact ⟨hfirst, hlast, hle, fun n hn => by simpa [hn] using hnext⟩

theorem settleWindow_some {v : Window} (h : settleWindow w next = some v) :
    v.first ≤ v.last ∧ v.last ≤ 9999999999 := by
  by_cases hfits : WindowFits w next
  case neg => rw [settleWindow_none hfits] at h; cases h
  case pos =>
    rw [settleWindow_fits hfits, Option.some_inj] at h
    obtain ⟨-, hlast, hle, -⟩ := hfits
    subst h
    have hbound : serialOf w.last < 10 ^ 10 := unpackDigits_lt hlast
    exact ⟨hle, Nat.le_of_lt_succ hbound⟩

/-- Parameter 4: the presence mark, and the window where one is present. -/
theorem settleWindowE_fits {presence : Byte} (h : presence = 0 ∨ presence = 1 ∧ WindowFits w next) :
    settleWindowE presence w next =
      some (if presence = 0 then none else some ⟨serialOf w.first, serialOf w.last⟩) := by
  rcases h with rfl | ⟨rfl, hfits⟩
  · rfl
  · simp [settleWindowE, settleWindow_fits hfits]

theorem settleWindowE_none {presence : Byte} (h : ¬ (presence = 0 ∨ presence = 1 ∧ WindowFits w next)) :
    settleWindowE presence w next = none := by
  rw [not_or, not_and] at h
  obtain ⟨hzero, hone⟩ := h
  rw [settleWindowE, if_neg hzero]
  by_cases hp : presence = 1
  · rw [if_pos hp, settleWindow_none (hone hp), Option.map_none]
  · rw [if_neg hp]

theorem settleWindowE_some {presence : Byte} {v : Option Window}
    (h : settleWindowE presence w next = some v) : presence = 0 ∧ v = none
      ∨ presence = 1 ∧ ∃ u, v = some u ∧ u.first ≤ u.last ∧ u.last ≤ 9999999999 := by
  unfold settleWindowE at h
  split at h
  case isTrue hzero => cases h; exact .inl ⟨hzero, rfl⟩
  case isFalse hzero =>
    split at h
    case isTrue hone =>
      obtain ⟨u, hu, rfl⟩ := Option.map_eq_some_iff.mp h
      exact .inr ⟨hone, u, rfl, settleWindow_some hu⟩
    case isFalse => cases h

end

/-! ## The checks of a die rule -/

/-- A range of a die rule: ANY, or bounds in order. -/
theorem rangeFails_eq_false {any lo hi : Byte} {le : Byte → Byte → Bool} {v : Byte → Int}
    (hle : ∀ a b, le a b = true ↔ v a ≤ v b) :
    rangeFails any lo hi le = false ↔ any = 1 ∨ (any = 0 ∧ v lo ≤ v hi) := by
  have hmark : ¬ (1 : Byte) < any ↔ any = 1 ∨ any = 0 := by bv_omega
  rw [rangeFails, Bool.or_eq_false_iff, decide_eq_false_iff_not, hmark, ← hle]
  constructor
  · rintro ⟨rfl | rfl, hrange⟩
    · exact .inl rfl
    · exact .inr ⟨rfl, by simpa using hrange⟩
  · rintro (rfl | ⟨rfl, hrange⟩)
    · exact ⟨.inl rfl, rfl⟩
    · exact ⟨.inr rfl, by simp [hrange]⟩

/-- R56's conditions on a die rule. -/
def RuleWellFormed (r : RawRule) : Prop :=
  r.enabled.toNat ≤ 1
    ∧ (r.waferAny = 1 ∨ (r.waferAny = 0 ∧ (r.waferLo.toNat : Int) ≤ r.waferHi.toNat))
    ∧ (r.waferAny = 0 → 1 ≤ r.waferLo.toNat ∧ r.waferLo.toNat ≤ 25 ∧ 1 ≤ r.waferHi.toNat
      ∧ r.waferHi.toNat ≤ 25)
    ∧ (r.xAny = 1 ∨ (r.xAny = 0 ∧ r.xLo.toInt ≤ r.xHi.toInt))
    ∧ (r.yAny = 1 ∨ (r.yAny = 0 ∧ r.yLo.toInt ≤ r.yHi.toInt))
    ∧ 1 ≤ r.priority.toNat ∧ r.priority.toNat ≤ 7 ∧ r.action.toNat ≤ 2

theorem ruleFails_eq_false (r : RawRule) : ruleFails r = false ↔ RuleWellFormed r := by
  have hwafer := rangeFails_eq_false (any := r.waferAny) (lo := r.waferLo) (hi := r.waferHi)
    (le := fun a b => decide (a ≤ b)) (v := fun b => (b.toNat : Int)) (fun a b => by simp [BitVec.le_def])
  have hx := rangeFails_eq_false (any := r.xAny) (lo := r.xLo) (hi := r.xHi)
    (le := fun a b => a.sle b) (v := BitVec.toInt) (fun a b => by simp [BitVec.sle])
  have hy := rangeFails_eq_false (any := r.yAny) (lo := r.yLo) (hi := r.yHi)
    (le := fun a b => a.sle b) (v := BitVec.toInt) (fun a b => by simp [BitVec.sle])
  have hpos : ∀ v : Byte, ¬ v = 0 ↔ 1 ≤ v.toNat := fun v => by bv_omega
  have hmax : ∀ m v : Byte, ¬ m < v ↔ v.toNat ≤ m.toNat := fun m v => Nat.not_lt
  unfold ruleFails RuleWellFormed
  simp only [Bool.or_eq_false_iff, hwafer, hx, hy, decide_eq_false_iff_not, hpos, hmax, Bool.and_eq_false_imp,
    decide_eq_true_iff, and_assoc]
  exact Iff.rfl

theorem malformedRule_none {rules : List RawRule} (hlen : rules.length ≤ 16)
    (h : ∀ r ∈ rules, RuleWellFormed r) : malformedRule rules = none := by
  rw [malformedRule, if_neg (show ¬ Config.ruleLimit < rules.length from Nat.not_lt.mpr hlen), List.findIdx?_eq_none_iff]
  exact fun r hr => (ruleFails_eq_false r).mpr (h r hr)

theorem malformedRule_long {rules : List RawRule} (hlen : 16 < rules.length) :
    malformedRule rules = some 16 := if_pos hlen

theorem malformedRule_first {rules : List RawRule} {k : Nat} (hk : k < rules.length)
    (hlen : rules.length ≤ 16) (hbad : ¬ RuleWellFormed rules[k])
    (hfirst : ∀ j, ∀ g : j < k, RuleWellFormed (rules[j]'(by omega))) : malformedRule rules = some k := by
  rw [malformedRule, if_neg (show ¬ Config.ruleLimit < rules.length from Nat.not_lt.mpr hlen),
    List.findIdx?_eq_some_iff_getElem]
  refine ⟨hk, ?_, fun j hj => ?_⟩
  · rw [← ruleFails_eq_false, Bool.not_eq_false] at hbad
    exact hbad
  · simpa using (ruleFails_eq_false _).mpr (hfirst j hj)

theorem malformedRule_eq_none {rules : List RawRule} (h : malformedRule rules = none) :
    rules.length ≤ 16 ∧ ∀ r ∈ rules, RuleWellFormed r := by
  unfold malformedRule at h
  split at h
  case isTrue => cases h
  case isFalse hlen =>
    refine ⟨Nat.not_lt.mp hlen, fun r hr => ?_⟩
    exact (ruleFails_eq_false r).mp (List.findIdx?_eq_none_iff.mp h r hr)

theorem malformedRule_eq_some {rules : List RawRule} {k : Nat} (h : malformedRule rules = some k) :
    k ≤ 16 ∧ k < rules.length := by
  unfold malformedRule at h
  split at h
  case isTrue hlen => cases h; exact ⟨Nat.le_refl 16, hlen⟩
  case isFalse hlen =>
    have hlen : rules.length ≤ 16 := Nat.not_lt.mp hlen
    obtain ⟨hk, -, -⟩ := List.findIdx?_eq_some_iff_getElem.mp h
    exact ⟨by omega, hk⟩

/-! ## Settling -/

section
variable {b : AmendBody} {nextP nextE : Option Nat}

theorem limitsOf_eq (b : AmendBody) : limitsOf b = ⟨max 1 (min 60000 b.claimLease.toNat),
    max 1 (min 6000 b.burnLease.toNat), max 1 (min 7 b.attemptLimit.toNat), min 1024 b.poolLow.toNat,
    min 1024 b.tableLow.toNat, max 1 (min 256 b.journalHigh.toNat), decide (b.strict = 1)⟩ := by
  simp [limitsOf, clamp]

/-- How the settling of parameters 3 to 12 ends: all checks passed, or the first one failed. -/
theorem settle_cases (b : AmendBody) (nextP nextE : Option Nat) :
    (∃ wp we, settleWindow b.windowP nextP = some wp ∧ settleWindowE b.presenceE b.windowE nextE = some we
      ∧ b.strict.toNat ≤ 1 ∧ malformedRule b.rules = none
      ∧ settle b nextP nextE = .ok ⟨wp, we, limitsOf b, b.rules.map dieRuleOf⟩)
    ∨ (∃ number, number ∈ [3, 4, 11] ∧ settle b nextP nextE = .error (number, none))
    ∨ ∃ k, malformedRule b.rules = some k ∧ settle b nextP nextE = .error (12, some k) := by
  unfold settle
  cases hP : settleWindow b.windowP nextP with
  | none => exact .inr (.inl ⟨3, by simp, rfl⟩)
  | some wp =>
    cases hE : settleWindowE b.presenceE b.windowE nextE with
    | none => exact .inr (.inl ⟨4, by simp, rfl⟩)
    | some we =>
      by_cases hstrict : 1 < b.strict
      · exact .inr (.inl ⟨11, by simp, if_pos hstrict⟩)
      · dsimp only
        rw [if_neg hstrict]
        cases hrules : malformedRule b.rules with
        | none => exact .inl ⟨wp, we, rfl, rfl, by bv_omega, rfl, rfl⟩
        | some k => exact .inr (.inr ⟨k, rfl, rfl⟩)

theorem settle_badWindowP (hP : settleWindow b.windowP nextP = none) :
    settle b nextP nextE = .error (3, none) := by
  rw [settle, hP]

variable {wp : Window} (hP : settleWindow b.windowP nextP = some wp)
include hP

theorem settle_badWindowE (hE : settleWindowE b.presenceE b.windowE nextE = none) :
    settle b nextP nextE = .error (4, none) := by
  rw [settle, hP, hE]

variable {we : Option Window} (hE : settleWindowE b.presenceE b.windowE nextE = some we)
include hE

theorem settle_badStrict (hstrict : ¬ b.strict.toNat ≤ 1) : settle b nextP nextE = .error (11, none) := by
  rw [settle, hP, hE]
  exact if_pos (Nat.not_le.mp hstrict)

theorem settle_badRule (hstrict : b.strict.toNat ≤ 1) {k : Nat} (hk : malformedRule b.rules = some k) :
    settle b nextP nextE = .error (12, some k) := by
  rw [settle, hP, hE]
  dsimp only
  rw [if_neg (show ¬ 1 < b.strict from Nat.not_lt.mpr hstrict), hk]

theorem settle_passes (hstrict : b.strict.toNat ≤ 1) (hrules : malformedRule b.rules = none) :
    settle b nextP nextE = .ok ⟨wp, we, limitsOf b, b.rules.map dieRuleOf⟩ := by
  rw [settle, hP, hE]
  dsimp only
  rw [if_neg (show ¬ 1 < b.strict from Nat.not_lt.mpr hstrict), hrules]

end

section
variable {b : OpenBody}

theorem settleOpen_badName (h : nameOk b.name = false) : settleOpen b = .error (1, none) := by
  rw [settleOpen, h]; rfl

theorem settleOpen_badSplit (hname : nameOk b.name = true) (h : 2 < b.split.toNat) :
    settleOpen b = .error (2, none) := by
  rw [settleOpen, hname]
  exact if_pos (show 2 < b.split from h)

theorem settleOpen_rest (hname : nameOk b.name = true) (h : b.split.toNat ≤ 2) :
    settleOpen b = settle b.rest none none := by
  rw [settleOpen, hname]
  exact if_neg (show ¬ 2 < b.split from Nat.not_lt.mpr h)

/-- How the settling of a LOT OPEN's parameters ends. -/
theorem settleOpen_cases (b : OpenBody) :
    settleOpen b = .error (1, none) ∨ settleOpen b = .error (2, none)
      ∨ (b.split.toNat ≤ 2 ∧ settleOpen b = settle b.rest none none) := by
  cases hname : nameOk b.name with
  | false => exact .inl (settleOpen_badName hname)
  | true =>
    rcases Nat.lt_or_ge 2 b.split.toNat with hsplit | hsplit
    · exact .inr (.inl (settleOpen_badSplit hname hsplit))
    · exact .inr (.inr ⟨hsplit, settleOpen_rest hname hsplit⟩)

end

/-- A checked rule's table form keeps R56's bounds. -/
theorem dieRuleOf_bounds {r : RawRule} (h : RuleWellFormed r) :
    1 ≤ (dieRuleOf r).priority ∧ (dieRuleOf r).priority ≤ 7
      ∧ (∀ lo hi, (dieRuleOf r).wafer = some (lo, hi) → 1 ≤ lo.toNat ∧ lo.toNat ≤ hi.toNat ∧ hi.toNat ≤ 25)
      ∧ (∀ lo hi, (dieRuleOf r).xRange = some (lo, hi) → lo.toInt ≤ hi.toInt)
      ∧ ∀ lo hi, (dieRuleOf r).yRange = some (lo, hi) → lo.toInt ≤ hi.toInt := by
  obtain ⟨-, hwafer, hbounds, hx, hy, hlow, hhigh, -⟩ := h
  have hrange : ∀ {any lo hi lo' hi' : Byte} {P : Prop}, rangeOf any lo hi = some (lo', hi') →
      any = 1 ∨ (any = 0 ∧ P) → (any = 0 ∧ P) ∧ lo = lo' ∧ hi = hi' := by
    intro any lo hi lo' hi' P hsome hok
    unfold rangeOf at hsome
    split at hsome
    case isTrue => cases hsome
    case isFalse hany =>
      cases hsome
      exact ⟨hok.resolve_left hany, rfl, rfl⟩
  refine ⟨hlow, hhigh, fun lo hi h => ?_, fun lo hi h => ?_, fun lo hi h => ?_⟩
  · obtain ⟨⟨hany, hle⟩, rfl, rfl⟩ := hrange h hwafer
    obtain ⟨h1, -, -, h25⟩ := hbounds hany
    exact ⟨h1, by exact_mod_cast hle, h25⟩
  · obtain ⟨⟨-, hle⟩, rfl, rfl⟩ := hrange h hx
    exact hle
  · obtain ⟨⟨-, hle⟩, rfl, rfl⟩ := hrange h hy
    exact hle

/-- Settles O34: the model's checks are those of the chapter by place, and the settling ends at the first
that fails. -/
theorem parametersSettleInRange : Obligations.ParametersSettleInRange := by
  unfold Obligations.ParametersSettleInRange
  refine ⟨fun b => ⟨fun p hp => ?ok, fun number rule herr => ?error⟩, ?checks⟩
  case ok =>
    rcases settleOpen_cases b with h | h | ⟨hsplit, h⟩
    · rw [h] at hp; cases hp
    · rw [h] at hp; cases hp
    rcases settle_cases b.rest none none with ⟨wp, we, hP, hE, hstrict, hrules, hs⟩ | ⟨_, _, hs⟩ | ⟨_, _, hs⟩
    · rw [h, hs] at hp
      cases hp
      obtain ⟨hlen, hwell⟩ := malformedRule_eq_none hrules
      obtain ⟨hfirst, hlast⟩ := settleWindow_some hP
      refine ⟨limitsOf_eq b.rest, hsplit, hstrict, hfirst, hlast, settleWindowE_some hE, List.length_map _,
        (List.length_map _).trans_le hlen, fun r hr => ?_⟩
      obtain ⟨raw, hraw, rfl⟩ := List.mem_map.mp hr
      exact dieRuleOf_bounds (hwell raw hraw)
    · rw [h, hs] at hp; cases hp
    · rw [h, hs] at hp; cases hp
  case error =>
    rcases settleOpen_cases b with h | h | ⟨-, h⟩
    · rw [h] at herr; cases herr; simp
    · rw [h] at herr; cases herr; simp
    rcases settle_cases b.rest none none with ⟨wp, we, -, -, -, -, hs⟩ | ⟨m, hm, hs⟩ | ⟨k, hk, hs⟩
    · rw [h, hs] at herr; cases herr
    · rw [h, hs] at herr
      cases herr
      simp only [List.mem_cons, List.not_mem_nil, or_false] at hm
      rcases hm with rfl | rfl | rfl <;> simp
    · rw [h, hs] at herr
      cases herr
      refine ⟨by simp, by simp, fun j hj => ?_⟩
      cases hj
      exact malformedRule_eq_some hk
  case checks =>
    intro digit value window windowOk rangeOk range ruleOk
    have hvalue : value = serialOf := funext fun p => unpackDigits_eq_sum 10 p.toNat
    have hfits : ∀ w next, windowOk w next ↔ WindowFits w next := by
      intro w next
      simp only [windowOk, hvalue, WindowFits, serialOk, digitsOk_iff, digit, forall_and, ← and_assoc]
    have hrule : ∀ r, ruleOk r ↔ RuleWellFormed r := fun r => Iff.rfl
    have hwindow : ∀ w, window w = ⟨serialOf w.first, serialOf w.last⟩ := by
      intro w
      simp only [window, hvalue]
    clear_value windowOk window ruleOk value digit
    refine ⟨fun b => ?name, fun a nextP nextE => ?body⟩
    case name =>
      refine ⟨fun hone => settleOpen_badName ?_, fun hone => settleOpen_badSplit ((nameOk_iff _).mpr hone),
        fun hone => settleOpen_rest ((nameOk_iff _).mpr hone)⟩
      rw [← nameOk_iff, Bool.not_eq_true] at hone
      exact hone
    case body =>
      simp only [hfits, hrule, hwindow]
      refine ⟨fun h3 => settle_badWindowP (settleWindow_none h3),
        fun h3 h4 => settle_badWindowE (settleWindow_fits h3) (settleWindowE_none h4),
        fun h3 h4 h11 => settle_badStrict (settleWindow_fits h3) (settleWindowE_fits h4) h11,
        fun h3 h4 h11 hlen => settle_badRule (settleWindow_fits h3) (settleWindowE_fits h4) h11
          (malformedRule_long hlen),
        fun k hk h3 h4 h11 hlen hbad hfirst => settle_badRule (settleWindow_fits h3) (settleWindowE_fits h4) h11
          (malformedRule_first hk hlen hbad hfirst),
        fun h3 h4 h11 hlen hall => ?_⟩
      rw [settle_passes (settleWindow_fits h3) (settleWindowE_fits h4) h11 (malformedRule_none hlen hall),
        limitsOf_eq]
      rfl

end Sys2Proof.Machine

/-! PROOF. The LOT STATUS report (R10, 11.6) and the attention line (R168): each part of the report as the
chapter lays it out, and the causes of the line under a lot and without one. -/

namespace Sys2Proof.Machine

/-! ## The parts of the report -/

theorem keySlotsOf_eq (split : Nat) :
    keySlotsOf split = if split = 0 then 2048 else if split = 1 then 4096 else 6144 := by
  match split with
  | 0 => rfl
  | 1 => rfl
  | n + 2 => rfl

theorem slots_count (t : StationTable) (p : Slot → Bool) :
    (t.slots.toList.filter p).length = (List.finRange 16).countP fun site : Site => p t.slots[site] := by
  rw [← List.countP_eq_length_filter, t.slots_toList, List.countP_map]
  rfl

/-- Whether a slot carries the notice REVOKED. -/
def Slot.isRevoked : Slot → Bool
  | .revoked _ _ => true
  | _ => false

/-- Whether a slot carries the notice EXPIRED. -/
def Slot.isExpired : Slot → Bool
  | .expired _ _ => true
  | _ => false

/-- The number of a station's slots of a kind, as the report gives it. -/
def State.slotCount (s : State) (st : Station) (p : Slot → Bool) : List Byte :=
  bytesOf 1 ((List.finRange 16).countP fun site => p (s.slot st site))

theorem stationBytes_eq (s : State) (st : Station) :
    stationBytes s.stations[st] = s.stations[st].attached.getD 0xFF
      :: s.slotCount st Slot.isHeld ++ s.slotCount st Slot.isRevoked ++ s.slotCount st Slot.isExpired := by
  have hcount : ∀ p, bytesOf 1 (s.stations[st].slots.toList.filter p).length = s.slotCount st p :=
    fun p => congrArg (bytesOf 1) (slots_count s.stations[st] p)
  rw [← hcount, ← hcount, ← hcount]
  cases h : s.stations[st].attached <;> simp only [stationBytes, h] <;> rfl

theorem stations_flatMap (s : State) (f : StationTable → List Byte) :
    s.stations.toList.flatMap f = (List.finRange 4).flatMap fun st : Station => f s.stations[st] := by
  have hlist : s.stations.toList = (List.finRange 4).map fun st : Station => s.stations[st] := by
    apply List.ext_getElem <;> simp
  rw [hlist, List.flatMap_map]

theorem windowBytes_eq (w : Window) :
    windowBytes w = bytesOf 5 (packSerial w.first).toNat ++ bytesOf 5 (packSerial w.last).toNat := by
  rw [packSerial_toNat, packSerial_toNat, windowBytes]

/-- A unit without a window reports ten zero bytes for it. -/
theorem unitBytes_eq (u : SerialUnit) : unitBytes u = flagByte u.window.isSome
    :: ((match u.window with | some w => windowBytes w | none => List.replicate 10 0)
    ++ (bytesOf 5 (packSerial (u.next.getD 0)).toNat ++ (bytesOf 4 u.issued ++ (bytesOf 4 u.skipped
    ++ [flagByte u.overflow, flagByte u.exhausted])))) := by
  rw [packSerial_toNat, unitBytes]
  cases u.window with
  | none =>
    have hzero : windowBytes ⟨0, 0⟩ = List.replicate 10 0 := by decide
    simp only [Option.getD_none, hzero, List.append_assoc, List.cons_append]
  | some w => simp only [Option.getD_some, List.append_assoc, List.cons_append]

theorem causes_live {s : State} (h : s.lotLive = true) :
    s.reservoirLow = decide (s.pool.counts.fresh + s.pool.counts.returned ≤ s.limits.poolLow)
      ∧ s.tableLow = decide (s.table.freeCount ≤ s.limits.tableLow)
      ∧ s.journalHigh = decide (s.limits.journalHigh ≤ s.journal.queue.length) := by
  refine ⟨?_, ?_, ?_⟩
  · rw [State.reservoirLow, h, Bool.true_and]
  · rw [State.tableLow, h, Bool.true_and]
  · rw [State.journalHigh, h, Bool.true_and]
    rfl

theorem causes_dead {s : State} (h : s.lotLive = false) :
    s.reservoirLow = false ∧ s.tableLow = false ∧ s.journalHigh = false := by
  simp [State.reservoirLow, State.tableLow, State.journalHigh, h]

/-- The byte of six flags, bit by bit. -/
theorem flags_byte (a b c d e f : Bool) :
    flagByte a ||| flagByte b <<< 1 ||| flagByte c <<< 2 ||| flagByte d <<< 3 ||| flagByte e <<< 4
        ||| flagByte f <<< 5
      = BitVec.ofNat 8 ((if a then 2 ^ 0 else 0) + (if b then 2 ^ 1 else 0) + (if c then 2 ^ 2 else 0)
        + (if d then 2 ^ 3 else 0) + (if e then 2 ^ 4 else 0) + (if f then 2 ^ 5 else 0)) := by
  revert a b c d e f
  decide

/-- The report without a lot. -/
theorem statusReport_idle {s : State} (hlot : s.lot.state = .idle) (hparams : s.lot.params = none)
    (hlock : s.lot.lock = false) : s.statusReport = [1, 0, flagByte s.check.halt]
      ++ faultRecordBytes s.check.faults s.check.first
      ++ [flagByte s.check.halt <<< 3 ||| flagByte s.check.storeFault <<< 4
        ||| flagByte s.sweeps.sweepDone <<< 5] := by
  have hlive : s.lotLive = false := by unfold State.lotLive; rw [hlot]
  obtain ⟨hpool, htable, hjournal⟩ := causes_dead hlive
  simp [State.statusReport, State.causes, hlot, hparams, hlock, hpool, htable, hjournal, lotStateByte, flagByte]

/-- A blocked range with its number (11.6). -/
def numberedRangeBytes (r : BatchRange × Nat) : List Byte :=
  bytesOf 1 (r.2 + 1) ++ bytesOf 2 r.1.low.toNat ++ bytesOf 2 r.1.high.toNat

/-- A sweep context's part, field by field. -/
def contextFields (c : SweepContext) : List Byte :=
  [flagByte c.active, flagByte c.waiting] ++ bytesOf 1 (c.param.getD 0) ++ [phaseByte c.phase]
    ++ bytesOf 2 c.cursor ++ bytesOf 4 c.counts.visited ++ bytesOf 4 c.counts.changed
    ++ bytesOf 4 c.counts.appended ++ bytesOf 4 c.counts.faults

theorem contextBytes_eq (c : SweepContext) : contextBytes c = contextFields c := by
  simp only [contextBytes, contextFields, countsBytes, List.append_assoc]

/-- The report under a lot, part by part in the order of 11.6. -/
theorem statusReport_lot {s : State} {p : LotParams} {wp : Window} {rs : List DieRule}
    (hp : s.lot.params = some p) (hwp : s.unitP.window = some wp) (hrs : s.rules = some rs) :
    s.statusReport = [lotStateByte s.lot.state, flagByte s.lot.lock]
      ++ bytesOf 8 p.name.toNat ++ bytesOf 1 p.split
      ++ settledBytes ⟨wp, s.unitE.window, p.limits, rs⟩
      ++ bytesOf 2 s.keySlots ++ bytesOf 2 (8192 - s.keySlots)
      ++ s.lot.wafers.flatMap waferBytes
      ++ (List.finRange 4).flatMap (fun st => s.stations[st].attached.getD 0xFF
        :: s.slotCount st Slot.isHeld ++ s.slotCount st Slot.isRevoked ++ s.slotCount st Slot.isExpired)
      ++ bytesOf 1 s.lot.blocked.length ++ s.lot.blocked.zipIdx.flatMap numberedRangeBytes
      ++ bytesOf 4 s.pool.counts.loaded ++ bytesOf 2 s.pool.counts.fresh ++ bytesOf 1 s.pool.counts.returned
      ++ bytesOf 2 s.pool.counts.bound ++ bytesOf 2 s.pool.counts.faulted ++ bytesOf 4 s.pool.counts.spent
      ++ bytesOf 4 s.pool.counts.retired ++ bytesOf 2 s.emptyCount
      ++ bytesOf 2 (s.pool.slots.countP fun v => v.2.damaged) ++ bytesOf 2 s.pool.fresh.length
      ++ bytesOf 1 s.pool.stack.length ++ bytesOf 2 s.pool.batches.length
      ++ unitBytes s.unitP ++ unitBytes s.unitE
      ++ bytesOf 2 s.table.inUse ++ bytesOf 2 s.table.freeCount ++ bytesOf 2 s.table.openCount
      ++ bytesOf 2 s.table.damagedBuckets ++ bytesOf 1 s.table.longest
      ++ bytesOf 2 s.journal.queue.length ++ bytesOf 2 s.journal.reservations
      ++ contextFields s.sweeps.audit ++ contextFields s.sweeps.purge ++ contextFields s.sweeps.quarantine
      ++ (flagByte s.check.halt :: faultRecordBytes s.check.faults s.check.first)
      ++ [s.causes] := by
  have hsettled : s.settled = ⟨wp, s.unitE.window, p.limits, rs⟩ := by
    rw [State.settled, State.limits, hwp, hp, hrs]
    rfl
  have hcapacity : s.capacity = 8192 - s.keySlots := by
    rw [State.capacity, State.keySlots, hp]
    rfl
  have hranges : rangesBytes s.lot.blocked
      = bytesOf 1 s.lot.blocked.length ++ s.lot.blocked.zipIdx.flatMap numberedRangeBytes := by
    rw [rangesBytes, listBody_eq, List.length_zipIdx]
    rfl
  have hstations := stations_flatMap s stationBytes
  simp only [stationBytes_eq] at hstations
  have hdamaged : s.damagedSlots = s.pool.slots.countP fun v => v.2.damaged :=
    (List.countP_eq_length_filter ..).symm
  rw [State.statusReport, hp]
  dsimp only
  rw [State.lotBytes, hsettled, hcapacity, hranges, hstations, State.poolBytes, hdamaged, tableBytes,
    State.held, contextBytes_eq, contextBytes_eq, contextBytes_eq]
  simp only [List.append_assoc, List.cons_append]

/-! ## The attention line -/

theorem attention_iff (s : State) : s.attention = true ↔ s.reservoirLow = true ∨ s.tableLow = true
    ∨ s.journalHigh = true ∨ s.check.halt = true ∨ s.check.storeFault = true ∨ s.sweeps.sweepDone = true := by
  simp only [State.attention, Bool.or_eq_true, or_assoc]

theorem lotLive_taking {s : State} (h : s.taking) : s.lotLive = true := by
  rw [lotLive_iff]
  rcases h with h | h <;> rw [h] <;> simp

theorem limits_of_params {s : State} {p : LotParams} (h : s.lot.params = some p) : s.limits = p.limits := by
  rw [State.limits, h]

theorem causes_lot {s : State} {p : LotParams} (ht : s.taking) (hp : s.lot.params = some p) :
    s.causes = BitVec.ofNat 8 (
      (if decide (s.pool.counts.fresh + s.pool.counts.returned ≤ p.limits.poolLow) then 2 ^ 0 else 0)
      + (if decide (s.table.freeCount ≤ p.limits.tableLow) then 2 ^ 1 else 0)
      + (if decide (p.limits.journalHigh ≤ s.journal.queue.length) then 2 ^ 2 else 0)
      + (if s.check.halt then 2 ^ 3 else 0) + (if s.check.storeFault then 2 ^ 4 else 0)
      + (if s.sweeps.sweepDone then 2 ^ 5 else 0)) := by
  obtain ⟨hpool, htable, hjournal⟩ := causes_live (lotLive_taking ht)
  rw [State.causes, flags_byte, hpool, htable, hjournal, limits_of_params hp]

theorem exec_lotStatus (s : State) : exec .lotStatus s = .next (s.request .lot .lotStatus lotStatusRule) :=
  rfl

/-- Settles O37: the report's parts are the chapter's once its abbreviations are named, and each cause of
the attention line is one of its flags. -/
theorem lotStatusAndAttention : Obligations.LotStatusAndAttention := by
  unfold Obligations.LotStatusAndAttention
  refine fun s => ⟨fun hg hlot => ⟨?reply, statusReport_idle, fun p wp rs ht hp hwp hrs => ?report⟩, ?dead, ?live⟩
  case reply =>
    have hgate : lotGate s.lot.state .lotStatus = none := by
      rcases hlot with h | h | h <;> rw [h] <;> rfl
    rw [exec_lotStatus, request_unchanged hg hgate (show lotStatusRule _ = _ from rfl)]
    rfl
  case dead =>
    intro hlot
    have hlive : s.lotLive = false := by
      rw [← Bool.not_eq_true, lotLive_iff]
      exact not_not_intro hlot
    obtain ⟨hpool, htable, hjournal⟩ := causes_dead hlive
    simp [attention_iff, hpool, htable, hjournal]
  case live =>
    intro p hp hlot
    have hlive : s.lotLive = true := by
      rcases hlot with h | h
      · exact lotLive_taking h
      · rw [lotLive_iff, h]
        simp
    obtain ⟨hpool, htable, hjournal⟩ := causes_live hlive
    simp [attention_iff, hpool, htable, hjournal, limits_of_params hp]
  case report =>
    intro num flag keys count unit context cause counts
    have hnum : num = bytesOf := funext fun k => funext fun v => bytesOf_eq_map k v
    clear_value num
    subst hnum
    have hkeys : s.keySlots = keys := by
      rw [State.keySlots, hp]
      exact keySlotsOf_eq p.split
    have hunit : unit = unitBytes := by
      funext u
      rw [unitBytes_eq]
      cases h : u.window with
      | none => simp [unit, h, flag, flagByte]
      | some w => simp [unit, h, flag, flagByte, windowBytes_eq]
    have hempty : s.emptyCount = keys - (counts.fresh + counts.returned + counts.bound + counts.faulted) := by
      rw [← hkeys]
      rfl
    have hlot : lotStateByte s.lot.state = if s.lot.state = .opened then 2 else 3 := by
      rcases ht with h | h <;> rw [h] <;> rfl
    have hcontext : contextFields = context := rfl
    rw [statusReport_lot hp hwp hrs, causes_lot ht hp, hunit, hempty, hkeys, hlot, hcontext]
    rfl

end Sys2Proof.Machine

/-! PROOF. The commit of a claim (R48, R73, R98): what the insertion at a chain's tail writes, what the
commit leaves in each part of the state, and the first candidate of allocation where it is usable. -/

namespace Sys2Proof.Machine

/-! ## The insertion at the tail of a chain -/

section
variable {s : State} {c : Nat} {rest : List Nat} (hm : s.MapsOk) (hf : s.table.free = c :: rest)
include hm hf

/-- The new cell is written, and the last one is linked to it (R73). -/
theorem cell_insertEntry (h len : Nat) (last : Option Nat) (e : Entry) (hne : last ≠ some c) (k : Nat) :
    (s.insertEntry h len last e).cell k =
      if k = c then StoreCell.written ⟨entryContent e, 0, 1, false, false⟩
      else if last = some k then StoreCell.written { s.cell k with next := BitVec.ofNat 16 c, last := 0 }
      else s.cell k := by
  have hnew := cell_writeCell hm c (c := ⟨entryContent e, 0, 1, false, false⟩)
  cases last with
  | none =>
    have hcell : (s.insertEntry h len none e).cell k
        = (s.writeCell c ⟨entryContent e, 0, 1, false, false⟩).cell k :=
      cell_congr (by unfold State.insertEntry; rw [hf]; rfl) k
    rw [hcell, hnew k]
    simp
  | some d =>
    have hdc : d ≠ c := fun h => hne (congrArg some h)
    have hcell : (s.insertEntry h len (some d) e).cell k
        = ((s.writeCell c ⟨entryContent e, 0, 1, false, false⟩).writeCell d
          { (s.writeCell c ⟨entryContent e, 0, 1, false, false⟩).cell d with
            next := BitVec.ofNat 16 c, last := 0 }).cell k :=
      cell_congr (by unfold State.insertEntry; rw [hf]) k
    rw [hcell, cell_writeCell (writeCell_mapsOk _ _ hm), hnew, hnew, if_neg hdc]
    by_cases hk : k = d
    · subst hk
      rw [if_pos rfl, if_neg hdc, if_pos rfl]
    · rw [if_neg hk, if_neg fun h => hk (Option.some.inj h).symm]

theorem head_insertEntry (h len : Nat) (last : Option Nat) (e : Entry) (k : Nat) :
    (s.insertEntry h len last e).head k = if k = h ∧ last = none then
      BucketHead.written ⟨true, BitVec.ofNat 16 c, false, false⟩ else s.head k := by
  cases last with
  | none =>
    have hhead : (s.insertEntry h len none e).head k
        = ((s.writeCell c ⟨entryContent e, 0, 1, false, false⟩).writeHead h
          ⟨true, BitVec.ofNat 16 c, false, false⟩).head k :=
      head_congr (by unfold State.insertEntry; rw [hf]) k
    rw [hhead, head_writeHead (writeCell_mapsOk _ _ hm)]
    simp only [and_true]
    rfl
  | some d =>
    rw [head_congr (t := s.insertEntry h len (some d) e) (s := s)
      (by unfold State.insertEntry; rw [hf]; rfl) k, if_neg fun h => by cases h.2]

end

/-! ## What a commit leaves -/

section
variable (w x y : Byte) (cls : SerialClass) (st : Station) (site : Site) (len : Nat) (last : Option Nat)
  (n : Nat) (k : KeyCell) (s : State)

/-- The state of a commit before the site is taken (R98). -/
def claimCommitted : State :=
  ((committed st site w x y cls (bucketOf w x y) len last n k s).bindKey n (s.table.free.headD 0)).lockLot

/-- The entry of a commit (R98 step 2). -/
def committedEntry : Entry := newEntry st site w x y cls n k (s.unit cls).allocate.1

theorem lockLot_setSlot (s : State) (st : Station) (site : Site) (v : Slot) :
    (s.setSlot st site v).lockLot = s.lockLot.setSlot st site v := by
  unfold State.lockLot
  split <;> rename_i h
  · exact (if_pos (show s.lot.state = .opened from h)).symm ▸ rfl
  · exact (if_neg (show ¬ s.lot.state = .opened from h)).symm ▸ rfl

theorem claimCommitted_sameBeside : s.sameBeside (claimCommitted w x y cls st site len last n k s)
    [.lot, .pool, .unitP, .unitE, .table, .store, .journal] := by
  intro b hb
  cases b with
  | lot | pool | unitP | unitE | table | store | journal => simp at hb
  | _ => simp [Block.same, claimCommitted, committed]

theorem claimCommitted_lot : (claimCommitted w x y cls st site len last n k s).lot
    = if s.lot.state = .opened then { s.lot with state := .locked, lock := true } else s.lot := by
  rw [claimCommitted, lockLot_lot]
  simp [committed_lot]

theorem claimCommitted_pool : (claimCommitted w x y cls st site len last n k s).pool
    = (s.moveKey n ⟨.bound, false⟩ fun c => { c with bound := c.bound + 1 }).pool := by
  simp [claimCommitted, State.bindKey, State.moveKey, State.keySlot, committed_pool]

theorem claimCommitted_journal : (claimCommitted w x y cls st site len last n k s).journal
    = { s.journal with reservations := s.journal.reservations + 1 } := by
  simp [claimCommitted, committed_journal]

theorem claimCommitted_store : (claimCommitted w x y cls st site len last n k s).store
    = ((s.setUnit cls (s.unit cls).allocate.2).insertEntry (bucketOf w x y) len last
      (committedEntry w x y cls st site n k s)).store := by
  simp [claimCommitted, committed, committedEntry]

theorem claimCommitted_heads : (claimCommitted w x y cls st site len last n k s).table.heads
    = ((s.setUnit cls (s.unit cls).allocate.2).insertEntry (bucketOf w x y) len last
      (committedEntry w x y cls st site n k s)).table.heads := by
  simp [claimCommitted, committed, committedEntry, State.bindKey]

theorem claimCommitted_unit (cls' : SerialClass) :
    (claimCommitted w x y cls st site len last n k s).unit cls'
      = if cls' = cls then (s.unit cls).allocate.2 else s.unit cls' := by
  cases cls <;> cases cls' <;> simp [claimCommitted, committed, State.unit, State.setUnit]

theorem commitClaim_committed (b : Byte) : commitClaim st site b w x y cls (bucketOf w x y) len last n k s
    = (⟨b, .issued, .grant (keyGrantOf (committedEntry w x y cls st site n k s) k.key)⟩,
      (claimCommitted w x y cls st site len last n k s).setSlot st site
        (.held x y (s.table.free.headD 0) s.limits.claimLease)) := by
  refine Prod.ext rfl ?_
  rw [commitClaim_eq, lockLot_setSlot]
  have hlimits : ((committed st site w x y cls (bucketOf w x y) len last n k s).bindKey n
      (s.table.free.headD 0)).limits = s.limits := by
    unfold State.limits
    simp [committed_lot]
  rw [hlimits]
  rfl

variable {w x y cls st site len last n k s} {c : Nat} {rest : List Nat} (hm : s.MapsOk)
  (hf : s.table.free = c :: rest)

section
include hf

theorem claimCommitted_table : (claimCommitted w x y cls st site len last n k s).table =
    { s.table with
      heads := (claimCommitted w x y cls st site len last n k s).table.heads
      binding := mapSet none s.table.binding n (some c)
      cellMap := mapSet none s.table.cellMap c (some (bucketOf w x y))
      free := rest
      inUse := s.table.inUse + 1
      freeCount := s.table.freeCount - 1
      openCount := s.table.openCount + 1
      longest := max s.table.longest (min 255 (len + 1)) } := by
  obtain ⟨heads, ht⟩ := committed_table st site w x y cls (bucketOf w x y) len last n k s hf
  simp [claimCommitted, State.bindKey, State.moveKey, ht, hf]

end

include hm

theorem setUnit_mapsOk (u : SerialUnit) : (s.setUnit cls u).MapsOk :=
  mapsOk_of_eq hm (by simp) (by simp) (by simp) (by simp) (by simp)

theorem claimCommitted_keySlot (j : Nat) : (claimCommitted w x y cls st site len last n k s).keySlot j
    = if j = n then ⟨.bound, false⟩ else s.keySlot j := by
  rw [keySlot_congr (s := s.moveKey n ⟨.bound, false⟩ fun c => { c with bound := c.bound + 1 })
    (by rw [claimCommitted_pool]), keySlot_moveKey hm]

include hf

theorem claimCommitted_cell (hne : last ≠ some c) (j : Nat) :
    (claimCommitted w x y cls st site len last n k s).cell j =
      if j = c then StoreCell.written ⟨entryContent (committedEntry w x y cls st site n k s), 0, 1, false, false⟩
      else if last = some j then StoreCell.written { s.cell j with next := BitVec.ofNat 16 c, last := 0 }
      else s.cell j := by
  have hcell : ∀ i, (s.setUnit cls (s.unit cls).allocate.2).cell i = s.cell i := cell_congr (by simp)
  rw [cell_congr (claimCommitted_store w x y cls st site len last n k s),
    cell_insertEntry (setUnit_mapsOk hm _) (by simpa using hf) _ _ _ _ hne, hcell]

theorem claimCommitted_head (j : Nat) : (claimCommitted w x y cls st site len last n k s).head j =
    if j = bucketOf w x y ∧ last = none then BucketHead.written ⟨true, BitVec.ofNat 16 c, false, false⟩
    else s.head j := by
  rw [head_congr (claimCommitted_heads w x y cls st site len last n k s),
    head_insertEntry (setUnit_mapsOk hm _) (by simpa using hf),
    head_congr (t := s.setUnit cls (s.unit cls).allocate.2) (s := s) (by simp)]

theorem claimCommitted_cellBucket (j : Nat) :
    (claimCommitted w x y cls st site len last n k s).cellBucket j
      = if j = c then some (bucketOf w x y) else s.cellBucket j := by
  unfold State.cellBucket
  rw [claimCommitted_table hf]
  exact mapGet_mapSet ((mapsOk_iff s).1 hm).2.2.2.1

theorem claimCommitted_boundCell (j : Nat) :
    (claimCommitted w x y cls st site len last n k s).boundCell j
      = if j = n then some c else s.boundCell j := by
  unfold State.boundCell
  rw [claimCommitted_table hf]
  exact mapGet_mapSet ((mapsOk_iff s).1 hm).2.2.2.2

end

/-! ## The first candidate -/

/-- The pool without its first candidate (R32 step 1). -/
def State.drawn (s : State) : State :=
  { s with pool := { s.pool with
      stack := s.pool.stack.tail
      fresh := if s.pool.stack = [] then s.pool.fresh.tail else s.pool.fresh } }

section
variable {s : State} {n : Nat}

theorem drawKey_drawn
    (h : s.pool.stack.head? = some n ∨ s.pool.stack = [] ∧ s.pool.fresh.head? = some n) :
    s.drawKey = some (n, s.drawn) := by
  unfold State.drawKey State.drawn
  rcases h with h | ⟨hempty, h⟩
  · obtain ⟨rest, hstack⟩ := List.head?_eq_some_iff.mp h
    simp only [hstack, List.tail_cons, reduceCtorEq, if_false]
  · obtain ⟨rest, hfresh⟩ := List.head?_eq_some_iff.mp h
    simp only [hempty, hfresh, List.tail_cons, List.tail_nil, if_true]

/-- A usable first candidate is the one that allocation chooses (R32). -/
theorem allocateKey_first {fuel : Nat} (hdraw : s.drawKey = some (n, s.drawn))
    (hstate : (s.keySlot n).state = .fresh ∨ (s.keySlot n).state = .returned)
    (hread : s.keyReadFault n = none) (hopen : s.blocked (s.keyAt n).batch = false) :
    s.allocateKey (fuel + 1) = (some (n, s.keyAt n), s.drawn) := by
  have hread' : s.drawn.keyReadFault n = none := hread
  have hopen' : s.drawn.blocked (s.drawn.keyAt n).batch = false := hopen
  have hstate' : (s.drawn.keySlot n).state = .fresh ∨ (s.drawn.keySlot n).state = .returned := hstate
  unfold State.allocateKey
  rw [hdraw]
  dsimp only
  rcases hstate' with h | h <;> simp only [h, hread', hopen', Bool.false_eq_true, if_false] <;> rfl

theorem candidates_pos (h : s.drawKey = some (n, s.drawn)) : ∃ fuel, s.candidates = fuel + 1 := by
  refine Nat.exists_eq_succ_of_ne_zero fun hzero => ?_
  obtain ⟨hstack, hfresh⟩ := Nat.add_eq_zero_iff.mp hzero
  rw [State.drawKey, List.length_eq_zero_iff.mp hstack, List.length_eq_zero_iff.mp hfresh] at h
  cases h

end

/-! ## The serial of a commit -/

/-- An allocation from a unit that is not exhausted, field by field (R46, R48). -/
theorem allocate_eq {u : SerialUnit} {win : Window} {nx v : Nat} (hw : u.window = some win)
    (hn : u.next = some nx) (hex : u.exhausted = false)
    (hv : v = if checkValue nx = 10 then nx + 1 else nx) :
    u.allocate = (v, { window := u.window
                       next := some (if v = 9999999999 then 0 else v + 1)
                       issued := min 4294967295 (u.issued + 1)
                       skipped := if checkValue nx = 10 then min 4294967295 (u.skipped + 1) else u.skipped
                       overflow := decide (v = 9999999999) }) := by
  have hoverflow : u.overflow = false := by
    by_contra h
    have := (exhausted_iff hw hn).mpr (.inl (by simpa using h))
    simp [hex] at this
  have step {p : SerialUnit} (hpass : u.passOver = p) (hnext : p.next = some v)
      (hwin : p.window = u.window) (hiss : p.issued = u.issued) (hover : p.overflow = false) :
      u.allocate = (v, { window := u.window
                         next := some (if v = 9999999999 then 0 else v + 1)
                         issued := min 4294967295 (u.issued + 1)
                         skipped := p.skipped
                         overflow := decide (v = 9999999999) }) := by
    have hall : u.allocate = (v, { p.advance with issued := satAdd p.issued }) := by
      unfold SerialUnit.allocate
      simp only [hpass, hnext, Option.getD_some]
    rw [hall, ← hwin, ← hiss]
    by_cases hmax : v = 9999999999
    · rw [advance_max hnext hmax, if_pos hmax, decide_eq_true hmax]
      rfl
    · rw [advance_below hnext hmax, if_neg hmax, decide_eq_false hmax, ← hover]
      rfl
  by_cases h10 : checkValue nx = 10
  · rw [if_pos h10] at hv ⊢
    have hmax : nx ≠ 9999999999 := by
      rintro rfl
      exact absurd h10 (by decide)
    exact step (passOver_skips hn h10 hmax) (congrArg some hv.symm) rfl rfl hoverflow
  · rw [if_neg h10] at hv ⊢
    exact step (passOver_usable hn h10) (hn.trans (congrArg some hv.symm)) rfl rfl hoverflow

/-! ## The claim item -/

section
variable {s t : State} {st : Station} {site : Site} {b w x y : Byte} {cls : SerialClass} {len : Nat}
  {last : Option Nat} {n : Nat} {k : KeyCell}

theorem resourceRefusal_none (hfree : s.table.free ≠ []) (hunit : (s.unit cls).exhausted = false)
    (hsum : s.journal.queue.length + s.journal.reservations < 256) (hkeys : s.candidates ≠ 0) :
    resourceRefusal cls s = none := by
  have hsum' : ¬ Config.journalPlaces ≤ s.journalSum := Nat.not_le.mpr hsum
  unfold resourceRefusal
  rw [if_neg (by simpa using hfree), if_neg (by simp [hunit]), if_neg hsum', if_neg hkeys]

theorem claimNew_issued (hres : resourceRefusal cls s = none)
    (halloc : s.allocateKey s.candidates = (some (n, k), t)) :
    claimNew st site b w x y cls len last s
      = commitClaim st site b w x y cls (bucketOf w x y) len last n k t := by
  rw [claimNew, hres]
  dsimp only
  rw [halloc]

theorem claimNew_poolEmpty (hres : resourceRefusal cls s = none)
    (halloc : s.allocateKey s.candidates = (none, t)) :
    claimNew st site b w x y cls len last s = (plainItem b .poolEmpty, t) := by
  rw [claimNew, hres]
  dsimp only
  rw [halloc]

end

/-- The free entry cell of a commit is another than the last of the chain that it joins (R68). -/
theorem last_ne_free {s : State} {c len : Nat} {rest : List Nat} {last : Option Nat} {w x y : Byte}
    (hcells : s.CellsOk) (ht : s.taking) (hf : s.table.free = c :: rest)
    (hfind : s.find w x y = .notFound len last) : last ≠ some c := by
  obtain ⟨-, hlaw⟩ := hcells
  obtain ⟨-, -, -, -, hfree, -⟩ := hlaw ht
  obtain ⟨-, -, hunused⟩ := hfree c (by rw [hf]; exact List.mem_cons_self)
  rcases find_notFound hfind with ⟨-, rfl, -⟩ | ⟨d, rfl, hin, -, -⟩
  · exact fun h => by cases h
  · rintro h
    cases h
    obtain ⟨-, -, hused⟩ := inChain_iff.mp hin
    rw [hunused] at hused
    cases hused

theorem allocateKey_taken (fuel : Nat) (s : State) (l : Link) :
    (s.taken l).allocateKey fuel = ((s.allocateKey fuel).1, (s.allocateKey fuel).2.taken l) := by
  induction fuel generalizing s with
  | zero => rfl
  | succ fuel ih =>
    have hdraw : (s.taken l).drawKey = s.drawKey.map fun p => (p.1, p.2.taken l) := by
      unfold State.drawKey
      rw [show (s.taken l).pool = s.pool from rfl]
      split
      · rfl
      · split <;> rfl
    unfold State.allocateKey
    rw [hdraw]
    cases h : s.drawKey with
    | none => rfl
    | some p =>
      obtain ⟨n, u⟩ := p
      have hread : (u.taken l).keyReadFault n = u.keyReadFault n := rfl
      have hblocked : (u.taken l).blocked ((u.taken l).keyAt n).batch = u.blocked (u.keyAt n).batch := rfl
      have hslot : (u.taken l).keySlot n = u.keySlot n := rfl
      have hretire (v : State) : (v.taken l).retireKey n = (v.retireKey n).taken l := by
        unfold State.retireKey
        rw [show (v.taken l).keySlot n = v.keySlot n from rfl]
        split <;> rfl
      have hfault (g : FaultGroup) : (u.taken l).keyFault n g .access = (u.keyFault n g .access).taken l :=
        keyFault_taken ..
      simp only [Option.map_some, hslot, hread, hblocked, hretire, hfault, ih]
      cases (u.keySlot n).state with
      | empty | bound | faulted => rfl
      | fresh | returned =>
        cases u.keyReadFault n with
        | some g => rfl
        | none => dsimp only; split <;> rfl

/-! ## A claim that is answered ISSUED -/

/-- What beside the site, the links and the arbiter the answer to an issued claim leaves: the commit's
state, on the state v that allocation left. -/
structure State.Issues (s v u : State) (st : Station) (b w x y : Byte) (site : Site) (cls : SerialClass)
    (len : Nat) (last : Option Nat) (cell n : Nat) (k : KeyCell) : Prop where
  exec : exec (.claim st [⟨b, x, y⟩]) s = .next u
  replies : s.Replies u (.station st) 0x03
    (.items [⟨b, .issued, grantData (committedEntry w x y cls st site n k v) k.key⟩]) false
  onlySite : s.onlySite u st site (.held x y cell v.limits.claimLease)
  beside : v.sameBeside u [.lot, .stations, .pool, .unitP, .unitE, .table, .store, .journal, .links, .arbiter]
  commits : (claimCommitted w x y cls st site len last n k (v.taken (.station st))).sameBeside u
    [.stations, .links, .arbiter]

theorem slot_reply_sameBeside (s : State) (st : Station) (site : Site) (v : Slot) (l : Link) (kind : Byte)
    (body : ReplyBody) : s.sameBeside ((s.setSlot st site v).reply l kind body) [.stations, .links, .arbiter] :=
  fun b hb => by
    cases b with
    | stations | links | arbiter => simp at hb
    | _ => rfl

theorem claim_issues {s v : State} {st : Station} {b w x y : Byte} {site : Site} {cls : SerialClass}
    {len : Nat} {last : Option Nat} {cell n : Nat} {k : KeyCell} {rest : List Nat}
    (hg : s.Granted (.station st) (.claim [⟨b, x, y⟩])) (ht : s.taking) (hat : s.AtTable st b site w x y cls)
    (hfind : s.find w x y = .notFound len last) (hf : s.table.free = cell :: rest)
    (hsum : s.journal.queue.length + s.journal.reservations < 256)
    (hunit : (s.unit cls).exhausted = false) (hkeys : s.candidates ≠ 0) (hv : s.SameSites v)
    (htable : v.table = s.table) (halloc : s.allocateKey s.candidates = (some (n, k), v)) :
    ∃ u, s.Issues v u st b w x y site cls len last cell n k := by
  have hres : resourceRefusal cls (s.taken (.station st)) = none :=
    resourceRefusal_none (s := s.taken (.station st)) (by rw [show (s.taken (.station st)).table = s.table from rfl, hf]; simp)
      (by cases cls <;> exact hunit) hsum hkeys
  have halloc' : (s.taken (.station st)).allocateKey (s.taken (.station st)).candidates
      = (some (n, k), v.taken (.station st)) := by
    rw [allocateKey_taken, show (s.taken (.station st)).candidates = s.candidates from rfl, halloc]
  have hhead : (v.taken (.station st)).table.free.headD 0 = cell := by
    rw [show (v.taken (.station st)).table = v.table from rfl, htable, hf]
    rfl
  have hitem := (AtTable.claimNew (AtTable.taken hat (.station st)) [⟨b, x, y⟩]
    ((find_taken s _ _ _ _).trans hfind)).trans ((claimNew_issued hres halloc').trans
      (commitClaim_committed w x y cls st site len last n k _ b))
  rw [hhead] at hitem
  obtain ⟨hexec, hreplies, hsite, hbeside⟩ := item_slot_done (exec_claim_one st ⟨b, x, y⟩) hg ht hv hitem
    (claimCommitted_sameBeside _ _ _ _ _ _ _ _ _ _ _) (by decide) (by decide) (by decide) (by decide)
  have hentry : committedEntry w x y cls st site n k (v.taken (.station st))
      = committedEntry w x y cls st site n k v := by
    cases cls <;> rfl
  rw [hentry] at hexec hreplies hsite hbeside
  exact ⟨_, hexec, hreplies, hsite, sameBeside_mono hbeside (by decide), slot_reply_sameBeside _ _ _ _ _ _ _⟩

theorem drawn_taken_mapsOk {s : State} (hm : s.MapsOk) (l : Link) : (s.drawn.taken l).MapsOk :=
  mapsOk_of_eq hm rfl rfl rfl rfl rfl

/-- The new cell of a commit reads cleanly as the entry, at the end of its chain. -/
theorem written_entry {t : State} {c : Nat} {e : Entry}
    (h : t.cell c = StoreCell.written ⟨entryContent e, 0, 1, false, false⟩) :
    t.entryAt c = e ∧ t.entryFault c = none ∧ (t.cell c).next = 0 ∧ (t.cell c).last = 1 := by
  refine ⟨?_, ?_, ?_, ?_⟩
  · rw [State.entryAt, h, written_content]
    exact entryOf_entryContent e
  · rw [State.entryFault, h]
    exact cellFault_written _ _ (entryCheckOk_content e)
  · rw [h, written_next]
  · rw [h, written_last]

/-- Settles O26: the first candidate is chosen, and the commit's parts are read off one by one. -/
theorem claimCommits : Obligations.ClaimCommits := by
  unfold Obligations.ClaimCommits
  intro s st b w x y site cls len last cell rest n win nx hg ht hat hfind hm hcells hf hsum unit hex hwin hnx
    hmax hfirst hstate hplace hread hopen v e unit'
  have hunit : s.unit cls = unit := by cases cls <;> rfl
  have hallocated : unit.allocate = (v, unit') := allocate_eq hwin hnx hex rfl
  have hdraw := drawKey_drawn hfirst
  obtain ⟨fuel, hfuel⟩ := candidates_pos hdraw
  have halloc : s.allocateKey s.candidates = (some (n.val, s.keyAt n), s.drawn) := by
    rw [hfuel]
    exact allocateKey_first hdraw hstate hread hopen
  obtain ⟨u, hexec, hreplies, hsite, hbeside, hcommits⟩ := claim_issues hg ht hat hfind hf hsum
    (by rw [hunit]; exact hex) (by omega) (v := s.drawn) ⟨rfl, rfl, rfl⟩ rfl halloc
  have hentry : committedEntry w x y cls st site n (s.keyAt n) s.drawn = e := by
    have hserial : (s.drawn.unit cls).allocate.1 = v := by
      rw [show s.drawn.unit cls = unit by cases cls <;> rfl, hallocated]
    rw [committedEntry, hserial, newEntry, dif_pos n.isLt]
  rw [hentry] at hreplies
  have hlast : last ≠ some cell := last_ne_free hcells ht hf hfind
  generalize hd : s.drawn.taken (.station st) = d at hcommits
  have hmd : d.MapsOk := by subst hd; exact drawn_taken_mapsOk hm _
  have hfd : d.table.free = cell :: rest := by subst hd; exact hf
  have hentryd : committedEntry w x y cls st site n (s.keyAt n) d = e := by
    rw [← hentry]; subst hd; cases cls <;> rfl
  have hcell (j : Nat) : u.cell j = if j = cell then StoreCell.written ⟨entryContent e, 0, 1, false, false⟩
      else if last = some j then StoreCell.written { s.cell j with next := BitVec.ofNat 16 cell, last := 0 }
      else s.cell j := by
    rw [cell_congr (hcommits .store (by decide)), claimCommitted_cell hmd hfd hlast, hentryd,
      show d.cell j = s.cell j by subst hd; rfl]
  have htable := (hcommits .table (by decide)).trans (claimCommitted_table hfd)
  have hpool := (hcommits .pool (by decide)).trans (claimCommitted_pool ..)
  have hstore : s.sameBeside s.drawn [.pool] := fun b hb => by
    cases b with
    | pool => simp at hb
    | _ => rfl
  refine ⟨u, hexec, hreplies, hsite, written_entry ((hcell cell).trans (if_pos rfl)), fun j hj => ?cells,
    fun j => ?head, fun j hj => ?linked, fun j => ?bucket, fun j => ?bound, ?counters, fun j => ?slots, ?stack, ?fresh,
    ?batches, ?counts, ?units, ?reserved, ?locked, ?frame⟩
  case cells =>
    simp only [List.mem_cons, Option.mem_toList, not_or] at hj
    rw [hcell, if_neg hj.1, if_neg hj.2]
  case head =>
    rw [head_congr (congrArg IssueTable.heads (hcommits .table (by decide))), claimCommitted_head hmd hfd]
    subst hd
    rfl
  case linked => rw [hcell, if_neg (by rintro rfl; exact hlast hj), if_pos hj]
  case bucket =>
    rw [cellBucket_congr (congrArg IssueTable.cellMap (hcommits .table (by decide))),
      claimCommitted_cellBucket hmd hfd]
    subst hd
    rfl
  case bound =>
    unfold State.boundCell
    rw [hcommits .table (by decide)]
    refine (claimCommitted_boundCell hmd hfd j).trans ?_
    subst hd
    rfl
  case counters =>
    rw [htable]
    subst hd
    exact ⟨rfl, rfl, rfl, rfl, rfl, rfl⟩
  case slots =>
    rw [keySlot_congr (congrArg KeyPool.slots (hcommits .pool (by decide))), claimCommitted_keySlot hmd]
    subst hd
    rfl
  case stack => rw [hpool]; subst hd; rfl
  case fresh => rw [hpool]; subst hd; rfl
  case batches => rw [hpool]; subst hd; rfl
  case counts =>
    have hleave : d.keySlot n = s.keySlot n := by subst hd; rfl
    have hcounts : d.pool.counts = s.pool.counts := by subst hd; rfl
    rw [hpool]
    simp only [State.moveKey, hleave, hcounts]
    rcases hstate with h | h <;> simp [h, PoolCounts.leave]
  case units =>
    have hunits (c : SerialClass) : u.unit c = if c = cls then unit' else s.unit c := by
      have hunitd : d.unit c = s.unit c := by subst hd; cases c <;> rfl
      have hunitd' : d.unit cls = unit := by rw [← hunit]; subst hd; cases cls <;> rfl
      have hu : u.unit c = (claimCommitted w x y cls st site len last n (s.keyAt n) d).unit c := by
        cases c
        · exact hcommits .unitP (by decide)
        · exact hcommits .unitE (by decide)
      rw [hu, claimCommitted_unit, hunitd, hunitd', hallocated]
    have hp := hunits .p
    have he := hunits .e
    cases cls
    · exact ⟨hp, he⟩
    · exact ⟨he, hp⟩
  case reserved =>
    rw [hcommits .journal (by decide), claimCommitted_journal]
    subst hd
    rfl
  case locked =>
    rw [hcommits .lot (by decide), claimCommitted_lot]
    subst hd
    rfl
  case frame =>
    exact sameBeside_trans (sameBeside_mono hstore (by decide)) hbeside

end Sys2Proof.Machine

/-! PROOF. Allocation (R32, R33): one draw that is chosen or passed over, what each candidate passed over
leaves, and how a claim item ends with it (R97). -/

namespace Sys2Proof.Machine

/-! ## One candidate -/

/-- The numbers that allocation draws from, in the order of the draws (R32 step 1). -/
def State.toDraw (s : State) : List Nat := s.pool.stack ++ s.pool.fresh

/-- Whether a candidate is chosen (R32). -/
def State.usable (s : State) (n : Nat) : Bool :=
  ((s.keySlot n).state = .fresh || (s.keySlot n).state = .returned) && (s.keyReadFault n).isNone
    && !s.blocked (s.keyAt n).batch

/-- The fault that the read of a candidate finds; a FAULTED one is not read (R32). -/
def State.candidateFault (s : State) (n : Nat) : Option FaultGroup :=
  if decide ((s.keySlot n).state = .faulted) then none else s.keyReadFault n

/-- The state after a candidate has been drawn and passed over (R33). -/
def State.passed (s : State) (n : Nat) : State :=
  if (s.keySlot n).state = .empty ∨ (s.keySlot n).state = .bound then s.drawn
  else match s.candidateFault n with
    | some g => (s.drawn.keyFault n g .access).retireKey n
    | none => s.drawn.retireKey n

section
variable {s : State} {n : Nat}

theorem toDraw_drawn {rest : List Nat} (h : s.toDraw = n :: rest) : s.drawn.toDraw = rest := by
  unfold State.toDraw State.drawn at *
  cases hs : s.pool.stack with
  | nil => rw [hs, List.nil_append] at h; simp [h]
  | cons m stack => rw [hs, List.cons_append, List.cons.injEq] at h; simp [h.2]

theorem drawKey_of_toDraw {rest : List Nat} (h : s.toDraw = n :: rest) : s.drawKey = some (n, s.drawn) := by
  refine drawKey_drawn ?_
  unfold State.toDraw at h
  cases hs : s.pool.stack with
  | nil => rw [hs, List.nil_append] at h; exact .inr ⟨rfl, by rw [h]; rfl⟩
  | cons m stack => rw [hs, List.cons_append, List.cons.injEq] at h; exact .inl (by rw [h.1]; rfl)

theorem allocateKey_nil (fuel : Nat) (h : s.toDraw = []) : s.allocateKey fuel = (none, s) := by
  obtain ⟨hstack, hfresh⟩ := List.append_eq_nil_iff.mp h
  cases fuel with
  | zero => rfl
  | succ fuel =>
    unfold State.allocateKey State.drawKey
    rw [hstack, hfresh]

theorem usable_iff : s.usable n = true ↔ ((s.keySlot n).state = .fresh ∨ (s.keySlot n).state = .returned)
    ∧ s.keyReadFault n = none ∧ s.blocked (s.keyAt n).batch = false := by
  simp [State.usable, and_assoc]

theorem allocateKey_usable_first {fuel : Nat} {rest : List Nat} (h : s.toDraw = n :: rest)
    (hu : s.usable n = true) : s.allocateKey (fuel + 1) = (some (n, s.keyAt n), s.drawn) := by
  obtain ⟨hstate, hread, hopen⟩ := usable_iff.mp hu
  exact allocateKey_first (drawKey_of_toDraw h) hstate hread hopen

theorem allocateKey_passes {fuel : Nat} {rest : List Nat} (h : s.toDraw = n :: rest)
    (hu : s.usable n = false) : s.allocateKey (fuel + 1) = (s.passed n).allocateKey fuel := by
  have hslot : s.drawn.keySlot n = s.keySlot n := rfl
  have hread : s.drawn.keyReadFault n = s.keyReadFault n := rfl
  have hopen : s.drawn.blocked (s.drawn.keyAt n).batch = s.blocked (s.keyAt n).batch := rfl
  rw [State.allocateKey, drawKey_of_toDraw h]
  simp only [hslot, hread, hopen, State.passed, State.candidateFault]
  unfold State.usable at hu
  cases hstate : (s.keySlot n).state with
  | empty | bound | faulted => simp
  | fresh | returned =>
    cases hfault : s.keyReadFault n with
    | some g => simp
    | none =>
      have hblocked : s.blocked (s.keyAt n).batch = true := by
        simpa [hstate, hfault] using hu
      simp [hblocked]

/-- What is drawn stays drawn, and the batches stay blocked. -/
theorem passed_toDraw {rest : List Nat} (h : s.toDraw = n :: rest) : (s.passed n).toDraw = rest := by
  have hpool : ∀ t : State, (t.retireKey n).toDraw = t.toDraw := fun t => by
    unfold State.toDraw State.retireKey; split <;> rfl
  have hfault : ∀ (t : State) g, (t.keyFault n g .access).toDraw = t.toDraw := fun t g => by
    unfold State.toDraw
    rw [keyFault_pool, markKeyFault_pool]
    cases (t.keySlot n).state <;> rfl
  rw [← toDraw_drawn h]
  unfold State.passed
  split
  · rfl
  · split
    · rw [hpool, hfault]
    · rw [hpool]

theorem passed_lot : (s.passed n).lot = s.lot := by
  unfold State.passed
  split
  · rfl
  · split <;> simp <;> rfl

end

/-- How allocation ends: some draws passed over, then one chosen or none left (R32). -/
theorem allocateKey_draws {fuel : Nat} {s : State} (hfuel : s.toDraw.length ≤ fuel)
    {r : Option (Nat × KeyCell)} {t : State} (h : s.allocateKey fuel = (r, t)) :
    (r = none → t.toDraw = [])
      ∧ ∀ n k, r = some (n, k) → (∃ used, s.toDraw = used ++ n :: t.toDraw)
        ∧ t.usable n = true ∧ k = t.keyAt n ∧ t.lot = s.lot := by
  induction fuel generalizing s with
  | zero =>
    cases h
    exact ⟨fun _ => List.length_eq_zero_iff.mp (Nat.le_zero.mp hfuel), nofun⟩
  | succ fuel ih =>
    cases hall : s.toDraw with
    | nil =>
      rw [allocateKey_nil _ hall] at h
      cases h
      exact ⟨fun _ => hall, nofun⟩
    | cons m rest =>
      cases hu : s.usable m with
      | true =>
        rw [allocateKey_usable_first hall hu] at h
        cases h
        refine ⟨nofun, fun n k h => ?_⟩
        cases h
        exact ⟨⟨[], by rw [toDraw_drawn hall]; rfl⟩, hu, rfl, rfl⟩
      | false =>
        rw [allocateKey_passes hall hu] at h
        have hrest := passed_toDraw hall
        obtain ⟨hnone, hsome⟩ := ih (by rw [hrest]; rw [hall] at hfuel; simpa using hfuel) h
        refine ⟨hnone, fun n k hr => ?_⟩
        obtain ⟨⟨used, hused⟩, husable, hkey, hlot⟩ := hsome n k hr
        exact ⟨⟨m :: used, by rw [List.cons_append, ← hused, hrest]⟩, husable, hkey, hlot.trans passed_lot⟩

/-! ## What a candidate passed over leaves -/

section
variable {s : State} {n : Nat} (hm : s.MapsOk)
include hm

theorem cell_retireKey (k : Nat) : (s.retireKey n).cell k = if k = n then zeroCell else s.cell k := by
  have hcell : (s.retireKey n).cell k = (s.writeCell n zeroCell).cell k := by
    unfold State.retireKey
    split <;> rfl
  rw [hcell, cell_writeCell hm, zeroCell_written]

theorem keySlot_retireKey (h : (s.keySlot n).state ≠ .empty) (k : Nat) :
    (s.retireKey n).keySlot k = if k = n then ⟨.empty, false⟩ else s.keySlot k := by
  rw [State.retireKey, if_neg h]
  exact keySlot_moveKey hm n k emptySlot fun c => { c with retired := c.retired + 1 }

end

/-- The counts after one key of a state has been retired. -/
def PoolCounts.retire (c : PoolCounts) (v : KeyState) : PoolCounts :=
  { c with
    fresh := c.fresh - if v = .fresh then 1 else 0
    returned := c.returned - if v = .returned then 1 else 0
    faulted := c.faulted - if v = .faulted then 1 else 0
    retired := c.retired + 1 }

/-- The check record after the read of a candidate that is passed over (R158, R159). -/
def State.recordedBy (s : State) (c : StoreCheck) (m : Nat) : StoreCheck :=
  match s.candidateFault m with
  | none => c
  | some g => { c with
      halt := c.halt || s.limits.strict
      faults := if c.faults < 255 then c.faults + 1 else 255
      first := if c.faults = 0 then some ⟨.cell m, g, .access⟩ else c.first
      storeFault := true }

/-- What R22 allows of a candidate. -/
def State.drawable (s : State) (m : Nat) : Prop :=
  (s.keySlot m).state = .fresh ∨ (s.keySlot m).state = .returned ∨ (s.keySlot m).state = .faulted

section
variable {s : State} {n : Nat} (hd : s.drawable n)
include hd

theorem passed_clean (h : s.candidateFault n = none) : s.passed n = s.drawn.retireKey n := by
  unfold State.passed
  rw [h, if_neg]
  rcases hd with h | h | h <;> simp [h]

theorem passed_fault {g : FaultGroup} (h : s.candidateFault n = some g) :
    s.passed n = (s.drawn.keyFault n g .access).retireKey n := by
  unfold State.passed
  rw [h, if_neg]
  rcases hd with h | h | h <;> simp [h]

/-- A candidate whose read finds a fault is FRESH or RETURNED, and FAULTED from then on (R36). -/
theorem candidateFault_marks {g : FaultGroup} (h : s.candidateFault n = some g) :
    (s.keySlot n).state = .fresh ∨ (s.keySlot n).state = .returned := by
  rcases hd with hs | hs | hs
  · exact .inl hs
  · exact .inr hs
  · simp [State.candidateFault, hs] at h

theorem drawn_keySlot_ne : (s.drawn.keySlot n).state ≠ .empty := by
  rw [show s.drawn.keySlot n = s.keySlot n from rfl]
  rcases hd with h | h | h <;> simp [h]

omit hd in
theorem retireKey_pool (h : (s.keySlot n).state ≠ .empty) : (s.retireKey n).pool = { s.pool with
    slots := mapSet emptySlot s.pool.slots n emptySlot
    counts := { s.pool.counts.leave (s.keySlot n).state with
      retired := (s.pool.counts.leave (s.keySlot n).state).retired + 1 } } := by
  rw [State.retireKey, if_neg h]
  rfl

omit hd in
theorem leave_retire (c : PoolCounts) {v : KeyState} (h : v = .fresh ∨ v = .returned ∨ v = .faulted) :
    { c.leave v with retired := (c.leave v).retired + 1 } = c.retire v := by
  rcases h with rfl | rfl | rfl <;> simp [PoolCounts.leave, PoolCounts.retire]

variable (hm : s.MapsOk)
include hm

omit hd in
theorem drawn_mapsOk : s.drawn.MapsOk := mapsOk_of_eq hm rfl rfl rfl rfl rfl

/-- The mark of a candidate whose read finds a fault (R36). -/
theorem drawn_keyFault {g : FaultGroup} (h : s.candidateFault n = some g) :
    (s.drawn.keyFault n g .access).keySlot n = ⟨.faulted, false⟩
      ∧ (s.drawn.keyFault n g .access).pool = s.drawn.pool.marked n (s.keySlot n).state := by
  have hpool := (keyFault_pool s.drawn n g .access).trans (markKeyFault_pool s.drawn n)
  refine ⟨keySlot_of_slots (drawn_mapsOk hm) ((congrArg KeyPool.slots hpool).trans ?_), hpool⟩
  rw [show s.drawn.keySlot n = s.keySlot n from rfl]
  rcases candidateFault_marks hd h with hs | hs <;> rw [hs] <;> rfl

theorem passed_pool : ∃ slots, (s.passed n).pool = { s.drawn.pool with
    slots := slots
    counts := s.pool.counts.retire (s.keySlot n).state } := by
  cases hf : s.candidateFault n with
  | none =>
    refine ⟨mapSet emptySlot s.pool.slots n emptySlot, ?_⟩
    rw [passed_clean hd hf, retireKey_pool (drawn_keySlot_ne hd), ← leave_retire _ hd]
    rfl
  | some g =>
    obtain ⟨hslot, hpool⟩ := drawn_keyFault hd hm hf
    refine ⟨mapSet emptySlot (mapSet emptySlot s.pool.slots n ⟨.faulted, false⟩) n emptySlot, ?_⟩
    rw [passed_fault hd hf, retireKey_pool (by rw [hslot]; simp), hslot, hpool]
    rcases candidateFault_marks hd hf with hs | hs <;> rw [hs] <;>
      simp [KeyPool.marked, PoolCounts.leave, PoolCounts.retire, State.drawn]

theorem passed_keySlot (k : Nat) :
    (s.passed n).keySlot k = if k = n then ⟨.empty, false⟩ else s.keySlot k := by
  have hmd := drawn_mapsOk hm
  cases hf : s.candidateFault n with
  | none =>
    rw [passed_clean hd hf, keySlot_retireKey hmd (drawn_keySlot_ne hd)]
    rfl
  | some g =>
    obtain ⟨hslot, -⟩ := drawn_keyFault hd hm hf
    rw [passed_fault hd hf, keySlot_retireKey (keyFault_mapsOk _ _ _ hmd) (by rw [hslot]; simp)]
    by_cases hk : k = n
    · rw [if_pos hk, if_pos hk]
    · rw [if_neg hk, if_neg hk, keySlot_keyFault_ne _ hk]
      rfl

theorem passed_cell (k : Nat) : (s.passed n).cell k = if k = n then zeroCell else s.cell k := by
  have hmd := drawn_mapsOk hm
  cases hf : s.candidateFault n with
  | none => rw [passed_clean hd hf, cell_retireKey hmd]; rfl
  | some g =>
    rw [passed_fault hd hf, cell_retireKey (keyFault_mapsOk _ _ _ hmd),
      cell_congr (t := s.drawn.keyFault n g .access) (s := s) (by simp; rfl)]

theorem passed_mapsOk : (s.passed n).MapsOk := by
  have hmd := drawn_mapsOk hm
  cases hf : s.candidateFault n with
  | none => rw [passed_clean hd hf]; exact retireKey_mapsOk n hmd
  | some g => rw [passed_fault hd hf]; exact retireKey_mapsOk n (keyFault_mapsOk _ _ _ hmd)

omit hm in
theorem passed_check : (s.passed n).check = s.recordedBy s.check n := by
  unfold State.recordedBy
  cases hf : s.candidateFault n with
  | none => rw [passed_clean hd hf, State.retireKey_check]; rfl
  | some g =>
    rw [passed_fault hd hf, State.retireKey_check, keyFault_check]
    simp only [State.recordFault, recorded_faults]
    rfl

omit hm in
theorem passed_sameBeside : s.sameBeside (s.passed n) [.pool, .store, .check] := by
  have hdrawn : s.sameBeside s.drawn [.pool, .store, .check] := fun b hb => by
    cases b with
    | pool | store | check => simp at hb
    | _ => rfl
  have hretire : ∀ t : State, t.sameBeside (t.retireKey n) [.pool, .store, .check] := fun t b hb => by
    cases b with
    | pool | store | check => simp at hb
    | _ => simp [Block.same]
  cases hf : s.candidateFault n with
  | none => rw [passed_clean hd hf]; exact sameBeside_trans hdrawn (hretire _)
  | some g =>
    rw [passed_fault hd hf]
    exact sameBeside_trans (sameBeside_trans hdrawn (sameBeside_mono (keyFault_sameBeside _ _ _ _) (by decide)))
      (hretire _)

end

/-! ## A run of candidates passed over -/

/-- What a run of candidates passed over leaves, with what has been drawn from the pool left out (R33). -/
structure State.Retires (s t : State) (used : List Nat) : Prop where
  gone : ∀ m ∈ used, t.keySlot m = ⟨.empty, false⟩ ∧ t.cell m = zeroCell
  kept : ∀ m, m ∉ used → t.keySlot m = s.keySlot m
  cells : s.onlyCells t used
  pool : t.pool = { s.pool with
    slots := t.pool.slots
    stack := t.pool.stack
    fresh := t.pool.fresh
    counts := { s.pool.counts with
      fresh := s.pool.counts.fresh - used.countP fun m => decide ((s.keySlot m).state = .fresh)
      returned := s.pool.counts.returned - used.countP fun m => decide ((s.keySlot m).state = .returned)
      faulted := s.pool.counts.faulted - used.countP fun m => decide ((s.keySlot m).state = .faulted)
      retired := s.pool.counts.retired + used.length } }
  check : t.check = used.foldl s.recordedBy s.check
  beside : s.sameBeside t [.pool, .store, .check]

theorem retires_refl (s : State) : s.Retires s [] :=
  ⟨nofun, fun _ _ => rfl, fun _ _ => rfl, rfl, rfl, sameBeside_rfl s _⟩

theorem retires_drawn (s : State) : s.Retires s.drawn [] :=
  ⟨nofun, fun _ _ => rfl, fun _ _ => rfl, rfl, rfl, fun b hb => by
    cases b with
    | pool => simp at hb
    | _ => rfl⟩

section
variable {s t : State} {n : Nat} {used : List Nat} (hm : s.MapsOk) (hd : s.drawable n)
include hm hd

/-- Every other candidate reads after one has been passed over as it did before. -/
theorem passed_others {m : Nat} (hne : m ≠ n) : (s.passed n).keySlot m = s.keySlot m
    ∧ (s.passed n).keyReadFault m = s.keyReadFault m ∧ (s.passed n).candidateFault m = s.candidateFault m
    ∧ (s.passed n).usable m = s.usable m := by
  have hslot : (s.passed n).keySlot m = s.keySlot m := by rw [passed_keySlot hd hm, if_neg hne]
  have hcell : (s.passed n).cell m = s.cell m := by rw [passed_cell hd hm, if_neg hne]
  have hread : (s.passed n).keyReadFault m = s.keyReadFault m := by
    unfold State.keyReadFault; rw [hcell]
  have hkey : (s.passed n).keyAt m = s.keyAt m := by unfold State.keyAt; rw [hcell]
  refine ⟨hslot, hread, ?_, ?_⟩
  · unfold State.candidateFault; rw [hslot, hread]
  · unfold State.usable; rw [hslot, hread, hkey, blocked_congr passed_lot]

theorem countP_passed (hn : n ∉ used) (v : KeyState) :
    (used.countP fun m => decide (((s.passed n).keySlot m).state = v))
      = used.countP fun m => decide ((s.keySlot m).state = v) :=
  List.countP_congr fun m hmem => by
    rw [(passed_others hm hd fun h : m = n => hn (h ▸ hmem)).1]

theorem recordedBy_passed {m : Nat} (hne : m ≠ n) (c : StoreCheck) :
    (s.passed n).recordedBy c m = s.recordedBy c m := by
  unfold State.recordedBy
  rw [(passed_others hm hd hne).2.2.1, limits_congr passed_lot]

/-- One more candidate at the front of a run. -/
theorem retires_cons (hn : n ∉ used) (h : (s.passed n).Retires t used) : s.Retires t (n :: used) := by
  obtain ⟨slots, hpool⟩ := passed_pool hd hm
  refine ⟨fun m hmem => ?gone, fun m hmem => ?kept, fun m hmem => ?cells, ?pool, ?check, ?beside⟩
  case gone =>
    rcases List.mem_cons.mp hmem with rfl | hmem
    · have hslot := h.kept m hn
      have hcell := h.cells m hn
      rw [passed_keySlot hd hm, if_pos rfl] at hslot
      rw [passed_cell hd hm, if_pos rfl] at hcell
      exact ⟨hslot, hcell⟩
    · exact h.gone m hmem
  case kept =>
    obtain ⟨hne, hmem⟩ := not_or.mp (fun h => hmem (List.mem_cons.mpr h))
    rw [h.kept m hmem, passed_keySlot hd hm, if_neg hne]
  case cells =>
    obtain ⟨hne, hmem⟩ := not_or.mp (fun h => hmem (List.mem_cons.mpr h))
    rw [h.cells m hmem, passed_cell hd hm, if_neg hne]
  case pool =>
    have hafter := h.pool
    rw [hpool] at hafter
    simp only [countP_passed hm hd hn] at hafter
    rw [hafter]
    simp only [PoolCounts.retire, List.countP_cons, List.length_cons, State.drawn, decide_eq_true_eq]
    congr 2 <;> omega
  case check =>
    rw [h.check, List.foldl_cons, passed_check hd]
    exact List.foldl_ext _ _ _ fun c m hmem => recordedBy_passed hm hd (fun h : m = n => hn (h ▸ hmem)) c
  case beside => exact sameBeside_trans (passed_sameBeside hd) h.beside

end

/-- How allocation ends where every candidate is named once and in a state that R22 allows (R32, R33). -/
theorem allocateKey_retires {fuel : Nat} {s : State} (hfuel : s.toDraw.length ≤ fuel) (hm : s.MapsOk)
    (hnodup : s.toDraw.Nodup) (hdraw : ∀ m ∈ s.toDraw, s.drawable m) {r : Option (Nat × KeyCell)} {t : State}
    (h : s.allocateKey fuel = (r, t)) :
    ∃ used, s.toDraw = used ++ (r.map (·.1)).toList ++ t.toDraw ∧ s.Retires t used
      ∧ (∀ m ∈ used, s.usable m = false)
      ∧ t.pool.stack = s.pool.stack.drop (used.length + (r.map (·.1)).toList.length)
      ∧ t.pool.fresh = s.pool.fresh.drop (used.length + (r.map (·.1)).toList.length - s.pool.stack.length) := by
  induction fuel generalizing s with
  | zero =>
    cases h
    exact ⟨[], rfl, retires_refl _, nofun, rfl, by simp⟩
  | succ fuel ih =>
    cases hall : s.toDraw with
    | nil =>
      rw [allocateKey_nil _ hall] at h
      cases h
      exact ⟨[], hall.symm, retires_refl _, nofun, rfl, by simp⟩
    | cons n rest =>
      have hdrawn : s.drawn.pool.stack = s.pool.stack.drop 1
          ∧ s.drawn.pool.fresh = s.pool.fresh.drop (1 - s.pool.stack.length) := by
        cases hs : s.pool.stack with
        | nil => simp [State.drawn, hs]
        | cons m stack => simp [State.drawn, hs]
      cases hu : s.usable n with
      | true =>
        rw [allocateKey_usable_first hall hu] at h
        cases h
        exact ⟨[], by rw [toDraw_drawn hall]; rfl, retires_drawn s, nofun, hdrawn.1, hdrawn.2⟩
      | false =>
        have hd : s.drawable n := hdraw n (by rw [hall]; exact List.mem_cons_self)
        have hrest := passed_toDraw hall
        rw [hall, List.nodup_cons] at hnodup
        have hothers : ∀ m ∈ rest, m ≠ n := fun m hmem h => hnodup.1 (h ▸ hmem)
        rw [allocateKey_passes hall hu] at h
        obtain ⟨used, hused, hret, hbad, hstack, hfresh⟩ := ih (by rw [hrest]; rw [hall] at hfuel; simpa using hfuel)
          (passed_mapsOk hd hm) (by rw [hrest]; exact hnodup.2)
          (fun m hmem => by
            rw [hrest] at hmem
            have hslot := (passed_others hm hd (hothers m hmem)).1
            unfold State.drawable
            rw [hslot]
            exact hdraw m (by rw [hall]; exact List.mem_cons_of_mem _ hmem)) h
        have hin : ∀ m ∈ used, m ∈ rest := fun m hmem => by rw [← hrest, hused]; simp [hmem]
        obtain ⟨slots, hpool⟩ := passed_pool hd hm
        refine ⟨n :: used, by rw [← hrest, hused]; simp, retires_cons hm hd (fun h => hnodup.1 (hin n h)) hret,
          fun m hmem => ?bad, ?stack, ?fresh⟩
        case bad =>
          rcases List.mem_cons.mp hmem with rfl | hmem
          · exact hu
          · rw [← (passed_others hm hd (hothers m (hin m hmem))).2.2.2]
            exact hbad m hmem
        case stack =>
          rw [hstack, hpool]
          simp only [hdrawn.1, List.drop_drop, List.length_cons]
          congr 1
          omega
        case fresh =>
          rw [hfresh, hpool]
          simp only [hdrawn.1, hdrawn.2, List.drop_drop, List.length_cons, List.length_drop]
          congr 1
          omega

/-! ## The claim item -/

theorem EStar.keeps_mapsOk {s t : State} (h : EStar s t) (hm : s.MapsOk) : t.MapsOk := by
  induction h with
  | refl => exact hm
  | tail _ hmove ih => exact hmove.keeps_mapsOk ih

theorem allocateKey_mapsOk {fuel : Nat} {s : State} (hm : s.MapsOk) : (s.allocateKey fuel).2.MapsOk :=
  (allocateKey_star fuel s).keeps_mapsOk hm

/-- Settles O25: every draw is chosen or passed over, and the item ends with what allocation came to. -/
theorem allocationFindsAUsableKey : Obligations.AllocationFindsAUsableKey := by
  unfold Obligations.AllocationFindsAUsableKey
  intro s
  have hfuel : s.toDraw.length ≤ s.candidates := by
    rw [State.toDraw, List.length_append]
    exact Nat.le_refl _
  refine ⟨fun t h => ?none, fun n k t h => ?some, ?run, ?item⟩
  case none =>
    have hempty := (allocateKey_draws hfuel h).1 rfl
    exact List.append_eq_nil_iff.mp hempty
  case some =>
    obtain ⟨⟨used, hused⟩, husable, hkey, hlot⟩ := (allocateKey_draws hfuel h).2 n k rfl
    obtain ⟨hstate, hread, hopen⟩ := usable_iff.mp husable
    refine ⟨?_, ⟨used, hused⟩, hstate, hread, hkey, ?_⟩
    · rw [show s.pool.stack ++ s.pool.fresh = s.toDraw from rfl, hused]
      simp
    · rw [hkey, ← blocked_congr hlot]
      exact hopen
  case run =>
    intro all state fault recorded hm hnodup hdraw r t h
    have hrecorded : recorded = s.recordedBy := rfl
    obtain ⟨used, hused, hret, hbad, hstack, hfresh⟩ := allocateKey_retires hfuel hm hnodup hdraw h
    have hin : ∀ m ∈ used, m ∈ all := fun m hmem => by
      rw [show all = s.toDraw from rfl, hused]
      simp [hmem]
    refine ⟨used, hused, ⟨_, rfl, hstack, hfresh⟩, fun m hmem => ⟨?_, hret.gone m hmem⟩, hret.kept, hret.cells,
      hret.pool, by rw [hrecorded]; exact hret.check, hret.beside⟩
    have hno := hbad m hmem
    rw [← Bool.not_eq_true, usable_iff] at hno
    rcases hdraw m (hin m hmem) with hs | hs | hs
    · simpa [hs, or_iff_not_imp_left] using hno
    · simpa [hs, or_iff_not_imp_left] using hno
    · exact .inl hs
  case item =>
    intro st b w x y site cls len last cell rest hg ht hat hfind hm hf hsum hkeys unit hex
    have hunit : s.unit cls = unit := by cases cls <;> rfl
    have hcand : s.candidates ≠ 0 := by
      intro h
      obtain ⟨hstack, hfresh⟩ := Nat.add_eq_zero_iff.mp h
      exact hkeys (by rw [List.length_eq_zero_iff.mp hstack, List.length_eq_zero_iff.mp hfresh]; rfl)
    refine ⟨fun t h => ?empty, fun n k t h => ?issued⟩
    case empty =>
      have hres : resourceRefusal cls (s.taken (.station st)) = none :=
        resourceRefusal_none (s := s.taken (.station st))
          (by rw [show (s.taken (.station st)).table = s.table from rfl, hf]; simp)
          (by rw [show (s.taken (.station st)).unit cls = unit by cases cls <;> rfl]; exact hex) hsum hcand
      have halloc : (s.taken (.station st)).allocateKey (s.taken (.station st)).candidates
          = (none, t.taken (.station st)) := by
        rw [allocateKey_taken, show (s.taken (.station st)).candidates = s.candidates from rfl, h]
      have hdef : t.deferred = s.deferred := by
        rw [← allocateKey_deferred s.candidates s, h]
      exact item_answered (exec_claim_one st ⟨b, x, y⟩) hg ht
        ((AtTable.claimNew (AtTable.taken hat (.station st)) _ ((find_taken s _ _ _ _).trans hfind)).trans
          (claimNew_poolEmpty hres halloc)) hdef
    case issued =>
      intro v
      have hfacts := allocateKey_drawn s.candidates s
      have haside := (allocateKey_star s.candidates s).aside
      have hdef := allocateKey_deferred s.candidates s
      have hmt := allocateKey_mapsOk (fuel := s.candidates) hm
      rw [h] at hfacts haside hdef hmt
      obtain ⟨u, hexec, hreplies, hsite, hbeside, hcommits⟩ := claim_issues hg ht hat hfind hf hsum
        (by rw [hunit]; exact hex) hcand ⟨hfacts.stations, haside.links, hdef⟩ hfacts.table h
      have hentry : committedEntry w x y cls st site n k t = newEntry st site w x y cls n k v := by
        have hserial : (t.unit cls).allocate.1 = v := by
          cases cls
          · exact congrArg (fun u : SerialUnit => u.allocate.1) hfacts.units.1
          · exact congrArg (fun u : SerialUnit => u.allocate.1) hfacts.units.2
        rw [committedEntry, hserial]
      rw [hentry] at hreplies
      rw [limits_congr haside.lot] at hsite
      generalize hd : t.taken (.station st) = d at hcommits
      have hmd : d.MapsOk := by subst hd; exact mapsOk_of_eq hmt rfl rfl rfl rfl rfl
      have hfd : d.table.free = cell :: rest := by subst hd; exact (congrArg IssueTable.free hfacts.table).trans hf
      have hpool := (hcommits .pool (by decide)).trans (claimCommitted_pool ..)
      refine ⟨u, hexec, hreplies, hsite, ?_, fun m => ?_, ?_, ?_, ?_⟩
      · unfold State.boundCell
        rw [hcommits .table (by decide)]
        exact (claimCommitted_boundCell hmd hfd n).trans (if_pos rfl)
      · rw [keySlot_congr (congrArg KeyPool.slots (hcommits .pool (by decide))), claimCommitted_keySlot hmd]
        subst hd
        rfl
      · rw [hpool]; subst hd; rfl
      · rw [hpool]; subst hd; rfl
      · exact hbeside .check (by decide)

end Sys2Proof.Machine

/-! PROOF. The actions of the purge (R133): a sweep step read as the action on each entry of its bucket,
with the sweeps' own record and the pointer kept apart from what the action does. -/

namespace Sys2Proof.Machine

/-! ## The record of the sweeps kept apart -/

/-- A state as a sweep step is working on it: the sweeps' record, and the pointer at S0 (R167). -/
def State.sweeping (s : State) (sw : SweepController) : State :=
  { s with sweeps := sw, arbiter := .link (.station 0) }

/-- The record with the counts of a level changed. -/
def SweepController.count (sw : SweepController) (lv : SweepLevel) (f : SweepCounts → SweepCounts) :
    SweepController :=
  match lv with
  | .audit => { sw with audit := { sw.audit with counts := f sw.audit.counts } }
  | .purge => { sw with purge := { sw.purge with counts := f sw.purge.counts } }
  | .quarantine => { sw with quarantine := { sw.quarantine with counts := f sw.quarantine.counts } }

/-- The record with the cursor of a level one on. -/
def SweepController.advance (sw : SweepController) (lv : SweepLevel) : SweepController :=
  match lv with
  | .audit => { sw with audit := { sw.audit with cursor := sw.audit.cursor + 1 } }
  | .purge => { sw with purge := { sw.purge with cursor := sw.purge.cursor + 1 } }
  | .quarantine => { sw with quarantine := { sw.quarantine with cursor := sw.quarantine.cursor + 1 } }

section
variable (s : State) (sw : SweepController)

theorem swept_eq_sweeping : s.swept = s.sweeping s.sweeps := rfl

theorem countSweep_sweeping (lv : SweepLevel) (f : SweepCounts → SweepCounts) :
    (s.sweeping sw).countSweep lv f = s.sweeping (sw.count lv f) := by cases lv <;> rfl

theorem advanceCursor_sweeping (lv : SweepLevel) :
    (s.sweeping sw).advanceCursor lv = s.sweeping (sw.advance lv) := by cases lv <;> rfl

theorem removeEntry_sweeping (h c : Nat) (pred : Option Nat) (o : Bool) :
    (s.sweeping sw).removeEntry h c pred o = (s.removeEntry h c pred o).sweeping sw := by
  unfold State.removeEntry
  rw [show (s.sweeping sw).isLast c = s.isLast c from rfl]
  cases pred <;> cases s.isLast c <;> rfl

theorem spendKey_sweeping (n : Nat) : (s.sweeping sw).spendKey n = (s.spendKey n).sweeping sw := by
  unfold State.spendKey
  rw [show (s.sweeping sw).keySlot n = s.keySlot n from rfl]
  split <;> rfl

theorem withdrawKey_sweeping (n : Nat) :
    (s.sweeping sw).withdrawKey n = (s.withdrawKey n).sweeping sw := by
  unfold State.withdrawKey State.retireKey
  rw [show (s.sweeping sw).keySlot n = s.keySlot n from rfl]
  split <;> rfl

theorem appendOutcome_sweeping (e : Entry) (k : JournalKind) (o : Option (Station × Site))
    (r : Option Reason) (x : Option (Nat × Nat)) :
    (s.sweeping sw).appendOutcome e k o r x = (s.appendOutcome e k o r x).sweeping sw := by
  unfold State.appendOutcome
  rw [show (s.sweeping sw).journal = s.journal from rfl, show (s.sweeping sw).held = s.held from rfl]
  split <;> rfl

theorem closeEntry_sweeping (c : Nat) (e : Entry) (v : EntryState) :
    (s.sweeping sw).closeEntry c e v = (s.closeEntry c e v).sweeping sw :=
  spendKey_sweeping { (s.writeEntry c { e with state := v, slot := none, owner := none }) with
    table := { s.table with openCount := s.table.openCount - 1 } } sw e.keyNo

theorem voidEntry_sweeping (c : Nat) (e : Entry) (r : Reason) (o : Option (Station × Site))
    (x : Option (Nat × Nat)) :
    (s.sweeping sw).voidEntry c e r o x = (s.voidEntry c e r o x).sweeping sw := by
  unfold State.voidEntry
  rw [closeEntry_sweeping, appendOutcome_sweeping]

theorem withdrawEntry_sweeping (c : Nat) (pred : Option Nat) (e : Entry) (r : Reason)
    (o : Option (Station × Site)) :
    (s.sweeping sw).withdrawEntry c pred e r o = (s.withdrawEntry c pred e r o).sweeping sw := by
  unfold State.withdrawEntry
  rw [withdrawKey_sweeping, appendOutcome_sweeping, removeEntry_sweeping]

theorem revokeOwner_sweeping (e : Entry) :
    (s.sweeping sw).revokeOwner e = (s.revokeOwner e).sweeping sw := by
  unfold State.revokeOwner
  cases e.owner with
  | none => rfl
  | some p =>
    dsimp only
    rw [show (s.sweeping sw).slot p.1 p.2 = s.slot p.1 p.2 from rfl]
    cases s.slot p.1 p.2 <;> rfl

theorem tableFault_sweeping (p : FaultPlace) (g : FaultGroup) (o : FaultOrigin) :
    (s.sweeping sw).tableFault p g o = (s.tableFault p g o).sweeping sw := by
  have hplace : ((s.sweeping sw).recordFault p g o).placeBucket p = (s.recordFault p g o).placeBucket p := by
    cases p <;> rfl
  unfold State.tableFault
  simp only [hplace]
  cases (s.recordFault p g o).placeBucket p <;> rfl

end

/-- What beside the sweeps and the arbiter is the same stays so while a step works. -/
theorem sameBeside_sweeping {s t : State} {ch : List Block} (h : s.sameBeside t ch) (sw : SweepController) :
    s.sameBeside (t.sweeping sw) (ch ++ [.sweeps, .arbiter]) := fun b hb => by
  simp only [List.mem_append, List.mem_cons, List.not_mem_nil, or_false, not_or] at hb
  obtain ⟨hch, hsweeps, harb⟩ := hb
  have hsame := h b hch
  cases b with
  | sweeps => exact absurd rfl hsweeps
  | arbiter => exact absurd rfl harb
  | _ => exact hsame

/-! ## An action, and the walk's reading of it -/

/-- What a sweep's action does to the entry in a cell, whatever the sweeps' record: the counts of its
level change, and t is left (R131). -/
def Acts (lv : SweepLevel) (act : SweepAction) (s : State) (c : Nat) (pred : Option Nat) (v : Visit)
    (f : SweepCounts → SweepCounts) (t : State) : Prop :=
  ∀ sw, act c pred (s.entryAt c) (s.sweeping sw) = (v, t.sweeping (sw.count lv f))

section
variable {lv : SweepLevel} {act : SweepAction} {h fuel c : Nat} {pred : Option Nat} {s t : State}
  {f : SweepCounts → SweepCounts} {v : Visit} {sw : SweepController}
  (hplace : s.InPlace h c) (hclean : s.entryFault c = none)

theorem Acts.visited (ha : Acts lv act s c pred v f t) (sw : SweepController) :
    act c pred ((s.sweeping sw).entryAt c) ((s.sweeping sw).countSweep lv .visit)
      = (v, t.sweeping ((sw.count lv .visit).count lv f)) := by
  rw [countSweep_sweeping]
  exact ha _

include hplace hclean

theorem sweeping_kept (ha : Acts lv act s c pred .kept f t) (hl : (s.cell c).last = 0) :
    sweepWalk lv act h (fuel + 1) pred c (s.sweeping sw) = sweepWalk lv act h fuel (some c)
      (s.cell c).next.toNat (t.sweeping ((sw.count lv .visit).count lv f)) :=
  sweepWalk_kept (s := s.sweeping sw) hplace hclean (ha.visited sw) hl

theorem sweeping_kept_last (ha : Acts lv act s c pred .kept f t) (hl : (s.cell c).last ≠ 0) :
    sweepWalk lv act h (fuel + 1) pred c (s.sweeping sw)
      = (.walked, t.sweeping ((sw.count lv .visit).count lv f)) :=
  sweepWalk_kept_last (s := s.sweeping sw) hplace hclean (ha.visited sw) hl

theorem sweeping_removed (ha : Acts lv act s c pred .removed f t) (hl : (s.cell c).last = 0) :
    sweepWalk lv act h (fuel + 1) pred c (s.sweeping sw) = sweepWalk lv act h fuel pred
      (s.cell c).next.toNat (t.sweeping ((sw.count lv .visit).count lv f)) :=
  sweepWalk_removed (s := s.sweeping sw) hplace hclean (ha.visited sw) hl

theorem sweeping_removed_last (ha : Acts lv act s c pred .removed f t) (hl : (s.cell c).last ≠ 0) :
    sweepWalk lv act h (fuel + 1) pred c (s.sweeping sw)
      = (.walked, t.sweeping ((sw.count lv .visit).count lv f)) :=
  sweepWalk_removed_last (s := s.sweeping sw) hplace hclean (ha.visited sw) hl

theorem sweeping_waits (ha : Acts lv act s c pred .noRoom f t) :
    sweepWalk lv act h (fuel + 1) pred c (s.sweeping sw)
      = (.waits, t.sweeping ((sw.count lv .visit).count lv f)) :=
  sweepWalk_waits (s := s.sweeping sw) hplace hclean (ha.visited sw)

end

/-- The walk of a sweeping state ends at a read that fails. -/
theorem sweeping_fails {lv : SweepLevel} {act : SweepAction} {h fuel c : Nat} {pred : Option Nat} {s : State}
    {sw : SweepController} {p : FaultPlace} {g : FaultGroup}
    (hf : ((¬ s.InPlace h c ∨ fuel = 0) ∧ p = pointerOf h pred ∧ g = .link)
      ∨ (0 < fuel ∧ s.InPlace h c ∧ s.entryFault c = some g ∧ p = .cell c)) :
    sweepWalk lv act h fuel pred c (s.sweeping sw) = (.damaged, (s.tableFault p g lv.origin).sweeping sw) := by
  rw [← tableFault_sweeping]
  exact sweepWalk_fails (s := s.sweeping sw) hf

/-! ## A step on a chain of one entry and of two -/

section
variable {lv : SweepLevel} {act : SweepAction} {h : Nat} {s : State} (hc : (s.swept.context lv).cursor = h)
include hc

theorem visitBucket_swept (hp : s.headFault h = false) (hd : (s.head h).damaged = false)
    (hv : (s.head h).valid = true) :
    visitBucket lv act s.swept = sweepWalk lv act h s.capacity none (s.head h).first.toNat (s.sweeping s.sweeps) :=
  visitBucket_walks (s := s.swept) hc hp hd hv

/-- A step on a chain of one entry, kept or removed. -/
theorem visitBucket_one {c : Nat} {t : State} {v : Visit} {f : SweepCounts → SweepCounts} (hch : s.Chain h [] c)
    (ha : Acts lv act s c none v f t) (hv : v = .kept ∨ v = .removed) :
    visitBucket lv act s.swept = (.walked, t.sweeping ((s.sweeps.count lv .visit).count lv f)) := by
  obtain ⟨⟨⟨hp, hd, hvalid, hfirst, -⟩, hroom, hplace, hclean⟩, hlast⟩ := hch
  obtain ⟨fuel, hfuel⟩ : ∃ m, s.capacity = m + 1 := Nat.exists_eq_succ_of_ne_zero (Nat.ne_of_gt hroom)
  obtain rfl : (s.head h).first.toNat = c := hfirst
  rw [visitBucket_swept hc hp hd hvalid, hfuel]
  rcases hv with rfl | rfl
  · exact sweeping_kept_last hplace hclean ha hlast
  · exact sweeping_removed_last hplace hclean ha hlast

/-- A step that waits on a chain's first entry. -/
theorem visitBucket_one_waits {c : Nat} {t : State} {f : SweepCounts → SweepCounts} (hch : s.Chain h [] c)
    (ha : Acts lv act s c none .noRoom f t) :
    visitBucket lv act s.swept = (.waits, t.sweeping ((s.sweeps.count lv .visit).count lv f)) := by
  obtain ⟨⟨⟨hp, hd, hvalid, hfirst, -⟩, hroom, hplace, hclean⟩, -⟩ := hch
  obtain ⟨fuel, hfuel⟩ : ∃ m, s.capacity = m + 1 := Nat.exists_eq_succ_of_ne_zero (Nat.ne_of_gt hroom)
  obtain rfl : (s.head h).first.toNat = c := hfirst
  rw [visitBucket_swept hc hp hd hvalid, hfuel]
  exact sweeping_waits hplace hclean ha

/-- The predecessor that the walk goes on with after an entry. -/
def Visit.pred (v : Visit) (c : Nat) : Option Nat := if v = .kept then some c else none

/-- A step up to the second pointer of its chain. -/
theorem visitBucket_first {c d : Nat} {t : State} {v : Visit} {f : SweepCounts → SweepCounts}
    (hw : s.WalksTo h [c] d) (ha : Acts lv act s c none v f t) (hv : v = .kept ∨ v = .removed) :
    visitBucket lv act s.swept = sweepWalk lv act h (s.capacity - 1) (v.pred c) d
      (t.sweeping ((s.sweeps.count lv .visit).count lv f)) := by
  obtain ⟨hp, hd, hvalid, ⟨hfirst, hplace, hclean, hlast, hnext⟩, hroom⟩ := hw
  obtain ⟨fuel, hfuel⟩ : ∃ m, s.capacity = m + 1 := Nat.exists_eq_succ_of_ne_zero (by simp at hroom; omega)
  obtain rfl : (s.cell c).next.toNat = d := hnext
  rw [visitBucket_swept hc hp hd hvalid, hfuel, hfirst]
  rcases hv with rfl | rfl
  · exact sweeping_kept hplace hclean ha hlast
  · exact sweeping_removed hplace hclean ha hlast

end

/-- The cell of a chain's second entry is another than that of its first. -/
theorem chain_two_ne {s : State} {h c d : Nat} (hch : s.Chain h [c] d) : d ≠ c := by
  obtain ⟨-, -, -, hlast, -⟩ := hch.reads.walks.leads
  rintro rfl
  exact hch.last hlast

/-- The second entry of a chain reads after the action on the first as it did before. -/
structure State.ReadsStill (s t : State) (h d : Nat) : Prop where
  cell : t.cell d = s.cell d
  bucket : t.cellBucket d = s.cellBucket d
  lot : t.lot = s.lot

section
variable {s t : State} {h d : Nat} (hs : s.ReadsStill t h d)
include hs

theorem State.ReadsStill.inPlace : t.InPlace h d ↔ s.InPlace h d := by
  unfold State.InPlace
  rw [hs.bucket, keySlots_congr hs.lot]

theorem State.ReadsStill.entryFault : t.entryFault d = s.entryFault d := by
  unfold State.entryFault
  rw [hs.cell]

theorem State.ReadsStill.entryAt : t.entryAt d = s.entryAt d := by
  unfold State.entryAt
  rw [hs.cell]

end

section
variable {lv : SweepLevel} {act : SweepAction} {h c d : Nat} {s u t : State} {v v' : Visit}
  {f f' : SweepCounts → SweepCounts} (hc : (s.swept.context lv).cursor = h)
  (ha : Acts lv act s c none v f u) (hv : v = .kept ∨ v = .removed) (hstill : s.ReadsStill u h d)
include hc ha hv hstill

/-- The record after the actions on two entries. -/
def SweepController.counted (sw : SweepController) (lv : SweepLevel) (f f' : SweepCounts → SweepCounts) :
    SweepController :=
  (((sw.count lv .visit).count lv f).count lv .visit).count lv f'

/-- A step on a chain of two entries. -/
theorem visitBucket_two (hch : s.Chain h [c] d) (ha' : Acts lv act u d (v.pred c) v' f' t)
    (hv' : v' = .kept ∨ v' = .removed) :
    visitBucket lv act s.swept = (.walked, t.sweeping (s.sweeps.counted lv f f')) := by
  obtain ⟨⟨hw, hroom, hplace, hclean⟩, hlast⟩ := hch
  obtain ⟨fuel, hfuel⟩ : ∃ m, s.capacity - 1 = m + 1 :=
    Nat.exists_eq_succ_of_ne_zero (by simp at hroom; omega)
  have hplace' : u.InPlace h d := hstill.inPlace.mpr hplace
  have hclean' : u.entryFault d = none := hstill.entryFault.trans hclean
  have hlast' : (u.cell d).last ≠ 0 := by rw [hstill.cell]; exact hlast
  rw [visitBucket_first hc hw ha hv, hfuel]
  rcases hv' with rfl | rfl
  · exact sweeping_kept_last hplace' hclean' ha' hlast'
  · exact sweeping_removed_last hplace' hclean' ha' hlast'

theorem visitBucket_two_waits (hch : s.Chain h [c] d) (ha' : Acts lv act u d (v.pred c) .noRoom f' t) :
    visitBucket lv act s.swept = (.waits, t.sweeping (s.sweeps.counted lv f f')) := by
  obtain ⟨⟨hw, hroom, hplace, hclean⟩, -⟩ := hch
  obtain ⟨fuel, hfuel⟩ : ∃ m, s.capacity - 1 = m + 1 :=
    Nat.exists_eq_succ_of_ne_zero (by simp at hroom; omega)
  rw [visitBucket_first hc hw ha hv, hfuel]
  exact sweeping_waits (hstill.inPlace.mpr hplace) (hstill.entryFault.trans hclean) ha'

omit hstill in
/-- A step whose second read fails. -/
theorem visitBucket_two_fails (hw : s.WalksTo h [c] d) {p : FaultPlace} {g : FaultGroup}
    (hf : ((¬ u.InPlace h d ∨ s.capacity - 1 = 0) ∧ p = pointerOf h (v.pred c) ∧ g = .link)
      ∨ (0 < s.capacity - 1 ∧ u.InPlace h d ∧ u.entryFault d = some g ∧ p = .cell d)) :
    visitBucket lv act s.swept
      = (.damaged, (u.tableFault p g lv.origin).sweeping ((s.sweeps.count lv .visit).count lv f)) := by
  rw [visitBucket_first hc hw ha hv]
  exact sweeping_fails hf

end

theorem stepBucket_sweeping {lv : SweepLevel} {act : SweepAction} {s t : State} {sw : SweepController}
    (h : visitBucket lv act s.swept = (.walked, t.sweeping sw)) :
    stepBucket lv act s.swept = t.sweeping (sw.advance lv) := by
  rw [stepBucket_walked h, advanceCursor_sweeping]

theorem stepBucket_sweeping_damaged {lv : SweepLevel} {act : SweepAction} {s t : State} {sw : SweepController}
    (h : visitBucket lv act s.swept = (.damaged, t.sweeping sw)) :
    stepBucket lv act s.swept = t.sweeping ((sw.count lv .fault).advance lv) := by
  rw [stepBucket_damaged h, State.stepped, countSweep_sweeping, advanceCursor_sweeping]

/-! ## The purge -/

section
variable {s : State} {w : Byte} {h c : Nat} {pred : Option Nat}

theorem purge_keeps (hw : (s.entryAt c).wafer ≠ w) : Acts .purge (purgeAction w h) s c pred .kept id s :=
  fun _ => if_pos hw

theorem purge_removes (hw : (s.entryAt c).wafer = w)
    (hv : (s.entryAt c).state = .provisioned ∨ (s.entryAt c).state = .void) :
    Acts .purge (purgeAction w h) s c pred .removed .change (s.removeEntry h c pred false) := fun sw => by
  have hact : purgeAction w h c pred (s.entryAt c) (s.sweeping sw)
      = (.removed, ((s.sweeping sw).countSweep .purge .change).removeEntry h c pred false) := by
    unfold purgeAction
    rw [if_neg (not_not_intro hw)]
    rcases hv with hv | hv <;> rw [hv]
  rw [hact, countSweep_sweeping, removeEntry_sweeping]

theorem purge_voids (hw : (s.entryAt c).wafer = w) (hv : (s.entryAt c).state = .uncertain) :
    Acts .purge (purgeAction w h) s c pred .removed .journal
      ((s.voidEntry c (s.entryAt c) .unresolved none none).removeEntry h c pred false) := fun sw => by
  have hact : purgeAction w h c pred (s.entryAt c) (s.sweeping sw)
      = (.removed, (((s.sweeping sw).countSweep .purge .journal).voidEntry c (s.entryAt c) .unresolved none
        none).removeEntry h c pred false) := by
    unfold purgeAction
    rw [if_neg (not_not_intro hw), hv]
  rw [hact, countSweep_sweeping, voidEntry_sweeping, removeEntry_sweeping]

end

/-- A bucket's lone entry is a chain of one. -/
theorem lone_chain {s : State} {h c : Nat} {e : Entry} (hl : s.LoneEntry h c e) : s.Chain h [] c :=
  ⟨⟨⟨hl.head, hl.whole, hl.valid, hl.first, Nat.zero_le _⟩, hl.room, ⟨hl.place.1, hl.place.2, hl.bucket⟩,
    hl.cell⟩, hl.last⟩

theorem removeEntry_sameBeside (s : State) (h c : Nat) (pred : Option Nat) (o : Bool) :
    s.sameBeside (s.removeEntry h c pred o) [.table, .store] := fun b hb => by
  cases b with
  | table | store => simp at hb
  | _ => simp [Block.same]

theorem removeEntry_binding (s : State) (h c : Nat) (pred : Option Nat) (o : Bool) :
    (s.removeEntry h c pred o).table.binding = s.table.binding := by
  obtain ⟨heads, ht⟩ := removeEntry_table s h c pred o
  rw [ht]

/-- The second entry of a chain reads as before after a removal of the first. -/
theorem removes_readsStill {s u : State} {h c d : Nat} {o : Bool} (hr : s.Removes u h c none o)
    (hcells : s.onlyCells u [c]) (hlot : u.lot = s.lot) (hne : d ≠ c) : s.ReadsStill u h d :=
  ⟨hcells d (by simpa using hne), by rw [hr.map, if_neg hne], hlot⟩

/-- A removal of the purge: what the action does, and what it leaves. -/
theorem purge_removal {s : State} {w : Byte} {c : Nat} {pred : Option Nat} (h : Nat) (hm : s.MapsOk)
    (hw : (s.entryAt c).wafer = w) (hv : (s.entryAt c).state = .provisioned ∨ (s.entryAt c).state = .void)
    (hpred : ∀ d, pred = some d → d ≠ c) :
    ∃ u, Acts .purge (purgeAction w h) s c pred .removed .change u ∧ s.Removes u h c pred false
      ∧ s.onlyCells u (c :: pred.toList) ∧ u.table.binding = s.table.binding ∧ u.MapsOk
      ∧ s.sameBeside u [.table, .store] := by
  obtain ⟨hr, hcells⟩ := removeEntry_removes hm h c pred false hpred
  exact ⟨_, purge_removes hw hv, hr, hcells, removeEntry_binding s h c pred false,
    removeEntry_mapsOk h c pred false hm, removeEntry_sameBeside s h c pred false⟩

/-- An entry that has ended and is then removed (R74, R133). -/
theorem ends_removed {s v t : State} {h c : Nat} {e : Entry} {n : Fin 8192} {kind : JournalKind}
    {final : EntryState} {origin : Option (Station × Site)} {reason : Option Reason} {x : Option (Nat × Nat)}
    (he : s.Ends v c e n final kind origin reason x) (hr : v.Removes t h c none false) :
    s.Removes t h c none true := by
  have hhead (k : Nat) : v.head k = s.head k := head_congr (by rw [he.table]) k
  have hlast : v.isLast c = s.isLast c := by unfold State.isLast; rw [he.entry.last]
  have hbucket (k : Nat) : v.cellBucket k = s.cellBucket k := cellBucket_congr (by rw [he.table]) k
  refine ⟨fun k => ?_, nofun, hr.cell, fun k => ?_, ?_, ?_, ?_, ?_, ?_, ?_⟩
  · rw [hr.heads, hlast, hhead, hhead, he.entry.next]
  · rw [hr.map, hbucket]
  · rw [hr.free, he.table]
  · rw [hr.inUse, he.table]
  · rw [hr.freeCount, he.table]
  · rw [hr.openCount, he.table]; rfl
  · rw [hr.longest, he.table]
  · rw [hr.damaged, he.table]

theorem sat_zero {n : Nat} (h : n ≤ 4294967295) : min 4294967295 (n + 0) = n := by omega

/-- The purge's step, once the walk of its bucket is known. -/
theorem exec_purgeStep_walked {s t : State} {w : Byte} {sw : SweepController} (ho : s.Offered .purge)
    (hw : s.sweeps.purge.param = some w.toNat)
    (hv : visitBucket .purge (purgeAction w s.sweeps.purge.cursor) s.swept = (.walked, t.sweeping sw))
    (hcur : sw.purge.cursor < 2047) (hd : t.deferred = s.deferred) :
    exec .purgeStep s = .next (t.sweeping (sw.advance .purge)) := by
  refine exec_purgeStep_offered ho ?_ (Nat.succ_lt_succ hcur) (hd.trans ho.calm.noBoundary)
  rw [hw, ofNat_toNat_byte]
  exact stepBucket_sweeping hv

theorem exec_purgeStep_fails {s t : State} {w : Byte} {sw : SweepController} (ho : s.Offered .purge)
    (hw : s.sweeps.purge.param = some w.toNat)
    (hv : visitBucket .purge (purgeAction w s.sweeps.purge.cursor) s.swept = (.damaged, t.sweeping sw))
    (hcur : sw.purge.cursor < 2047) (hd : t.deferred = s.deferred) :
    exec .purgeStep s = .next (t.sweeping ((sw.count .purge .fault).advance .purge)) := by
  refine exec_purgeStep_offered ho ?_ (Nat.succ_lt_succ hcur) (hd.trans ho.calm.noBoundary)
  rw [hw, ofNat_toNat_byte]
  exact stepBucket_sweeping_damaged hv

/-- An ended entry removed: the frame, and the key, the binding, the pool and the journal of the end. -/
theorem voided_removed {s : State} {c h : Nat} {e : Entry} {n : Fin 8192} (ho : s.OpenEntry c e n)
    (reason : Reason) (origin : Option (Station × Site)) {u : State}
    (hu : u = (s.voidEntry c e reason origin none).removeEntry h c none false) :
    s.Removes u h c none true ∧ u.cell n = zeroCell ∧ s.onlyCells u [c, n]
      ∧ u.table.binding = mapSet none s.table.binding n none
      ∧ u.pool = { s.pool with
        slots := mapSet emptySlot s.pool.slots n emptySlot
        counts := { s.pool.counts with
          bound := s.pool.counts.bound - 1, spent := s.pool.counts.spent + 1 } }
      ∧ u.journal = s.journaled e .voided origin (some reason) none
      ∧ s.sameBeside u [.pool, .table, .store, .journal] := by
  subst hu
  have he := voidEntry_ends ho reason origin none
  have hmv : (s.voidEntry c e reason origin none).MapsOk := mapsOk_of_eq (closeEntry_mapsOk c e .void ho.maps)
    (by simp [State.voidEntry]) (by simp [State.voidEntry]) (by simp [State.voidEntry])
    (by simp [State.voidEntry]) (by simp [State.voidEntry])
  have hvoid := voidEntry_sameBeside s c e reason origin none
  generalize s.voidEntry c e reason origin none = v at he hmv hvoid
  obtain ⟨hr, hcells⟩ := removeEntry_removes hmv h c none false nofun
  refine ⟨ends_removed he hr, ?_, fun k hk => ?_, ?_, ?_, ?_, ?_⟩
  · rw [hcells n (by simpa using OpenEntry.apart ho), he.key]
  · rw [hcells k (by simp at hk; simpa using hk.1), he.cells k hk]
  · rw [removeEntry_binding, he.table]
  · rw [State.removeEntry_pool, he.pool]
  · rw [State.removeEntry_journal, he.journal]
  · exact sameBeside_trans hvoid (sameBeside_mono (removeEntry_sameBeside v h c none false) (by decide))

/-- The record after a purge's visits of two entries. -/
theorem counted_purge (sw : SweepController) (f f' : SweepCounts → SweepCounts) :
    (sw.counted .purge f f').advance .purge = { sw with purge := { sw.purge with
      cursor := sw.purge.cursor + 1, counts := f' (f (sw.purge.counts.visit)).visit } } := rfl

section
variable {k : SweepCounts} (hv : k.visited + 2 ≤ 4294967295) (hc : k.changed + 2 ≤ 4294967295)
include hv hc

theorem change_twice : k.visit.change.visit.change
    = { k with visited := k.visited + 2, changed := k.changed + 2 } := by
  simp only [SweepCounts.visit, SweepCounts.change, satAdd, Config.countMax, SweepCounts.mk.injEq,
    and_true]
  omega

theorem change_first : k.visit.change.visit
    = { k with visited := k.visited + 2, changed := k.changed + 1 } := by
  simp only [SweepCounts.visit, SweepCounts.change, satAdd, Config.countMax, SweepCounts.mk.injEq,
    and_true]
  omega

theorem change_second : k.visit.visit.change
    = { k with visited := k.visited + 2, changed := k.changed + 1 } := by
  simp only [SweepCounts.visit, SweepCounts.change, satAdd, Config.countMax, SweepCounts.mk.injEq,
    and_true]
  omega

theorem change_fault (hf : k.faults + 1 ≤ 4294967295) : k.visit.change.fault
    = { k with visited := k.visited + 1, changed := k.changed + 1, faults := k.faults + 1 } := by
  simp only [SweepCounts.visit, SweepCounts.change, SweepCounts.fault, satAdd, Config.countMax,
    SweepCounts.mk.injEq, true_and]
  omega

end

/-- Settles O47: the actions on the entries of a bucket, one after another. -/
theorem purgeStepActs : Obligations.PurgeStepActs := by
  unfold Obligations.PurgeStepActs
  refine ⟨?one, ?two⟩
  case one =>
    intro s w h c e hh ho hcur hw hl hm p counted hchanged happended
    have hch := lone_chain hl
    obtain rfl := hl.entry
    subst hcur
    refine ⟨fun hother => ?other, fun hwafer hstate => ?gone, fun n hwafer hstate hopen => ?void⟩
    case other =>
      rw [exec_purgeStep_walked ho hw (visitBucket_one rfl hch (purge_keeps hother) (.inl rfl)) hh rfl]
      simp only [counted, sat_zero hchanged, sat_zero happended]
      rfl
    case gone =>
      obtain ⟨u, hact, hr, hcells, hbinding, -, hsame⟩ := purge_removal (pred := none) s.sweeps.purge.cursor hm hwafer hstate nofun
      have hexec := exec_purgeStep_walked ho hw (visitBucket_one rfl hch hact (.inr rfl)) hh
        (hsame .deferred (by decide))
      refine ⟨_, hexec, ?_, hr.congr rfl rfl, hcells, hbinding, rfl, sameBeside_sweeping hsame _⟩
      simp only [counted, sat_zero happended]
      rfl
    case void =>
      have hact := purge_voids (h := s.sweeps.purge.cursor) (pred := none) hwafer hstate
      generalize hu : (s.voidEntry c (s.entryAt c) .unresolved none none).removeEntry s.sweeps.purge.cursor c
        none false = u at hact
      obtain ⟨hr, hkey, hcells, hbinding, hpool, hjournal, hsame⟩ := voided_removed hopen .unresolved none hu.symm
      have hexec := exec_purgeStep_walked ho hw (visitBucket_one rfl hch hact (.inr rfl)) hh
        (hsame .deferred (by decide))
      exact ⟨_, hexec, rfl, hr.congr rfl rfl, hkey, hcells, hbinding, hpool, hjournal, rfl,
        sameBeside_sweeping hsame _⟩
  case two =>
    intro s w h c d hh ho hcur hw hm p counted gone kept hvisited hchanged hfaults
    subst hcur
    refine ⟨fun hch ⟨hwc, hsc⟩ ⟨hwd, hsd⟩ => ?both, fun hch ⟨hwc, hsc⟩ hkd => ?first, fun hch hkc ⟨hwd, hsd⟩ => ?second,
      fun place group ⟨hwc, hsc⟩ hwalk hbad => ?breaks⟩
    case both =>
      obtain ⟨u, hact, hr, hcells, hbind, hmu, hsame⟩ := purge_removal (pred := none) s.sweeps.purge.cursor hm hwc hsc nofun
      have hstill := removes_readsStill hr hcells (hsame .lot (by decide)) (chain_two_ne hch)
      obtain ⟨t, hact', hr', hcells', hbind', -, hsame'⟩ := purge_removal (w := w) (pred := none) s.sweeps.purge.cursor hmu
        (by rw [hstill.entryAt]; exact hwd) (by rw [hstill.entryAt]; exact hsd) nofun
      have hboth := sameBeside_trans hsame hsame'
      have hexec := exec_purgeStep_walked ho hw
        (visitBucket_two rfl hact (.inr rfl) hstill hch hact' (.inr rfl)) hh (hboth .deferred (by decide))
      refine ⟨u, _, hexec, hr, hcells, hsame, hr'.congr rfl rfl, hcells', hbind'.trans hbind, ?_, rfl,
        sameBeside_sweeping hboth _⟩
      refine (counted_purge ..).trans ?_
      rw [change_twice hvisited hchanged]
      rfl
    case first =>
      obtain ⟨u, hact, hr, hcells, hbind, hmu, hsame⟩ := purge_removal (pred := none) s.sweeps.purge.cursor hm hwc hsc nofun
      have hstill := removes_readsStill hr hcells (hsame .lot (by decide)) (chain_two_ne hch)
      have hact' := purge_keeps (s := u) (w := w) (h := s.sweeps.purge.cursor) (pred := none)
        (by rw [hstill.entryAt]; exact hkd)
      have hexec := exec_purgeStep_walked ho hw
        (visitBucket_two rfl hact (.inr rfl) hstill hch hact' (.inl rfl)) hh (hsame .deferred (by decide))
      refine ⟨_, hexec, hr.congr rfl rfl, hcells, hbind, ?_, rfl, sameBeside_sweeping hsame _⟩
      refine (counted_purge ..).trans ?_
      rw [id_eq, change_first hvisited hchanged]
      rfl
    case second =>
      have hact := purge_keeps (h := s.sweeps.purge.cursor) (pred := none) hkc
      have hstill : s.ReadsStill s s.sweeps.purge.cursor d := ⟨rfl, rfl, rfl⟩
      obtain ⟨u, hact', hr, hcells, hbind, -, hsame⟩ := purge_removal (pred := some c) s.sweeps.purge.cursor hm hwd hsd
        (fun k hk => by cases hk; exact (chain_two_ne hch).symm)
      have hexec := exec_purgeStep_walked ho hw
        (visitBucket_two rfl hact (.inl rfl) hstill hch hact' (.inr rfl)) hh (hsame .deferred (by decide))
      refine ⟨_, hexec, hr.congr rfl rfl, fun k hk => hcells k (by simpa [and_comm] using hk), hbind, ?_, rfl,
        sameBeside_sweeping hsame _⟩
      refine (counted_purge ..).trans ?_
      rw [id_eq, change_second hvisited hchanged]
      rfl
    case breaks =>
      obtain ⟨u, hact, hr, hcells, hbind, hmu, hsame⟩ := purge_removal (pred := none) s.sweeps.purge.cursor hm hwc hsc nofun
      obtain ⟨-, hplace, hclean, -, -⟩ := hwalk.leads
      have hne : d ≠ c := by
        rintro rfl
        rcases hbad with ⟨-, -, hg, -⟩ | ⟨hout, -⟩
        · rw [hclean] at hg; cases hg
        · exact hout hplace
      have hstill := removes_readsStill hr hcells (hsame .lot (by decide)) hne
      have hfails := visitBucket_two_fails (h := s.sweeps.purge.cursor) (p := place) (g := group) rfl hact (.inr rfl) hwalk <| by
        rw [hstill.inPlace, hstill.entryFault]
        rcases hbad with ⟨hin, hroom, hg, hp⟩ | ⟨hout, hp, hg⟩
        · exact .inr ⟨by omega, hin, hg, hp⟩
        · exact .inl ⟨.inl hout, hp, hg⟩
      have hexec := exec_purgeStep_fails ho hw hfails hh
        ((State.tableFault_deferred ..).trans (hsame .deferred (by decide)))
      refine ⟨u, hr, hcells, hbind, hsame, hexec.trans ?_⟩
      refine congrArg (fun k => Host.Outcome.next ((u.tableFault place group .access).sweeping
        { s.sweeps with purge := { s.sweeps.purge with cursor := s.sweeps.purge.cursor + 1, counts := k } })) ?_
      exact change_fault hvisited hchanged hfaults

end Sys2Proof.Machine

/-! PROOF. The actions of the quarantine (R136, R137): the withdrawal, the voiding and the report of an
entry, the owner's site, and the step that waits for room in the journal. -/

namespace Sys2Proof.Machine

/-! ## The owner's site -/

/-- A REVOKED slot of the owner, in a state with the stations of s (R136). -/
theorem revokeOwner_revokes {s t : State} (h : t.stations = s.stations) (e : Entry) :
    s.ownerRevoked (t.revokeOwner e) e.owner := by
  have hslot (st : Station) (site : Site) : t.slot st site = s.slot st site := by
    unfold State.slot; rw [h]
  have same (howner : t.revokeOwner e = t) (hno : ∀ st site x y c lease, s.slot st site = .held x y c lease →
      e.owner ≠ some (st, site)) : s.ownerRevoked (t.revokeOwner e) e.owner := by
    rw [howner]
    refine fun st => ⟨by rw [h], fun site => ?_⟩
    rw [hslot]
    cases hs : s.slot st site with
    | held x y c lease => exact (if_neg (hno st site x y c lease hs)).symm
    | _ => rfl
  cases howner : e.owner with
  | none =>
    rw [← howner]
    exact same (by rw [State.revokeOwner, howner]) (by simp [howner])
  | some p =>
    obtain ⟨st, site⟩ := p
    cases hs : s.slot st site with
    | held x y c lease =>
      have hrevoke : t.revokeOwner e = t.setSlot st site (.revoked x y) := by
        rw [State.revokeOwner, howner]
        simp only [hslot, hs]
      have honly := setSlot_onlySite_of h st site (.revoked x y)
      rw [hrevoke]
      intro st'
      obtain ⟨hattached, hslots⟩ := honly st'
      refine ⟨hattached, fun site' => ?_⟩
      rw [hslots]
      by_cases hq : st' = st ∧ site' = site
      · obtain ⟨rfl, rfl⟩ := hq
        rw [if_pos ⟨rfl, rfl⟩, hs]
        exact (if_pos rfl).symm
      · rw [if_neg hq]
        cases s.slot st' site' with
        | held x' y' c' lease' => exact (if_neg fun h => hq (by simpa [eq_comm] using h)).symm
        | _ => rfl
    | _ =>
      rw [← howner]
      refine same (by rw [State.revokeOwner, howner]; simp only [hslot, hs]) fun st' site' x y c lease hheld h => ?_
      rw [howner] at h
      cases h
      rw [hs] at hheld
      cases hheld

theorem revokeOwner_sameBeside (s : State) (e : Entry) : s.sameBeside (s.revokeOwner e) [.stations] :=
  fun b hb => by
    cases b with
    | stations => simp at hb
    | _ => simp [Block.same]

/-! ## The actions -/

section
variable {s : State} {g : Nat} {r : BatchRange} {c : Nat} {pred : Option Nat} (hg : g ≤ 8)
  (hr : s.lot.blocked[g - 1]? = some r)

/-- The batch of the entry in a cell lies inside the range. -/
def BatchRange.spans (r : BatchRange) (e : Entry) : Prop :=
  r.low.toNat ≤ e.batch.toNat ∧ e.batch.toNat ≤ r.high.toNat

include hr

theorem inRangeNo_sweeping (hin : r.spans (s.entryAt c)) (sw : SweepController) :
    (s.sweeping sw).inRangeNo g (s.entryAt c).batch = true :=
  (inRangeNo_iff (s := s.sweeping sw) hr _).mpr hin

theorem quarantine_withdraws (hin : r.spans (s.entryAt c)) (hv : (s.entryAt c).state = .issued)
    (ha : (s.entryAt c).attempts = 0) : Acts .quarantine (quarantineAction g) s c pred .removed .journal
      ((s.withdrawEntry c pred (s.entryAt c) .blocked none).revokeOwner (s.entryAt c)) := fun sw => by
  unfold quarantineAction
  rw [inRangeNo_sweeping hr hin sw, hv]
  simp only [Bool.not_true, Bool.false_eq_true, if_false, ha, if_true]
  rw [countSweep_sweeping, withdrawEntry_sweeping, revokeOwner_sweeping]

theorem quarantine_voids (hin : r.spans (s.entryAt c))
    (hv : ((s.entryAt c).state = .issued ∧ (s.entryAt c).attempts ≠ 0) ∨ (s.entryAt c).state = .burning
      ∨ (s.entryAt c).state = .uncertain) : Acts .quarantine (quarantineAction g) s c pred .kept .journal
      ((s.voidEntry c (s.entryAt c) .quarantine none none).revokeOwner (s.entryAt c)) := fun sw => by
  rw [← revokeOwner_sweeping, ← voidEntry_sweeping, ← countSweep_sweeping]
  unfold quarantineAction
  rw [inRangeNo_sweeping hr hin sw]
  rcases hv with ⟨hv, ha⟩ | hv | hv <;> rw [hv]
  · simp only [Bool.not_true, Bool.false_eq_true, if_false]
    exact if_neg ha
  · rfl
  · rfl

include hg

theorem quarantine_keeps (he : ¬ r.spans (s.entryAt c) ∨ (s.entryAt c).state = .void
    ∨ ((s.entryAt c).state = .provisioned ∧ (s.entryAt c).noted.toNat = g)) :
    Acts .quarantine (quarantineAction g) s c pred .kept id s := fun sw =>
  quarantineAction_passes (s := s.sweeping sw) hg hr he c pred

/-- The state after the entry in a cell has been reported and noted (R136). -/
def State.hitAt (s : State) (g c : Nat) : State :=
  (s.appendHit (s.entryAt c)).writeEntry c { s.entryAt c with noted := BitVec.ofNat 8 g }

/-- An entry that the quarantine has yet to report. -/
def State.unreported (s : State) (g : Nat) (r : BatchRange) (c : Nat) : Prop :=
  r.spans (s.entryAt c) ∧ (s.entryAt c).state = .provisioned ∧ (s.entryAt c).noted.toNat ≠ g

theorem quarantineAction_hit (h : s.unreported g r c) (sw : SweepController) :
    quarantineAction g c pred (s.entryAt c) (s.sweeping sw) = noteHit g c (s.entryAt c) (s.sweeping sw) := by
  obtain ⟨hin, hv, hn⟩ := h
  unfold quarantineAction
  rw [inRangeNo_sweeping hr hin sw, hv]
  simp only [Bool.not_true, Bool.false_eq_true, if_false]
  exact if_neg fun h => hn ((noted_eq_iff hg _).mp h)

theorem quarantine_reports (h : s.unreported g r c) (hroom : s.journal.queue.length + s.journal.reservations < 256) :
    Acts .quarantine (quarantineAction g) s c pred .kept .journal (s.hitAt g c) := fun sw => by
  rw [quarantineAction_hit hg hr h sw]
  exact if_pos (show (s.sweeping sw).journalSum < Config.journalPlaces from hroom)

theorem quarantine_waits (h : s.unreported g r c) (hfull : 256 ≤ s.journal.queue.length + s.journal.reservations) :
    Acts .quarantine (quarantineAction g) s c pred .noRoom id s := fun sw => by
  rw [quarantineAction_hit hg hr h sw]
  exact if_neg (show ¬ (s.sweeping sw).journalSum < Config.journalPlaces from Nat.not_lt.mpr hfull)

end

section
variable {s : State} (hm : s.MapsOk) (g c : Nat)

theorem hitAt_sameBeside : s.sameBeside (s.hitAt g c) [.store, .journal] := fun b hb => by
  cases b with
  | store | journal => simp at hb
  | _ => rfl

theorem hitAt_journal : (s.hitAt g c).journal = { s.journal with
    queue := s.journal.queue ++ [journalEntryOf s.journal.nextNumber (s.entryAt c) .quarantineHit none none none]
    nextNumber := s.journal.nextNumber + 1 } := rfl

theorem hitAt_cells : s.onlyCells (s.hitAt g c) [c] :=
  writeEntry_cells (s.appendHit (s.entryAt c)) c _

include hm

theorem hitAt_mapsOk : (s.hitAt g c).MapsOk :=
  writeCell_mapsOk _ _ (mapsOk_of_eq hm rfl rfl rfl rfl rfl)

theorem hitAt_rewrites : s.Rewrites (s.hitAt g c) c { s.entryAt c with noted := BitVec.ofNat 8 g } := by
  have hr := writeEntry_rewrites (s := s.appendHit (s.entryAt c)) (mapsOk_of_eq hm rfl rfl rfl rfl rfl) c
    { s.entryAt c with noted := BitVec.ofNat 8 g }
  exact ⟨hr.entry, hr.clean, hr.next, hr.last⟩

end

/-! ## A chain of two reported entries -/

section
variable {s : State} {g : Nat} {r : BatchRange} {h c d : Nat} (hm : s.MapsOk) (hg : g ≤ 8)
  (hr : s.lot.blocked[g - 1]? = some r) (hcur : s.sweeps.quarantine.cursor = h)

theorem hitAt_journalSum (g c : Nat) :
    (s.hitAt g c).journal.queue.length + (s.hitAt g c).journal.reservations
      = s.journal.queue.length + s.journal.reservations + 1 := by
  rw [hitAt_journal]
  simp [Nat.add_right_comm]

theorem hitAt_readsStill (g : Nat) (hne : d ≠ c) : s.ReadsStill (s.hitAt g c) h d :=
  ⟨hitAt_cells g c d (by simpa using hne), rfl, rfl⟩

theorem hitAt_unreported (hne : d ≠ c) (hd : s.unreported g r d) : (s.hitAt g c).unreported g r d := by
  unfold State.unreported
  rw [(hitAt_readsStill (h := 0) g hne).entryAt]
  exact hd

include hg hr hcur

section
variable (hch : s.Chain h [c] d) (hc : s.unreported g r c) (hd : s.unreported g r d)
include hch hc hd

/-- With room for both entries both are reported. -/
theorem visit_both_hits (hroom : s.journal.queue.length + s.journal.reservations + 2 ≤ 256) :
    visitBucket .quarantine (quarantineAction g) s.swept
      = (.walked, ((s.hitAt g c).hitAt g d).sweeping (s.sweeps.counted .quarantine .journal .journal)) := by
  have hne := chain_two_ne hch
  have hact := quarantine_reports (pred := none) hg hr hc (by omega)
  have hact' := quarantine_reports (s := s.hitAt g c) (pred := some c) hg hr
    (hitAt_unreported hne hd) (by rw [hitAt_journalSum]; omega)
  exact visitBucket_two hcur hact (.inl rfl) (hitAt_readsStill g hne) hch hact' (.inl rfl)

/-- With room for one entry the first is reported, and the step waits. -/
theorem visit_hit_waits (hfull : s.journal.queue.length + s.journal.reservations = 255) :
    visitBucket .quarantine (quarantineAction g) s.swept
      = (.waits, (s.hitAt g c).sweeping (s.sweeps.counted .quarantine .journal id)) := by
  have hne := chain_two_ne hch
  have hact := quarantine_reports (pred := none) hg hr hc (by omega)
  have hact' : Acts .quarantine (quarantineAction g) (s.hitAt g c) d (some c) .noRoom id (s.hitAt g c) :=
    quarantine_waits hg hr (hitAt_unreported hne hd) (by rw [hitAt_journalSum]; omega)
  exact visitBucket_two_waits hcur hact (.inl rfl) (hitAt_readsStill g hne) hch hact'

end

/-- Where the second read fails the first entry has been reported. -/
theorem visit_hit_fails {p : FaultPlace} {k : FaultGroup} (hb : s.Breaks h [c] p k) (hc : s.unreported g r c)
    (hroom : s.journal.queue.length + s.journal.reservations < 256) :
    visitBucket .quarantine (quarantineAction g) s.swept
      = (.damaged, ((s.hitAt g c).tableFault p k .access).sweeping
        ((s.sweeps.count .quarantine .visit).count .quarantine .journal)) := by
  obtain ⟨d, hwalk, hf⟩ := breaks_iff.mp hb
  obtain ⟨-, -, hclean, -, -⟩ := hwalk.leads
  have hact := quarantine_reports (pred := none) hg hr hc hroom
  refine visitBucket_two_fails (lv := .quarantine) (s := s) hcur hact (.inl rfl) hwalk ?_
  rcases hf with hf | ⟨hfuel, hin, hbad, hplace⟩
  · exact .inl hf
  · have hne : d ≠ c := by
      rintro rfl
      rw [hclean] at hbad
      cases hbad
    exact .inr ⟨hfuel, hin, (hitAt_readsStill (h := h) g hne).entryFault.trans hbad, hplace⟩

omit hg hr hcur
include hm

/-- What the reports of two entries leave. -/
theorem hitAt_hitAt (hne : d ≠ c) :
    s.Rewrites ((s.hitAt g c).hitAt g d) c { s.entryAt c with noted := BitVec.ofNat 8 g }
      ∧ s.Rewrites ((s.hitAt g c).hitAt g d) d { s.entryAt d with noted := BitVec.ofNat 8 g }
      ∧ s.onlyCells ((s.hitAt g c).hitAt g d) [c, d]
      ∧ ((s.hitAt g c).hitAt g d).journal = { s.journal with
        queue := s.journal.queue ++ [journalEntryOf s.journal.nextNumber (s.entryAt c) .quarantineHit none none none,
          journalEntryOf (s.journal.nextNumber + 1) (s.entryAt d) .quarantineHit none none none]
        nextNumber := s.journal.nextNumber + 2 }
      ∧ s.sameBeside ((s.hitAt g c).hitAt g d) [.store, .journal] := by
  have hstill := hitAt_readsStill (s := s) (c := c) (h := 0) g hne
  have hcells := hitAt_cells (s := s.hitAt g c) g d
  have hsecond := hitAt_rewrites (hitAt_mapsOk hm g c) g d
  rw [hstill.entryAt] at hsecond
  refine ⟨Rewrites.congr (hitAt_rewrites hm g c) (hcells c (by simpa using hne.symm)),
    ⟨hsecond.entry, hsecond.clean, by rw [hsecond.next, hstill.cell], by rw [hsecond.last, hstill.cell]⟩,
    fun k hk => ?_, ?_, sameBeside_trans (hitAt_sameBeside g c) (hitAt_sameBeside g d)⟩
  · simp only [List.mem_cons, List.not_mem_nil, or_false, not_or] at hk
    exact (hcells k (by simpa using hk.2)).trans (hitAt_cells g c k (by simpa using hk.1))
  · rw [hitAt_journal, hstill.entryAt, hitAt_journal]
    simp [BitVec.add_assoc]

end

/-! ## The step -/

section
variable {s t : State} {g : Nat} {sw : SweepController} (ho : s.Offered .quarantine)
  (hp : s.sweeps.quarantine.param = some g) (hd : t.deferred = s.deferred)
include ho hp hd

theorem exec_quarantineStep_walked
    (hv : visitBucket .quarantine (quarantineAction g) s.swept = (.walked, t.sweeping sw))
    (hcur : sw.quarantine.cursor < 2047) :
    exec .quarantineStep s = .next (t.sweeping (sw.advance .quarantine)) := by
  refine exec_quarantineStep_offered ho ?_ (Nat.succ_lt_succ hcur) (hd.trans ho.calm.noBoundary)
  rw [hp]
  exact stepBucket_sweeping hv

theorem exec_quarantineStep_fails
    (hv : visitBucket .quarantine (quarantineAction g) s.swept = (.damaged, t.sweeping sw))
    (hcur : sw.quarantine.cursor < 2047) :
    exec .quarantineStep s = .next (t.sweeping ((sw.count .quarantine .fault).advance .quarantine)) := by
  refine exec_quarantineStep_offered ho ?_ (Nat.succ_lt_succ hcur) (hd.trans ho.calm.noBoundary)
  rw [hp]
  exact stepBucket_sweeping_damaged hv

/-- A step that meets a full journal stays on its bucket (R137). -/
theorem exec_quarantineStep_waits
    (hv : visitBucket .quarantine (quarantineAction g) s.swept = (.waits, t.sweeping sw))
    (hcur : sw.quarantine.cursor < 2048) :
    exec .quarantineStep s = .next (t.sweeping
      { sw with quarantine := { sw.quarantine with waiting := true } }) := by
  refine exec_quarantineStep_offered ho ?_ hcur (hd.trans ho.calm.noBoundary)
  rw [hp]
  exact stepBucket_waits hv

end

/-- The record after a quarantine's visits of two entries. -/
theorem counted_quarantine (sw : SweepController) (f f' : SweepCounts → SweepCounts) :
    sw.counted .quarantine f f' = { sw with quarantine := { sw.quarantine with
      counts := f' (f (sw.quarantine.counts.visit)).visit } } := rfl

/-- A context that does not wait, with another cursor and other counts. -/
theorem context_notWaiting {p : SweepContext} (h : p.waiting = false) (cursor : Nat) (k : SweepCounts) :
    { p with cursor := cursor, counts := k } = { p with cursor := cursor, waiting := false, counts := k } := by
  rw [← h]

section
variable {k : SweepCounts} (hv : k.visited + 2 ≤ 4294967295) (hc : k.changed + 2 ≤ 4294967295)
  (ha : k.appended + 2 ≤ 4294967295)
include hv hc ha

theorem journal_twice : k.visit.journal.visit.journal
    = ⟨k.visited + 2, k.changed + 2, k.appended + 2, k.faults⟩ := by
  simp only [SweepCounts.visit, SweepCounts.journal, satAdd, Config.countMax, SweepCounts.mk.injEq, and_true]
  omega

theorem journal_first : k.visit.journal.visit
    = ⟨k.visited + 2, k.changed + 1, k.appended + 1, k.faults⟩ := by
  simp only [SweepCounts.visit, SweepCounts.journal, satAdd, Config.countMax, SweepCounts.mk.injEq, and_true]
  omega

theorem journal_fault (hf : k.faults + 1 ≤ 4294967295) : k.visit.journal.fault
    = ⟨k.visited + 1, k.changed + 1, k.appended + 1, k.faults + 1⟩ := by
  simp only [SweepCounts.visit, SweepCounts.journal, SweepCounts.fault, satAdd, Config.countMax,
    SweepCounts.mk.injEq]
  omega

end

/-- Settles O48: the actions on the entries of a bucket, one after another, up to a full journal or a
read that fails. -/
theorem quarantineStepActs : Obligations.QuarantineStepActs := by
  unfold Obligations.QuarantineStepActs
  refine ⟨?one, ?two⟩
  case one =>
    intro s g r h c e hh hg1 hg ho hcur hp hr hl hm p counted inside sum hchanged happended hwait
    have hch := lone_chain hl
    obtain rfl := hl.entry
    subst hcur
    have hplaces : s.keySlots ≤ c := hl.place.1
    have hcount (k : SweepCounts) (changed : Nat)
        (hk : k = { p.counts with
          visited := min 4294967295 (p.counts.visited + 1)
          changed := min 4294967295 (p.counts.changed + changed)
          appended := min 4294967295 (p.counts.appended + changed) }) :
        ({ s.sweeps with quarantine := { p with cursor := p.cursor + 1, counts := k } } : SweepController)
          = counted (s.sweeps.quarantine.cursor + 1) changed false := by
      subst hk
      rw [context_notWaiting hwait]
    refine ⟨fun hkeep => ?keeps, fun n hin hstate hatt hopen => ?withdraws, fun n hin hstate hopen => ?voids,
      fun hin hstate hnoted hroom => ?reports, fun hin hstate hnoted hfull => ?waits⟩
    case keeps =>
      have hact : Acts .quarantine (quarantineAction g) s c none .kept id s := quarantine_keeps hg hr hkeep
      rw [exec_quarantineStep_walked ho hp rfl (visitBucket_one rfl hch hact (.inl rfl)) hh]
      refine congrArg (fun sw => Host.Outcome.next (s.sweeping sw)) (hcount _ 0 ?_)
      rw [sat_zero hchanged, sat_zero happended]
      rfl
    case withdraws =>
      have hact := quarantine_withdraws (pred := none) hr hin hstate hatt
      have hw := withdrawEntry_withdraws (pred := none) hopen hplaces nofun .blocked none
      have hsame := withdrawEntry_sameBeside s c none (s.entryAt c) .blocked none
      generalize s.withdrawEntry c none (s.entryAt c) .blocked none = u at hact hw hsame
      have howner := revokeOwner_revokes (hsame .stations (by decide)) (s.entryAt c)
      have hboth : s.sameBeside (u.revokeOwner (s.entryAt c)) [.stations, .pool, .table, .store, .journal] :=
        sameBeside_trans (sameBeside_mono hsame (by decide))
          (sameBeside_mono (revokeOwner_sameBeside u (s.entryAt c)) (by decide))
      have hexec := exec_quarantineStep_walked ho hp (hboth .deferred (by decide))
        (visitBucket_one rfl hch hact (.inr rfl)) hh
      exact ⟨_, hexec, hcount _ 1 rfl, hw.congr (by simp [State.sweeping]) (by simp [State.sweeping])
        (by simp [State.sweeping]) (by simp [State.sweeping]), howner, rfl, sameBeside_sweeping hboth _⟩
    case voids =>
      have hact := quarantine_voids (pred := none) hr hin hstate
      have he := voidEntry_ends hopen .quarantine none none
      have hsame := voidEntry_sameBeside s c (s.entryAt c) .quarantine none none
      generalize s.voidEntry c (s.entryAt c) .quarantine none none = u at hact he hsame
      have howner := revokeOwner_revokes (hsame .stations (by decide)) (s.entryAt c)
      have hboth : s.sameBeside (u.revokeOwner (s.entryAt c)) [.stations, .pool, .table, .store, .journal] :=
        sameBeside_trans (sameBeside_mono hsame (by decide))
          (sameBeside_mono (revokeOwner_sameBeside u (s.entryAt c)) (by decide))
      have hexec := exec_quarantineStep_walked ho hp (hboth .deferred (by decide))
        (visitBucket_one rfl hch hact (.inl rfl)) hh
      exact ⟨_, hexec, hcount _ 1 rfl, he.congr (by simp [State.sweeping]) (by simp [State.sweeping])
        (by simp [State.sweeping]) (by simp [State.sweeping]), howner, rfl, sameBeside_sweeping hboth _⟩
    case reports =>
      have hact := quarantine_reports (pred := none) hg hr ⟨hin, hstate, hnoted⟩ hroom
      have hsame := hitAt_sameBeside (s := s) g c
      have hexec := exec_quarantineStep_walked ho hp (hsame .deferred (by decide))
        (visitBucket_one rfl hch hact (.inl rfl)) hh
      exact ⟨_, hexec, hcount _ 1 rfl, Rewrites.congr (hitAt_rewrites hm g c) rfl, hitAt_cells g c,
        hitAt_journal g c, rfl, sameBeside_sweeping hsame _⟩
    case waits =>
      have hact : Acts .quarantine (quarantineAction g) s c none .noRoom id s :=
        quarantine_waits hg hr ⟨hin, hstate, hnoted⟩ hfull
      rw [exec_quarantineStep_waits ho hp rfl (visitBucket_one_waits rfl hch hact) (Nat.lt_succ_of_lt hh)]
      simp only [counted, sat_zero hchanged, sat_zero happended]
      rfl
  case two =>
    intro s g r h c d hh hg1 hg ho hcur hp hr hm p counted hit note noted sum number hvisited hchanged happended
      hfaults hwait
    subst hcur
    have hcount (k : SweepCounts) (visited changed faults : Nat)
        (hk : k = ⟨p.counts.visited + visited, p.counts.changed + changed, p.counts.appended + changed,
          p.counts.faults + faults⟩) :
        ({ s.sweeps with quarantine := { p with cursor := p.cursor + 1, counts := k } } : SweepController)
          = counted (s.sweeps.quarantine.cursor + 1) visited changed faults false := by
      subst hk
      rw [context_notWaiting hwait]
    have hunreported (k : Nat) (h : hit k) : s.unreported g r k := by
      obtain ⟨hlow, hhigh, hstate, hnot⟩ := h
      exact ⟨⟨hlow, hhigh⟩, hstate, hnot⟩
    have hsame := hitAt_sameBeside (s := s) g c
    have hnoted := hitAt_rewrites hm g c
    have hcells := hitAt_cells (s := s) g c
    have hjournal := hitAt_journal (s := s) g c
    refine ⟨fun hch hc hd hroom => ?both, fun hch hc hd hfull => ?full, fun place group hb hc hroom => ?breaks⟩
    case both =>
      have hvisit := visit_both_hits hg hr rfl hch (hunreported c hc) (hunreported d hd) hroom
      obtain ⟨hc', hd', hcells', hjournal', hboth⟩ := hitAt_hitAt (g := g) hm (chain_two_ne hch)
      generalize (s.hitAt g c).hitAt g d = v at hvisit hc' hd' hcells' hjournal' hboth
      rw [counted_quarantine, journal_twice hvisited hchanged happended] at hvisit
      have hexec := exec_quarantineStep_walked ho hp (hboth .deferred (by decide)) hvisit hh
      exact ⟨_, hexec, Rewrites.congr hc' rfl, Rewrites.congr hd' rfl, hcells', hjournal',
        hcount _ 2 2 0 rfl, rfl, sameBeside_sweeping hboth _⟩
    case full =>
      have hvisit := visit_hit_waits hg hr rfl hch (hunreported c hc) (hunreported d hd) hfull
      generalize s.hitAt g c = u at hvisit hsame hnoted hcells hjournal
      rw [counted_quarantine, id_eq, journal_first hvisited hchanged happended] at hvisit
      have hexec := exec_quarantineStep_waits ho hp (hsame .deferred (by decide)) hvisit (Nat.lt_succ_of_lt hh)
      exact ⟨_, hexec, Rewrites.congr hnoted rfl, hcells, hjournal, rfl, rfl, sameBeside_sweeping hsame _⟩
    case breaks =>
      have hvisit := visit_hit_fails hg hr rfl hb (hunreported c hc) hroom
      generalize s.hitAt g c = u at hvisit hsame hnoted hcells hjournal
      have hdef : (u.tableFault place group .access).deferred = s.deferred := by
        rw [State.tableFault_deferred]
        exact hsame .deferred (by decide)
      have hexec := exec_quarantineStep_fails ho hp hdef hvisit hh
      refine ⟨u, hnoted, hcells, hjournal, hsame, hexec.trans ?_⟩
      exact congrArg (fun sw => Host.Outcome.next ((u.tableFault place group .access).sweeping sw))
        (hcount _ 1 1 1 (journal_fault hvisited hchanged happended hfaults))

end Sys2Proof.Machine

/-! PROOF. The audit's POOL step (R141, R142): one key slot, the fold over a group of them, and the
settlement of a damaged BOUND slot's entry. -/

namespace Sys2Proof.Machine

section
variable (s : State) (sw : SweepController)

theorem keyFault_sweeping (n : Nat) (g : FaultGroup) (o : FaultOrigin) :
    (s.sweeping sw).keyFault n g o = (s.keyFault n g o).sweeping sw := by
  have hmark : ((s.sweeping sw).recordFault (.cell n) g o).markKeyFault n
      = ((s.recordFault (.cell n) g o).markKeyFault n).sweeping sw := by
    unfold State.markKeyFault
    rw [show ((s.sweeping sw).recordFault (.cell n) g o).keySlot n
      = (s.recordFault (.cell n) g o).keySlot n from rfl]
    cases ((s.recordFault (.cell n) g o).keySlot n).state <;> rfl
  unfold State.keyFault
  simp only [hmark, show (s.sweeping sw).limits = s.limits from rfl]
  split <;> rfl

theorem find_sweeping (w x y : Byte) : (s.sweeping sw).find w x y = s.find w x y :=
  find_congr (s := s) (t := s.sweeping sw) rfl rfl rfl w x y

theorem walkReads_sweeping (h : Nat) (w x y : Byte) (fuel c : Nat) :
    (s.sweeping sw).walkReads h w x y fuel c = s.walkReads h w x y fuel c := by
  induction fuel generalizing c with
  | zero => rfl
  | succ fuel ih =>
    rw [State.walkReads, State.walkReads, ih]
    rfl

theorem findReads_sweeping (w x y : Byte) : (s.sweeping sw).findReads w x y = s.findReads w x y := by
  unfold State.findReads
  simp only [walkReads_sweeping]
  rfl

end

/-! ## One key slot -/

/-- A slot that the audit does not read: EMPTY or FAULTED (R141). -/
def State.idleSlot (s : State) (k : Nat) : Prop := (s.keySlot k).state = .empty ∨ (s.keySlot k).state = .faulted

section
variable {s : State} {n : Nat} {sw : SweepController}

theorem auditSlot_idle (h : s.idleSlot n) : auditSlot s n = s := by
  unfold State.idleSlot at h
  unfold auditSlot
  cases hs : s.keySlot n with
  | mk v d =>
    rw [hs] at h
    rcases h with rfl | rfl <;> rfl

theorem auditRead_clean (h : s.keyReadFault n = none) :
    auditRead n (s.sweeping sw) = s.sweeping (sw.count .audit .visit) := by
  unfold auditRead
  simp only [countSweep_sweeping]
  rw [show (s.sweeping (sw.count .audit .visit)).keyReadFault n = none from h]

/-- A slot that is read cleanly is counted (R141). -/
theorem auditSlot_clean (hidle : ¬ s.idleSlot n) (h : s.keyClean n) :
    auditSlot (s.sweeping sw) n = s.sweeping (sw.count .audit .visit) := by
  obtain ⟨hread, hdamaged⟩ := h
  have hslot (sw : SweepController) : (s.sweeping sw).keySlot n = s.keySlot n := rfl
  unfold State.idleSlot at hidle
  unfold auditSlot
  simp only [auditRead_clean hread, hslot]
  cases hs : s.keySlot n with
  | mk v d =>
    rw [hs] at hidle hdamaged
    obtain rfl : d = false := hdamaged
    cases v with
    | empty => exact absurd (.inl rfl) hidle
    | faulted => exact absurd (.inr rfl) hidle
    | _ => rfl

/-- A FRESH or RETURNED slot whose read finds a fault (R36, R141). -/
theorem auditSlot_fault {g : FaultGroup} (hread : s.keyReadFault n = some g)
    (hstate : (s.keySlot n).state = .fresh ∨ (s.keySlot n).state = .returned) :
    auditSlot (s.sweeping sw) n
      = (s.keyFault n g .audit).sweeping ((sw.count .audit .visit).count .audit .fault) := by
  have hfaulty : auditRead n (s.sweeping sw)
      = (s.keyFault n g .audit).sweeping ((sw.count .audit .visit).count .audit .fault) := by
    unfold auditRead
    simp only [countSweep_sweeping]
    rw [show (s.sweeping (sw.count .audit .visit)).keyReadFault n = some g from hread]
    simp only [keyFault_sweeping, countSweep_sweeping]
  have hslot : (s.sweeping sw).keySlot n = s.keySlot n := rfl
  unfold auditSlot
  simp only [hfaulty, hslot]
  cases hs : s.keySlot n with
  | mk v d =>
    rw [hs] at hstate
    rcases hstate with rfl | rfl <;> rfl

/-! ## The entry of a damaged BOUND slot -/

section
variable {c : Nat} {e : Entry} {m : Fin 8192} (ho : s.OpenEntry c e m) (hb : s.boundCell m = some c)
  (hd : (s.keySlot m).damaged = true)
include ho hb hd

/-- A damaged BOUND slot's entry is settled where its reference access reads it (R141). -/
theorem auditSlot_settles : auditSlot (s.sweeping sw) m = settleRead c e (s.sweeping sw) := by
  have hreach : (s.sweeping sw).Reaches c e :=
    ⟨ho.reach.bucket, ho.reach.head, ho.reach.whole, ho.reach.cell, ho.reach.entry⟩
  have hsettle : settleDamaged m (s.sweeping sw) = settleRead c e (s.sweeping sw) := by
    unfold settleDamaged
    rw [show (s.sweeping sw).boundCell m = some c from hb]
    dsimp only
    rw [access_reaches hreach]
  rw [← hsettle]
  have hslot : (s.sweeping sw).keySlot m = s.keySlot m := rfl
  have hbound := ho.bound
  unfold auditSlot
  rw [hslot]
  cases hs : s.keySlot m with
  | mk v d =>
    rw [hs] at hbound hd
    obtain rfl : v = .bound := hbound
    obtain rfl : d = true := hd
    rfl

end

variable {c : Nat} {e : Entry}

theorem settleOwner_sweeping (e : Entry) :
    settleOwner e (s.sweeping sw) = (s.revokeOwner e).sweeping (sw.count .audit .journal) := by
  unfold settleOwner
  rw [countSweep_sweeping, revokeOwner_sweeping]

theorem settleRead_withdraws {c' : Nat} {pred : Option Nat} (hi : e.state = .issued) (h0 : e.attempts = 0)
    (hf : s.find e.wafer e.x e.y = .found c' pred) : settleRead c e (s.sweeping sw)
      = ((s.withdrawEntry c' pred e .keyDamaged none).revokeOwner e).sweeping
        ((sw.count .audit (.visits (s.findReads e.wafer e.x e.y))).count .audit .journal) := by
  unfold settleRead
  rw [hi]
  simp only [if_pos h0, find_sweeping, hf, findReads_sweeping, countSweep_sweeping, withdrawEntry_sweeping,
    settleOwner_sweeping]

theorem settleRead_voids (hv : (e.state = .issued ∧ e.attempts ≠ 0) ∨ e.state = .burning ∨ e.state = .uncertain) :
    settleRead c e (s.sweeping sw)
      = ((s.voidEntry c e .keyDamaged none none).revokeOwner e).sweeping (sw.count .audit .journal) := by
  rw [← settleOwner_sweeping, ← voidEntry_sweeping]
  unfold settleRead
  rcases hv with ⟨hv, ha⟩ | hv | hv <;> rw [hv]
  exact if_neg ha

end

/-! ## A group of slots -/

/-- Slots that are idle or read cleanly are counted, those that are read (R141). -/
theorem auditFold_clean {s : State} {l : List Nat} (h : ∀ k ∈ l, s.idleSlot k ∨ s.keyClean k)
    (sw : SweepController) : l.foldl auditSlot (s.sweeping sw) = s.sweeping (sw.count .audit
      SweepCounts.visit^[l.countP fun k => decide ((s.keySlot k).state ≠ .empty)
        && decide ((s.keySlot k).state ≠ .faulted)]) := by
  induction l generalizing sw with
  | nil => rfl
  | cons k l ih =>
    have hrest := fun j hj => h j (List.mem_cons_of_mem _ hj)
    rw [List.foldl_cons, List.countP_cons]
    by_cases hidle : s.idleSlot k
    · have hskip : auditSlot (s.sweeping sw) k = s.sweeping sw := auditSlot_idle (s := s.sweeping sw) hidle
      have hzero : ¬ (decide ((s.keySlot k).state ≠ .empty) && decide ((s.keySlot k).state ≠ .faulted)) = true := by
        rcases hidle with h | h <;> simp [h]
      rw [hskip, ih hrest, if_neg hzero]
      rfl
    · have hclean : s.keyClean k := (h k List.mem_cons_self).resolve_left hidle
      have hone : (decide ((s.keySlot k).state ≠ .empty) && decide ((s.keySlot k).state ≠ .faulted)) = true := by
        unfold State.idleSlot at hidle
        rw [not_or] at hidle
        simpa using hidle
      rw [auditSlot_clean hidle hclean, ih hrest, if_pos hone, Function.iterate_succ]
      rfl

theorem auditFold_idle {s : State} {l : List Nat} (h : ∀ k ∈ l, s.idleSlot k) : l.foldl auditSlot s = s := by
  induction l with
  | nil => rfl
  | cons k l ih =>
    rw [List.foldl_cons, auditSlot_idle (h k List.mem_cons_self), ih fun j hj => h j (List.mem_cons_of_mem _ hj)]

/-- A group in which one slot alone is not idle. -/
theorem auditFold_alone {s t : State} {l : List Nat} {n : Nat} {sw sw' : SweepController} (hl : l.Nodup)
    (hn : n ∈ l) (hidle : ∀ k ∈ l, k ≠ n → s.idleSlot k) (hact : auditSlot (s.sweeping sw) n = t.sweeping sw')
    (hkept : ∀ k, k ≠ n → t.keySlot k = s.keySlot k) : l.foldl auditSlot (s.sweeping sw) = t.sweeping sw' := by
  obtain ⟨before, after, rfl⟩ := List.append_of_mem hn
  rw [List.nodup_append, List.nodup_cons] at hl
  obtain ⟨-, ⟨hafter, -⟩, hdisj⟩ := hl
  have hbefore : before.foldl auditSlot (s.sweeping sw) = s.sweeping sw := auditFold_idle fun k hk =>
    hidle k (by simp [hk]) (fun h => hdisj k hk n (by simp) h)
  have hrest : after.foldl auditSlot (t.sweeping sw') = t.sweeping sw' := auditFold_idle fun k hk => by
    have hne : k ≠ n := fun h => hafter (h ▸ hk)
    have hs := hidle k (by simp [hk]) hne
    unfold State.idleSlot at hs ⊢
    rw [show (t.sweeping sw').keySlot k = t.keySlot k from rfl, hkept k hne]
    exact hs
  rw [List.foldl_append, hbefore, List.foldl_cons, hact, hrest]

/-! ## The step -/

section
variable {s t : State} {sw : SweepController} {m : Nat} (ho : s.Offered .auditPool)
  (hm : s.sweeps.audit.cursor = m)
  (hfold : (List.range' (32 * m) 32).foldl auditSlot s.swept = t.sweeping sw) (hcur : sw.audit.cursor = m)
  (hd : t.deferred = s.deferred)
include ho hm hfold hcur hd

theorem exec_auditPoolStep_goesOn (hmore : m + 1 < s.keySlots / 32) :
    exec .auditPoolStep s = .next (t.sweeping (sw.advance .audit)) := by
  have hstep : auditPoolStep s.swept = t.sweeping (sw.advance .audit) := by
    unfold auditPoolStep
    simp only [show s.swept.sweeps.audit.cursor = m from hm, hfold, advanceCursor_sweeping]
    refine if_neg (Nat.not_le.mpr ?_)
    rw [show (t.sweeping (sw.advance .audit)).sweeps.audit.cursor = m + 1 from congrArg Nat.succ hcur]
    exact hmore
  rw [exec_auditPoolStep, sweepStep_done ho hstep (hd.trans ho.calm.noBoundary)]

/-- The last group completes the audit (R142). -/
theorem exec_auditPoolStep_ends (hlast : m + 1 = s.keySlots / 32) :
    exec .auditPoolStep s = .next ((t.sweeping { sw with audit := { sw.audit with
      active := false, phase := .table, cursor := sw.audit.cursor + 1 } }).latchDone) := by
  have hstep : auditPoolStep s.swept = (t.sweeping { sw with audit := { sw.audit with
      active := false, phase := .table, cursor := sw.audit.cursor + 1 } }).latchDone := by
    unfold auditPoolStep
    simp only [show s.swept.sweeps.audit.cursor = m from hm, hfold, advanceCursor_sweeping]
    refine if_pos ?_
    rw [show (t.sweeping (sw.advance .audit)).sweeps.audit.cursor = m + 1 from congrArg Nat.succ hcur, hlast]
    exact Nat.le_refl _
  rw [exec_auditPoolStep, sweepStep_done ho hstep (hd.trans ho.calm.noBoundary)]

end

theorem advance_audit (sw : SweepController) (f : SweepCounts → SweepCounts) : (sw.count .audit f).advance .audit
    = { sw with audit := { sw.audit with cursor := sw.audit.cursor + 1, counts := f sw.audit.counts } } := rfl

section
variable {k : SweepCounts} (hv : k.visited + 32 ≤ 4294967295) (hc : k.changed + 1 ≤ 4294967295)
  (ha : k.appended + 1 ≤ 4294967295) (hf : k.faults + 1 ≤ 4294967295)
include hv

theorem visits_below {n : Nat} (hn : n ≤ 32) :
    SweepCounts.visit^[n] k = ⟨k.visited + n, k.changed + 0, k.appended + 0, k.faults + 0⟩ := by
  rw [visit_iterate (by omega), Nat.min_eq_right (by omega)]
  rfl

theorem visit_fault (hf : k.faults + 1 ≤ 4294967295) :
    k.visit.fault = ⟨k.visited + 1, k.changed + 0, k.appended + 0, k.faults + 1⟩ := by
  simp only [SweepCounts.visit, SweepCounts.fault, satAdd, Config.countMax, SweepCounts.mk.injEq]
  omega

include hc ha

theorem visits_journal {n : Nat} (hn : n ≤ 32) :
    (k.visits n).journal = ⟨k.visited + n, k.changed + 1, k.appended + 1, k.faults + 0⟩ := by
  simp only [SweepCounts.visits, SweepCounts.journal, satAdd, Config.countMax, SweepCounts.mk.injEq]
  omega

end

theorem journal_once {k : SweepCounts} (hc : k.changed + 1 ≤ 4294967295)
    (ha : k.appended + 1 ≤ 4294967295) :
    k.journal = ⟨k.visited + 0, k.changed + 1, k.appended + 1, k.faults + 0⟩ := by
  simp only [SweepCounts.journal, satAdd, Config.countMax, SweepCounts.mk.injEq]
  omega

/-- Settles O49: a group's slots one after another, of which one alone is not idle or all read cleanly. -/
theorem auditPoolStepActs : Obligations.AuditPoolStepActs := by
  unfold Obligations.AuditPoolStepActs
  intro s m ho hm p counted idle alone group hvisited hchanged happended hfaults
  have hcount (visited changed faults : Nat) : ({ s.sweeps with audit := { s.sweeps.audit with
      cursor := s.sweeps.audit.cursor + 1
      counts := ⟨p.counts.visited + visited, p.counts.changed + changed, p.counts.appended + changed,
        p.counts.faults + faults⟩ } } : SweepController) = counted visited changed faults := by
    rw [hm]
  have hmem {n : Nat} (hn : alone n) : n ∈ group := List.mem_range'_1.mpr ⟨hn.1, hn.2.1⟩
  have hothers {n : Nat} (hn : alone n) : ∀ k ∈ group, k ≠ n → s.idleSlot k := fun k hk hne => by
    obtain ⟨hlow, hhigh⟩ := List.mem_range'_1.mp hk
    exact hn.2.2 k hlow hhigh hne
  refine ⟨fun hclean => ?clean, fun n g hmore hn hread hstate => ?faulty,
    fun n c e hmore hn hdamaged hbound hopen => ⟨fun c' pred hi h0 hfind hreads => ?withdraws, fun hstate => ?voids⟩⟩
  case clean =>
    intro visited
    have hle : visited ≤ 32 := List.countP_le_length.trans_eq List.length_range'
    have hfold := auditFold_clean hclean s.sweeps
    have hcounts := visits_below hvisited hle
    refine ⟨fun hmore => ?_, fun hlast => ?_⟩
    · rw [exec_auditPoolStep_goesOn ho hm hfold hm rfl hmore, advance_audit, ← hcount visited 0 0, ← hcounts]
      rfl
    · rw [exec_auditPoolStep_ends ho hm hfold hm rfl hlast, latchDone_eq, ← hcount visited 0 0, ← hcounts]
      rfl
  case faulty =>
    have hfold := auditFold_alone List.nodup_range' (hmem hn) (hothers hn)
      (auditSlot_fault (sw := s.sweeps) hread hstate) fun k hk => keySlot_keyFault_ne s hk g .audit
    rw [exec_auditPoolStep_goesOn ho hm hfold hm (by simp) hmore, ← hcount 1 0 1, ← visit_fault hvisited hfaults]
    rfl
  case withdraws =>
    have hact := (auditSlot_settles (sw := s.sweeps) hopen hbound hdamaged).trans (settleRead_withdraws hi h0 hfind)
    have hw := withdraw_found hopen hfind .keyDamaged none
    have hsame := withdrawEntry_sameBeside s c' pred e .keyDamaged none
    generalize s.withdrawEntry c' pred e .keyDamaged none = u at hact hw hsame
    have howner := revokeOwner_revokes (hsame .stations (by decide)) e
    have hboth : s.sameBeside (u.revokeOwner e) [.stations, .pool, .table, .store, .journal] :=
      sameBeside_trans (sameBeside_mono hsame (by decide)) (sameBeside_mono (revokeOwner_sameBeside u e) (by decide))
    have hkept (k : Nat) (hk : k ≠ n) : (u.revokeOwner e).keySlot k = s.keySlot k := by
      unfold State.keySlot
      rw [State.revokeOwner_pool, hw.pool]
      exact mapGet_mapSet_ne hk
    have hexec := exec_auditPoolStep_goesOn ho hm
      (auditFold_alone List.nodup_range' (hmem hn) (hothers hn) hact hkept) hm (hboth .deferred (by decide)) hmore
    refine ⟨_, hexec, ?_, hw.congr (by simp [State.sweeping]) (by simp [State.sweeping])
      (by simp [State.sweeping]) (by simp [State.sweeping]), howner, rfl, sameBeside_sweeping hboth _⟩
    rw [← hcount _ 1 0, ← visits_journal hvisited hchanged happended hreads]
    rfl
  case voids =>
    have hact := (auditSlot_settles (sw := s.sweeps) hopen hbound hdamaged).trans (settleRead_voids hstate)
    have he := voidEntry_ends hopen .keyDamaged none none
    have hsame := voidEntry_sameBeside s c e .keyDamaged none none
    generalize s.voidEntry c e .keyDamaged none none = u at hact he hsame
    have howner := revokeOwner_revokes (hsame .stations (by decide)) e
    have hboth : s.sameBeside (u.revokeOwner e) [.stations, .pool, .table, .store, .journal] :=
      sameBeside_trans (sameBeside_mono hsame (by decide)) (sameBeside_mono (revokeOwner_sameBeside u e) (by decide))
    have hkept (k : Nat) (hk : k ≠ n) : (u.revokeOwner e).keySlot k = s.keySlot k := by
      unfold State.keySlot
      rw [State.revokeOwner_pool, he.pool]
      exact mapGet_mapSet_ne hk
    have hexec := exec_auditPoolStep_goesOn ho hm
      (auditFold_alone List.nodup_range' (hmem hn) (hothers hn) hact hkept) hm (hboth .deferred (by decide)) hmore
    refine ⟨_, hexec, ?_, he.congr (by simp [State.sweeping]) (by simp [State.sweeping])
      (by simp [State.sweeping]) (by simp [State.sweeping]), howner, rfl, sameBeside_sweeping hboth _⟩
    rw [← hcount 0 1 0, ← journal_once hchanged happended]
    rfl

end Sys2Proof.Machine
